-- ==== Sys2Proof/Word.lean ====
section
/-! DEFINITION. The word types of the engine. Lengths, offsets and counts are natural numbers
(spec/00_scope.md R15); only what the spec gives a width and treats as bits is a bit vector. -/

namespace Sys2Proof

/-- A byte is 8 bits everywhere (R60). -/
abbrev Byte := BitVec 8

/-- A 16-bit value: the checksums (R39) and the tuple counter `CHCNT` (R41). -/
abbrev Word16 := BitVec 16

/-- A 32-bit header length (R37, R38, R43). -/
abbrev Word32 := BitVec 32

end Sys2Proof
end

