-- ==== Sys2Proof/Syntax.lean ====
section
/-! DEFINITION. The instructions: one constructor of `Instr` for each row of
spec/opcode_table.json (R110), with the operands of the stream notation R113 that the selection of
the opcode itself reads. An operand that the rule of the row reads while it executes (a literal
byte, a fill byte, the literal string, every field of an RNC opcode, a tree path) is read from the
stream by the meaning and is no operand here. -/

namespace Sys2Proof

/-- The three RNC Huffman tables of a chunk (R9). -/
inductive TableId
  | raw
  | dist
  | len
  deriving DecidableEq, Repr, Inhabited

/-- The four host commands (R26, R114). -/
inductive Command
  | rncDecode
  | cwcDecode
  | hufLoad
  | hufChunk
  deriving DecidableEq, Repr

/-- One constructor per row of spec/opcode_table.json. Lengths `len` are the values `L` (the field
plus 2), positions `pos` the values `P` (R109). -/
inductive Instr
  -- host commands (R114, R291)
  | rncDecode
  | cwcDecode
  | hufLoad
  | hufChunk
  -- cursor operations: micro-operations without a wire encoding (R110)
  | prime
  | refill
  | readBit
  | readBits (n : Nat)
  | peekBits (n : Nat)
  | skipBits (n : Nat)
  | readByte
  | readU16
  | readU24
  | realign
  -- output primitives and checksum: no encoding (R110)
  | emit (b : Byte)
  | lzCopy (dist len : Nat)
  | crc16 (b : Byte)
  -- RNC stream opcodes, selected by position (R199)
  | rncPrime
  | rncHuftab (t : TableId)
  | rncChcnt
  | rncRaw
  | rncMatch
  -- CWC stream opcodes, selected by control bits and by P and L (R237)
  | cwcLit
  | cwcShortRun (len : Nat)
  | cwcShortCopy (len pos : Nat)
  | cwcMedRun (len : Nat)
  | cwcMedCopy (len pos : Nat)
  | cwcLongCopy (len pos : Nat)
  | cwcLongTerm
  | cwcLongNopSrc
  | cwcLongNopDst
  | cwcLongLitstr
  | cwcLongRun (len : Nat)
  -- tree-Huffman stream opcode (R108)
  | hufSym
  deriving DecidableEq, Repr

/-- A CWC stream opcode (R237): what the selection of R224 and R228 answers. -/
inductive CwcOp
  | lit
  | shortRun (len : Nat)
  | shortCopy (len pos : Nat)
  | medRun (len : Nat)
  | medCopy (len pos : Nat)
  | longCopy (len pos : Nat)
  | longTerm
  | longNopSrc
  | longNopDst
  | longLitstr
  | longRun (len : Nat)
  deriving DecidableEq, Repr

/-- Where in a grammar the next stream opcode stands (R93, R101, R108). RNC opcodes are selected by
this alone (R199, R386). -/
inductive Slot
  | rncPrime
  | rncTab (t : TableId)
  | rncCnt
  | rncRaw
  | rncMatch
  | cwcOp
  | hufSym
  deriving DecidableEq, Repr

/-- The command that a place of a stream belongs to. -/
def Slot.command : Slot → Command
  | .rncPrime => .rncDecode
  | .rncTab _ => .rncDecode
  | .rncCnt => .rncDecode
  | .rncRaw => .rncDecode
  | .rncMatch => .rncDecode
  | .cwcOp => .cwcDecode
  | .hufSym => .hufChunk

end Sys2Proof
end

