-- ==== Sys2Proof/WellFormed.lean ====
section
/-! DEFINITION. Which instructions are well formed: every operand in the range that its encoding, or
for a micro-operation its rule, admits. -/

namespace Sys2Proof

/-- What the decoding of a CWC `LONG` depends on: the header's `bits` byte `B = CWC_BITS` and the
parameter `S = CWC_SPECIAL_BASE` (R105). -/
structure CwcCtx where
  bits : Nat
  base : Nat
  deriving DecidableEq, Repr

/-- The length value `L` fits the length field of a `LONG`: `L = f + 2` with `f < 2^B` (R105). -/
def CwcCtx.fitsLen (c : CwcCtx) (len : Nat) : Bool :=
  decide (c.bits ≤ 24) && decide (2 ≤ len) && decide (len < 2 ^ c.bits + 2)

/-- The position `P` fits what remains of the 24-bit field of a `LONG` and is not 0 (R105). -/
def CwcCtx.fitsPos (c : CwcCtx) (pos : Nat) : Bool :=
  decide (1 ≤ pos) && decide (pos < 2 ^ (24 - c.bits))

/-- Well-formedness of an instruction for a given `CWC_BITS` and `CWC_SPECIAL_BASE`. -/
def Instr.wf (c : CwcCtx) : Instr → Bool
  | .rncDecode => true
  | .cwcDecode => true
  | .hufLoad => true
  | .hufChunk => true
  | .prime => true
  | .refill => true
  | .readBit => true
  | .readBits n => decide (n ≤ 32)                                    -- R136: n <= W
  | .peekBits n => decide (n ≤ 32)                                    -- R137: n <= W
  | .skipBits n => decide (n ≤ 63)                                    -- R138, R34: n <= cnt <= 2W - 1
  | .readByte => true
  | .readU16 => true
  | .readU24 => true
  | .realign => true
  | .emit _ => true
  | .lzCopy dist _ => decide (1 ≤ dist)                               -- R72: D >= 1
  | .crc16 _ => true
  | .rncPrime => true
  | .rncHuftab _ => true
  | .rncChcnt => true
  | .rncRaw => true
  | .rncMatch => true
  | .cwcLit => true
  | .cwcShortRun len => decide (2 ≤ len) && decide (len ≤ 5)          -- R103
  | .cwcShortCopy len pos => decide (2 ≤ len) && decide (len ≤ 5) && decide (1 ≤ pos) && decide (pos ≤ 255)
  | .cwcMedRun len => decide (2 ≤ len) && decide (len ≤ 17)           -- R104
  | .cwcMedCopy len pos => decide (2 ≤ len) && decide (len ≤ 17) && decide (1 ≤ pos) && decide (pos ≤ 4095)
  | .cwcLongCopy len pos => c.fitsLen len && c.fitsPos pos            -- R105
  | .cwcLongTerm => c.fitsLen c.base
  | .cwcLongNopSrc => c.fitsLen (c.base + 1)
  | .cwcLongNopDst => c.fitsLen (c.base + 2)
  | .cwcLongLitstr => c.fitsLen (c.base + 3)
  | .cwcLongRun len => c.fitsLen len && (decide (len < c.base) || decide (c.base + 4 ≤ len))  -- R228: none of the special values
  | .hufSym => true

end Sys2Proof
end

