-- ==== Sys2Proof/Decode.lean ====
section
/-! DEFINITION. Encodings (spec/30_encoding.md): the selection of the next opcode, written once and
run both on a parcel of loose control bits and bytes (`decode`) and on the engine's cursor
(`Sys2Proof.Machine.fetch`); then the encoder. The wire has two interleaved streams: control bits,
taken from the bit cursor, and byte-aligned fields, taken at the cursor's byte position. -/

namespace Sys2Proof

/-! ## Field helpers -/

/-- The low `n` bits of `v`, bit `n - 1` first: the order in which an MSB-first cursor delivers an
`n`-bit field (R136). -/
def bitsMsbFirst : Nat → Nat → List Bool
  | 0, _ => []
  | n + 1, v => v.testBit n :: bitsMsbFirst n v

/-- The low `n` bits of `v`, bit 0 first: the order in which an LSB-first cursor delivers an `n`-bit
field (R136, R94, R95). -/
def bitsLsbFirst : Nat → Nat → List Bool
  | 0, _ => []
  | n + 1, v => v.testBit 0 :: bitsLsbFirst n (v / 2)

/-- The low `n` bytes of `v`, least significant first (R63). -/
def bytesLe : Nat → Nat → List Byte
  | 0, _ => []
  | n + 1, v => BitVec.ofNat 8 v :: bytesLe n (v / 256)

/-! ## Classification of the CWC forms (R103 to R105) -/

/-- `SHORT` with length `L` and position byte `P` (R103, R226). -/
def cwcShort (len pos : Nat) : CwcOp :=
  if pos = 0 then .shortRun len else .shortCopy len pos

/-- `MED` with length `L` and position `P` (R104, R227). -/
def cwcMed (len pos : Nat) : CwcOp :=
  if pos = 0 then .medRun len else .medCopy len pos

/-- `LONG` with length `L` and position `P`, for `S = CWC_SPECIAL_BASE` (R105, R228). -/
def cwcLong (base len pos : Nat) : CwcOp :=
  if pos ≠ 0 then .longCopy len pos
  else if len = base then .longTerm
  else if len = base + 1 then .longNopSrc
  else if len = base + 2 then .longNopDst
  else if len = base + 3 then .longLitstr
  else .longRun len

/-- The length value `L` of a `SHORT`'s 2-bit field (R226). -/
def cwcShortLen (f : Nat) : Nat := f + 2

/-- The length value `L` of a `MED` field: the low 4 bits plus 2 (R227). -/
def cwcMedLen (w : BitVec 16) : Nat := w.toNat % 16 + 2

/-- The position `P` of a `MED` field: the high 12 bits (R227). -/
def cwcMedPos (w : BitVec 16) : Nat := w.toNat / 16

/-- The length value `L` of a `LONG` field: the low `CWC_BITS` bits plus 2 (R228). -/
def cwcLongLen (bits : Nat) (w : BitVec 24) : Nat := w.toNat % 2 ^ bits + 2

/-- The position `P` of a `LONG` field: what lies above the low `CWC_BITS` bits (R228). -/
def cwcLongPos (bits : Nat) (w : BitVec 24) : Nat := w.toNat / 2 ^ bits

/-! ## Selection, for any source of bits and bytes -/

/-- A source of control bits and byte-aligned fields. `latch` receives `L` and `P` when the
selection has computed them (the registers of R44). -/
structure Reader (m : Type → Type) where
  bit : m Bool
  bits : Nat → m Nat
  byte : m Byte
  u16 : m (BitVec 16)
  u24 : m (BitVec 24)
  latch : Nat → Nat → m Unit

/-- Selection of a CWC opcode, "one bit at a time" (R224), with the field reads that decide between
run and copy and between the special codes (R226 to R228). -/
def cwcSelect {m : Type → Type} [Monad m] (r : Reader m) (c : CwcCtx) : m CwcOp := do
  if ← r.bit then
    pure .lit
  else if ← r.bit then do
    let f ← r.bits 2
    let p ← r.byte
    r.latch (cwcShortLen f) p.toNat
    pure (cwcShort (cwcShortLen f) p.toNat)
  else if ← r.bit then do
    let w ← r.u16
    r.latch (cwcMedLen w) (cwcMedPos w)
    pure (cwcMed (cwcMedLen w) (cwcMedPos w))
  else do
    let w ← r.u24
    r.latch (cwcLongLen c.bits w) (cwcLongPos c.bits w)
    pure (cwcLong c.base (cwcLongLen c.bits w) (cwcLongPos c.bits w))

/-- The instruction a CWC opcode is. -/
def CwcOp.toInstr : CwcOp → Instr
  | .lit => .cwcLit
  | .shortRun len => .cwcShortRun len
  | .shortCopy len pos => .cwcShortCopy len pos
  | .medRun len => .cwcMedRun len
  | .medCopy len pos => .cwcMedCopy len pos
  | .longCopy len pos => .cwcLongCopy len pos
  | .longTerm => .cwcLongTerm
  | .longNopSrc => .cwcLongNopSrc
  | .longNopDst => .cwcLongNopDst
  | .longLitstr => .cwcLongLitstr
  | .longRun len => .cwcLongRun len

/-- The command a value written to `CMD` names (R26, R114). -/
def Command.ofCode (c : Nat) : Option Command :=
  if c = 1 then some .rncDecode
  else if c = 2 then some .cwcDecode
  else if c = 3 then some .hufLoad
  else if c = 4 then some .hufChunk
  else none

/-- The value of `CMD` that names a command (R114). -/
def Command.code : Command → Nat
  | .rncDecode => 1
  | .cwcDecode => 2
  | .hufLoad => 3
  | .hufChunk => 4

/-- The instruction a command is. -/
def Command.toInstr : Command → Instr
  | .rncDecode => .rncDecode
  | .cwcDecode => .cwcDecode
  | .hufLoad => .hufLoad
  | .hufChunk => .hufChunk

/-! ## Decoding a parcel of bits and bytes -/

/-- Control bits in the order the decoder consumes them, and byte-aligned bytes in address order. -/
structure Parcel where
  ctl : List Bool
  bytes : List Byte
  deriving DecidableEq, Repr

/-- The parcel `p` followed by the parcel `q`: both streams in order. -/
def Parcel.append (p q : Parcel) : Parcel := ⟨p.ctl ++ q.ctl, p.bytes ++ q.bytes⟩

/-- Why a parcel is not decoded. -/
inductive Reject
  /-- The control bits end before the opcode is selected. -/
  | controlBitsMissing
  /-- The bytes end before the opcode's field is complete. -/
  | bytesMissing
  /-- A value written to `CMD` that names no command (R296). -/
  | noSuchCommand
  deriving DecidableEq, Repr

/-- Where an instruction is decoded: as a value written to `CMD`, or in a stream at a place of its
grammar. -/
inductive Place
  | cmd
  | stream (slot : Slot)
  deriving DecidableEq, Repr

/-- Reading from a parcel. -/
abbrev Parse := StateT Parcel (Except Reject)

/-- The next control bit of the parcel. -/
def parseBit : Parse Bool := fun p =>
  match p.ctl with
  | [] => .error .controlBitsMissing
  | b :: rest => .ok (b, ⟨rest, p.bytes⟩)

/-- `n` control bits, the first one the most significant (R136, MSB order). -/
def parseBits : Nat → Nat → Parse Nat
  | 0, acc => pure acc
  | n + 1, acc => do
    let b ← parseBit
    parseBits n (acc * 2 + b.toNat)

/-- The next byte of the parcel. -/
def parseByte : Parse Byte := fun p =>
  match p.bytes with
  | [] => .error .bytesMissing
  | b :: rest => .ok (b, ⟨p.ctl, rest⟩)

/-- A little-endian 16-bit field of the parcel (R140). -/
def parseU16 : Parse (BitVec 16) := do
  let b0 ← parseByte
  let b1 ← parseByte
  pure (b1 ++ b0)

/-- A little-endian 24-bit field of the parcel (R141). -/
def parseU24 : Parse (BitVec 24) := do
  let b0 ← parseByte
  let b1 ← parseByte
  let b2 ← parseByte
  pure (b2 ++ b1 ++ b0)

/-- The parcel as a source of the CWC selection. -/
def parcelReader : Reader Parse where
  bit := parseBit
  bits := fun n => parseBits n 0
  byte := parseByte
  u16 := parseU16
  u24 := parseU24
  latch := fun _ _ => pure ()

/-- The command whose code is the next byte of the parcel. -/
def parseCommand : Parse Instr := do
  let b ← parseByte
  match Command.ofCode b.toNat with
  | some c => pure c.toInstr
  | none => throw .noSuchCommand

/-- The opcode at a place of a stream: an RNC opcode and `SYM` by the place alone (R199, R386), a CWC
opcode by its bits. -/
def parseSlot (c : CwcCtx) : Slot → Parse Instr
  | .rncPrime => pure .rncPrime
  | .rncTab t => pure (.rncHuftab t)
  | .rncCnt => pure .rncChcnt
  | .rncRaw => pure .rncRaw
  | .rncMatch => pure .rncMatch
  | .cwcOp => CwcOp.toInstr <$> cwcSelect parcelReader c
  | .hufSym => pure .hufSym

/-- The instruction that a parcel holds at a place, and what is left of the parcel. Total; what it
does not decode it rejects by name. -/
def decode (c : CwcCtx) (pl : Place) (p : Parcel) : Except Reject (Instr × Parcel) :=
  match pl with
  | .cmd => parseCommand p
  | .stream slot => parseSlot c slot p

/-! ## Encoding -/

/-- A `SHORT` (R103): control bits `0 1 f`, byte `P`. -/
def encodeShort (len pos : Nat) : Parcel :=
  ⟨false :: true :: bitsMsbFirst 2 (len - 2), [BitVec.ofNat 8 pos]⟩

/-- A `MED` (R104): control bits `0 0 1`, a little-endian 16-bit field. -/
def encodeMed (len pos : Nat) : Parcel :=
  ⟨[false, false, true], bytesLe 2 (len - 2 + 16 * pos)⟩

/-- A `LONG` (R105): control bits `0 0 0`, a little-endian 24-bit field. -/
def encodeLong (c : CwcCtx) (len pos : Nat) : Parcel :=
  ⟨[false, false, false], bytesLe 3 (len - 2 + 2 ^ c.bits * pos)⟩

/-- The encoding of a command: its code (R114). -/
def encodeCommand (c : Command) : Place × Parcel :=
  (.cmd, ⟨[], [BitVec.ofNat 8 c.code]⟩)

/-- Where an instruction is decoded and the bits and bytes that select it; `none` for the
micro-operations, which have no wire encoding (R110). -/
def encode (c : CwcCtx) : Instr → Option (Place × Parcel)
  | .rncDecode => some (encodeCommand .rncDecode)
  | .cwcDecode => some (encodeCommand .cwcDecode)
  | .hufLoad => some (encodeCommand .hufLoad)
  | .hufChunk => some (encodeCommand .hufChunk)
  | .prime => none
  | .refill => none
  | .readBit => none
  | .readBits _ => none
  | .peekBits _ => none
  | .skipBits _ => none
  | .readByte => none
  | .readU16 => none
  | .readU24 => none
  | .realign => none
  | .emit _ => none
  | .lzCopy _ _ => none
  | .crc16 _ => none
  | .rncPrime => some (.stream .rncPrime, ⟨[], []⟩)
  | .rncHuftab t => some (.stream (.rncTab t), ⟨[], []⟩)
  | .rncChcnt => some (.stream .rncCnt, ⟨[], []⟩)
  | .rncRaw => some (.stream .rncRaw, ⟨[], []⟩)
  | .rncMatch => some (.stream .rncMatch, ⟨[], []⟩)
  | .cwcLit => some (.stream .cwcOp, ⟨[true], []⟩)
  | .cwcShortRun len => some (.stream .cwcOp, encodeShort len 0)
  | .cwcShortCopy len pos => some (.stream .cwcOp, encodeShort len pos)
  | .cwcMedRun len => some (.stream .cwcOp, encodeMed len 0)
  | .cwcMedCopy len pos => some (.stream .cwcOp, encodeMed len pos)
  | .cwcLongCopy len pos => some (.stream .cwcOp, encodeLong c len pos)
  | .cwcLongTerm => some (.stream .cwcOp, encodeLong c c.base 0)
  | .cwcLongNopSrc => some (.stream .cwcOp, encodeLong c (c.base + 1) 0)
  | .cwcLongNopDst => some (.stream .cwcOp, encodeLong c (c.base + 2) 0)
  | .cwcLongLitstr => some (.stream .cwcOp, encodeLong c (c.base + 3) 0)
  | .cwcLongRun len => some (.stream .cwcOp, encodeLong c len 0)
  | .hufSym => some (.stream .hufSym, ⟨[], []⟩)

/-! ## The rows of the opcode table as numbers -/

/-- The context in which a row of the table is decoded: `CWC_BITS` of the state after reset and the
default `CWC_SPECIAL_BASE`. -/
def tableCtx : CwcCtx := ⟨0, 2⟩

/-- The control bits and bytes of a CWC row: the table numbers a prefix with its first bit most
significant, and the widest prefix, `01ff`, has four bits; all later bits and bytes are 0. -/
def tableParcel (w : Nat) : Parcel :=
  ⟨bitsMsbFirst 4 w ++ List.replicate 28 false, List.replicate 8 0#8⟩

/-- The instruction read from a row of the opcode table. The table numbers two kinds of rows: values
written to `CMD` and CWC prefixes. A value that names a command is that command; any other
value below 16 is a CWC prefix of four bits. Rows without an encoding have no number. -/
def decodeTableWord (nbits w : Nat) : Option Instr :=
  if nbits ≤ 8 then
    match Command.ofCode w with
    | some c => some c.toInstr
    | none =>
      if w < 16 then
        match decode tableCtx (.stream .cwcOp) (tableParcel w) with
        | .ok (i, _) => some i
        | .error _ => none
      else none
  else none

end Sys2Proof
end

