-- ==== Sys2Proof/Config.lean ====
section
/-! DEFINITION. The build-time parameters of the block (spec/00_scope.md R6 to R14, R21, R354) and
the values the spec leaves open. A machine carries its parameters in the constant field
`State.cfg`, so that every statement about all states is a statement about all parameters. -/

namespace Sys2Proof

/-- When the bit cursor loads its next refill word (R11, R135). -/
inductive RefillPolicy
  | onDemand
  | onExhaust
  deriving DecidableEq, Repr, Inhabited

/-- `HUF_NODE_LAYOUT` (R14, R106): at which of the four bytes of a record of `IN` each of the
record's four fields lies. -/
structure NodeLayout where
  lv : Fin 4
  lt : Fin 4
  rv : Fin 4
  rt : Fin 4
  deriving DecidableEq, Repr, Inhabited

/-- The build-time parameters, "every parameter below is an argument of the model"
(spec/00_scope.md section 3). The host cannot change them (R354). -/
structure Config where
  /-- `IN_CAP` (R6): capacity in bytes of the input memory. -/
  inCap : Nat
  /-- `OUT_CAP` (R7): capacity in bytes of the output memory. -/
  outCap : Nat
  /-- `ZERO_WINDOW` (R8): how many zero bytes logically precede the CWC output. -/
  zeroWindow : Nat
  /-- `CWC_REFILL_POLICY` (R11). -/
  cwcRefillPolicy : RefillPolicy
  /-- `CWC_SPECIAL_BASE` (R12). -/
  cwcSpecialBase : Nat
  /-- `RNC_CRC_TABLE` (R13, R171). -/
  rncCrcTable : Vector Word16 256
  /-- `RNC_CRC_INIT` (R13, R172). -/
  rncCrcInit : Word16
  /-- `HUF_NODE_LAYOUT` (R14). -/
  hufNodeLayout : NodeLayout
  deriving DecidableEq, Repr

/-- `IN_CAP` of the block that is built: OPEN, the spec chooses no value (R6, decision D1). It has
no body, so nothing can be proved about its value. -/
opaque Config.openInCap : Nat

/-- `OUT_CAP` of the block that is built: OPEN, the spec chooses no value (R7, decision D2). -/
opaque Config.openOutCap : Nat

/-- What the host reads in `OUT` where the spec gives a read no defined result: a FREE VALUE for each
address (R298, spec/93 I1, I2, I7). -/
opaque Config.unspecifiedOut : Nat → Byte

/-- What the host reads in `HROOT` while `HVALID = 0`: a FREE VALUE (spec/93 I10). -/
opaque Config.unspecifiedHroot : Byte

/-- One step of the generator of the checksum table (R171): shift right, and xor `0xA001` when a 1
is shifted out. -/
def crcTableShift (v : Word16) : Word16 :=
  if v.getLsbD 0 then (v >>> 1) ^^^ 0xA001#16 else v >>> 1

/-- `n` steps of the generator (R171). -/
def crcTableShifts : Nat → Word16 → Word16
  | 0, v => v
  | n + 1, v => crcTableShifts n (crcTableShift v)

/-- Entry `i` of the default `RNC_CRC_TABLE` (R171; PRESUMED, general knowledge G1). -/
def crcTableEntry (i : Nat) : Word16 := crcTableShifts 8 (BitVec.ofNat 16 i)

/-- The default `RNC_CRC_TABLE` (R171): the table of the reflected polynomial `0xA001`. -/
def defaultCrcTable : Vector Word16 256 :=
  ⟨⟨(List.range 256).map crcTableEntry⟩, by simp⟩

/-- The default layout `lv, lt, rv, rt` (R106, decision D17). -/
def defaultNodeLayout : NodeLayout := ⟨0, 1, 2, 3⟩

/-- The parameters with the spec's defaults (spec/92_eei_decisions.md, "Open parameters in one
place") and given capacities. -/
def Config.defaults (inCap outCap : Nat) : Config where
  inCap := inCap
  outCap := outCap
  zeroWindow := 32768
  cwcRefillPolicy := .onExhaust
  cwcSpecialBase := 2
  rncCrcTable := defaultCrcTable
  rncCrcInit := 0#16
  hufNodeLayout := defaultNodeLayout

/-- The block that is built: the spec's defaults, with both capacities open. -/
def Config.build : Config := Config.defaults Config.openInCap Config.openOutCap

end Sys2Proof
end

