-- ==== Sys2Proof/Machine/State.lean ====
section
/-! DEFINITION. The state of the engine and of its host interface (spec/10_state.md), as plain data,
and the state after reset (R49). Fields that the spec does not name are marked MODEL. -/

namespace Sys2Proof.Machine

open Sys2Proof

/-! ## Why a step can stop -/

/-- Why the machine stops without a next state. Every fault is safe: a claim may become unprovable
on a state that raises one, no false claim becomes provable. -/
inductive Fault
  /-- A memory byte below its limit that nothing has written was read: R48, "a model must treat a
  read of it as a fault of the model, not as zero". Raised by reads of `IN`, `OUT`, `NODE`. Safe. -/
  | unwrittenByte
  /-- `NODE` was read as a dictionary while `HVALID = 0`: R48 gives it no value then and asks a model for
  a fault. Raised by the walk of a chunk. Safe. -/
  | noDictionary
  /-- An address that the spec says does not exist: `IN` at or beyond `IN_LEN` or `IN_CAP`, `OUT` at or
  beyond `OUT_LEN` (read) or `OUT_CAP` (write), a node index above 254 (R60, R69). Raised by the
  accessors of the three memories. Safe. -/
  | noSuchAddress
  /-- A cursor or output operation was issued outside its stated precondition, where the spec gives
  no effect (R133 `cnt <= W - 1`, R134 `cnt >= 1`, R132, R136, R137, R138, R72 `D >= 1`). Raised by
  the micro-operations; no command does it. Safe. -/
  | precondition
  /-- A host action outside the contract: a write of `IN` or `IN_LEN` while `BUSY`, or
  `IN_LEN > IN_CAP` (R298, I4 and I6 of spec/93: stuck). Raised by host actions. Safe. -/
  | hostContract
  /-- A loop of a command ran out of the bound that R361 proves sufficient. Raised by the loops of the
  whole commands; never reached. Safe. -/
  | loopBound
  /-- `STATUS` is `BUSY` with no command to run: a state no run reaches. Raised by the sequencer. Safe. -/
  | sequencerLost
  deriving DecidableEq, Repr

/-- Why an instruction has no meaning. -/
inductive Refusal
  /-- An instruction that has no meaning in this model yet, by its mnemonic. Raised by `exec` alone,
  never by a meaning. Safe. -/
  | notModelled (mnemonic : String)
  deriving DecidableEq, Repr

/-! ## Memories -/

/-- A memory: (address, byte) pairs with strictly rising addresses. An address that is not listed
holds no value (R48). -/
abbrev Mem := List Host.Cell

/-! ## Registers -/

/-- `STATUS` (R27). -/
inductive Status
  | idle
  | busy
  | done
  | error
  deriving DecidableEq, Repr

/-- The error kinds, `None` among them (R310 to R321). -/
inductive ErrKind
  | noError
  | headerInvalid
  | fileIsNotRnc
  | packedCrcError
  | unpackedCrcError
  | bitstreamUnderrun
  | hufDecodeError
  | incompleteDictionary
  | outputOverrun
  | fileSizeMismatch
  deriving DecidableEq, Repr

/-- `CUR.order` (R31). -/
inductive BitOrder
  | lsb
  | msb
  deriving DecidableEq, Repr, Inhabited

/-- `CUR.W`, the refill granularity: 16 or 32 bits (R31). -/
inductive RefillWidth
  | w16
  | w32
  deriving DecidableEq, Repr, Inhabited

/-- The bit cursor (R31 to R34), the engine's program counter (R36). `fin` is `CUR.end`. The shift
register has `2 * W` bits, so its width depends on `W`: it is a natural number here, as in the
spec's pseudocode. -/
structure Cursor where
  base : Nat
  fin : Nat
  order : BitOrder
  width : RefillWidth
  policy : RefillPolicy
  pos : Nat
  sr : Nat
  cnt : Nat
  deriving DecidableEq, Repr, Inhabited

/-- A Huffman leaf: mirrored code, code length, decoded value (R40). -/
structure HuffLeaf where
  code : Nat
  len : Nat
  value : Nat
  deriving DecidableEq, Repr, Inhabited

/-- The three RNC tables `HT[RAW]`, `HT[DIST]`, `HT[LEN]` (R40). -/
structure HuffTables where
  raw : List HuffLeaf
  dist : List HuffLeaf
  len : List HuffLeaf
  deriving DecidableEq, Repr, Inhabited

/-- The engine's working registers (R31 to R45): none is host-visible, all are dead between
commands (R50). -/
structure Work where
  /-- The bit cursor (R31 to R34). -/
  cur : Cursor
  /-- `DECL_LEN` (R37). -/
  declLen : Word32
  /-- `PACKED_LEN` (R38). -/
  packedLen : Word32
  /-- `UNPACKED_CRC` (R38). -/
  unpackedCrc : Word16
  /-- `PACKED_CRC` (R38). -/
  packedCrc : Word16
  /-- `CRC` (R39). -/
  crc : Word16
  /-- `HT[RAW]`, `HT[DIST]`, `HT[LEN]` (R40). -/
  ht : HuffTables
  /-- `CHCNT` (R41). -/
  chcnt : Word16
  /-- `n`, the literal-run length of a tuple (R42). -/
  rncN : Nat
  /-- `d`, the match distance of a tuple (R42). -/
  rncD : Nat
  /-- `l`, the match length of a tuple (R42). -/
  rncL : Nat
  /-- `CWC_BITS` (R43). -/
  cwcBits : Byte
  /-- `PAY_LEN` (R43). -/
  payLen : Word32
  /-- `L`, the length of a CWC opcode (R44). -/
  cwcL : Nat
  /-- `P`, the position of a CWC opcode (R44). -/
  cwcP : Nat
  /-- `D`, the distance of a CWC opcode (R44). -/
  cwcD : Nat
  /-- `w`, the 16- or 24-bit field of a CWC opcode (R44). -/
  cwcW : BitVec 24
  /-- `c`, the count of a literal string (R44). -/
  cwcC : Byte
  /-- `b`, a byte: a literal or a fill (R44). -/
  cwcB : Byte
  /-- `HBYTE` (R45). -/
  hbyte : Nat
  /-- `HBIT` (R45), 0 to 7. -/
  hbit : Fin 8
  /-- `HNODE` (R45). -/
  hnode : Byte
  /-- The candidate index of the root search (R45). -/
  cand : Byte
  /-- The visited set of the root search: 255 bits (R45). -/
  visited : BitVec 255
  /-- The leaf-value set of the root search: 256 bits (R45). -/
  leaves : BitVec 256
  /-- MODEL: the result of the last cursor operation that has one (R135 to R141 return a value; the
  spec names no register for it; DESIGN CHOICE, safe, log entry 16). -/
  res : Nat
  deriving DecidableEq, Repr, Inhabited

end Sys2Proof.Machine

namespace Sys2Proof

/-- The working registers of a command that has ended: "left without defined value" (R324), "any
value" (spec/93 I5). A FREE VALUE with no body: one for each ended command, nothing can be proved
about it. -/
opaque Config.deadWork : Nat → Machine.Work

end Sys2Proof

namespace Sys2Proof.Machine

open Sys2Proof

/-- Where the engine stands in a command that is executed opcode by opcode. MODEL: the spec's
position in the grammar (R93, R199). -/
inductive Phase
  /-- No command is running. -/
  | idle
  /-- The command has been written to `CMD`; its header step is next. -/
  | header
  /-- The next step runs the stream opcode at this place. -/
  | stream (slot : Slot)
  deriving DecidableEq, Repr

/-- What the host can do to the engine (R290, R350). MODEL: the host is the second agent (R20); the
actions that are still to come are a list in the state. Host reads change nothing and are functions
of the state (`Sys2Proof.Machine.hostReadOut` and its neighbours). -/
inductive HostAction
  /-- Write one byte of `IN`. -/
  | writeIn (addr : Nat) (b : Byte)
  /-- Write `IN_LEN`. -/
  | writeInLen (n : Nat)
  /-- Write `CMD`; the command runs to its end before the next host action (R291). -/
  | writeCmd (c : Nat)
  /-- Write `CMD`; the engine is left `BUSY` and runs one opcode a step, so that later host actions
  can fall into the running command (R295, "a model with finer steps"). -/
  | startCmd (c : Nat)
  /-- Poll `STATUS` until it is not `BUSY` (R295, R299). -/
  | poll
  /-- The reset event, at any time (R350). -/
  | reset
  deriving DecidableEq, Repr

/-! ## The state -/

/-- The whole state: the parameters the machine was built with, the host-visible memories and
registers, the dictionary, the working registers, and the model's own bookkeeping. -/
structure State where
  /-- The build-time parameters (R21, R354): constant, no step changes them. -/
  cfg : Config
  /-- `IN` (R22). -/
  inMem : Mem
  /-- `IN_LEN` (R25). -/
  inLen : Nat
  /-- `CMD` (R26); `none` is 0, no command. -/
  cmd : Option Command
  /-- `STATUS` (R27). -/
  status : Status
  /-- `ERR` (R28). -/
  err : ErrKind
  /-- `OUT` (R23). -/
  outMem : Mem
  /-- `OUT_LEN` (R29). -/
  outLen : Nat
  /-- `NODE` (R24): the fields `lv, lt, rv, rt` of record `i` at `4i .. 4i+3`. -/
  nodeMem : Mem
  /-- `NODE_PRESENT` (R24), one bit a record. -/
  nodePresent : BitVec 255
  /-- `HROOT` (R30). -/
  hroot : Byte
  /-- `HVALID` (R30). -/
  hvalid : Bool
  /-- The working registers (R31 to R45). -/
  work : Work
  /-- MODEL: where the engine stands in a command executed opcode by opcode (DESIGN CHOICE, safe, log entry 15). -/
  phase : Phase
  /-- MODEL: the host actions still to come, the next one first (DESIGN CHOICE, log entry 14). -/
  pending : List HostAction
  /-- MODEL: how many commands have ended; selects the free value of `Config.deadWork` (DEDUCED, safe, log
  entry 9). -/
  ended : Nat
  deriving DecidableEq, Repr

/-! ## Reset -/

/-- The cursor after reset. The spec gives no value (R49); DESIGN CHOICE, unsafe (log entry 8): all zero,
the first of each enumeration. -/
def Cursor.reset : Cursor := ⟨0, 0, .lsb, .w16, .onDemand, 0, 0, 0⟩

/-- The working registers after reset. The spec gives no values (R49, "unspecified"); DESIGN CHOICE,
unsafe (log entry 8): zero, and empty tables. -/
def Work.reset : Work where
  cur := Cursor.reset
  declLen := 0#32
  packedLen := 0#32
  unpackedCrc := 0#16
  packedCrc := 0#16
  crc := 0#16
  ht := ⟨[], [], []⟩
  chcnt := 0#16
  rncN := 0
  rncD := 0
  rncL := 0
  cwcBits := 0#8
  payLen := 0#32
  cwcL := 0
  cwcP := 0
  cwcD := 0
  cwcW := 0#24
  cwcC := 0#8
  cwcB := 0#8
  hbyte := 0
  hbit := 0
  hnode := 0#8
  cand := 0#8
  visited := 0#255
  leaves := 0#256
  res := 0

/-- The machine right after reset (R49, R350): `STATUS = IDLE`, `ERR = 0`, `CMD = 0`, `IN_LEN = 0`,
`OUT_LEN = 0`, `HVALID = 0`; the memories hold no value anywhere (DESIGN CHOICE, safe, log entry 7); `HROOT` and `NODE_PRESENT` are 0
(DESIGN CHOICE, unsafe, log entry 8); the host has nothing to do. -/
def State.reset : State where
  cfg := Config.build
  inMem := []
  inLen := 0
  cmd := none
  status := .idle
  err := .noError
  outMem := []
  outLen := 0
  nodeMem := []
  nodePresent := 0#255
  hroot := 0#8
  hvalid := false
  work := Work.reset
  phase := .idle
  pending := []
  ended := 0

end Sys2Proof.Machine
end

