-- ==== Sys2Proof/Machine/Ops.lean ====
section
/-! DEFINITION. The shared operations: the engine monad, the three memories and their bounds
(spec/20_memory.md), the working registers, and the one error entry of the block
(spec/60_exceptions.md R324) with its neighbours, command start (R50) and completion (R193, R242). -/

namespace Sys2Proof.Machine

open Sys2Proof

/-! ## The engine monad -/

/-- How a sequence of engine operations ends early: with an error kind (`raise K`, R17), which is the
spec's error entry, or with a fault of the model. -/
inductive Stop
  | raise (k : ErrKind)
  | fault (f : Fault)
  deriving DecidableEq, Repr

/-- A sequence of engine operations: the state is threaded through, and the first `raise` ends it
(R364). -/
abbrev Eng := EStateM Stop State

/-- `raise K` (R17). -/
def raise {α : Type} (k : ErrKind) : Eng α := fun s => .error (.raise k) s

/-- Stop with a fault of the model. -/
def stuck {α : Type} (f : Fault) : Eng α := fun s => .error (.fault f) s

/-- Go on if `c` holds, else `raise k`. -/
def require (c : Prop) [Decidable c] (k : ErrKind) : Eng Unit :=
  if c then pure () else raise k

/-- Go on if `c` holds, else stop with the fault `f`. -/
def ensure (c : Prop) [Decidable c] (f : Fault) : Eng Unit :=
  if c then pure () else stuck f

/-- The value of an `Option`, or the fault `f`. -/
def orStuck {α : Type} (o : Option α) (f : Fault) : Eng α :=
  match o with
  | some a => pure a
  | none => stuck f

/-- `n` times the same operation. -/
def repeatEng : Nat → Eng Unit → Eng Unit
  | 0, _ => pure ()
  | n + 1, x => do
    x
    repeatEng n x

/-! ## Memories -/

/-- The byte that is listed at an address. -/
def Mem.read : Mem → Nat → Option Byte
  | [], _ => none
  | (c, v) :: rest, a => if a = c then some v else Mem.read rest a

/-- Write one byte, keeping the addresses strictly rising. -/
def Mem.write : Mem → Nat → Byte → Mem
  | [], a, b => [(a, b)]
  | (c, v) :: rest, a, b =>
    if a < c then (a, b) :: (c, v) :: rest
    else if a = c then (a, b) :: rest
    else (c, v) :: Mem.write rest a b

/-- All listed addresses are at or above `lo`, and strictly rising. -/
def Mem.risesFrom : Nat → Mem → Bool
  | _, [] => true
  | lo, (c, _) :: rest => decide (lo ≤ c) && Mem.risesFrom (c + 1) rest

/-- The canonical form: strictly rising addresses. An unlisted address holds no value, so no entry
can equal what an unlisted address reads as. -/
def Mem.wf (m : Mem) : Bool := Mem.risesFrom 0 m

/-- Write the bytes of a list at consecutive addresses. -/
def Mem.writeList : Mem → Nat → List Byte → Mem
  | m, _, [] => m
  | m, a, b :: bs => Mem.writeList (Mem.write m a b) (a + 1) bs

/-- `IN[a]`, "defined only for `0 <= a < IN_LEN`" (R17, R69). -/
def inByte (a : Nat) : Eng Byte := do
  let s ← get
  ensure (a < s.inLen) .noSuchAddress
  orStuck (s.inMem.read a) .unwrittenByte

/-- `OUT[a]`, defined only for `a < OUT_LEN` (R60, R390). -/
def outByte (a : Nat) : Eng Byte := do
  let s ← get
  ensure (a < s.outLen) .noSuchAddress
  orStuck (s.outMem.read a) .unwrittenByte

/-- `OUT[OUT_LEN] <- b; OUT_LEN <- OUT_LEN + 1`, the only store to `OUT` (R391), inside `OUT`. -/
def outAppend (b : Byte) : Eng Unit := do
  let s ← get
  ensure (s.outLen < s.cfg.outCap) .noSuchAddress
  set { s with outMem := s.outMem.write s.outLen b, outLen := s.outLen + 1 }

/-- The four bytes of a node record (R24). -/
structure NodeRec where
  lv : Byte
  lt : Byte
  rv : Byte
  rt : Byte
  deriving DecidableEq, Repr

/-- `NODE[i]` (R24, R390). -/
def nodeRead (i : Nat) : Eng NodeRec := do
  let s ← get
  ensure (i < 255) .noSuchAddress
  let lv ← orStuck (s.nodeMem.read (4 * i)) .unwrittenByte
  let lt ← orStuck (s.nodeMem.read (4 * i + 1)) .unwrittenByte
  let rv ← orStuck (s.nodeMem.read (4 * i + 2)) .unwrittenByte
  let rt ← orStuck (s.nodeMem.read (4 * i + 3)) .unwrittenByte
  pure ⟨lv, lt, rv, rt⟩

/-- `NODE[i]` of the loaded dictionary: "`NODE` while `HVALID = 0`" holds no value, and a read of it is a
fault (R48). The root search reads the records that it has just copied with `nodeRead`. -/
def dictRead (i : Nat) : Eng NodeRec := do
  let s ← get
  ensure (s.hvalid = true) .noDictionary
  nodeRead i

/-- Bit `i` of `NODE_PRESENT` set to `p` (R262). -/
def setPresent (present : BitVec 255) (i : Nat) (p : Bool) : BitVec 255 :=
  if p then present ||| BitVec.twoPow 255 i else present &&& ~~~ BitVec.twoPow 255 i

/-- `NODE[i] <- r; NODE_PRESENT[i] <- 1` (R262). -/
def nodeWrite (i : Nat) (r : NodeRec) : Eng Unit :=
  modify fun s => { s with
    nodeMem := s.nodeMem.writeList (4 * i) [r.lv, r.lt, r.rv, r.rt]
    nodePresent := setPresent s.nodePresent i true }

/-- `NODE_PRESENT[i] <- 0` (R262). -/
def nodeAbsent (i : Nat) : Eng Unit :=
  modify fun s => { s with nodePresent := setPresent s.nodePresent i false }

/-! ## Working registers -/

/-- Update the working registers. -/
def modifyWork (f : Work → Work) : Eng Unit :=
  modify fun s => { s with work := f s.work }

/-- The cursor. -/
def getCur : Eng Cursor := do
  let s ← get
  pure s.work.cur

/-- Write the cursor. -/
def setCur (c : Cursor) : Eng Unit := modifyWork fun w => { w with cur := c }

/-- Keep the result of a cursor operation (MODEL register). -/
def setRes (v : Nat) : Eng Unit := modifyWork fun w => { w with res := v }

/-- Say where the sequencer goes on. -/
def setPhase (p : Phase) : Eng Unit := modify fun s => { s with phase := p }

/-! ## Command start, completion, error entry -/

/-- Start of a command: `CMD <- c; STATUS <- BUSY; ERR <- 0; OUT_LEN <- 0` (R50, R291). The bytes of
`OUT` at or beyond `OUT_LEN` have no defined value (R23), so none is listed. -/
def State.begin (c : Command) (s : State) : State :=
  { s with cmd := some c, status := .busy, err := .noError, outMem := [], outLen := 0 }

/-- The working registers of a command that ends are dead (R50, spec/93 I5): a free value. -/
def State.retire (s : State) : State :=
  { s with work := Config.deadWork s.ended, ended := s.ended + 1, phase := .idle }

/-- Taking an exception (R324), the one error entry: `STATUS <- ERROR; ERR <- code(K); OUT_LEN <- 0`,
the command ends. Nothing is saved and control goes nowhere. `OUT`'s bytes and the working
registers are left without defined value. `IN`, `IN_LEN`, `NODE`, `HROOT`, `HVALID` are untouched.
There is no return from an error (R325): the next command starts from scratch. -/
def State.errorEntry (k : ErrKind) (s : State) : State :=
  { s.retire with status := .error, err := k, outMem := [], outLen := 0 }

/-- Completion (R193, R242, R265, R272): `STATUS <- DONE; ERR <- 0`; `OUT[0 .. OUT_LEN-1]` stays as the
result. -/
def State.complete (s : State) : State :=
  { s.retire with status := .done, err := .noError }

/-- The last step of a command that succeeds. -/
def completeCommand : Eng Unit := modify State.complete

/-- The outcome of a sequence of engine operations: the error entry is taken where one was raised. -/
def outcomeOf : EStateM.Result Stop State Unit → Host.Outcome State Fault Refusal
  | .ok _ s => .next s
  | .error (.raise k) s => .next (s.errorEntry k)
  | .error (.fault f) _ => .fault f

/-- Run a sequence of engine operations as the meaning of an instruction. -/
def runMeaning (x : Eng Unit) (s : State) : Host.Outcome State Fault Refusal := outcomeOf (x s)

end Sys2Proof.Machine
end

