-- ==== Sys2Proof/Machine/Operands.lean ====
section
/-! DEFINITION. Operand assembly: header fields of `IN` in either byte order (R63, R389), bit
reversal (R16, R164), the gamma value (R99, R167) and the CWC distance (R234). -/

namespace Sys2Proof.Machine

open Sys2Proof

/-- `n` bytes of `IN` from offset `a`, least significant first (R17: `LE16`, `LE24`, `LE32`). -/
def inLe (a : Nat) : Nat → Eng Nat
  | 0 => pure 0
  | n + 1 => do
    let b ← inByte a
    let rest ← inLe (a + 1) n
    pure (b.toNat ||| rest <<< 8)

/-- `n` bytes of `IN` from offset `a`, most significant first, above the value `acc` of the bytes before
them (R17: `BE16`, `BE32`). -/
def inBe (a : Nat) : Nat → Nat → Eng Nat
  | 0, acc => pure acc
  | n + 1, acc => do
    let b ← inByte a
    inBe (a + 1) n (acc <<< 8 ||| b.toNat)

/-- The bytes of `IN` from offset `a` are the given ones. -/
def inMatches (a : Nat) : List Byte → Eng Bool
  | [] => pure true
  | b :: bs => do
    let v ← inByte a
    let rest ← inMatches (a + 1) bs
    pure (v == b && rest)

/-- `rev_n(x)`: bit `i` of the result is bit `n - 1 - i` of `x` (R16, R164). -/
def revBits : Nat → Nat → Nat
  | 0, _ => 0
  | n + 1, x => (x % 2) <<< n ||| revBits n (x / 2)

/-- How many extension bits follow a decoded leaf value (R99): none for 0 and 1, else `v - 1`. -/
def gammaBits (v : Nat) : Nat := v - 1

/-- The number that a leaf value and its extension bits stand for (R99, R167). -/
def gammaValue (v ext : Nat) : Nat :=
  if v < 2 then v else 1 <<< gammaBits v ||| ext

/-- `D = (P - 1) + L` (R234). -/
def cwcDistance (len pos : Nat) : Nat := pos - 1 + len

end Sys2Proof.Machine
end

