-- ==== Sys2Proof/Machine/Cursor.lean ====
section
/-! DEFINITION. The bit cursor (spec/40_bit_cursor.md): its configuration, refill, bit reads and
byte-aligned reads, and the meanings of the ten cursor rows of the opcode table. -/

namespace Sys2Proof.Machine

open Sys2Proof

/-- `CUR.W` in bits. -/
def RefillWidth.bits : RefillWidth → Nat
  | .w16 => 16
  | .w32 => 32

/-- `CUR.W / 8`, the bytes of a refill word (R133). -/
def RefillWidth.bytes : RefillWidth → Nat
  | .w16 => 2
  | .w32 => 4

/-- The cursor after `CONFIG(base, end, order, W, policy)` (R130). -/
def Cursor.config (base fin : Nat) (order : BitOrder) (width : RefillWidth) (policy : RefillPolicy) : Cursor :=
  ⟨base, fin, order, width, policy, base, 0, 0⟩

/-- The cursor after a refill word `w` has been added above the pending bits (R133, R33). -/
def Cursor.load (c : Cursor) (w : Nat) : Cursor :=
  { c with
    sr := match c.order with
      | .lsb => c.sr ||| w <<< c.cnt
      | .msb => c.sr ||| w <<< (2 * c.width.bits - c.cnt - c.width.bits)
    cnt := c.cnt + c.width.bits
    pos := c.pos + c.width.bytes }

/-- The next bit to consume (R33, R134). -/
def Cursor.nextBit (c : Cursor) : Bool :=
  match c.order with
  | .lsb => c.sr.testBit 0
  | .msb => c.sr.testBit (2 * c.width.bits - 1)

/-- The cursor after one pending bit has been consumed (R134). -/
def Cursor.dropBit (c : Cursor) : Cursor :=
  { c with
    sr := match c.order with
      | .lsb => c.sr >>> 1
      | .msb => (c.sr <<< 1) % 2 ^ (2 * c.width.bits)
    cnt := c.cnt - 1 }

/-- `CONFIG` (R130). -/
def config (base fin : Nat) (order : BitOrder) (width : RefillWidth) (policy : RefillPolicy) : Eng Unit :=
  setCur (Cursor.config base fin order width policy)

/-- `REFILL` (R133): the whole word must lie inside the range. Precondition `cnt <= W - 1`. -/
def refill : Eng Unit := do
  let c ← getCur
  ensure (c.cnt < c.width.bits) .precondition
  require (c.pos + c.width.bytes ≤ c.fin) .bitstreamUnderrun
  let w ← inLe c.pos c.width.bytes
  setCur (c.load w)

/-- `PRIME` (R132). Precondition: just configured. -/
def prime : Eng Unit := do
  let c ← getCur
  ensure (c.cnt = 0 ∧ c.pos = c.base) .precondition
  refill

/-- `TAKE` (R134). Precondition `cnt >= 1`. -/
def take : Eng Bool := do
  let c ← getCur
  ensure (1 ≤ c.cnt) .precondition
  setCur c.dropBit
  pure c.nextBit

/-- `READ_BIT` (R135): under `on_demand` the word is loaded when a bit is needed and none is pending,
under `on_exhaust` as soon as the last pending bit is consumed. -/
def readBit : Eng Bool := do
  let c ← getCur
  match c.policy with
  | .onDemand =>
    if c.cnt = 0 then refill else pure ()
    take
  | .onExhaust =>
    let b ← take
    let c' ← getCur
    if c'.cnt = 0 then refill else pure ()
    pure b

/-- The value of a multi-bit read after one more bit, bit `i` of the read (R136). -/
def addBit (order : BitOrder) (i v : Nat) (b : Bool) : Nat :=
  match order with
  | .lsb => v ||| b.toNat <<< i
  | .msb => v <<< 1 ||| b.toNat

/-- The loop of `READ_BITS`: `n` more bits, of which the first is bit `i` of the read (R136). -/
def readBitsFrom (order : BitOrder) : Nat → Nat → Nat → Eng Nat
  | 0, _, v => pure v
  | n + 1, i, v => do
    let b ← readBit
    readBitsFrom order n (i + 1) (addBit order i v b)

/-- `READ_BITS(n)`, `0 <= n <= W` (R136). -/
def readBits (n : Nat) : Eng Nat := do
  let c ← getCur
  ensure (n ≤ c.width.bits) .precondition
  readBitsFrom c.order n 0 0

/-- `PEEK_BITS(n)`, `0 <= n <= W`, defined only for the RNC profile's order and policy (R137). The
`while` of R137 runs at most once, since `n <= W` and a refill adds `W` bits. -/
def peekBits (n : Nat) : Eng Nat := do
  let c ← getCur
  ensure (c.order = .lsb ∧ c.policy = .onDemand ∧ n ≤ c.width.bits) .precondition
  if c.cnt < n then refill else pure ()
  let c' ← getCur
  pure (c'.sr &&& (1 <<< n - 1))

/-- `SKIP_BITS(n)`, precondition `n <= cnt` (R138): `TAKE` `n` times. -/
def skipBits (n : Nat) : Eng Unit := do
  let c ← getCur
  ensure (n ≤ c.cnt) .precondition
  repeatEng n (discard take)

/-- A byte-aligned field of `n` bytes at `CUR.pos` (R139 to R141): the check is on the whole field, the
pending bits are untouched. -/
def readField (n : Nat) : Eng Nat := do
  let c ← getCur
  require (c.pos + n ≤ c.fin) .bitstreamUnderrun
  let v ← inLe c.pos n
  setCur { c with pos := c.pos + n }
  pure v

/-- `READ_BYTE` (R139). -/
def readByte : Eng Byte := do
  let v ← readField 1
  pure (BitVec.ofNat 8 v)

/-- `READ_U16`, little-endian (R140). -/
def readU16 : Eng (BitVec 16) := do
  let v ← readField 2
  pure (BitVec.ofNat 16 v)

/-- `READ_U24`, little-endian (R141). -/
def readU24 : Eng (BitVec 24) := do
  let v ← readField 3
  pure (BitVec.ofNat 24 v)

/-- `REALIGN`: the identity on this cursor (R142). -/
def realign : Eng Unit := pure ()

/-- The control bits of a range of `n` bytes, plus one: no loop whose every pass consumes a control
bit makes more passes (R361). -/
def bitBound (n : Nat) : Nat := 8 * n + 1

/-! ## The rows of the opcode table. Where a row has a result, the MODEL register `res` keeps it. -/

/-- `PRIME` (R132). -/
def execPrime (s : State) : Host.Outcome State Fault Refusal := runMeaning prime s

/-- `REFILL` (R133). -/
def execRefill (s : State) : Host.Outcome State Fault Refusal := runMeaning refill s

/-- `READ_BIT` (R135). -/
def execReadBit (s : State) : Host.Outcome State Fault Refusal :=
  runMeaning (do let b ← readBit; setRes b.toNat) s

/-- `READ_BITS(n)` (R136). -/
def execReadBits (n : Nat) (s : State) : Host.Outcome State Fault Refusal :=
  runMeaning (do let v ← readBits n; setRes v) s

/-- `PEEK_BITS(n)` (R137). -/
def execPeekBits (n : Nat) (s : State) : Host.Outcome State Fault Refusal :=
  runMeaning (do let v ← peekBits n; setRes v) s

/-- `SKIP_BITS(n)` (R138). -/
def execSkipBits (n : Nat) (s : State) : Host.Outcome State Fault Refusal :=
  runMeaning (skipBits n) s

/-- `READ_BYTE` (R139). -/
def execReadByte (s : State) : Host.Outcome State Fault Refusal :=
  runMeaning (do let b ← readByte; setRes b.toNat) s

/-- `READ_U16` (R140). -/
def execReadU16 (s : State) : Host.Outcome State Fault Refusal :=
  runMeaning (do let v ← readU16; setRes v.toNat) s

/-- `READ_U24` (R141). -/
def execReadU24 (s : State) : Host.Outcome State Fault Refusal :=
  runMeaning (do let v ← readU24; setRes v.toNat) s

/-- `REALIGN` (R142). -/
def execRealign (s : State) : Host.Outcome State Fault Refusal := runMeaning realign s

end Sys2Proof.Machine
end

