-- ==== Sys2Proof/Machine/Output.lean ====
section
/-! DEFINITION. The output primitives (spec/20_memory.md R70 to R75) and the checksum
(spec/41_canonical_huffman.md R170 to R172), with the meanings of their three rows. -/

namespace Sys2Proof.Machine

open Sys2Proof

/-- `emit(b)` (R71). -/
def emit (b : Byte) : Eng Unit := do
  let s ← get
  require (s.outLen < s.work.declLen.toNat) .fileSizeMismatch
  outAppend b

/-- `emit(b)`, `n` times. -/
def emitRun (n : Nat) (b : Byte) : Eng Unit := repeatEng n (emit b)

/-- `zero_history`: true for `CWC_DECODE`, false otherwise (R72). -/
def State.zeroHistory (s : State) : Bool := s.cmd == some .cwcDecode

/-- The largest distance that a copy may have: `D - OUT_LEN` is at most `ZERO_WINDOW` with the zero
history and at most 0 without it (R72, R384). -/
def State.maxDistance (s : State) : Nat :=
  if s.zeroHistory then s.outLen + s.cfg.zeroWindow else s.outLen

/-- The source byte of one step of a copy: offset `OUT_LEN - D`, which reads as 0 below 0 (R72, R73). -/
def lzSource (dist : Nat) : Eng Byte := do
  let s ← get
  if s.outLen < dist then pure 0#8 else outByte (s.outLen - dist)

/-- One byte of a copy: read it, then append it (R72). -/
def lzStep (dist : Nat) : Eng Unit := do
  let b ← lzSource dist
  emit b

/-- `lz_copy(D, L)`, `D >= 1` (R72): the distance is checked once, then the bytes are copied one by one
in increasing order (R75). -/
def lzCopy (dist len : Nat) : Eng Unit := do
  ensure (1 ≤ dist) .precondition
  let s ← get
  require (dist ≤ s.maxDistance) .outputOverrun
  repeatEng len (lzStep dist)

/-- `crc_update(b)` on a checksum value (R170): `x = CRC xor b`, then `(x >> 8) xor table[x & 0xFF]`. -/
def crcUpdate (table : Vector Word16 256) (crc : Word16) (b : Byte) : Word16 :=
  let x := crc ^^^ b.setWidth 16
  (x >>> 8) ^^^ table[(x.setWidth 8).toFin]

/-- `crc_update(b)` on the register `CRC` (R170). -/
def crcByte (b : Byte) : Eng Unit :=
  modify fun s => { s with work := { s.work with crc := crcUpdate s.cfg.rncCrcTable s.work.crc b } }

/-- `crc_update` over `len` bytes from address `a` upward. -/
def crcLoop (rd : Nat → Eng Byte) : Nat → Nat → Eng Unit
  | 0, _ => pure ()
  | n + 1, a => do
    let b ← rd a
    crcByte b
    crcLoop rd n (a + 1)

/-- `crc16(m, a, len)` (R172): start at `RNC_CRC_INIT`, update with each byte in ascending order. -/
def crc16 (rd : Nat → Eng Byte) (a len : Nat) : Eng Word16 := do
  modify fun s => { s with work := { s.work with crc := s.cfg.rncCrcInit } }
  crcLoop rd len a
  let s ← get
  pure s.work.crc

/-- `EMIT` (R71). -/
def execEmit (b : Byte) (s : State) : Host.Outcome State Fault Refusal := runMeaning (emit b) s

/-- `LZ_COPY` (R72). -/
def execLzCopy (dist len : Nat) (s : State) : Host.Outcome State Fault Refusal :=
  runMeaning (lzCopy dist len) s

/-- `CRC16` (R170): one update of the register `CRC`. -/
def execCrc16 (b : Byte) (s : State) : Host.Outcome State Fault Refusal := runMeaning (crcByte b) s

end Sys2Proof.Machine
end

