-- ==== Sys2Proof/Machine/Cwc.lean ====
section
/-! DEFINITION. The CWC decoder (spec/43_cwc.md): header, selection on the cursor, stream opcodes, loop,
and the meanings of its eleven stream rows. -/

namespace Sys2Proof.Machine

open Sys2Proof

/-- The CWC magic `43 57 43` (R221). -/
def cwcMagic : List Byte := [0x43#8, 0x57#8, 0x43#8]

/-- Header fetch and validation (R221). -/
def cwcHeader : Eng Unit := do
  let s ← get
  require (12 ≤ s.inLen) .headerInvalid
  let magic ← inMatches 0 cwcMagic
  require (magic = true) .headerInvalid
  let bits ← inByte 3
  let expanded ← inLe 4 4
  let payload ← inLe 8 4
  modifyWork fun w => { w with
    cwcBits := bits
    declLen := BitVec.ofNat 32 expanded
    payLen := BitVec.ofNat 32 payload }
  require (12 + payload ≤ s.inLen) .headerInvalid
  require (bits.toNat ≤ 24) .headerInvalid
  require (expanded ≤ s.cfg.outCap) .headerInvalid

/-- Start (R222): the cursor is configured over the payload and primed. -/
def cwcStart : Eng Unit := do
  let s ← get
  config 12 (12 + s.work.payLen.toNat) .msb .w32 s.cfg.cwcRefillPolicy
  prime

/-- `READ_U16`, kept in the register `w` (R227). -/
def cwcReadU16 : Eng (BitVec 16) := do
  let v ← readU16
  modifyWork fun w => { w with cwcW := v.setWidth 24 }
  pure v

/-- `READ_U24`, kept in the register `w` (R228). -/
def cwcReadU24 : Eng (BitVec 24) := do
  let v ← readU24
  modifyWork fun w => { w with cwcW := v }
  pure v

/-- The cursor as a source of the CWC selection; `L` and `P` go into their registers (R44). -/
def cursorReader : Reader Eng where
  bit := readBit
  bits := readBits
  byte := readByte
  u16 := cwcReadU16
  u24 := cwcReadU24
  latch := fun len pos => modifyWork fun w => { w with cwcL := len, cwcP := pos }

/-- `CWC_BITS` and `CWC_SPECIAL_BASE`, which the splitting of a `LONG` depends on (R228). -/
def State.cwcCtx (s : State) : CwcCtx := ⟨s.work.cwcBits.toNat, s.cfg.cwcSpecialBase⟩

/-- Selection of the next CWC opcode from the cursor (R224, R226 to R228). -/
def cwcFetch : Eng CwcOp := do
  let s ← get
  cwcSelect cursorReader s.cwcCtx

/-- A literal byte (R225). -/
def cwcLiteral : Eng Unit := do
  let b ← readByte
  modifyWork fun w => { w with cwcB := b }
  emit b

/-- The run branch of `run_or_copy` (R233): a fill byte, `L + 1` copies of it. -/
def cwcRun (len : Nat) : Eng Unit := do
  let fill ← readByte
  modifyWork fun w => { w with cwcB := fill }
  emitRun (len + 1) fill

/-- The copy branch of `run_or_copy` (R233): `D = P - 1 + L`, `lz_copy(D, L)`. `P` is not 0 here. -/
def cwcCopy (len pos : Nat) : Eng Unit := do
  ensure (1 ≤ pos) .precondition
  modifyWork fun w => { w with cwcD := cwcDistance len pos }
  lzCopy (cwcDistance len pos) len

/-- The terminator (R229). -/
def cwcTerm : Eng Unit := do
  let s ← get
  require (s.outLen = s.work.declLen.toNat) .fileSizeMismatch
  completeCommand

/-- The literal string (R231): a count byte, then as many bytes, each read and then appended. -/
def cwcLitstr : Eng Unit := do
  let c ← readByte
  modifyWork fun w => { w with cwcC := c }
  repeatEng c.toNat cwcLiteral

/-- The rest of a selected opcode (R225 to R232). -/
def cwcOpMeaning : CwcOp → Eng Unit
  | .lit => cwcLiteral
  | .shortRun len => cwcRun len
  | .shortCopy len pos => cwcCopy len pos
  | .medRun len => cwcRun len
  | .medCopy len pos => cwcCopy len pos
  | .longCopy len pos => cwcCopy len pos
  | .longTerm => cwcTerm
  | .longNopSrc => pure ()
  | .longNopDst => pure ()
  | .longLitstr => cwcLitstr
  | .longRun len => cwcRun len

/-- The length test after an opcode (R223): equal ends the command. -/
def cwcTest : Eng Unit := do
  let s ← get
  if s.outLen = s.work.declLen.toNat then completeCommand else pure ()

/-- The decode loop (R223). The bound is never reached (R361). -/
def cwcLoop : Nat → Eng Unit
  | 0 => stuck .loopBound
  | fuel + 1 => do
    let op ← cwcFetch
    cwcOpMeaning op
    let s ← get
    if s.status = .busy then do
      cwcTest
      let s' ← get
      if s'.status = .busy then cwcLoop fuel else pure ()
    else pure ()

/-- The whole command `CWC_DECODE` (R236). -/
def cwcDecode : Eng Unit := do
  cwcHeader
  cwcStart
  let s ← get
  cwcLoop (bitBound s.work.payLen.toNat)

/-- `CWC.LIT` (R225). -/
def execCwcLit (s : State) : Host.Outcome State Fault Refusal := runMeaning cwcLiteral s

/-- `CWC.SHORT.RUN` (R226, R233). -/
def execCwcShortRun (len : Nat) (s : State) : Host.Outcome State Fault Refusal :=
  runMeaning (cwcRun len) s

/-- `CWC.SHORT.COPY` (R226, R233). -/
def execCwcShortCopy (len pos : Nat) (s : State) : Host.Outcome State Fault Refusal :=
  runMeaning (cwcCopy len pos) s

/-- `CWC.MED.RUN` (R227, R233). -/
def execCwcMedRun (len : Nat) (s : State) : Host.Outcome State Fault Refusal :=
  runMeaning (cwcRun len) s

/-- `CWC.MED.COPY` (R227, R233). -/
def execCwcMedCopy (len pos : Nat) (s : State) : Host.Outcome State Fault Refusal :=
  runMeaning (cwcCopy len pos) s

/-- `CWC.LONG.COPY` (R228, R233). -/
def execCwcLongCopy (len pos : Nat) (s : State) : Host.Outcome State Fault Refusal :=
  runMeaning (cwcCopy len pos) s

/-- `CWC.LONG.TERM` (R229). -/
def execCwcLongTerm (s : State) : Host.Outcome State Fault Refusal := runMeaning cwcTerm s

/-- `CWC.LONG.NOP_SRC` (R230): nothing beyond what its selection consumed. -/
def execCwcLongNopSrc (s : State) : Host.Outcome State Fault Refusal := runMeaning (pure ()) s

/-- `CWC.LONG.NOP_DST` (R230): nothing beyond what its selection consumed. -/
def execCwcLongNopDst (s : State) : Host.Outcome State Fault Refusal := runMeaning (pure ()) s

/-- `CWC.LONG.LITSTR` (R231). -/
def execCwcLongLitstr (s : State) : Host.Outcome State Fault Refusal := runMeaning cwcLitstr s

/-- `CWC.LONG.RUN` (R232). -/
def execCwcLongRun (len : Nat) (s : State) : Host.Outcome State Fault Refusal :=
  runMeaning (cwcRun len) s

end Sys2Proof.Machine
end

