-- ==== Sys2Proof/Machine/Canonical.lean ====
section
/-! DEFINITION. The RNC Huffman tables (spec/41_canonical_huffman.md): table load, symbol decode, gamma
value. -/

namespace Sys2Proof.Machine

open Sys2Proof

/-- `HT[T]`. -/
def HuffTables.get (h : HuffTables) : TableId → List HuffLeaf
  | .raw => h.raw
  | .dist => h.dist
  | .len => h.len

/-- `HT[T] <- leaves`. -/
def HuffTables.set (h : HuffTables) (t : TableId) (leaves : List HuffLeaf) : HuffTables :=
  match t with
  | .raw => { h with raw := leaves }
  | .dist => { h with dist := leaves }
  | .len => { h with len := leaves }

/-- One length level of the canonical assignment (R163): the values `i, i + 1, ..` whose code length
is `len` get consecutive codes from `codeb` on. Answers the next code and the leaves, or `none`
where a code does not fit its length (R165). -/
def assignLevel (len : Nat) : List Nat → Nat → Nat → Option (Nat × List HuffLeaf)
  | [], _, codeb => some (codeb, [])
  | l :: lens, i, codeb =>
    if l = len then
      if codeb ≥ 2 ^ len then none
      else do
        let (next, leaves) ← assignLevel len lens (i + 1) (codeb + 1)
        some (next, ⟨revBits len codeb, len, i⟩ :: leaves)
    else assignLevel len lens (i + 1) codeb

/-- The canonical assignment over `n` length levels from `len` upward, the base doubled after each
level (R163). -/
def assignLevels (lens : List Nat) : Nat → Nat → Nat → Option (List HuffLeaf)
  | 0, _, _ => some []
  | n + 1, len, codeb => do
    let (next, leaves) ← assignLevel len lens 0 codeb
    let rest ← assignLevels lens n (len + 1) (next * 2)
    some (leaves ++ rest)

/-- The table that a list of code lengths, indexed by value, describes: levels 1 to 15 (R163). -/
def canonicalTable (lens : List Nat) : Option (List HuffLeaf) := assignLevels lens 15 1 0

/-- The code lengths of `n` values, each a 4-bit field, in index order (R162). -/
def readLengths : Nat → Eng (List Nat)
  | 0 => pure []
  | n + 1 => do
    let l ← readBits 4
    let rest ← readLengths n
    pure (l :: rest)

/-- `HUFTAB(T)` (R160 to R165). A count of 0 keeps the table (R161); lengths that ask for more codes
than there are raise `HufDecodeError` (R165). -/
def huftab (t : TableId) : Eng Unit := do
  let n ← readBits 5
  if n = 0 then pure ()
  else do
    let lens ← readLengths n
    match canonicalTable lens with
    | none => raise .hufDecodeError
    | some leaves => modifyWork fun w => { w with ht := w.ht.set t leaves }

/-- The linear scan of `huf_symbol`: the first leaf whose code equals as many peeked bits (R166). -/
def scanLeaves : List HuffLeaf → Eng Nat
  | [] => raise .hufDecodeError
  | leaf :: rest => do
    let v ← peekBits leaf.len
    if v = leaf.code then do
      skipBits leaf.len
      pure leaf.value
    else scanLeaves rest

/-- `huf_symbol(T)` (R166). -/
def hufSymbol (t : TableId) : Eng Nat := do
  let s ← get
  scanLeaves (s.work.ht.get t)

/-- `huf_value(T)` (R167): a leaf value above 17 asks for more than 16 extension bits and raises. -/
def hufValue (t : TableId) : Eng Nat := do
  let v ← hufSymbol t
  if v < 2 then pure v
  else do
    require (gammaBits v ≤ 16) .hufDecodeError
    let ext ← readBits (gammaBits v)
    pure (gammaValue v ext)

end Sys2Proof.Machine
end

