-- ==== Sys2Proof/Machine/Rnc.lean ====
section
/-! DEFINITION. The RNC decoder (spec/42_rnc.md): header, stream opcodes, chunk loops, end, and the
meanings of its five stream rows. -/

namespace Sys2Proof.Machine

open Sys2Proof

/-- The RNC magic `52 4E 43 01` (R181). -/
def rncMagic : List Byte := [0x52#8, 0x4E#8, 0x43#8, 0x01#8]

/-- Header fetch, magic, length validation, packed checksum (R181 to R183), in that order. -/
def rncHeader : Eng Unit := do
  let s ← get
  require (18 ≤ s.inLen) .headerInvalid
  let magic ← inMatches 0 rncMagic
  require (magic = true) .fileIsNotRnc
  let unpacked ← inBe 4 4 0
  let packed ← inBe 8 4 0
  let unpackedCrc ← inBe 12 2 0
  let packedCrc ← inBe 14 2 0
  modifyWork fun w => { w with
    declLen := BitVec.ofNat 32 unpacked
    packedLen := BitVec.ofNat 32 packed
    unpackedCrc := BitVec.ofNat 16 unpackedCrc
    packedCrc := BitVec.ofNat 16 packedCrc }
  require (18 + packed ≤ s.inLen) .headerInvalid
  require (unpacked ≤ s.cfg.outCap) .headerInvalid
  let crc ← crc16 inByte 18 packed
  require (crc = BitVec.ofNat 16 packedCrc) .packedCrcError

/-- Initialisation (R184): the three tables are set empty, the cursor is configured. -/
def rncStart : Eng Unit := do
  modifyWork fun w => { w with ht := ⟨[], [], []⟩ }
  let s ← get
  config 18 (18 + s.work.packedLen.toNat) .lsb .w16 .onDemand

/-- `RNC.PRIME` (R185): prime the cursor and discard two bits. -/
def rncPrime : Eng Unit := do
  prime
  discard (readBits 2)

/-- `RNC.CHCNT` (R187, R95): the tuple count of the chunk. -/
def rncChcnt : Eng Unit := do
  let k ← readBits 16
  modifyWork fun w => { w with chcnt := BitVec.ofNat 16 k }

/-- One literal byte: read it, then append it (R188, decision D40). -/
def literalByte : Eng Unit := do
  let b ← readByte
  emit b

/-- `RNC.RAW` (R188, R189): a literal run, realign, then the tuple counter is decremented on 16 bits. -/
def rncRaw : Eng Unit := do
  let n ← hufValue .raw
  modifyWork fun w => { w with rncN := n }
  repeatEng n literalByte
  realign
  modifyWork fun w => { w with chcnt := w.chcnt - 1#16 }

/-- `RNC.MATCH` (R190): distance first, then length, then the copy. -/
def rncMatch : Eng Unit := do
  let d ← hufValue .dist
  modifyWork fun w => { w with rncD := d + 1 }
  let l ← hufValue .len
  modifyWork fun w => { w with rncL := l + 2 }
  lzCopy (d + 1) (l + 2)

/-- The final size check, the unpacked checksum and completion (R191 to R193). -/
def rncFinish : Eng Unit := do
  let s ← get
  require (s.outLen = s.work.declLen.toNat) .fileSizeMismatch
  let crc ← crc16 outByte 0 s.work.declLen.toNat
  require (crc = s.work.unpackedCrc) .unpackedCrcError
  completeCommand

/-- The inner loop of a chunk (R198): literal run, then a match unless the counter has reached 0. The
bound is never reached (R361). -/
def rncTuples : Nat → Eng Unit
  | 0 => stuck .loopBound
  | fuel + 1 => do
    rncRaw
    let s ← get
    if s.work.chcnt = 0#16 then pure ()
    else do
      rncMatch
      rncTuples fuel

/-- One chunk: three tables, the tuple count, the tuples (R187 to R190). -/
def rncChunk (fuel : Nat) : Eng Unit := do
  huftab .raw
  huftab .dist
  huftab .len
  rncChcnt
  rncTuples fuel

/-- The outer loop (R186), tested only between chunks. The bound is never reached (R361). -/
def rncChunks (bound : Nat) : Nat → Eng Unit
  | 0 => stuck .loopBound
  | fuel + 1 => do
    let s ← get
    if s.outLen < s.work.declLen.toNat then do
      rncChunk bound
      rncChunks bound fuel
    else pure ()

/-- The whole command `RNC_DECODE` (R198). -/
def rncDecode : Eng Unit := do
  rncHeader
  rncStart
  rncPrime
  let s ← get
  let bound := bitBound s.work.packedLen.toNat
  rncChunks bound bound
  rncFinish

/-- `RNC.PRIME` (R185). -/
def execRncPrime (s : State) : Host.Outcome State Fault Refusal := runMeaning rncPrime s

/-- `RNC.HUFTAB` (R160). -/
def execRncHuftab (t : TableId) (s : State) : Host.Outcome State Fault Refusal :=
  runMeaning (huftab t) s

/-- `RNC.CHCNT` (R187). -/
def execRncChcnt (s : State) : Host.Outcome State Fault Refusal := runMeaning rncChcnt s

/-- `RNC.RAW` (R188, R189). -/
def execRncRaw (s : State) : Host.Outcome State Fault Refusal := runMeaning rncRaw s

/-- `RNC.MATCH` (R190). -/
def execRncMatch (s : State) : Host.Outcome State Fault Refusal := runMeaning rncMatch s

end Sys2Proof.Machine
end

