-- ==== Sys2Proof/Machine/Tree.lean ====
section
/-! DEFINITION. The recursive-tree Huffman decoder (spec/44_tree_huffman.md): the dictionary load with
its root search, the chunk, and the meaning of the row `HUF.SYM`. -/

namespace Sys2Proof.Machine

open Sys2Proof

/-! ## HUF_LOAD -/

/-- `nn = min(floor(IN_LEN / 4), 255)`: the records present (R261). -/
def State.nodeCount (s : State) : Nat := min (s.inLen / 4) 255

/-- Record `i` of the table in `IN`, by the layout of the machine (R106, R262). -/
def inNode (i : Nat) : Eng NodeRec := do
  let s ← get
  let lv ← inByte (4 * i + s.cfg.hufNodeLayout.lv.val)
  let lt ← inByte (4 * i + s.cfg.hufNodeLayout.lt.val)
  let rv ← inByte (4 * i + s.cfg.hufNodeLayout.rv.val)
  let rt ← inByte (4 * i + s.cfg.hufNodeLayout.rt.val)
  pure ⟨lv, lt, rv, rt⟩

/-- The copy of `n` records from record `i` on, of which those below `nn` are present (R262). -/
def hufCopy (nn : Nat) : Nat → Nat → Eng Unit
  | 0, _ => pure ()
  | n + 1, i => do
    if i < nn then do
      let r ← inNode i
      nodeWrite i r
    else nodeAbsent i
    hufCopy nn n (i + 1)

/-- `leaves <- leaves + {v}` (R263). -/
def addLeaf (v : Byte) : Eng Unit :=
  modifyWork fun w => { w with leaves := w.leaves ||| BitVec.twoPow 256 v.toNat }

/-- `visited <- visited + {i}` (R263). -/
def addVisited (i : Nat) : Eng Unit :=
  modifyWork fun w => { w with visited := w.visited ||| BitVec.twoPow 255 i }

/-- `walk(i)` (R263): depth-first, left half before right half. The bound on the depth, one more than
the number of records, is never reached, since a record is entered at most once (R388). -/
def walk : Nat → Nat → Eng Bool
  | 0, _ => pure false
  | depth + 1, i => do
    let s ← get
    if 254 < i ∨ s.nodePresent.getLsbD i = false then pure false
    else if s.work.visited.getLsbD i then pure false
    else do
      addVisited i
      let r ← nodeRead i
      let left ←
        if r.lt = 0#8 then do
          addLeaf r.lv
          pure true
        else if r.lt = 1#8 then walk depth r.lv.toNat
        else pure false
      if left then
        if r.rt = 0#8 then do
          addLeaf r.rv
          pure true
        else if r.rt = 1#8 then walk depth r.rv.toNat
        else pure false
      else pure false

/-- `valid(r)` (R263): the walk succeeds and the set of leaf values has all 256 members. -/
def candidateValid (r : Nat) : Eng Bool := do
  modifyWork fun w => { w with cand := BitVec.ofNat 8 r, visited := 0#255, leaves := 0#256 }
  let ok ← walk 256 r
  let s ← get
  pure (ok && s.work.leaves == BitVec.allOnes 256)

/-- The order in which candidates are tried: 254, then 0 to 253 (R264). -/
def candidates : List Nat := 254 :: List.range 254

/-- The root search (R265): the first valid candidate becomes the root. -/
def hufSearch : List Nat → Eng Unit
  | [] => raise .incompleteDictionary
  | r :: rest => do
    let ok ← candidateValid r
    if ok then do
      modify fun s => { s with hroot := BitVec.ofNat 8 r, hvalid := true }
      completeCommand
    else hufSearch rest

/-- The whole command `HUF_LOAD` (R274): the old dictionary is gone, the table is copied, the root is
searched. -/
def hufLoad : Eng Unit := do
  modify fun s => { s with hvalid := false }
  let s ← get
  hufCopy s.nodeCount 255 0
  hufSearch candidates

/-! ## HUF_CHUNK -/

/-- `next_bit()` (R270), the tree decoder's own reader. -/
def nextBit : Eng Bool := do
  let s ← get
  require (s.work.hbyte < s.inLen) .bitstreamUnderrun
  let v ← inByte s.work.hbyte
  modifyWork fun w => { w with
    hbit := w.hbit + 1
    hbyte := if w.hbit = 7 then w.hbyte + 1 else w.hbyte }
  pure (v.getLsbD s.work.hbit.val)

/-- One edge of the walk (R271): answers whether a leaf was reached and emitted. -/
def hufEdge : Eng Bool := do
  let b ← nextBit
  let s ← get
  let r ← dictRead s.work.hnode.toNat
  let v := if b then r.rv else r.lv
  let t := if b then r.rt else r.lt
  if t = 0#8 then do
    emit v
    modify fun s => { s with work := { s.work with hnode := s.hroot } }
    pure true
  else do
    modifyWork fun w => { w with hnode := v }
    pure false

/-- Edges until a leaf (R271, R108). Every edge consumes a bit or raises, so the bound is never
reached (R277). -/
def hufPath : Nat → Eng Unit
  | 0 => stuck .loopBound
  | fuel + 1 => do
    let leaf ← hufEdge
    if leaf then pure () else hufPath fuel

/-- `HUF.SYM` (R271): one root-to-leaf path. -/
def hufSym : Eng Unit := do
  let s ← get
  hufPath (8 * s.inLen + 1)

/-- Validation and start of `HUF_CHUNK` (R268, R269); a declared count of 0 completes at once. -/
def hufStart : Eng Unit := do
  let s ← get
  require (s.hvalid = true) .incompleteDictionary
  require (4 ≤ s.inLen) .bitstreamUnderrun
  let count ← inLe 0 4
  modifyWork fun w => { w with declLen := BitVec.ofNat 32 count }
  if count = 0 then completeCommand
  else do
    require (count ≤ s.cfg.outCap) .headerInvalid
    require (count ≤ 8 * (s.inLen - 4)) .bitstreamUnderrun
    modify fun s => { s with work := { s.work with hbyte := 4, hbit := 0, hnode := s.hroot } }

/-- The test of the loop of R271: the declared count has been emitted (R272). -/
def hufTest : Eng Unit := do
  let s ← get
  if s.outLen < s.work.declLen.toNat then pure () else completeCommand

/-- The loop of R271, symbol by symbol. The bound is never reached (R277). -/
def hufSymbols : Nat → Eng Unit
  | 0 => stuck .loopBound
  | fuel + 1 => do
    let s ← get
    if s.outLen < s.work.declLen.toNat then do
      hufSym
      hufSymbols fuel
    else completeCommand

/-- The whole command `HUF_CHUNK` (R275). -/
def hufChunk : Eng Unit := do
  hufStart
  let s ← get
  if s.status = .busy then hufSymbols (8 * s.inLen + 1) else pure ()

/-- `HUF.SYM` (R271). -/
def execHufSym (s : State) : Host.Outcome State Fault Refusal := runMeaning hufSym s

end Sys2Proof.Machine
end

