-- ==== Sys2Proof/Machine/Commands.lean ====
section
/-! DEFINITION. The four host commands (spec/45_host_commands.md R291): the meanings of the rows
`RNC_DECODE`, `CWC_DECODE`, `HUF_LOAD`, `HUF_CHUNK`. -/

namespace Sys2Proof.Machine

open Sys2Proof

/-- A command written to `CMD` (R291): while `BUSY` it is ignored (R297); else it starts and runs to its
end, "one uninterrupted sequence of engine steps". -/
def runCommand (c : Command) (body : Eng Unit) (s : State) : Host.Outcome State Fault Refusal :=
  if s.status = .busy then .next s else runMeaning body (s.begin c)

/-- `RNC_DECODE` (R198). -/
def execRncDecode (s : State) : Host.Outcome State Fault Refusal := runCommand .rncDecode rncDecode s

/-- `CWC_DECODE` (R236). -/
def execCwcDecode (s : State) : Host.Outcome State Fault Refusal := runCommand .cwcDecode cwcDecode s

/-- `HUF_LOAD` (R274). -/
def execHufLoad (s : State) : Host.Outcome State Fault Refusal := runCommand .hufLoad hufLoad s

/-- `HUF_CHUNK` (R275). -/
def execHufChunk (s : State) : Host.Outcome State Fault Refusal := runCommand .hufChunk hufChunk s

end Sys2Proof.Machine
end

