-- ==== Sys2Proof/Machine/Dispatch.lean ====
section
/-! DEFINITION. One arm per instruction: the row's meaning. -/

namespace Sys2Proof.Machine

def exec (i : Instr) (s : State) : Host.Outcome State Fault Refusal :=
  match i with
  -- host commands
  | .rncDecode => Sys2Proof.Machine.execRncDecode s
  | .cwcDecode => Sys2Proof.Machine.execCwcDecode s
  | .hufLoad => Sys2Proof.Machine.execHufLoad s
  | .hufChunk => Sys2Proof.Machine.execHufChunk s
  -- cursor operations
  | .prime => Sys2Proof.Machine.execPrime s
  | .refill => Sys2Proof.Machine.execRefill s
  | .readBit => Sys2Proof.Machine.execReadBit s
  | .readBits n => Sys2Proof.Machine.execReadBits n s
  | .peekBits n => Sys2Proof.Machine.execPeekBits n s
  | .skipBits n => Sys2Proof.Machine.execSkipBits n s
  | .readByte => Sys2Proof.Machine.execReadByte s
  | .readU16 => Sys2Proof.Machine.execReadU16 s
  | .readU24 => Sys2Proof.Machine.execReadU24 s
  | .realign => Sys2Proof.Machine.execRealign s
  -- output primitives and checksum
  | .emit b => Sys2Proof.Machine.execEmit b s
  | .lzCopy dist len => Sys2Proof.Machine.execLzCopy dist len s
  | .crc16 b => Sys2Proof.Machine.execCrc16 b s
  -- RNC stream
  | .rncPrime => Sys2Proof.Machine.execRncPrime s
  | .rncHuftab t => Sys2Proof.Machine.execRncHuftab t s
  | .rncChcnt => Sys2Proof.Machine.execRncChcnt s
  | .rncRaw => Sys2Proof.Machine.execRncRaw s
  | .rncMatch => Sys2Proof.Machine.execRncMatch s
  -- CWC stream
  | .cwcLit => Sys2Proof.Machine.execCwcLit s
  | .cwcShortRun len => Sys2Proof.Machine.execCwcShortRun len s
  | .cwcShortCopy len pos => Sys2Proof.Machine.execCwcShortCopy len pos s
  | .cwcMedRun len => Sys2Proof.Machine.execCwcMedRun len s
  | .cwcMedCopy len pos => Sys2Proof.Machine.execCwcMedCopy len pos s
  | .cwcLongCopy len pos => Sys2Proof.Machine.execCwcLongCopy len pos s
  | .cwcLongTerm => Sys2Proof.Machine.execCwcLongTerm s
  | .cwcLongNopSrc => Sys2Proof.Machine.execCwcLongNopSrc s
  | .cwcLongNopDst => Sys2Proof.Machine.execCwcLongNopDst s
  | .cwcLongLitstr => Sys2Proof.Machine.execCwcLongLitstr s
  | .cwcLongRun len => Sys2Proof.Machine.execCwcLongRun len s
  -- tree-Huffman stream
  | .hufSym => Sys2Proof.Machine.execHufSym s

end Sys2Proof.Machine
end

