-- ==== Sys2Proof/Machine/Sequencer.lean ====
section
/-! DEFINITION. How the engine goes from one stream opcode to the next (R199, R223, R271, R386), and what
the host's actions do (spec/45_host_commands.md). -/

namespace Sys2Proof.Machine

open Sys2Proof

/-! ## Opcode by opcode -/

/-- The header step of a command that is executed opcode by opcode: everything before its first stream
opcode (R181 to R184, R221 and R222, R269). `HUF_LOAD` has no stream opcodes: it runs whole. -/
def headerStep : Option Command → Eng Unit
  | some .rncDecode => do
    rncHeader
    rncStart
    setPhase (.stream .rncPrime)
  | some .cwcDecode => do
    cwcHeader
    cwcStart
    setPhase (.stream .cwcOp)
  | some .hufLoad => hufLoad
  | some .hufChunk => do
    hufStart
    let s ← get
    if s.status = .busy then setPhase (.stream .hufSym) else pure ()
  | none => stuck .sequencerLost

/-- The opcode at a place of a stream: an RNC opcode and `SYM` by the place alone, a CWC opcode by what
its selection reads from the cursor. -/
def fetch : Slot → Eng Instr
  | .rncPrime => pure .rncPrime
  | .rncTab t => pure (.rncHuftab t)
  | .rncCnt => pure .rncChcnt
  | .rncRaw => pure .rncRaw
  | .rncMatch => pure .rncMatch
  | .cwcOp => CwcOp.toInstr <$> cwcFetch
  | .hufSym => pure .hufSym

/-- The test between chunks (R186): another chunk, or the end. -/
def rncChunkTest : Eng Unit := do
  let s ← get
  if s.outLen < s.work.declLen.toNat then setPhase (.stream (.rncTab .raw)) else rncFinish

/-- What follows an opcode that has been executed and has not ended the command (R199, R223, R272). -/
def advance : Instr → Eng Unit
  | .rncPrime => rncChunkTest
  | .rncHuftab .raw => setPhase (.stream (.rncTab .dist))
  | .rncHuftab .dist => setPhase (.stream (.rncTab .len))
  | .rncHuftab .len => setPhase (.stream .rncCnt)
  | .rncChcnt => setPhase (.stream .rncRaw)
  | .rncRaw => do
    let s ← get
    if s.work.chcnt = 0#16 then rncChunkTest else setPhase (.stream .rncMatch)
  | .rncMatch => setPhase (.stream .rncRaw)
  | .cwcLit => cwcTest
  | .cwcShortRun _ => cwcTest
  | .cwcShortCopy _ _ => cwcTest
  | .cwcMedRun _ => cwcTest
  | .cwcMedCopy _ _ => cwcTest
  | .cwcLongCopy _ _ => cwcTest
  | .cwcLongTerm => cwcTest
  | .cwcLongNopSrc => cwcTest
  | .cwcLongNopDst => cwcTest
  | .cwcLongLitstr => cwcTest
  | .cwcLongRun _ => cwcTest
  | .hufSym => hufTest
  | .rncDecode => pure ()
  | .cwcDecode => pure ()
  | .hufLoad => pure ()
  | .hufChunk => pure ()
  | .prime => pure ()
  | .refill => pure ()
  | .readBit => pure ()
  | .readBits _ => pure ()
  | .peekBits _ => pure ()
  | .skipBits _ => pure ()
  | .readByte => pure ()
  | .readU16 => pure ()
  | .readU24 => pure ()
  | .realign => pure ()
  | .emit _ => pure ()
  | .lzCopy _ _ => pure ()
  | .crc16 _ => pure ()

/-- After an opcode: go on in the grammar unless the opcode ended the command. -/
def afterOpcode (i : Instr) : Host.Outcome State Fault Refusal → Host.Outcome State Fault Refusal
  | .next s => if s.status = .busy then runMeaning (advance i) s else .next s
  | .fault f => .fault f
  | .refused r => .refused r

/-- One stream opcode: select it, execute it, go on. -/
def opcodeStep (slot : Slot) (s : State) : Host.Outcome State Fault Refusal :=
  match fetch slot s with
  | .ok i s' => afterOpcode i (exec i s')
  | .error (.raise k) s' => .next (s'.errorEntry k)
  | .error (.fault f) _ => .fault f

/-- One step of the busy engine. -/
def engineStep (s : State) : Host.Outcome State Fault Refusal :=
  match s.phase with
  | .idle => .fault .sequencerLost
  | .header => runMeaning (headerStep s.cmd) s
  | .stream slot => opcodeStep slot s

/-! ## Host actions -/

/-- The reset event (R350): the reset state with the machine's own parameters; a running command is
abandoned. The host's later actions are not part of the engine. -/
def State.afterReset (s : State) : State :=
  { State.reset with cfg := s.cfg, pending := s.pending, ended := s.ended }

/-- The host writes `CMD` and the engine is left `BUSY` before its header step (R291, R295); ignored
while `BUSY` (R297). -/
def startCommand (c : Command) (s : State) : State :=
  if s.status = .busy then s else { s.begin c with phase := .header }

/-- What a host action does (R290, R291, R296 to R298, R350). -/
def hostAct (a : HostAction) (s : State) : Host.Outcome State Fault Refusal :=
  match a with
  | .writeIn addr b =>
    if s.status = .busy then .fault .hostContract
    else if addr < s.cfg.inCap then .next { s with inMem := s.inMem.write addr b }
    else .fault .noSuchAddress
  | .writeInLen n =>
    if s.status = .busy then .fault .hostContract
    else if n ≤ s.cfg.inCap then .next { s with inLen := n }
    else .fault .hostContract
  | .writeCmd c =>
    match Command.ofCode c with
    | some cmd => exec cmd.toInstr s
    | none => .next s
  | .startCmd c =>
    match Command.ofCode c with
    | some cmd => .next (startCommand cmd s)
    | none => .next s
  | .poll => .next s
  | .reset => .next s.afterReset

/-- One step of the machine. A host action that is still to come happens now, except that a poll
waits while the engine is busy; with no host action the busy engine runs, and the idle engine
takes no step (R351). -/
def machineStep (s : State) : Host.Outcome State Fault Refusal :=
  match s.pending with
  | [] => if s.status = .busy then engineStep s else .next s
  | a :: rest =>
    if a = .poll ∧ s.status = .busy then engineStep s
    else hostAct a { s with pending := rest }

/-! ## Placing an instruction where the next step fetches it -/

/-- `CMD <- w` as the host's next action, on an engine that is not busy. -/
def placeCommand (s : State) (w : Nat) : State :=
  { s with
    status := if s.status = .busy then .idle else s.status
    pending := .writeCmd w :: s.pending }

/-- The bytes that stand in `IN` behind a placed CWC prefix: zeros. -/
def placedBytes : Mem := (List.range 8).map fun a => (a, 0#8)

/-- The cursor that is about to deliver the four control bits of a placed CWC prefix, first bit most
significant, then 28 zero bits; byte-aligned fields follow at offset 0. -/
def placedCursor (policy : RefillPolicy) (w : Nat) : Cursor :=
  ⟨0, 8, .msb, .w32, policy, 0, (w % 16) <<< 60, 32⟩

/-- A running `CWC_DECODE` whose next opcode has the given prefix. -/
def placeCwc (s : State) (w : Nat) : State :=
  { s with
    inMem := placedBytes
    inLen := 8
    cmd := some .cwcDecode
    status := .busy
    err := .noError
    work := { s.work with cur := placedCursor s.cfg.cwcRefillPolicy w }
    phase := .stream .cwcOp
    pending := [] }

/-- Place a row of the opcode table: a value that names a command is written to `CMD`, any other is a
CWC prefix (`Sys2Proof.decodeTableWord`). -/
def placeWord (s : State) (w : Nat) : State :=
  match Command.ofCode w with
  | some _ => placeCommand s w
  | none => placeCwc s w

end Sys2Proof.Machine
end

