-- ==== Sys2Proof/Machine/Flags.lean ====
section
/-! DEFINITION. The engine has no condition codes and no arithmetic flags; the only one-bit outcomes a
step leaves behind are in `STATUS`, `ERR` and `HVALID` (R46). This file gives the host's view of
them and of the other readable registers and memories (R27, R290, R321). -/

namespace Sys2Proof.Machine

open Sys2Proof

/-- The numeric value of `STATUS` (R27). -/
def Status.code : Status → Nat
  | .idle => 0
  | .busy => 1
  | .done => 2
  | .error => 3

/-- The numeric value of `ERR`, 4 bits (R28, R321). -/
def ErrKind.code : ErrKind → BitVec 4
  | .noError => 0
  | .headerInvalid => 1
  | .fileIsNotRnc => 2
  | .packedCrcError => 3
  | .unpackedCrcError => 4
  | .bitstreamUnderrun => 5
  | .hufDecodeError => 6
  | .incompleteDictionary => 7
  | .outputOverrun => 8
  | .fileSizeMismatch => 9

/-- The host reads `STATUS` (R290). -/
def hostReadStatus (s : State) : Nat := s.status.code

/-- The host reads `ERR` (R290). -/
def hostReadErr (s : State) : BitVec 4 := s.err.code

/-- The host reads `OUT_LEN` (R290, R292). -/
def hostReadOutLen (s : State) : Nat := s.outLen

/-- The host reads `HVALID` (R290). -/
def hostReadHvalid (s : State) : Bool := s.hvalid

/-- The host reads `HROOT` (R290); while `HVALID = 0` any value (spec/93 I10). -/
def hostReadHroot (s : State) : Byte := if s.hvalid then s.hroot else Config.unspecifiedHroot

/-- The host reads `OUT[a]`: the result byte while `STATUS = DONE` and `a < OUT_LEN` (R290, R356), else
any value (R298, spec/93 I1, I2, I7). -/
def hostReadOut (s : State) (a : Nat) : Byte :=
  if s.status = .done ∧ a < s.outLen then
    match s.outMem.read a with
    | some b => b
    | none => Config.unspecifiedOut a
  else Config.unspecifiedOut a

/-- The value of `CMD` (R26). The spec lets the host write it, not read it (R290). -/
def cmdCode (s : State) : Nat :=
  match s.cmd with
  | some c => c.code
  | none => 0

end Sys2Proof.Machine
end

