-- ==== Sys2Proof/Safety.lean ====
section
/-! DEFINITION. The vocabulary of the claims: what a safe step is, the invariants of the machine, and
short names for the parts of a state that claims speak of. -/

namespace Sys2Proof.Machine

open Sys2Proof

/-! ## Safe steps -/

/-- The step answers a next state: neither a fault nor a refusal. -/
def Completes (o : Host.Outcome State Fault Refusal) : Prop := ∃ t, o = .next t

/-! ## Parts of a state -/

/-- The state with another cursor. -/
def State.withCur (s : State) (c : Cursor) : State := { s with work := { s.work with cur := c } }

/-- The state with another result of the last cursor operation (MODEL register). -/
def State.withRes (s : State) (v : Nat) : State := { s with work := { s.work with res := v } }

/-- The cursor of a state. -/
def State.cur (s : State) : Cursor := s.work.cur

/-- The bytes of `IN` from `a` upward are the given ones, all of them below `IN_LEN`. -/
def State.inHas (s : State) (a : Nat) : List Byte → Prop
  | [] => True
  | b :: bs => a < s.inLen ∧ s.inMem.read a = some b ∧ s.inHas (a + 1) bs

/-- Every byte of `IN` below `IN_LEN` has been written (R352: the host writes them all before it
issues a command). -/
def State.loaded (s : State) : Prop := ∀ a < s.inLen, (s.inMem.read a).isSome = true

/-- Every byte of `OUT` below `OUT_LEN` has been written. -/
def State.outFilled (s : State) : Prop := ∀ a < s.outLen, (s.outMem.read a).isSome = true

/-- There is room for `n` more bytes of output: the declared length and the capacity allow them. -/
def State.roomFor (s : State) (n : Nat) : Prop :=
  s.outLen + n ≤ s.work.declLen.toNat ∧ s.outLen + n ≤ s.cfg.outCap

/-- Only `OUT`, `OUT_LEN` and the working registers may differ. -/
def State.sameButOutWork (s t : State) : Prop :=
  { t with outMem := s.outMem, outLen := s.outLen, work := s.work } = s

/-- `t` has the `OUT` of `s` with the bytes `out 0 .. out (n - 1)` appended. -/
def State.appended (s t : State) (n : Nat) (out : Nat → Option Byte) : Prop :=
  t.outLen = s.outLen + n ∧ (∀ k < n, t.outMem.read (s.outLen + k) = out k) ∧
    ∀ a, a < s.outLen ∨ s.outLen + n ≤ a → t.outMem.read a = s.outMem.read a

/-- The number that bytes in address order stand for, least significant first (R17, R64). -/
def leNat : List Byte → Nat
  | [] => 0
  | b :: bs => b.toNat + 256 * leNat bs

/-- The checksum of bytes under the machine's parameters (R170, R172). -/
def State.checksum (s : State) (bytes : List Byte) : Word16 :=
  bytes.foldl (crcUpdate s.cfg.rncCrcTable) s.cfg.rncCrcInit

/-- `n` bytes of `IN` from offset `a`; a byte without value counts as 0 (claims assume that there is none). -/
def State.bytesAt (s : State) (a n : Nat) : List Byte :=
  (List.range n).map fun k => (s.inMem.read (a + k)).getD 0#8

/-- The bytes of `OUT` below `OUT_LEN`; a byte without value counts as 0 (claims assume that there is none). -/
def State.outBytes (s : State) : List Byte := (List.range s.outLen).map fun k => (s.outMem.read k).getD 0#8

/-! ## The cursor, by its layout (R33) -/

/-- The cursor of the RNC profile (R11). -/
def Cursor.isRnc (c : Cursor) : Prop := c.order = .lsb ∧ c.width = .w16 ∧ c.policy = .onDemand

/-- The cursor of the CWC profile under a refill policy (R11). -/
def Cursor.isCwc (c : Cursor) (p : RefillPolicy) : Prop :=
  c.order = .msb ∧ c.width = .w32 ∧ c.policy = p

/-- The next bit to consume, as a number (R33): bit 0 of the register, or its most significant bit. -/
def Cursor.front (c : Cursor) : Nat :=
  match c.order with
  | .lsb => c.sr % 2
  | .msb => c.sr / 2 ^ (2 * c.width.bits - 1) % 2

/-- The cursor with its next `n` pending bits consumed (R33): the register moved down, or up within its
width. -/
def Cursor.dropped (c : Cursor) (n : Nat) : Cursor :=
  { c with
    sr := match c.order with
      | .lsb => c.sr / 2 ^ n
      | .msb => c.sr * 2 ^ n % 2 ^ (2 * c.width.bits)
    cnt := c.cnt - n }

/-- The cursor with the refill word `w` behind its pending bits (R33): above them, or below them. -/
def Cursor.withWord (c : Cursor) (w : Nat) : Cursor :=
  { c with
    sr := match c.order with
      | .lsb => c.sr ||| w <<< c.cnt
      | .msb => c.sr ||| w <<< (c.width.bits - c.cnt)
    cnt := c.cnt + c.width.bits
    pos := c.pos + c.width.bytes }

/-- Every bit of `sr` outside the pending field is 0, and there are at most `2W - 1` pending bits
(R33, R34). -/
def Cursor.clean (c : Cursor) : Prop :=
  c.cnt ≤ 2 * c.width.bits - 1 ∧
    match c.order with
    | .lsb => c.sr < 2 ^ c.cnt
    | .msb => c.sr < 2 ^ (2 * c.width.bits) ∧ 2 ^ (2 * c.width.bits - c.cnt) ∣ c.sr

/-- The next refill word of the state's cursor has the given bytes and lies in the range. -/
def State.nextWord (s : State) (bytes : List Byte) : Prop :=
  bytes.length = s.cur.width.bytes ∧ s.cur.pos + s.cur.width.bytes ≤ s.cur.fin ∧ s.inHas s.cur.pos bytes

/-- The bytes that follow at the cursor's byte position are the given ones and lie in the range. -/
def State.nextBytes (s : State) (bytes : List Byte) : Prop :=
  s.cur.pos + bytes.length ≤ s.cur.fin ∧ s.inHas s.cur.pos bytes

/-! ## Control fields of the RNC stream

The control bits that an RNC cursor has before it are its pending bits, then the bits of the 16-bit
words at its byte position, as long as no byte-aligned field is read in between (R93, R131). -/

/-- How many words must be loaded before `n` control bits can have been consumed. -/
def Cursor.wordsFor (c : Cursor) (n : Nat) : Nat := (n - c.cnt + 15) / 16

/-- The pending bits and those of the next `q` words, as one number, first stream bit in bit 0. -/
def State.ctlBuffer (s : State) (q : Nat) : Nat :=
  s.cur.sr + 2 ^ s.cur.cnt * leNat (s.bytesAt s.cur.pos (2 * q))

/-- The field of `n` control bits that follows the next `o` control bits, first stream bit in bit 0. -/
def State.ctlField (s : State) (o n : Nat) : Nat :=
  s.ctlBuffer (s.cur.wordsFor (o + n)) / 2 ^ o % 2 ^ n

/-- The cursor after `n` control bits have been consumed. -/
def State.ctlSkip (s : State) (n : Nat) : Cursor :=
  { s.cur with
    pos := s.cur.pos + 2 * s.cur.wordsFor n
    sr := s.ctlBuffer (s.cur.wordsFor n) / 2 ^ n
    cnt := s.cur.cnt + 16 * s.cur.wordsFor n - n }

/-- An RNC cursor in order, with `n` control bits before it. -/
def State.ctlReady (s : State) (n : Nat) : Prop :=
  s.cur.isRnc ∧ s.cur.clean ∧ s.cur.pos + 2 * s.cur.wordsFor n ≤ s.cur.fin ∧ s.cur.fin ≤ s.inLen ∧ s.loaded

/-- The leaf of a table that the next control bits select: its code comes next, no earlier leaf's code
does, and no earlier leaf is longer (R166; tables are ordered by length, R163). -/
def State.selects (s : State) (leaves : List HuffLeaf) (leaf : HuffLeaf) : Prop :=
  leaf.len ≤ 15 ∧ s.ctlField 0 leaf.len = leaf.code ∧
    ∃ before after, leaves = before ++ leaf :: after ∧
      ∀ l ∈ before, l.len ≤ leaf.len ∧ s.ctlField 0 l.len ≠ l.code

/-- The three causes for which no number can be decoded with a table (R166, R167): the table is empty, the
next control bits match none of its codes, or they select a leaf whose value is above 17. -/
def State.undecodable (s : State) (leaves : List HuffLeaf) : Prop :=
  leaves = [] ∨
  (s.ctlReady 15 ∧ ∀ l ∈ leaves, l.len ≤ 15 ∧ s.ctlField 0 l.len ≠ l.code) ∨
  ∃ leaf, s.selects leaves leaf ∧ s.ctlReady leaf.len ∧ 18 ≤ leaf.value

/-- The control bits of a number whose code is the leaf's: code and extension (R99). -/
def HuffLeaf.bits (leaf : HuffLeaf) : Nat := leaf.len + (leaf.value - 1)

/-- The number that the next control bits stand for, if their code is the leaf's (R99, R167). -/
def State.hufNumber (s : State) (leaf : HuffLeaf) : Nat :=
  if leaf.value < 2 then leaf.value
  else 2 ^ (leaf.value - 1) + s.ctlField leaf.len (leaf.value - 1)

/-! ## Canonical codes (R163, R164) -/

/-- The first canonical code of each length (R163): 0 for length 1, and for the next length twice the
code that follows the last one of this length. Length 0 gets no code. -/
def firstCode (lens : List Nat) : Nat → Nat
  | 0 => 0
  | l + 1 => 2 * (firstCode lens l + if l = 0 then 0 else lens.count l)

/-- The canonical code of value `i` with length `l` (R163): codes of one length are consecutive in the
order of the values. -/
def canonicalCode (lens : List Nat) (i l : Nat) : Nat := firstCode lens l + (lens.take i).count l

/-! ## Control bits of the CWC stream

The control bits that a CWC cursor has before it are its pending bits, then those of the 32-bit words at
its byte position, most significant bit first. Where the position stands after some of them depends on
the refill policy (R135, R240). -/

/-- The number that bits stand for, the first one the most significant (R136). -/
def msbNat (bits : List Bool) : Nat := bits.foldl (fun v b => 2 * v + b.toNat) 0

/-- How many words are loaded while `n` control bits are consumed (R135): under `on_demand` as many as
they need, under `on_exhaust` one more where they end with a word. -/
def Cursor.loadsFor (c : Cursor) (n : Nat) : Nat :=
  match c.policy with
  | .onDemand => (n - c.cnt + 31) / 32
  | .onExhaust => (n + 1 - c.cnt + 31) / 32

/-- The pending bits, next one first (R33). -/
def Cursor.pendingBits (c : Cursor) : List Bool := bitsMsbFirst c.cnt (c.sr / 2 ^ (64 - c.cnt))

/-- The pending bits and those of the next `q` words (R64, R131). -/
def State.cwcBits (s : State) (q : Nat) : List Bool :=
  s.cur.pendingBits ++
    (List.range q).flatMap fun j => bitsMsbFirst 32 (leNat (s.bytesAt (s.cur.pos + 4 * j) 4))

/-- The next `n` control bits. -/
def State.cwcCtl (s : State) (n : Nat) : List Bool := (s.cwcBits (s.cur.loadsFor n)).take n

/-- The cursor after `n` control bits have been consumed: what is left of the loaded bits stands at the
top of the register. -/
def State.cwcSkip (s : State) (n : Nat) : Cursor :=
  { s.cur with
    pos := s.cur.pos + 4 * s.cur.loadsFor n
    sr := msbNat ((s.cwcBits (s.cur.loadsFor n)).drop n) * 2 ^ (64 - ((s.cwcBits (s.cur.loadsFor n)).drop n).length)
    cnt := ((s.cwcBits (s.cur.loadsFor n)).drop n).length }

/-- A CWC cursor in order (R11, R33 to R35). -/
def Cursor.cwcOk (c : Cursor) : Prop :=
  c.order = .msb ∧ c.width = .w32 ∧ c.clean ∧ (c.policy = .onExhaust → 1 ≤ c.cnt)

/-- A CWC cursor in order, with `n` control bits before it and every word in the range that consuming them
loads. -/
def State.cwcReady (s : State) (n : Nat) : Prop :=
  s.cur.cwcOk ∧ s.cur.pos + 4 * s.cur.loadsFor n ≤ s.cur.fin ∧
    s.inHas s.cur.pos (s.bytesAt s.cur.pos (4 * s.cur.loadsFor n))

/-! ## Node records and trees -/

/-- `NODE[i]`, where its four bytes have been written. -/
def State.nodeAt (s : State) (i : Nat) : Option NodeRec := do
  let lv ← s.nodeMem.read (4 * i)
  let lt ← s.nodeMem.read (4 * i + 1)
  let rv ← s.nodeMem.read (4 * i + 2)
  let rt ← s.nodeMem.read (4 * i + 3)
  some ⟨lv, lt, rv, rt⟩

/-- Record `i` of the table in `IN`, where it is present (R106, R261). -/
def State.tableAt (s : State) (i : Nat) : Option NodeRec :=
  if i < s.nodeCount then do
    let lv ← s.inMem.read (4 * i + s.cfg.hufNodeLayout.lv.val)
    let lt ← s.inMem.read (4 * i + s.cfg.hufNodeLayout.lt.val)
    let rv ← s.inMem.read (4 * i + s.cfg.hufNodeLayout.rv.val)
    let rt ← s.inMem.read (4 * i + s.cfg.hufNodeLayout.rt.val)
    some ⟨lv, lt, rv, rt⟩
  else none

/-- The dictionary can be walked from its root: every record has been written and every half that is
no leaf names a record (R266 (c)). -/
def State.walkable (s : State) : Prop :=
  s.hroot.toNat < 255 ∧
    ∀ i < 255, ∃ r, s.nodeAt i = some r ∧
      (r.lt ≠ 0#8 → r.lv.toNat < 255) ∧ (r.rt ≠ 0#8 → r.rv.toNat < 255)

/-- A binary decode tree: a leaf value, or the record of an internal node with its two halves. -/
inductive HufTree
  | leaf (v : Byte)
  | node (i : Nat) (left right : HufTree)
  deriving DecidableEq, Repr

/-- The records of a tree. -/
def HufTree.nodes : HufTree → List Nat
  | .leaf _ => []
  | .node i l r => i :: (l.nodes ++ r.nodes)

/-- The leaf values of a tree, left to right. -/
def HufTree.leaves : HufTree → List Byte
  | .leaf v => [v]
  | .node _ l r => l.leaves ++ r.leaves

/-- A half `(v, t)` of a record describes a tree: a leaf with value `v` for flag 0, the record `v` for
flag 1 (R106). -/
def HufTree.isHalf : HufTree → Byte → Byte → Prop
  | .leaf w, v, t => t = 0#8 ∧ v = w
  | .node i _ _, v, t => t = 1#8 ∧ v.toNat = i

/-- The records of a table spell out the tree. -/
def HufTree.spelled (table : Nat → Option NodeRec) : HufTree → Prop
  | .leaf _ => True
  | .node i l r => ∃ e, table i = some e ∧ l.isHalf e.lv e.lt ∧ r.isHalf e.rv e.rt ∧
      l.spelled table ∧ r.spelled table

/-- A proper tree at record `r` of a table: no record twice, 256 distinct leaf values (R266). -/
def ProperTreeAt (table : Nat → Option NodeRec) (r : Nat) (tree : HufTree) : Prop :=
  ∃ left right, tree = .node r left right ∧ tree.spelled table ∧ tree.nodes.Nodup ∧
    tree.leaves.Nodup ∧ tree.leaves.length = 256

/-- The path of bits from a record to a leaf value: 0 takes the left half, 1 the right (R108, R271). -/
def State.pathTo (s : State) : Nat → List Bool → Byte → Prop
  | _, [], _ => False
  | i, [b], v => ∃ r, s.nodeAt i = some r ∧ (if b then r.rt else r.lt) = 0#8 ∧ (if b then r.rv else r.lv) = v
  | i, b :: bs, v => ∃ r, s.nodeAt i = some r ∧ (if b then r.rt else r.lt) ≠ 0#8 ∧
      s.pathTo (if b then r.rv else r.lv).toNat bs v

/-- The bits that the tree decoder reads next, from bit `k` on, counted from bit 0 of `IN[0]` (R107). -/
def State.bitsAt (s : State) (k : Nat) : List Bool → Prop
  | [] => True
  | b :: bs => k / 8 < s.inLen ∧ (∃ v, s.inMem.read (k / 8) = some v ∧ v.getLsbD (k % 8) = b) ∧
      s.bitsAt (k + 1) bs

/-- Where the tree decoder stands in `IN`, in bits (R45). -/
def State.hufBit (s : State) : Nat := 8 * s.work.hbyte + s.work.hbit.val

/-- A sequence of symbols: each one a path from the root to a leaf value. -/
def State.spells (s : State) : List (List Bool × Byte) → Prop
  | [] => True
  | (bits, v) :: rest => s.pathTo s.hroot.toNat bits v ∧ s.spells rest

/-! ## Invariants -/

/-- The registers and memories agree with each other, between any two steps. -/
structure State.Inv (s : State) : Prop where
  /-- The memories are canonical. -/
  inWf : s.inMem.wf = true
  outWf : s.outMem.wf = true
  nodeWf : s.nodeMem.wf = true
  /-- `IN_LEN <= IN_CAP` (R25). -/
  inCap : s.inLen ≤ s.cfg.inCap
  /-- No byte of `OUT` at or beyond `OUT_LEN` has a value, every byte below has one (R23). -/
  outExact : ∀ a, (s.outMem.read a).isSome = true ↔ a < s.outLen
  /-- `OUT_LEN <= OUT_CAP` (R29). -/
  outCap : s.outLen ≤ s.cfg.outCap
  /-- `ERR` is `None` unless `STATUS` is `ERROR` (R28). -/
  errStatus : s.err = .noError ↔ s.status ≠ .error
  /-- `OUT_LEN` is 0 unless a command runs or is done (R29, R324). -/
  outStatus : s.status = .idle ∨ s.status = .error → s.outLen = 0
  /-- The engine stands in a command exactly while `BUSY`. -/
  phaseBusy : s.phase = .idle ↔ s.status ≠ .busy
  /-- A running command is the one in `CMD`. -/
  phaseCmd : (s.phase = .header → s.cmd ≠ none) ∧ ∀ slot, s.phase = .stream slot → s.cmd = some slot.command
  /-- A command that has not read its header has produced nothing (R50). -/
  headerFresh : s.phase = .header → s.outLen = 0
  /-- `OUT_LEN <= DECL_LEN <= OUT_CAP` once the header has been read (R71). -/
  declared : ∀ slot, s.phase = .stream slot →
    s.outLen ≤ s.work.declLen.toNat ∧ s.work.declLen.toNat ≤ s.cfg.outCap
  /-- A valid dictionary can be walked from its root, which is a record index (R30, R266 (c)). -/
  dictionary : s.hvalid = true → s.walkable
  /-- A chunk runs on a valid dictionary and stands on one of its records (R45, R268). -/
  chunk : s.phase = .stream .hufSym → s.hvalid = true ∧ s.work.hnode.toNat < 255

/-- The cursor invariant (R32 to R35): the position lies in the range, the range lies in `IN`, the
register is clean, and under `on_exhaust` at least one bit is pending from `PRIME` onward. -/
def State.cursorOk (s : State) : Prop :=
  s.cur.base ≤ s.cur.pos ∧ s.cur.pos ≤ s.cur.fin ∧ s.cur.fin ≤ s.inLen ∧ s.cur.clean ∧
    (s.cur.policy = .onExhaust → 1 ≤ s.cur.cnt)

/-- The cursor invariant while a command that uses the cursor runs: the RNC profile, just configured
before `RNC.PRIME`; the CWC profile, primed. -/
def State.CursorInv (s : State) : Prop :=
  (s.phase = .stream .rncPrime →
    s.cur.isRnc ∧ s.cursorOk ∧ s.cur.cnt = 0 ∧ s.cur.pos = s.cur.base) ∧
  (∀ slot, s.phase = .stream slot → slot.command = .rncDecode → s.cur.isRnc ∧ s.cursorOk) ∧
  (s.phase = .stream .cwcOp → s.cur.isCwc s.cfg.cwcRefillPolicy ∧ s.cursorOk)

end Sys2Proof.Machine
end

