-- ==== Sys2Proof/Certificates/Slice0/Obligations.lean ====
section
/-! DEFINITION. The statements for the provers, group by group: encodings, the bit cursor, output and
checksum, RNC tables, RNC opcodes, CWC opcodes, the tree decoder, whole commands, and the steps and
host actions of the machine. All of them quantify over the state, and so over all parameters. -/

open Sys2Proof Sys2Proof.Machine

/-! ## Encodings -/

/-- Words written out from spec/30_encoding.md (R101 to R105, R114) decode to their instructions, in a
stream with `CWC_BITS = 4` and `CWC_SPECIAL_BASE = 2`. -/
def Obligations.DecodeSampleWords : Prop :=
  decode ⟨4, 2⟩ .cmd ⟨[], [0x01#8]⟩ = .ok (.rncDecode, ⟨[], []⟩) ∧
  decode ⟨4, 2⟩ .cmd ⟨[], [0x05#8]⟩ = .error .noSuchCommand ∧
  decode ⟨4, 2⟩ (.stream .rncRaw) ⟨[], []⟩ = .ok (.rncRaw, ⟨[], []⟩) ∧
  decode ⟨4, 2⟩ (.stream .hufSym) ⟨[], []⟩ = .ok (.hufSym, ⟨[], []⟩) ∧
  decode ⟨4, 2⟩ (.stream .cwcOp) ⟨[true], []⟩ = .ok (.cwcLit, ⟨[], []⟩) ∧
  decode ⟨4, 2⟩ (.stream .cwcOp) ⟨[false, true, false, true], [0x00#8]⟩ = .ok (.cwcShortRun 3, ⟨[], []⟩) ∧
  decode ⟨4, 2⟩ (.stream .cwcOp) ⟨[false, true, true, false], [0x07#8]⟩ = .ok (.cwcShortCopy 4 7, ⟨[], []⟩) ∧
  decode ⟨4, 2⟩ (.stream .cwcOp) ⟨[false, false, true], [0x21#8, 0x00#8]⟩ = .ok (.cwcMedCopy 3 2, ⟨[], []⟩) ∧
  decode ⟨4, 2⟩ (.stream .cwcOp) ⟨[false, false, false], [0xA2#8, 0x00#8, 0x00#8]⟩ = .ok (.cwcLongCopy 4 10, ⟨[], []⟩) ∧
  decode ⟨4, 2⟩ (.stream .cwcOp) ⟨[false, false, false], [0x00#8, 0x00#8, 0x00#8]⟩ = .ok (.cwcLongTerm, ⟨[], []⟩) ∧
  decode ⟨4, 2⟩ (.stream .cwcOp) ⟨[false, false, false], [0x03#8, 0x00#8, 0x00#8]⟩ = .ok (.cwcLongLitstr, ⟨[], []⟩) ∧
  decode ⟨4, 2⟩ (.stream .cwcOp) ⟨[false, false, false], [0x06#8, 0x00#8, 0x00#8]⟩ = .ok (.cwcLongRun 8, ⟨[], []⟩)

/-- Decoding the encoding of a well-formed instruction, whatever follows it, gives the instruction and
what follows. -/
def Obligations.DecodeOfEncode : Prop :=
  ∀ (c : CwcCtx) (i : Instr) (pl : Place) (p rest : Parcel),
    i.wf c = true → encode c i = some (pl, p) → decode c pl (p.append rest) = .ok (i, rest)

/-- Encoding a decoded instruction gives back the bits and bytes it was decoded from: no two words mean
the same instruction, and no bit of a word is dropped. -/
def Obligations.EncodeOfDecode : Prop :=
  ∀ (c : CwcCtx) (pl : Place) (p rest : Parcel) (i : Instr),
    decode c pl p = .ok (i, rest) → ∃ q, encode c i = some (pl, q) ∧ p = q.append rest

/-- What the decoder answers is well formed, for every `CWC_BITS` that the header check admits. -/
def Obligations.DecodedIsWellFormed : Prop :=
  ∀ (c : CwcCtx) (pl : Place) (p rest : Parcel) (i : Instr),
    c.bits ≤ 24 → decode c pl p = .ok (i, rest) → i.wf c = true

/-- No control pattern is illegal: four control bits and three bytes decode to an opcode, whatever they
are (R101). -/
def Obligations.CwcPrefixCodeComplete : Prop :=
  ∀ (c : CwcCtx) (p : Parcel), 4 ≤ p.ctl.length → 3 ≤ p.bytes.length →
    ∃ i rest, decode c (.stream .cwcOp) p = .ok (i, rest)

/-! ## The bit cursor -/

/-- `REFILL` (R133): the next word goes behind the pending bits, or, where the whole word does not lie in
the range, `BitstreamUnderrun`. `PRIME` (R132), on a cursor just configured, is the same operation, and
leaves the first word with its first bit next. -/
def Obligations.RefillAndPrimeLoadWord : Prop :=
  ∀ (s : State) (bytes : List Byte), s.cur.cnt < s.cur.width.bits →
    (s.nextWord bytes → exec .refill s = .next (s.withCur (s.cur.withWord (leNat bytes)))) ∧
    (s.cur.fin < s.cur.pos + s.cur.width.bytes →
      exec .refill s = .next (s.errorEntry .bitstreamUnderrun)) ∧
    (s.cur.cnt = 0 → s.cur.pos = s.cur.base → exec .prime s = exec .refill s) ∧
    (s.cur.cnt = 0 → s.cur.pos = s.cur.base → s.cur.sr = 0 → s.nextWord bytes →
      exec .prime s = .next (s.withCur { s.cur with
        pos := s.cur.base + s.cur.width.bytes
        sr := match s.cur.order with
          | .lsb => leNat bytes
          | .msb => leNat bytes * 2 ^ s.cur.width.bits
        cnt := s.cur.width.bits }))

/-- `READ_BIT` (R135, R134): under `on_demand` a word is loaded when a bit is needed and none is pending,
under `on_exhaust` as soon as the last pending bit is consumed. The result stands in the model's
register `res` (log entry 16). -/
def Obligations.ReadBitUnderBothPolicies : Prop :=
  ∀ (s : State) (bytes : List Byte),
    (s.cur.policy = .onDemand →
      (1 ≤ s.cur.cnt → exec .readBit s = .next ((s.withCur (s.cur.dropped 1)).withRes s.cur.front)) ∧
      (s.cur.cnt = 0 → s.nextWord bytes → exec .readBit s =
        .next ((s.withCur ((s.cur.withWord (leNat bytes)).dropped 1)).withRes (s.cur.withWord (leNat bytes)).front)) ∧
      (s.cur.cnt = 0 → s.cur.fin < s.cur.pos + s.cur.width.bytes →
        exec .readBit s = .next (s.errorEntry .bitstreamUnderrun))) ∧
    (s.cur.policy = .onExhaust →
      (2 ≤ s.cur.cnt → exec .readBit s = .next ((s.withCur (s.cur.dropped 1)).withRes s.cur.front)) ∧
      (s.cur.cnt = 1 → s.nextWord bytes → exec .readBit s =
        .next ((s.withCur ((s.cur.dropped 1).withWord (leNat bytes))).withRes s.cur.front)) ∧
      (s.cur.cnt = 1 → s.cur.fin < s.cur.pos + s.cur.width.bytes →
        exec .readBit s = .next (s.errorEntry .bitstreamUnderrun)))

/-- `READ_BITS(n)` in the RNC profile (R136): the next `n` control bits, the first one in bit 0, with as
many words loaded as they need and no more; an underrun where a word is missing. The result stands in
the model's register `res` (log entry 16). -/
def Obligations.ReadBitsLsbFirst : Prop :=
  ∀ (s : State) (n : Nat), n ≤ 16 →
    (s.ctlReady n → exec (.readBits n) s = .next ((s.withCur (s.ctlSkip n)).withRes (s.ctlField 0 n))) ∧
    (s.cur.isRnc → s.cur.cnt < n → s.cur.fin < s.cur.pos + 2 →
      exec (.readBits n) s = .next (s.errorEntry .bitstreamUnderrun))

/-- `READ_BITS(n)` in the CWC profile (R136): the first bit is the most significant. With more than `n`
pending bits nothing is loaded; across a refill word the position moves by the policy (R135); where the
word does not lie in the range, `BitstreamUnderrun`. The result stands in the model's register `res`
(log entry 16). -/
def Obligations.ReadBitsMsbFirst : Prop :=
  ∀ (s : State) (n : Nat),
    (s.cur.order = .msb → s.cur.sr < 2 ^ (2 * s.cur.width.bits) → n ≤ s.cur.width.bits → n < s.cur.cnt →
      exec (.readBits n) s =
        .next ((s.withCur (s.cur.dropped n)).withRes (s.cur.sr / 2 ^ (2 * s.cur.width.bits - n)))) ∧
    (n ≤ 32 → s.cwcReady n →
      exec (.readBits n) s = .next ((s.withCur (s.cwcSkip n)).withRes (msbNat (s.cwcCtl n)))) ∧
    (n ≤ 32 → s.cur.cwcOk → 1 ≤ s.cur.loadsFor n → s.cur.fin < s.cur.pos + 4 →
      exec (.readBits n) s = .next (s.errorEntry .bitstreamUnderrun))

/-- For the RNC profile `READ_BITS(n)` is `PEEK_BITS(n)` and then `SKIP_BITS(n)`: the same value, the same
cursor, the same error (R136). The result stands in the model's register `res` (log entry 16). -/
def Obligations.ReadBitsIsPeekThenSkip : Prop :=
  ∀ (s t : State) (n : Nat), s.cur.isRnc → s.cur.clean → n ≤ 16 → s.status = .busy →
    exec (.peekBits n) s = .next t →
    (t.status = .busy → exec (.skipBits n) t = exec (.readBits n) s) ∧
    (t.status ≠ .busy → exec (.readBits n) s = .next t)

/-- `PEEK_BITS(n)` (R137): the low `n` bits, after at most one refill, which stands. The result stands
in the model's register `res` (log entry 16). -/
def Obligations.PeekBitsKeepsBits : Prop :=
  ∀ (s : State) (n : Nat) (bytes : List Byte),
    s.cur.order = .lsb → s.cur.policy = .onDemand → n ≤ s.cur.width.bits →
    (n ≤ s.cur.cnt → exec (.peekBits n) s = .next (s.withRes (s.cur.sr % 2 ^ n))) ∧
    (s.cur.cnt < n → s.nextWord bytes → exec (.peekBits n) s =
      .next ((s.withCur (s.cur.withWord (leNat bytes))).withRes ((s.cur.withWord (leNat bytes)).sr % 2 ^ n))) ∧
    (s.cur.cnt < n → s.cur.fin < s.cur.pos + s.cur.width.bytes →
      exec (.peekBits n) s = .next (s.errorEntry .bitstreamUnderrun))

/-- `SKIP_BITS(n)` (R138): `n` pending bits are consumed, in either bit order, and nothing else changes;
`REALIGN` (R142) changes nothing. -/
def Obligations.SkipDropsAndRealignKeeps : Prop :=
  ∀ (s : State) (n : Nat),
    (n ≤ s.cur.cnt → s.cur.sr < 2 ^ (2 * s.cur.width.bits) →
      exec (.skipBits n) s = .next (s.withCur (s.cur.dropped n))) ∧
    exec .realign s = .next s

/-- `READ_BYTE`, `READ_U16`, `READ_U24` (R139 to R141): the field at the byte position, little-endian, the
pending bits untouched; no byte is consumed where the field does not lie in the range. The result stands
in the model's register `res` (log entry 16). -/
def Obligations.ByteAlignedReads : Prop :=
  ∀ (s : State) (b0 b1 b2 : Byte),
    (s.nextBytes [b0] → exec .readByte s =
      .next ((s.withCur { s.cur with pos := s.cur.pos + 1 }).withRes b0.toNat)) ∧
    (s.nextBytes [b0, b1] → exec .readU16 s =
      .next ((s.withCur { s.cur with pos := s.cur.pos + 2 }).withRes (b0.toNat + 256 * b1.toNat))) ∧
    (s.nextBytes [b0, b1, b2] → exec .readU24 s =
      .next ((s.withCur { s.cur with pos := s.cur.pos + 3 }).withRes
        (b0.toNat + 256 * b1.toNat + 65536 * b2.toNat))) ∧
    (s.cur.fin < s.cur.pos + 1 → exec .readByte s = .next (s.errorEntry .bitstreamUnderrun)) ∧
    (s.cur.fin < s.cur.pos + 2 → exec .readU16 s = .next (s.errorEntry .bitstreamUnderrun)) ∧
    (s.cur.fin < s.cur.pos + 3 → exec .readU24 s = .next (s.errorEntry .bitstreamUnderrun))

/-! ## Output and checksum -/

/-- `EMIT` (R71): one byte at the write position, or `FileSizeMismatch` at the declared length. -/
def Obligations.EmitAppendsOrFails : Prop :=
  ∀ (s : State) (b : Byte),
    (s.roomFor 1 → ∃ t, exec (.emit b) s = .next t ∧ s.sameButOutWork t ∧ t.work = s.work ∧
      s.appended t 1 fun _ => some b) ∧
    (s.work.declLen.toNat ≤ s.outLen → exec (.emit b) s = .next (s.errorEntry .fileSizeMismatch))

/-- `LZ_COPY` (R72): the distance is checked once; then each byte appended is the byte `D` behind the
write position of that moment, 0 in front of the output; the first byte without room is
`FileSizeMismatch`. R72 gives `CWC_DECODE` a zero history and `RNC_DECODE` none; that every other value of
`CMD` has none either is the model's (log entry 29). -/
def Obligations.LzCopyByteByByte : Prop :=
  ∀ (s : State) (dist len : Nat), 1 ≤ dist →
    ((s.cmd = some .cwcDecode ∧ s.outLen + s.cfg.zeroWindow < dist ∨
        s.cmd ≠ some .cwcDecode ∧ s.outLen < dist) →
      exec (.lzCopy dist len) s = .next (s.errorEntry .outputOverrun)) ∧
    ((s.cmd = some .cwcDecode ∧ dist ≤ s.outLen + s.cfg.zeroWindow ∨
        s.cmd ≠ some .cwcDecode ∧ dist ≤ s.outLen) → s.outFilled →
      s.outLen ≤ s.work.declLen.toNat → s.work.declLen.toNat ≤ s.cfg.outCap →
      (s.outLen + len ≤ s.work.declLen.toNat → ∃ t, exec (.lzCopy dist len) s = .next t ∧
        s.sameButOutWork t ∧ t.work = s.work ∧
        s.appended t len fun k =>
          if s.outLen + k < dist then some 0#8 else t.outMem.read (s.outLen + k - dist)) ∧
      (s.work.declLen.toNat < s.outLen + len →
        exec (.lzCopy dist len) s = .next (s.errorEntry .fileSizeMismatch)))

/-- An overlapping copy repeats the last `D` bytes of the output periodically (R75). -/
def Obligations.LzCopyRepeatsPeriodically : Prop :=
  ∀ (s : State) (dist len : Nat), 1 ≤ dist → dist ≤ s.outLen → s.outFilled → s.roomFor len →
    ∃ t, exec (.lzCopy dist len) s = .next t ∧ s.sameButOutWork t ∧ t.work = s.work ∧
      s.appended t len fun k => s.outMem.read (s.outLen - dist + k % dist)

/-- `CRC16` (R170): xor into the low byte, then the high byte xored with a table entry; nothing else
changes. -/
def Obligations.Crc16UpdatesChecksum : Prop :=
  ∀ (s : State) (b : Byte), exec (.crc16 b) s = .next { s with work := { s.work with
    crc := (s.work.crc ^^^ b.setWidth 16) >>> 8 ^^^
      s.cfg.rncCrcTable[(s.work.crc ^^^ b.setWidth 16).toNat % 256]'(Nat.mod_lt _ (by decide)) } }

/-! ## RNC tables -/

/-- `RNC.HUFTAB` (R160 to R165): a count of 0 keeps the table; else as many 4-bit lengths are read and the
table is replaced by their canonical table, or `HufDecodeError` where there is none. -/
def Obligations.HuftabLoadsTable : Prop :=
  ∀ (s : State) (t : TableId) (lens : List Nat),
    lens = (List.range (s.ctlField 0 5)).map (fun i => s.ctlField (5 + 4 * i) 4) →
    s.ctlReady (5 + 4 * lens.length) →
    (s.ctlField 0 5 = 0 → exec (.rncHuftab t) s = .next (s.withCur (s.ctlSkip 5))) ∧
    (s.ctlField 0 5 ≠ 0 →
      (∀ leaves, canonicalTable lens = some leaves → exec (.rncHuftab t) s =
        .next { s with work := { s.work with
          cur := s.ctlSkip (5 + 4 * lens.length)
          ht := s.work.ht.set t leaves } }) ∧
      (canonicalTable lens = none → exec (.rncHuftab t) s = .next (s.errorEntry .hufDecodeError)))

/-- No code of a canonical table is a prefix of another: in list order lengths do not fall, and no later
leaf's mirrored code begins with an earlier one's (R163, R169). -/
def Obligations.CanonicalTablePrefixFree : Prop :=
  ∀ (lens : List Nat) (leaves : List HuffLeaf), canonicalTable lens = some leaves →
    leaves.Pairwise fun a b => a.len ≤ b.len ∧ b.code % 2 ^ a.len ≠ a.code

/-- The leaves of a canonical table: each value with a length from 1 to 15 has exactly one, with that
length, and no other value has any (R162); shorter codes come first, equal lengths in the order of the
values (R163); each code is the canonical one of its value and length, mirrored (R163, R164). -/
def Obligations.CanonicalTableLeaves : Prop :=
  ∀ (lens : List Nat) (leaves : List HuffLeaf), canonicalTable lens = some leaves →
    (leaves.map HuffLeaf.value).Nodup ∧
    (∀ i l, (∃ leaf ∈ leaves, leaf.value = i ∧ leaf.len = l) ↔ lens[i]? = some l ∧ 1 ≤ l ∧ l ≤ 15) ∧
    (leaves.Pairwise fun a b => a.len < b.len ∨ a.len = b.len ∧ a.value < b.value) ∧
    ∀ leaf ∈ leaves, leaf.code < 2 ^ leaf.len ∧ canonicalCode lens leaf.value leaf.len < 2 ^ leaf.len ∧
      ∀ j < leaf.len, leaf.code.testBit j =
        (canonicalCode lens leaf.value leaf.len).testBit (leaf.len - 1 - j)

/-- Lengths have no canonical table exactly where their Kraft sum is above 1 (R111, R165, R168). -/
def Obligations.TableRejectedIffKraftAboveOne : Prop :=
  ∀ lens : List Nat, canonicalTable lens = none ↔
    2 ^ 15 < ((lens.filter fun l => 1 ≤ l && l ≤ 15).map fun l => 2 ^ (15 - l)).sum

/-- Every number below `2^17` has exactly one form as a leaf value up to 17 with its extension bits
(R99, R167). -/
def Obligations.GammaFormUnique : Prop :=
  ∀ n < 2 ^ 17, ∃! p : Nat × Nat, p.1 ≤ 17 ∧ p.2 < 2 ^ gammaBits p.1 ∧ gammaValue p.1 p.2 = n

/-! ## RNC opcodes -/

/-- `RNC.PRIME` (R185): the first word is loaded, two bits of any value are discarded. -/
def Obligations.RncPrimeDiscardsTwoBits : Prop :=
  ∀ (s : State) (b0 b1 : Byte), s.cur.isRnc → s.cur.cnt = 0 → s.cur.sr = 0 → s.cur.pos = s.cur.base →
    (s.nextBytes [b0, b1] → exec .rncPrime s = .next (s.withCur { s.cur with
      pos := s.cur.base + 2
      sr := (b0.toNat + 256 * b1.toNat) / 4
      cnt := 14 })) ∧
    (s.cur.fin < s.cur.base + 2 → exec .rncPrime s = .next (s.errorEntry .bitstreamUnderrun))

/-- `RNC.CHCNT` (R187, R95): the next 16 control bits become the tuple count. -/
def Obligations.RncChcntReadsCount : Prop :=
  ∀ s : State, s.ctlReady 16 → exec .rncChcnt s = .next { s with work := { s.work with
    cur := s.ctlSkip 16
    chcnt := BitVec.ofNat 16 (s.ctlField 0 16) } }

/-- `RNC.RAW` (R188, R189): the run length, then as many bytes at the byte position, then the tuple count
goes down by one, from 0 to `FFFF`. -/
def Obligations.RncRawAppendsRun : Prop :=
  ∀ (s : State) (leaf : HuffLeaf), s.selects s.work.ht.raw leaf → leaf.value ≤ 17 →
    s.ctlReady leaf.bits → (s.ctlSkip leaf.bits).pos + s.hufNumber leaf ≤ s.cur.fin →
    s.roomFor (s.hufNumber leaf) →
    ∃ t, exec .rncRaw s = .next t ∧ s.sameButOutWork t ∧
      t.work = { s.work with
        cur := { s.ctlSkip leaf.bits with pos := (s.ctlSkip leaf.bits).pos + s.hufNumber leaf }
        rncN := s.hufNumber leaf
        chcnt := s.work.chcnt - 1#16 } ∧
      s.appended t (s.hufNumber leaf) fun k => s.inMem.read ((s.ctlSkip leaf.bits).pos + k)

/-- `RNC.MATCH` (R190): distance plus 1, then length plus 2, then the copy, without zero history. -/
def Obligations.RncMatchCopies : Prop :=
  ∀ (s : State) (dl ll : HuffLeaf) (u : State) (d l : Nat),
    s.cmd = some .rncDecode → s.selects s.work.ht.dist dl → dl.value ≤ 17 → s.ctlReady dl.bits →
    u = s.withCur (s.ctlSkip dl.bits) → u.selects s.work.ht.len ll → ll.value ≤ 17 → u.ctlReady ll.bits →
    d = s.hufNumber dl + 1 → l = u.hufNumber ll + 2 →
    (s.outLen < d → exec .rncMatch s = .next (s.errorEntry .outputOverrun)) ∧
    (d ≤ s.outLen → s.outFilled → s.roomFor l →
      ∃ t, exec .rncMatch s = .next t ∧ s.sameButOutWork t ∧
        t.work = { s.work with cur := u.ctlSkip ll.bits, rncD := d, rncL := l } ∧
        s.appended t l fun k => s.outMem.read (s.outLen - d + k % d))

/-- Where no number can be decoded (R166, R167), for an empty table, no matching code, or a leaf value above
17, `HufDecodeError` ends the command: in `RNC.RAW` with the table `RAW`, in `RNC.MATCH` with the table
`DIST`, and, after its distance, with the table `LEN`. -/
def Obligations.HufDecodeErrors : Prop :=
  ∀ s : State,
    (s.undecodable s.work.ht.raw → exec .rncRaw s = .next (s.errorEntry .hufDecodeError)) ∧
    (s.undecodable s.work.ht.dist → exec .rncMatch s = .next (s.errorEntry .hufDecodeError)) ∧
    ∀ dl, s.selects s.work.ht.dist dl → dl.value ≤ 17 → s.ctlReady dl.bits →
      (s.withCur (s.ctlSkip dl.bits)).undecodable s.work.ht.len →
      exec .rncMatch s = .next (s.errorEntry .hufDecodeError)

/-! ## CWC opcodes (after their selection) -/

/-- `CWC.LIT` (R225): the byte at the byte position is appended; the read is checked before the room. -/
def Obligations.CwcLitAppendsByte : Prop :=
  ∀ (s : State) (b : Byte),
    (s.nextBytes [b] → s.roomFor 1 → ∃ t, exec .cwcLit s = .next t ∧ s.sameButOutWork t ∧
      t.work = { s.work with cur := { s.cur with pos := s.cur.pos + 1 }, cwcB := b } ∧
      s.appended t 1 fun _ => some b) ∧
    (s.cur.fin < s.cur.pos + 1 → exec .cwcLit s = .next (s.errorEntry .bitstreamUnderrun)) ∧
    (s.nextBytes [b] → s.work.declLen.toNat ≤ s.outLen →
      exec .cwcLit s = .next (s.errorEntry .fileSizeMismatch))

/-- The three run forms (R226 to R228, R232, R233): a fill byte, appended `L + 1` times. -/
def Obligations.CwcRunAppendsFill : Prop :=
  ∀ (s : State) (len : Nat) (fill : Byte) (i : Instr),
    i = .cwcShortRun len ∨ i = .cwcMedRun len ∨ i = .cwcLongRun len →
    (s.nextBytes [fill] → s.roomFor (len + 1) → ∃ t, exec i s = .next t ∧ s.sameButOutWork t ∧
      t.work = { s.work with cur := { s.cur with pos := s.cur.pos + 1 }, cwcB := fill } ∧
      s.appended t (len + 1) fun _ => some fill) ∧
    (s.cur.fin < s.cur.pos + 1 → exec i s = .next (s.errorEntry .bitstreamUnderrun)) ∧
    (s.nextBytes [fill] → s.outLen ≤ s.work.declLen.toNat → s.work.declLen.toNat ≤ s.cfg.outCap →
      s.work.declLen.toNat < s.outLen + (len + 1) →
      exec i s = .next (s.errorEntry .fileSizeMismatch))

/-- The three copy forms (R226 to R228, R233 to R235): `D = P - 1 + L`, and `L` bytes from `D` behind, which
were all there before the copy, or zeros in front of the output as far as the window reaches. -/
def Obligations.CwcCopyAppends : Prop :=
  ∀ (s : State) (len pos d : Nat) (i : Instr),
    i = .cwcShortCopy len pos ∨ i = .cwcMedCopy len pos ∨ i = .cwcLongCopy len pos →
    s.cmd = some .cwcDecode → 1 ≤ pos → 2 ≤ len → d = pos - 1 + len →
    (s.outLen + s.cfg.zeroWindow < d → exec i s = .next (s.errorEntry .outputOverrun)) ∧
    (d ≤ s.outLen + s.cfg.zeroWindow → s.outFilled → s.roomFor len →
      ∃ t, exec i s = .next t ∧ s.sameButOutWork t ∧ t.work = { s.work with cwcD := d } ∧
        s.appended t len fun k =>
          if s.outLen + k < d then some 0#8 else s.outMem.read (s.outLen + k - d))

/-- `CWC.LONG.TERM` (R229): the command is complete at the declared length, and fails at any other. The
two no-ops (R230) change nothing beyond what their selection consumed. -/
def Obligations.CwcTermAndNops : Prop :=
  ∀ s : State,
    (exec .cwcLongNopSrc s = .next s ∧ exec .cwcLongNopDst s = .next s) ∧
    (s.outLen = s.work.declLen.toNat → exec .cwcLongTerm s = .next s.complete) ∧
    (s.outLen ≠ s.work.declLen.toNat → exec .cwcLongTerm s = .next (s.errorEntry .fileSizeMismatch))

/-- `CWC.LONG.LITSTR` (R231): a count byte, then as many bytes appended verbatim. -/
def Obligations.CwcLitstrAppendsString : Prop :=
  ∀ (s : State) (c : Byte) (bytes : List Byte), bytes.length = c.toNat →
    (s.nextBytes (c :: bytes) → s.roomFor c.toNat → ∃ t, exec .cwcLongLitstr s = .next t ∧
      s.sameButOutWork t ∧
      t.work = { s.work with
        cur := { s.cur with pos := s.cur.pos + 1 + c.toNat }
        cwcC := c
        cwcB := bytes.getLast?.getD s.work.cwcB } ∧
      s.appended t c.toNat fun k => bytes[k]?) ∧
    (s.cur.fin < s.cur.pos + 1 → exec .cwcLongLitstr s = .next (s.errorEntry .bitstreamUnderrun))

/-! ## The tree decoder -/

/-- `HUF.SYM` (R271, R270, R108): the bits of a path from the node the walk stands on to a leaf append the
leaf's value and put the walk back on the root; with no bit left, `BitstreamUnderrun`; without a
dictionary, which R48 asks a model to stop on, the fault `noDictionary`. -/
def Obligations.HufSymFollowsPath : Prop :=
  (∀ s : State, s.inLen ≤ s.work.hbyte → exec .hufSym s = .next (s.errorEntry .bitstreamUnderrun)) ∧
  (∀ (s : State) (v : Byte), s.work.hbyte < s.inLen → s.inMem.read s.work.hbyte = some v →
    s.hvalid = false → exec .hufSym s = .fault .noDictionary) ∧
  ∀ (s : State) (bits : List Bool) (v : Byte), s.work.hnode.toNat < 255 →
    s.hvalid = true → s.pathTo s.work.hnode.toNat bits v → s.bitsAt s.hufBit bits → s.roomFor 1 →
    (∀ i r, s.nodeAt i = some r → (r.lt ≠ 0#8 → r.lv.toNat < 255) ∧ (r.rt ≠ 0#8 → r.rv.toNat < 255)) →
    ∃ t, exec .hufSym s = .next t ∧ s.sameButOutWork t ∧
      t.hufBit = s.hufBit + bits.length ∧
      t.work = { s.work with hbyte := t.work.hbyte, hbit := t.work.hbit, hnode := s.hroot } ∧
      s.appended t 1 fun _ => some v

/-- A table that is a proper tree at record 254 loads with root 254: `NODE` is the table, no byte of
output (R262 to R265). -/
def Obligations.HufLoadAtConventionalRoot : Prop :=
  ∀ (s : State) (tree : HufTree), s.status ≠ .busy → s.loaded → 1020 ≤ s.inLen →
    ProperTreeAt s.tableAt 254 tree →
    ∃ t, exec .hufLoad s = .next t ∧ t.status = .done ∧ t.err = .noError ∧ t.outLen = 0 ∧
      t.hvalid = true ∧ t.hroot = 254#8 ∧ ∀ i < 255, t.nodeAt i = s.tableAt i

/-- `HUF_LOAD` succeeds exactly where some record is the root of a proper tree on the table, and its root
is then that record, the only one there is; the dictionary it leaves can be walked (R264 to R266). -/
def Obligations.HufLoadFindsTheRoot : Prop :=
  ∀ s : State, s.status ≠ .busy → s.loaded →
    ∃ t, exec .hufLoad s = .next t ∧
      (∀ r tree, ProperTreeAt s.tableAt r tree → t.status = .done ∧ t.hvalid = true ∧ t.hroot.toNat = r) ∧
      (t.hvalid = true → t.walkable) ∧
      ((∀ r tree, ¬ ProperTreeAt s.tableAt r tree) →
        t.status = .error ∧ t.err = .incompleteDictionary ∧ t.hvalid = false)

/-- `HUF_CHUNK` before its first symbol (R268, R269): its errors in their order, and a declared count of 0,
which is complete at once. -/
def Obligations.HufChunkValidation : Prop :=
  ∀ (s : State) (b0 b1 b2 b3 : Byte), s.status ≠ .busy →
    (s.hvalid = false →
      exec .hufChunk s = .next ((s.begin .hufChunk).errorEntry .incompleteDictionary)) ∧
    (s.hvalid = true → s.inLen < 4 →
      exec .hufChunk s = .next ((s.begin .hufChunk).errorEntry .bitstreamUnderrun)) ∧
    (s.hvalid = true → s.inHas 0 [b0, b1, b2, b3] →
      (leNat [b0, b1, b2, b3] = 0 → exec .hufChunk s = .next (s.begin .hufChunk).complete) ∧
      (s.cfg.outCap < leNat [b0, b1, b2, b3] →
        exec .hufChunk s = .next ((s.begin .hufChunk).errorEntry .headerInvalid)) ∧
      (leNat [b0, b1, b2, b3] ≤ s.cfg.outCap → 8 * (s.inLen - 4) < leNat [b0, b1, b2, b3] →
        exec .hufChunk s = .next ((s.begin .hufChunk).errorEntry .bitstreamUnderrun)))

/-- `HUF_CHUNK` (R267 to R272): a chunk whose bits spell `n` symbols decodes to their values. That
`OUT` lists nothing beyond them is the model's (log entry 10). -/
def Obligations.HufChunkDecodesSymbols : Prop :=
  ∀ (s : State) (b0 b1 b2 b3 : Byte) (syms : List (List Bool × Byte)), s.status ≠ .busy →
    s.hvalid = true → s.walkable → s.inHas 0 [b0, b1, b2, b3] →
    syms.length = leNat [b0, b1, b2, b3] → syms.length ≤ s.cfg.outCap →
    s.spells syms → s.bitsAt 32 (syms.map Prod.fst).flatten →
    ∃ t, exec .hufChunk s = .next t ∧ t.status = .done ∧ t.err = .noError ∧ t.outLen = syms.length ∧
      (∀ k, t.outMem.read k = (syms.map Prod.snd)[k]?) ∧
      t.nodeMem = s.nodeMem ∧ t.hroot = s.hroot ∧ t.hvalid = true ∧ t.inMem = s.inMem ∧ t.inLen = s.inLen

/-! ## Whole commands -/

/-- A CWC file that is only the terminator, with expanded length 0, decodes to no bytes, whatever its
`bits` and the refill policy (R239). -/
def Obligations.CwcTerminatorOnlyFile : Prop :=
  ∀ (s : State) (bits : Byte), s.status ≠ .busy → bits.toNat ≤ 24 → s.cfg.cwcSpecialBase = 2 →
    s.inHas 0 ([0x43#8, 0x57#8, 0x43#8, bits] ++ [0#8, 0#8, 0#8, 0#8] ++ [7#8, 0#8, 0#8, 0#8] ++
      List.replicate 7 0#8) →
    exec .cwcDecode s = .next (s.begin .cwcDecode).complete

/-- An RNC file with unpacked length 0 and a body of two bytes with the packed checksum decodes to no bytes
where the unpacked checksum is the initial value, and ends in `UnpackedCrcError` where it is not (R181
to R186, R192, R193). -/
def Obligations.RncEmptyFile : Prop :=
  ∀ (s : State) (u1 u0 p1 p0 x y b0 b1 : Byte), s.status ≠ .busy →
    s.inHas 0 ([0x52#8, 0x4E#8, 0x43#8, 0x01#8] ++ [0#8, 0#8, 0#8, 0#8] ++ [0#8, 0#8, 0#8, 2#8] ++
      [u1, u0, p1, p0, x, y, b0, b1]) →
    p1 ++ p0 = crcUpdate s.cfg.rncCrcTable (crcUpdate s.cfg.rncCrcTable s.cfg.rncCrcInit b0) b1 →
    (u1 ++ u0 = s.cfg.rncCrcInit → exec .rncDecode s = .next (s.begin .rncDecode).complete) ∧
    (u1 ++ u0 ≠ s.cfg.rncCrcInit →
      exec .rncDecode s = .next ((s.begin .rncDecode).errorEntry .unpackedCrcError))

/-- The checks of `RNC_DECODE` before its stream, in their order (R181 to R183, R323): length, magic, packed
length and capacity, packed checksum. -/
def Obligations.RncHeaderChecks : Prop :=
  ∀ (s : State) (m0 m1 m2 m3 u3 u2 u1 u0 p3 p2 p1 p0 c3 c2 c1 c0 : Byte) (body : List Byte),
    s.status ≠ .busy →
    (s.inLen < 18 → exec .rncDecode s = .next ((s.begin .rncDecode).errorEntry .headerInvalid)) ∧
    (18 ≤ s.inLen →
      s.inHas 0 [m0, m1, m2, m3, u3, u2, u1, u0, p3, p2, p1, p0, c3, c2, c1, c0] →
      ([m0, m1, m2, m3] ≠ [0x52#8, 0x4E#8, 0x43#8, 0x01#8] →
        exec .rncDecode s = .next ((s.begin .rncDecode).errorEntry .fileIsNotRnc)) ∧
      ([m0, m1, m2, m3] = [0x52#8, 0x4E#8, 0x43#8, 0x01#8] →
        (s.inLen < 18 + (p3 ++ p2 ++ p1 ++ p0).toNat ∨ s.cfg.outCap < (u3 ++ u2 ++ u1 ++ u0).toNat →
          exec .rncDecode s = .next ((s.begin .rncDecode).errorEntry .headerInvalid)) ∧
        ((u3 ++ u2 ++ u1 ++ u0).toNat ≤ s.cfg.outCap → body.length = (p3 ++ p2 ++ p1 ++ p0).toNat →
          s.inHas 18 body → c1 ++ c0 ≠ s.checksum body →
          exec .rncDecode s = .next ((s.begin .rncDecode).errorEntry .packedCrcError))))

/-- The checks of `CWC_DECODE` before its stream (R221, R222): a short input, a wrong magic, a payload beyond
the input, `bits` above 24 and a length beyond the capacity are `HeaderInvalid`; else a payload without
a first word is `BitstreamUnderrun`. -/
def Obligations.CwcHeaderChecks : Prop :=
  ∀ (s : State) (m0 m1 m2 bits e0 e1 e2 e3 p0 p1 p2 p3 : Byte), s.status ≠ .busy →
    (s.inLen < 12 → exec .cwcDecode s = .next ((s.begin .cwcDecode).errorEntry .headerInvalid)) ∧
    (s.inHas 0 [m0, m1, m2, bits, e0, e1, e2, e3, p0, p1, p2, p3] →
      ([m0, m1, m2] ≠ [0x43#8, 0x57#8, 0x43#8] ∨ s.inLen < 12 + leNat [p0, p1, p2, p3] ∨
          24 < bits.toNat ∨ s.cfg.outCap < leNat [e0, e1, e2, e3] →
        exec .cwcDecode s = .next ((s.begin .cwcDecode).errorEntry .headerInvalid)) ∧
      ([m0, m1, m2] = [0x43#8, 0x57#8, 0x43#8] → 12 + leNat [p0, p1, p2, p3] ≤ s.inLen →
        bits.toNat ≤ 24 → leNat [e0, e1, e2, e3] ≤ s.cfg.outCap → leNat [p0, p1, p2, p3] < 4 →
        exec .cwcDecode s = .next ((s.begin .cwcDecode).errorEntry .bitstreamUnderrun)))

/-- Every command terminates on every input that the host has written: it ends `DONE` or in an error, and
neither a bound of the model nor a missing byte stops it (R361, R276, R277). The model's bounds are log
entry 22. -/
def Obligations.CommandsTerminate : Prop :=
  ∀ (s : State) (c : Command), s.status ≠ .busy → s.loaded → (c = .hufChunk → s.hvalid = true → s.walkable) →
    ∃ t, exec c.toInstr s = .next t ∧ (t.status = .done ∨ t.status = .error)

/-- What a command preserves (R293): `IN` and `IN_LEN` always; the dictionary unless it is `HUF_LOAD`. -/
def Obligations.CommandsPreserve : Prop :=
  ∀ (s t : State) (c : Command), exec c.toInstr s = .next t →
    t.inMem = s.inMem ∧ t.inLen = s.inLen ∧ t.cfg = s.cfg ∧ t.pending = s.pending ∧
    (c ≠ .hufLoad → t.nodeMem = s.nodeMem ∧ t.nodePresent = s.nodePresent ∧ t.hroot = s.hroot ∧
      t.hvalid = s.hvalid)

/-- The result of a command as the host sees it (R290, R292): while it runs `STATUS` reads 1; on `DONE` it
reads 2, `ERR` 0, `OUT_LEN` the declared length, which the header fields state, and `OUT` its bytes; on
an error `STATUS` reads 3, `ERR` a number from 1 to 9, `OUT_LEN` 0. `HUF_LOAD` has no output in either
case, and `HVALID` and `HROOT` read as it left them. That `OUT_LEN` reads as the register while `STATUS` is
not `DONE` is the model's (log entry 11; spec/93 I7 gives any value), and so are that `HROOT` reads as the
same free value before and after while `HVALID = 0` (log entry 11; I10) and the `BUSY` state before the
first step of a command (log entries 14, 15). -/
def Obligations.CommandResults : Prop :=
  ∀ (s t : State) (c : Command), s.status ≠ .busy → exec c.toInstr s = .next t →
    (hostReadStatus (startCommand c s) = 1 ∧ hostReadErr (startCommand c s) = 0 ∧
      hostReadOutLen (startCommand c s) = 0) ∧
    (t.status = .done ∧ t.err = .noError ∧ hostReadStatus t = 2 ∧ hostReadErr t = 0 ∨
      t.status = .error ∧ t.err ≠ .noError ∧ hostReadStatus t = 3 ∧ hostReadErr t ≠ 0 ∧
        (hostReadErr t).toNat ≤ 9) ∧
    hostReadOutLen t = t.outLen ∧
    (t.status = .error → t.outLen = 0) ∧
    (t.status = .done → t.outFilled ∧ ∀ k < t.outLen, t.outMem.read k = some (hostReadOut t k)) ∧
    (c = .rncDecode → t.status = .done → t.outLen = leNat (s.bytesAt 4 4).reverse) ∧
    (c = .cwcDecode → t.status = .done → t.outLen = leNat (s.bytesAt 4 4)) ∧
    (c = .hufChunk → t.status = .done → t.outLen = leNat (s.bytesAt 0 4)) ∧
    (c = .hufLoad → t.outLen = 0 ∧ (hostReadHvalid t = true ↔ t.status = .done) ∧
      (t.status = .done → hostReadHroot t = t.hroot)) ∧
    (c ≠ .hufLoad → hostReadHvalid t = hostReadHvalid s ∧ hostReadHroot t = hostReadHroot s)

/-- Which error kinds a command can end with, and the numbers that the host reads for them in `ERR` (the
table of R321). -/
def Obligations.ErrorKindsOfCommands : Prop :=
  ∀ (s t : State) (c : Command), s.status ≠ .busy → exec c.toInstr s = .next t → t.status = .error →
    (c = .rncDecode → (t.err, hostReadErr t) ∈ [(.headerInvalid, 1), (.fileIsNotRnc, 2),
      (.packedCrcError, 3), (.unpackedCrcError, 4), (.bitstreamUnderrun, 5), (.hufDecodeError, 6),
      (.outputOverrun, 8), (.fileSizeMismatch, 9)]) ∧
    (c = .cwcDecode → (t.err, hostReadErr t) ∈ [(.headerInvalid, 1), (.bitstreamUnderrun, 5),
      (.outputOverrun, 8), (.fileSizeMismatch, 9)]) ∧
    (c = .hufLoad → (t.err, hostReadErr t) = (.incompleteDictionary, 7)) ∧
    (c = .hufChunk → (t.err, hostReadErr t) ∈ [(.headerInvalid, 1), (.bitstreamUnderrun, 5),
      (.incompleteDictionary, 7)])

/-- The outcome of a decode is a function of `IN[0 .. IN_LEN-1]`, the parameters and, for `HUF_CHUNK`, the
dictionary: two states that agree on these end with the same result, whatever else they hold (R294). -/
def Obligations.CommandsArePure : Prop :=
  ∀ (s₁ s₂ t₁ : State) (c : Command), s₁.status ≠ .busy → s₂.status ≠ .busy → s₁.cfg = s₂.cfg →
    s₁.inLen = s₂.inLen → (∀ a < s₁.inLen, s₁.inMem.read a = s₂.inMem.read a) →
    (c = .hufChunk → s₁.hvalid = s₂.hvalid ∧ s₁.hroot = s₂.hroot ∧ ∀ i < 255, s₁.nodeAt i = s₂.nodeAt i) →
    exec c.toInstr s₁ = .next t₁ →
    ∃ t₂, exec c.toInstr s₂ = .next t₂ ∧ t₁.status = t₂.status ∧ t₁.err = t₂.err ∧ t₁.outLen = t₂.outLen ∧
      (∀ a < t₁.outLen, t₁.outMem.read a = t₂.outMem.read a) ∧
      (c = .hufLoad → t₁.hvalid = t₂.hvalid ∧ t₁.nodePresent = t₂.nodePresent ∧
        (t₁.hvalid = true → t₁.hroot = t₂.hroot) ∧
        ∀ i < 255, t₁.nodePresent.getLsbD i = true → t₁.nodeAt i = t₂.nodeAt i)

/-- Error entry (R324): what it writes, and what it leaves untouched. -/
def Obligations.ErrorEntryWrites : Prop :=
  ∀ (s : State) (k : ErrKind),
    (s.errorEntry k).status = .error ∧ (s.errorEntry k).err = k ∧ (s.errorEntry k).outLen = 0 ∧
    (s.errorEntry k).phase = .idle ∧
    (s.errorEntry k).inMem = s.inMem ∧ (s.errorEntry k).inLen = s.inLen ∧
    (s.errorEntry k).nodeMem = s.nodeMem ∧ (s.errorEntry k).nodePresent = s.nodePresent ∧
    (s.errorEntry k).hroot = s.hroot ∧ (s.errorEntry k).hvalid = s.hvalid ∧
    (s.errorEntry k).cmd = s.cmd ∧ (s.errorEntry k).cfg = s.cfg ∧ (s.errorEntry k).pending = s.pending

/-- Executed opcode by opcode, a command ends in the very state that executing it whole ends in. The
steps are the model's (log entries 14, 15). -/
def Obligations.StepwiseEqualsWhole : Prop :=
  ∀ (s t : State) (c : Command), s.status ≠ .busy → s.pending = [] → exec c.toInstr s = .next t →
    ∃ k, Host.Core.run Sys2Proof.core k (startCommand c s) = .next t

/-! ## Steps and host actions -/

/-- A step runs the decoded instruction: a value that the host writes to `CMD` runs as the command it
decodes to; a busy engine runs what its fetch at the place of the stream answers, and then goes on in
the grammar. The steps are the model's (log entries 14, 15). -/
def Obligations.StepRunsDecodedInstruction : Prop :=
  (∀ (s : State) (c : CwcCtx) (n : Nat) (rest : List HostAction) (i : Instr),
    s.pending = .writeCmd n :: rest → n < 256 →
    decode c .cmd ⟨[], [BitVec.ofNat 8 n]⟩ = .ok (i, ⟨[], []⟩) →
    step s = exec i { s with pending := rest }) ∧
  (∀ (s u : State) (slot : Slot) (i : Instr), s.status = .busy → s.pending = [] →
    s.phase = .stream slot → fetch slot s = .ok i u →
    (∀ t, exec i u = .next t → t.status ≠ .busy → step s = .next t) ∧
    (∀ t, exec i u = .next t → t.status = .busy → step s = runMeaning (advance i) t)) ∧
  (∀ (s : State) (c : CwcCtx) (slot : Slot) (i : Instr) (p rest : Parcel), slot ≠ .cwcOp →
    decode c (.stream slot) p = .ok (i, rest) → fetch slot s = .ok i s)

/-- The fetch of a CWC opcode agrees with the decoder (R224, R226 to R228). With at least five bits pending
it answers what the decoder reads from the next four control bits and the next three bytes, and the
cursor has moved past exactly what the decoder took. Across a refill word, too, it answers what the
decoder reads from exactly the control bits and the field bytes of the opcode, and the field bytes lie
where the refill policy puts them (R135, R240): behind the words that the control bits have loaded. A
missing field, and a missing word that the selection loads, is `BitstreamUnderrun`. The split of an
opcode into its selection and the rest is the model's (log entry 17). -/
def Obligations.FetchAgreesWithDecode : Prop :=
  (∀ (s : State) (b0 b1 b2 : Byte) (i : Instr) (p rest : Parcel),
    s.cur.order = .msb → s.cur.width = .w32 → s.cur.sr < 2 ^ 64 → 5 ≤ s.cur.cnt →
    s.nextBytes [b0, b1, b2] →
    p = ⟨bitsMsbFirst 4 (s.cur.sr / 2 ^ 60), [b0, b1, b2]⟩ →
    decode s.cwcCtx (.stream .cwcOp) p = .ok (i, rest) →
    ∃ u, fetch .cwcOp s = .ok i u ∧
      u.cur = { s.cur.dropped (4 - rest.ctl.length) with pos := s.cur.pos + (3 - rest.bytes.length) } ∧
      { u with work := { u.work with cur := s.cur, cwcL := s.work.cwcL, cwcP := s.work.cwcP, cwcW := s.work.cwcW } } = s) ∧
  (∀ (s : State) (k : Nat) (i : Instr) (bytes : List Byte), s.cwcReady k →
    decode s.cwcCtx (.stream .cwcOp) ⟨s.cwcCtl k, bytes⟩ = .ok (i, ⟨[], []⟩) →
    ((s.withCur (s.cwcSkip k)).nextBytes bytes →
      ∃ u, fetch .cwcOp s = .ok i u ∧
        u.cur = { s.cwcSkip k with pos := (s.cwcSkip k).pos + bytes.length } ∧
        { u with work := { u.work with cur := s.cur, cwcL := s.work.cwcL, cwcP := s.work.cwcP, cwcW := s.work.cwcW } } = s) ∧
    (s.cur.fin < (s.cwcSkip k).pos + bytes.length →
      opcodeStep .cwcOp s = .next (s.errorEntry .bitstreamUnderrun))) ∧
  (∀ s : State, s.cur.cwcOk → s.cur.fin < s.cur.pos + 4 →
    (∀ i rest, decode s.cwcCtx (.stream .cwcOp) ⟨s.cur.pendingBits, [0#8, 0#8, 0#8]⟩ = .ok (i, rest) →
      s.cur.policy = .onExhaust ∧ rest.ctl = []) →
    opcodeStep .cwcOp s = .next (s.errorEntry .bitstreamUnderrun))

/-- The order of the RNC opcodes (R199): three tables, the count, then literal runs with matches between
them until the count is 0; another chunk while the declared length is not reached (R186); at the
declared length the output's checksum decides between `DONE` and `UnpackedCrcError` (R191 to R193). The
length test after each CWC opcode (R223) and after a symbol of the tree decoder (R271, R272). The steps
are the model's (log entries 14, 15). -/
def Obligations.GrammarOrder : Prop :=
  ∀ s : State,
    (s.outLen = s.work.declLen.toNat →
      (∀ op : CwcOp, runMeaning (advance op.toInstr) s = .next s.complete) ∧
      runMeaning (advance .hufSym) s = .next s.complete) ∧
    (s.outLen < s.work.declLen.toNat →
      (∀ op : CwcOp, runMeaning (advance op.toInstr) s = .next s) ∧
      runMeaning (advance .hufSym) s = .next s) ∧
    runMeaning (advance (.rncHuftab .raw)) s = .next { s with phase := .stream (.rncTab .dist) } ∧
    runMeaning (advance (.rncHuftab .dist)) s = .next { s with phase := .stream (.rncTab .len) } ∧
    runMeaning (advance (.rncHuftab .len)) s = .next { s with phase := .stream .rncCnt } ∧
    runMeaning (advance .rncChcnt) s = .next { s with phase := .stream .rncRaw } ∧
    runMeaning (advance .rncMatch) s = .next { s with phase := .stream .rncRaw } ∧
    (s.work.chcnt ≠ 0#16 → runMeaning (advance .rncRaw) s = .next { s with phase := .stream .rncMatch }) ∧
    ∀ i : Instr, i = .rncPrime ∨ i = .rncRaw ∧ s.work.chcnt = 0#16 →
      (s.outLen < s.work.declLen.toNat →
        runMeaning (advance i) s = .next { s with phase := .stream (.rncTab .raw) }) ∧
      (s.outLen = s.work.declLen.toNat → s.outFilled →
        (s.checksum s.outBytes = s.work.unpackedCrc → runMeaning (advance i) s = .next s.complete) ∧
        (s.checksum s.outBytes ≠ s.work.unpackedCrc →
          runMeaning (advance i) s = .next (s.errorEntry .unpackedCrcError))) ∧
      (s.work.declLen.toNat < s.outLen →
        runMeaning (advance i) s = .next (s.errorEntry .fileSizeMismatch))

/-- The engine takes no step until the host issues a command (R351). -/
def Obligations.IdleEngineTakesNoStep : Prop :=
  ∀ s : State, s.pending = [] → s.status ≠ .busy → step s = .next s

/-- The reset values that the spec states (R49) in the registers, and what the host then reads. That `OUT_LEN`
reads as the register, 0, while `STATUS` is not `DONE` is the model's (log entry 11; spec/93 I7 gives any
value). -/
def Obligations.ResetValues : Prop :=
  State.reset.status = .idle ∧ State.reset.err = .noError ∧ State.reset.cmd = none ∧
  State.reset.inLen = 0 ∧ State.reset.outLen = 0 ∧ State.reset.hvalid = false ∧
  hostReadStatus State.reset = 0 ∧ hostReadErr State.reset = 0 ∧ cmdCode State.reset = 0 ∧
  hostReadOutLen State.reset = 0 ∧ hostReadHvalid State.reset = false

/-- The reset event (R350): it may come at any time, and leaves every register that the spec gives a
reset value at that value; a running command is abandoned. What of the model's own fields it keeps is
log entry 24. -/
def Obligations.ResetEventAtAnyTime : Prop :=
  ∀ (s : State) (rest : List HostAction), s.pending = .reset :: rest →
    ∃ t, step s = .next t ∧ t.status = .idle ∧ t.err = .noError ∧ t.cmd = none ∧ t.inLen = 0 ∧
      t.outLen = 0 ∧ t.hvalid = false ∧ t.phase = .idle ∧ t.cfg = s.cfg ∧ t.pending = rest

/-- A write to `CMD` of a value other than 1, 2, 3, 4 has no effect (R296), and neither has any write to
`CMD` while `BUSY` (R297). -/
def Obligations.IllegalUseOfCmd : Prop :=
  ∀ (s : State) (n : Nat) (rest : List HostAction),
    (s.pending = .writeCmd n :: rest ∨ s.pending = .startCmd n :: rest) →
    (n ≠ 1 ∧ n ≠ 2 ∧ n ≠ 3 ∧ n ≠ 4 ∨ s.status = .busy) →
    step s = .next { s with pending := rest }

/-- The host loads `IN` and `IN_LEN` while the engine is not busy (R290): exactly the byte written changes.
While the engine is busy, the model's choice (log entry 13) is a fault. -/
def Obligations.HostLoadsInput : Prop :=
  ∀ (s : State) (rest : List HostAction) (a n : Nat) (b : Byte),
    (s.status ≠ .busy → s.pending = .writeIn a b :: rest → a < s.cfg.inCap →
      ∃ t, step s = .next t ∧ { t with inMem := s.inMem } = { s with pending := rest } ∧
        t.inMem.read a = some b ∧ ∀ x, x ≠ a → t.inMem.read x = s.inMem.read x) ∧
    (s.status ≠ .busy → s.pending = .writeInLen n :: rest → n ≤ s.cfg.inCap →
      step s = .next { s with pending := rest, inLen := n }) ∧
    (s.status = .busy → (s.pending = .writeIn a b :: rest ∨ s.pending = .writeInLen n :: rest) →
      step s = .fault .hostContract)

/-- The engine's own steps never write `IN` or `IN_LEN` and write the dictionary only in `HUF_LOAD`, in any
state (R60, R293). The steps are the model's (log entries 14, 15). -/
def Obligations.EngineStepsPreserve : Prop :=
  ∀ s t : State, engineStep s = .next t →
    t.inMem = s.inMem ∧ t.inLen = s.inLen ∧ t.cfg = s.cfg ∧ t.pending = s.pending ∧
    ((s.phase ≠ .header ∨ s.cmd ≠ some .hufLoad) →
      t.nodeMem = s.nodeMem ∧ t.nodePresent = s.nodePresent ∧ t.hroot = s.hroot ∧ t.hvalid = s.hvalid)

/-- The invariant holds after reset. That the memories list no byte there is the model's (log entry 7). -/
def Obligations.InvariantAtReset : Prop := State.reset.Inv ∧ State.reset.CursorInv

/-- Every step keeps the invariant: canonical memories, `OUT` exactly as long as `OUT_LEN`, lengths within
their capacities, `ERR` and `OUT_LEN` as `STATUS` asks, a valid dictionary that can be walked from a root
in range, a chunk that stands on a record of it (R25, R28 to R30, R71, R266, R268). That
nothing of `OUT` survives beyond `OUT_LEN` is the model's (log entry 10), and so is the phase (log entry
15). -/
def Obligations.StepKeepsInvariant : Prop := ∀ s t : State, s.Inv → step s = .next t → t.Inv

/-- Every step keeps the cursor invariant: the position in its range, a register with no bit outside the
pending field, and under `on_exhaust` at least one bit pending (R32 to R35). -/
def Obligations.StepKeepsCursorInvariant : Prop :=
  ∀ s t : State, s.Inv → s.CursorInv → step s = .next t → t.CursorInv
end

