-- ==== Sys2Proof/Laws/Eng.lean ====
section
/-! SUPPORT. The laws of the engine monad: what each of its combinators answers on a state, and how a
successful sequence is taken apart. -/

namespace Sys2Proof.Machine

open Sys2Proof

variable {α β : Type}

@[simp] theorem Eng.pure_apply (a : α) (s : State) : (pure a : Eng α) s = .ok a s := rfl

@[simp] theorem Eng.get_apply (s : State) : (get : Eng State) s = .ok s s := rfl

@[simp] theorem Eng.set_apply (t s : State) : (set t : Eng PUnit) s = .ok () t := rfl

@[simp] theorem Eng.modify_apply (f : State → State) (s : State) :
    (modify f : Eng PUnit) s = .ok () (f s) := rfl

@[simp] theorem raise_apply (k : ErrKind) (s : State) : (raise k : Eng α) s = .error (.raise k) s := rfl

@[simp] theorem stuck_apply (f : Fault) (s : State) : (stuck f : Eng α) s = .error (.fault f) s := rfl

theorem Eng.bind_apply (x : Eng α) (f : α → Eng β) (s : State) :
    (x >>= f) s = match x s with
      | .ok a t => f a t
      | .error e t => .error e t := by
  change EStateM.bind x f s = _
  unfold EStateM.bind
  cases x s <;> rfl

/-- A sequence whose first operation succeeds goes on from its result. -/
theorem Eng.bind_ok {x : Eng α} {f : α → Eng β} {s t : State} {a : α} (h : x s = .ok a t) :
    (x >>= f) s = f a t := by rw [Eng.bind_apply, h]

/-- A sequence whose first operation stops, stops (R364). -/
theorem Eng.bind_error {x : Eng α} {f : α → Eng β} {s t : State} {e : Stop} (h : x s = .error e t) :
    (x >>= f) s = .error e t := by rw [Eng.bind_apply, h]

/-- A sequence that succeeds: both parts succeeded. -/
theorem Eng.bind_eq_ok {x : Eng α} {f : α → Eng β} {s t : State} {b : β} :
    (x >>= f) s = .ok b t ↔ ∃ a u, x s = .ok a u ∧ f a u = .ok b t := by
  rw [Eng.bind_apply]
  constructor
  · intro h
    split at h
    · exact ⟨_, _, ‹_›, h⟩
    · cases h
  · rintro ⟨a, u, hx, hf⟩
    rw [hx]
    exact hf

/-- A sequence that stops: its first part stopped, or its second part did. -/
theorem Eng.bind_eq_error {x : Eng α} {f : α → Eng β} {s t : State} {e : Stop} :
    (x >>= f) s = .error e t ↔
      x s = .error e t ∨ ∃ a u, x s = .ok a u ∧ f a u = .error e t := by
  rw [Eng.bind_apply]
  constructor
  · intro h
    split at h
    · exact .inr ⟨_, _, ‹_›, h⟩
    · rename_i hx
      exact .inl (hx.trans (by injection h with h1 h2; rw [h1, h2]))
  · rintro (h | ⟨a, u, hx, hf⟩)
    · rw [h]
    · rw [hx]
      exact hf

@[simp] theorem Eng.get_bind (f : State → Eng β) (s : State) : (get >>= f) s = f s s := rfl

@[simp] theorem Eng.modify_bind (g : State → State) (f : PUnit → Eng β) (s : State) :
    ((modify g : Eng PUnit) >>= f) s = f () (g s) := rfl

@[simp] theorem Eng.set_bind (t : State) (f : PUnit → Eng β) (s : State) :
    ((set t : Eng PUnit) >>= f) s = f () t := rfl

@[simp] theorem Eng.raise_bind (k : ErrKind) (f : α → Eng β) (s : State) :
    ((raise k : Eng α) >>= f) s = .error (.raise k) s := rfl

theorem Eng.map_apply (g : α → β) (x : Eng α) (s : State) :
    (g <$> x) s = match x s with
      | .ok a t => .ok (g a) t
      | .error e t => .error e t := by
  change EStateM.map g x s = _
  unfold EStateM.map
  cases x s <;> rfl

theorem Eng.discard_apply (x : Eng α) (s : State) :
    (discard x : Eng PUnit) s = match x s with
      | .ok _ t => .ok () t
      | .error e t => .error e t := by
  change EStateM.map _ x s = _
  unfold EStateM.map
  cases x s <;> rfl

theorem require_apply (c : Prop) [Decidable c] (k : ErrKind) (s : State) :
    require c k s = if c then .ok () s else .error (.raise k) s := by
  unfold require
  split <;> rfl

theorem ensure_apply (c : Prop) [Decidable c] (f : Fault) (s : State) :
    ensure c f s = if c then .ok () s else .error (.fault f) s := by
  unfold ensure
  split <;> rfl

/-- `require c k` goes on, the state unchanged, exactly where `c` holds. -/
theorem require_eq_ok {c : Prop} [Decidable c] {k : ErrKind} {s t : State} {u : Unit} :
    require c k s = .ok u t ↔ c ∧ t = s := by
  rw [require_apply]
  split <;> simp_all [eq_comm]

/-- `ensure c f` goes on, the state unchanged, exactly where `c` holds. -/
theorem ensure_eq_ok {c : Prop} [Decidable c] {f : Fault} {s t : State} {u : Unit} :
    ensure c f s = .ok u t ↔ c ∧ t = s := by
  rw [ensure_apply]
  split <;> simp_all [eq_comm]

theorem require_bind_pos {c : Prop} [Decidable c] (h : c) (k : ErrKind) (f : Unit → Eng β) (s : State) :
    (require c k >>= f) s = f () s := Eng.bind_ok (by rw [require_apply, if_pos h])

theorem require_bind_neg {c : Prop} [Decidable c] (h : ¬ c) (k : ErrKind) (f : Unit → Eng β) (s : State) :
    (require c k >>= f) s = .error (.raise k) s := Eng.bind_error (by rw [require_apply, if_neg h])

theorem ensure_bind_pos {c : Prop} [Decidable c] (h : c) (e : Fault) (f : Unit → Eng β) (s : State) :
    (ensure c e >>= f) s = f () s := Eng.bind_ok (by rw [ensure_apply, if_pos h])

@[simp] theorem orStuck_some (a : α) (f : Fault) (s : State) : orStuck (some a) f s = .ok a s := rfl

@[simp] theorem orStuck_none (f : Fault) (s : State) :
    (orStuck none f : Eng α) s = .error (.fault f) s := rfl

/-- `orStuck` goes on, the state unchanged, exactly where there is a value. -/
theorem orStuck_eq_ok {o : Option α} {f : Fault} {s t : State} {a : α} :
    orStuck o f s = .ok a t ↔ o = some a ∧ t = s := by
  cases o <;> simp [eq_comm]

@[simp] theorem repeatEng_zero (x : Eng Unit) (s : State) : repeatEng 0 x s = .ok () s := rfl

theorem repeatEng_succ (n : Nat) (x : Eng Unit) : repeatEng (n + 1) x = x >>= fun _ => repeatEng n x := rfl

/-- A relation that an operation keeps, reflexive and transitive, is kept by its repetition. -/
theorem repeatEng_keeps {R : State → State → Prop} (refl : ∀ s, R s s)
    (trans : ∀ {s t u}, R s t → R t u → R s u) {x : Eng Unit} (hx : ∀ s t, x s = .ok () t → R s t) :
    ∀ n s t, repeatEng n x s = .ok () t → R s t := by
  intro n
  induction n with
  | zero =>
    intro s t h
    cases h
    exact refl s
  | succ n ih =>
    intro s t h
    rw [repeatEng_succ] at h
    obtain ⟨_, u, hu, ht⟩ := Eng.bind_eq_ok.1 h
    exact trans (hx s u hu) (ih u t ht)

@[simp] theorem modifyWork_apply (f : Work → Work) (s : State) :
    modifyWork f s = .ok () { s with work := f s.work } := rfl

@[simp] theorem getCur_apply (s : State) : getCur s = .ok s.cur s := rfl

@[simp] theorem setCur_apply (c : Cursor) (s : State) : setCur c s = .ok () (s.withCur c) := rfl

@[simp] theorem setRes_apply (v : Nat) (s : State) : setRes v s = .ok () (s.withRes v) := rfl

@[simp] theorem setPhase_apply (p : Phase) (s : State) : setPhase p s = .ok () { s with phase := p } := rfl

@[simp] theorem completeCommand_apply (s : State) : completeCommand s = .ok () s.complete := rfl

@[simp] theorem getCur_bind (f : Cursor → Eng β) (s : State) : (getCur >>= f) s = f s.cur s := rfl

@[simp] theorem modifyWork_bind (g : Work → Work) (f : Unit → Eng β) (s : State) :
    (modifyWork g >>= f) s = f () { s with work := g s.work } := rfl

@[simp] theorem setCur_bind (c : Cursor) (f : Unit → Eng β) (s : State) :
    (setCur c >>= f) s = f () (s.withCur c) := rfl

/-- What a meaning answers, by what its sequence of operations answers: the next state, the error
entry (R324), or the fault. -/
theorem runMeaning_ok {x : Eng Unit} {s t : State} (h : x s = .ok () t) : runMeaning x s = .next t := by
  unfold runMeaning
  rw [h]
  rfl

theorem runMeaning_raise {x : Eng Unit} {s t : State} {k : ErrKind} (h : x s = .error (.raise k) t) :
    runMeaning x s = .next (t.errorEntry k) := by
  unfold runMeaning
  rw [h]
  rfl

theorem runMeaning_fault {x : Eng Unit} {s t : State} {f : Fault} (h : x s = .error (.fault f) t) :
    runMeaning x s = .fault f := by
  unfold runMeaning
  rw [h]
  rfl

/-- A meaning that answers a next state ran to its end or took the error entry. -/
theorem runMeaning_eq_next {x : Eng Unit} {s t : State} :
    runMeaning x s = .next t ↔
      x s = .ok () t ∨ ∃ k u, x s = .error (.raise k) u ∧ t = u.errorEntry k := by
  unfold runMeaning
  cases h : x s with
  | ok a u => simp [outcomeOf]
  | error e u => cases e <;> simp [outcomeOf, eq_comm]

end Sys2Proof.Machine
end

