-- ==== Sys2Proof/Laws/Mem.lean ====
section
/-! SUPPORT. The laws of the memories: a read after a write, and that every write keeps the canonical
form. -/

namespace Sys2Proof.Machine

open Sys2Proof

@[simp] theorem Mem.read_nil (a : Nat) : Mem.read [] a = none := rfl

theorem Mem.read_cons (c : Nat) (v : Byte) (m : Mem) (a : Nat) :
    Mem.read ((c, v) :: m) a = if a = c then some v else Mem.read m a := rfl

theorem Mem.read_of_lt {m : Mem} {lo a : Nat} (h : Mem.risesFrom lo m = true) (ha : a < lo) :
    Mem.read m a = none := by
  induction m generalizing lo with
  | nil => rfl
  | cons e m ih =>
    obtain ⟨c, v⟩ := e
    simp only [Mem.risesFrom, Bool.and_eq_true, decide_eq_true_eq] at h
    rw [Mem.read_cons, if_neg (by omega)]
    exact ih h.2 (by omega)

/-- Reading the byte just written. -/
@[simp] theorem Mem.read_write_same (m : Mem) (a : Nat) (b : Byte) : Mem.read (Mem.write m a b) a = some b := by
  induction m with
  | nil => simp [Mem.write, Mem.read_cons]
  | cons e m ih =>
    obtain ⟨c, v⟩ := e
    simp only [Mem.write]
    split
    · simp [Mem.read_cons]
    · split
      · simp [Mem.read_cons]
      · simp [Mem.read_cons, *]

/-- A write leaves every other byte alone. -/
theorem Mem.read_write_other (m : Mem) {a x : Nat} (b : Byte) (h : x ≠ a) :
    Mem.read (Mem.write m a b) x = Mem.read m x := by
  induction m with
  | nil => simp [Mem.write, Mem.read_cons, h]
  | cons e m ih =>
    obtain ⟨c, v⟩ := e
    simp only [Mem.write]
    split
    · simp [Mem.read_cons, h]
    · split
      · subst c
        simp [Mem.read_cons, h]
      · simp [Mem.read_cons, ih]

theorem Mem.read_write (m : Mem) (a x : Nat) (b : Byte) :
    Mem.read (Mem.write m a b) x = if x = a then some b else Mem.read m x := by
  split
  · subst x
    exact Mem.read_write_same m a b
  · exact Mem.read_write_other m b ‹_›

theorem Mem.risesFrom_mono {m : Mem} {lo lo' : Nat} (h : Mem.risesFrom lo m = true) (hl : lo' ≤ lo) :
    Mem.risesFrom lo' m = true := by
  cases m with
  | nil => rfl
  | cons e m =>
    obtain ⟨c, v⟩ := e
    simp only [Mem.risesFrom, Bool.and_eq_true, decide_eq_true_eq] at h ⊢
    exact ⟨by omega, h.2⟩

theorem Mem.risesFrom_write {m : Mem} {lo a : Nat} (b : Byte) (h : Mem.risesFrom lo m = true) (ha : lo ≤ a) :
    Mem.risesFrom lo (Mem.write m a b) = true := by
  induction m generalizing lo with
  | nil => simp [Mem.write, Mem.risesFrom, ha]
  | cons e m ih =>
    obtain ⟨c, v⟩ := e
    simp only [Mem.risesFrom, Bool.and_eq_true, decide_eq_true_eq] at h
    simp only [Mem.write]
    split
    · simp only [Mem.risesFrom, Bool.and_eq_true, decide_eq_true_eq]
      exact ⟨ha, by omega, h.2⟩
    · split
      · subst a
        simp only [Mem.risesFrom, Bool.and_eq_true, decide_eq_true_eq]
        exact ⟨ha, h.2⟩
      · simp only [Mem.risesFrom, Bool.and_eq_true, decide_eq_true_eq]
        exact ⟨h.1, ih h.2 (by omega)⟩

/-- A write keeps the canonical form. -/
theorem Mem.write_wf {m : Mem} (a : Nat) (b : Byte) (h : m.wf = true) : (m.write a b).wf = true :=
  Mem.risesFrom_write b h (Nat.zero_le a)

/-- A write of several bytes keeps the canonical form. -/
theorem Mem.writeList_wf {m : Mem} (a : Nat) (bs : List Byte) (h : m.wf = true) :
    (m.writeList a bs).wf = true := by
  induction bs generalizing m a with
  | nil => exact h
  | cons b bs ih => exact ih (a + 1) (Mem.write_wf a b h)

/-- Bytes outside the written ones are unchanged. -/
theorem Mem.read_writeList_other (m : Mem) (a : Nat) (bs : List Byte) {x : Nat}
    (h : x < a ∨ a + bs.length ≤ x) : Mem.read (m.writeList a bs) x = Mem.read m x := by
  induction bs generalizing m a with
  | nil => rfl
  | cons b bs ih =>
    simp only [List.length_cons] at h
    simp only [Mem.writeList]
    rw [ih (m.write a b) (a + 1) (by omega), Mem.read_write_other m b (by omega)]

/-- The written bytes are read back. -/
theorem Mem.read_writeList_same (m : Mem) (a : Nat) (bs : List Byte) {k : Nat} (h : k < bs.length) :
    Mem.read (m.writeList a bs) (a + k) = bs[k]? := by
  induction bs generalizing m a k with
  | nil => simp at h
  | cons b bs ih =>
    simp only [Mem.writeList]
    cases k with
    | zero =>
      rw [Mem.read_writeList_other _ _ _ (by omega)]
      simp
    | succ k =>
      have := ih (m.write a b) (a + 1) (k := k) (by simpa using h)
      rw [show a + (k + 1) = a + 1 + k by omega, this]
      simp

/-- Every memory operation keeps the canonical form: the empty memory has it, writes keep it. -/
@[simp] theorem Mem.nil_wf : Mem.wf [] = true := rfl

/-- The memories after reset are canonical. -/
theorem State.reset_wf :
    State.reset.inMem.wf = true ∧ State.reset.outMem.wf = true ∧ State.reset.nodeMem.wf = true :=
  ⟨rfl, rfl, rfl⟩

end Sys2Proof.Machine
end

