-- ==== Sys2Proof/Laws/State.lean ====
section
/-! SUPPORT. One lemma for each field of the state and each named update of it: the start, completion and
error entry of a command, the reset event, and the updates that claims speak of. -/

namespace Sys2Proof.Machine

open Sys2Proof

@[simp] theorem State.begin_cfg (c : Command) (s : State) : (s.begin c).cfg = s.cfg := rfl
@[simp] theorem State.begin_inMem (c : Command) (s : State) : (s.begin c).inMem = s.inMem := rfl
@[simp] theorem State.begin_inLen (c : Command) (s : State) : (s.begin c).inLen = s.inLen := rfl
@[simp] theorem State.begin_cmd (c : Command) (s : State) : (s.begin c).cmd = some c := rfl
@[simp] theorem State.begin_status (c : Command) (s : State) : (s.begin c).status = .busy := rfl
@[simp] theorem State.begin_err (c : Command) (s : State) : (s.begin c).err = .noError := rfl
@[simp] theorem State.begin_outMem (c : Command) (s : State) : (s.begin c).outMem = [] := rfl
@[simp] theorem State.begin_outLen (c : Command) (s : State) : (s.begin c).outLen = 0 := rfl
@[simp] theorem State.begin_nodeMem (c : Command) (s : State) : (s.begin c).nodeMem = s.nodeMem := rfl
@[simp] theorem State.begin_nodePresent (c : Command) (s : State) : (s.begin c).nodePresent = s.nodePresent := rfl
@[simp] theorem State.begin_hroot (c : Command) (s : State) : (s.begin c).hroot = s.hroot := rfl
@[simp] theorem State.begin_hvalid (c : Command) (s : State) : (s.begin c).hvalid = s.hvalid := rfl
@[simp] theorem State.begin_work (c : Command) (s : State) : (s.begin c).work = s.work := rfl
@[simp] theorem State.begin_phase (c : Command) (s : State) : (s.begin c).phase = s.phase := rfl
@[simp] theorem State.begin_pending (c : Command) (s : State) : (s.begin c).pending = s.pending := rfl
@[simp] theorem State.begin_ended (c : Command) (s : State) : (s.begin c).ended = s.ended := rfl

@[simp] theorem State.retire_cfg (s : State) : s.retire.cfg = s.cfg := rfl
@[simp] theorem State.retire_inMem (s : State) : s.retire.inMem = s.inMem := rfl
@[simp] theorem State.retire_inLen (s : State) : s.retire.inLen = s.inLen := rfl
@[simp] theorem State.retire_cmd (s : State) : s.retire.cmd = s.cmd := rfl
@[simp] theorem State.retire_status (s : State) : s.retire.status = s.status := rfl
@[simp] theorem State.retire_err (s : State) : s.retire.err = s.err := rfl
@[simp] theorem State.retire_outMem (s : State) : s.retire.outMem = s.outMem := rfl
@[simp] theorem State.retire_outLen (s : State) : s.retire.outLen = s.outLen := rfl
@[simp] theorem State.retire_nodeMem (s : State) : s.retire.nodeMem = s.nodeMem := rfl
@[simp] theorem State.retire_nodePresent (s : State) : s.retire.nodePresent = s.nodePresent := rfl
@[simp] theorem State.retire_hroot (s : State) : s.retire.hroot = s.hroot := rfl
@[simp] theorem State.retire_hvalid (s : State) : s.retire.hvalid = s.hvalid := rfl
@[simp] theorem State.retire_work (s : State) : s.retire.work = Config.deadWork s.ended := rfl
@[simp] theorem State.retire_phase (s : State) : s.retire.phase = .idle := rfl
@[simp] theorem State.retire_pending (s : State) : s.retire.pending = s.pending := rfl
@[simp] theorem State.retire_ended (s : State) : s.retire.ended = s.ended + 1 := rfl

@[simp] theorem State.errorEntry_cfg (k : ErrKind) (s : State) : (s.errorEntry k).cfg = s.cfg := rfl
@[simp] theorem State.errorEntry_inMem (k : ErrKind) (s : State) : (s.errorEntry k).inMem = s.inMem := rfl
@[simp] theorem State.errorEntry_inLen (k : ErrKind) (s : State) : (s.errorEntry k).inLen = s.inLen := rfl
@[simp] theorem State.errorEntry_cmd (k : ErrKind) (s : State) : (s.errorEntry k).cmd = s.cmd := rfl
@[simp] theorem State.errorEntry_status (k : ErrKind) (s : State) : (s.errorEntry k).status = .error := rfl
@[simp] theorem State.errorEntry_err (k : ErrKind) (s : State) : (s.errorEntry k).err = k := rfl
@[simp] theorem State.errorEntry_outMem (k : ErrKind) (s : State) : (s.errorEntry k).outMem = [] := rfl
@[simp] theorem State.errorEntry_outLen (k : ErrKind) (s : State) : (s.errorEntry k).outLen = 0 := rfl
@[simp] theorem State.errorEntry_nodeMem (k : ErrKind) (s : State) : (s.errorEntry k).nodeMem = s.nodeMem := rfl
@[simp] theorem State.errorEntry_nodePresent (k : ErrKind) (s : State) : (s.errorEntry k).nodePresent = s.nodePresent := rfl
@[simp] theorem State.errorEntry_hroot (k : ErrKind) (s : State) : (s.errorEntry k).hroot = s.hroot := rfl
@[simp] theorem State.errorEntry_hvalid (k : ErrKind) (s : State) : (s.errorEntry k).hvalid = s.hvalid := rfl
@[simp] theorem State.errorEntry_work (k : ErrKind) (s : State) : (s.errorEntry k).work = Config.deadWork s.ended := rfl
@[simp] theorem State.errorEntry_phase (k : ErrKind) (s : State) : (s.errorEntry k).phase = .idle := rfl
@[simp] theorem State.errorEntry_pending (k : ErrKind) (s : State) : (s.errorEntry k).pending = s.pending := rfl
@[simp] theorem State.errorEntry_ended (k : ErrKind) (s : State) : (s.errorEntry k).ended = s.ended + 1 := rfl

@[simp] theorem State.complete_cfg (s : State) : s.complete.cfg = s.cfg := rfl
@[simp] theorem State.complete_inMem (s : State) : s.complete.inMem = s.inMem := rfl
@[simp] theorem State.complete_inLen (s : State) : s.complete.inLen = s.inLen := rfl
@[simp] theorem State.complete_cmd (s : State) : s.complete.cmd = s.cmd := rfl
@[simp] theorem State.complete_status (s : State) : s.complete.status = .done := rfl
@[simp] theorem State.complete_err (s : State) : s.complete.err = .noError := rfl
@[simp] theorem State.complete_outMem (s : State) : s.complete.outMem = s.outMem := rfl
@[simp] theorem State.complete_outLen (s : State) : s.complete.outLen = s.outLen := rfl
@[simp] theorem State.complete_nodeMem (s : State) : s.complete.nodeMem = s.nodeMem := rfl
@[simp] theorem State.complete_nodePresent (s : State) : s.complete.nodePresent = s.nodePresent := rfl
@[simp] theorem State.complete_hroot (s : State) : s.complete.hroot = s.hroot := rfl
@[simp] theorem State.complete_hvalid (s : State) : s.complete.hvalid = s.hvalid := rfl
@[simp] theorem State.complete_work (s : State) : s.complete.work = Config.deadWork s.ended := rfl
@[simp] theorem State.complete_phase (s : State) : s.complete.phase = .idle := rfl
@[simp] theorem State.complete_pending (s : State) : s.complete.pending = s.pending := rfl
@[simp] theorem State.complete_ended (s : State) : s.complete.ended = s.ended + 1 := rfl

@[simp] theorem State.withCur_cfg (c : Cursor) (s : State) : (s.withCur c).cfg = s.cfg := rfl
@[simp] theorem State.withCur_inMem (c : Cursor) (s : State) : (s.withCur c).inMem = s.inMem := rfl
@[simp] theorem State.withCur_inLen (c : Cursor) (s : State) : (s.withCur c).inLen = s.inLen := rfl
@[simp] theorem State.withCur_cmd (c : Cursor) (s : State) : (s.withCur c).cmd = s.cmd := rfl
@[simp] theorem State.withCur_status (c : Cursor) (s : State) : (s.withCur c).status = s.status := rfl
@[simp] theorem State.withCur_err (c : Cursor) (s : State) : (s.withCur c).err = s.err := rfl
@[simp] theorem State.withCur_outMem (c : Cursor) (s : State) : (s.withCur c).outMem = s.outMem := rfl
@[simp] theorem State.withCur_outLen (c : Cursor) (s : State) : (s.withCur c).outLen = s.outLen := rfl
@[simp] theorem State.withCur_nodeMem (c : Cursor) (s : State) : (s.withCur c).nodeMem = s.nodeMem := rfl
@[simp] theorem State.withCur_nodePresent (c : Cursor) (s : State) : (s.withCur c).nodePresent = s.nodePresent := rfl
@[simp] theorem State.withCur_hroot (c : Cursor) (s : State) : (s.withCur c).hroot = s.hroot := rfl
@[simp] theorem State.withCur_hvalid (c : Cursor) (s : State) : (s.withCur c).hvalid = s.hvalid := rfl
@[simp] theorem State.withCur_work (c : Cursor) (s : State) : (s.withCur c).work = { s.work with cur := c } := rfl
@[simp] theorem State.withCur_phase (c : Cursor) (s : State) : (s.withCur c).phase = s.phase := rfl
@[simp] theorem State.withCur_pending (c : Cursor) (s : State) : (s.withCur c).pending = s.pending := rfl
@[simp] theorem State.withCur_ended (c : Cursor) (s : State) : (s.withCur c).ended = s.ended := rfl

@[simp] theorem State.withRes_cfg (v : Nat) (s : State) : (s.withRes v).cfg = s.cfg := rfl
@[simp] theorem State.withRes_inMem (v : Nat) (s : State) : (s.withRes v).inMem = s.inMem := rfl
@[simp] theorem State.withRes_inLen (v : Nat) (s : State) : (s.withRes v).inLen = s.inLen := rfl
@[simp] theorem State.withRes_cmd (v : Nat) (s : State) : (s.withRes v).cmd = s.cmd := rfl
@[simp] theorem State.withRes_status (v : Nat) (s : State) : (s.withRes v).status = s.status := rfl
@[simp] theorem State.withRes_err (v : Nat) (s : State) : (s.withRes v).err = s.err := rfl
@[simp] theorem State.withRes_outMem (v : Nat) (s : State) : (s.withRes v).outMem = s.outMem := rfl
@[simp] theorem State.withRes_outLen (v : Nat) (s : State) : (s.withRes v).outLen = s.outLen := rfl
@[simp] theorem State.withRes_nodeMem (v : Nat) (s : State) : (s.withRes v).nodeMem = s.nodeMem := rfl
@[simp] theorem State.withRes_nodePresent (v : Nat) (s : State) : (s.withRes v).nodePresent = s.nodePresent := rfl
@[simp] theorem State.withRes_hroot (v : Nat) (s : State) : (s.withRes v).hroot = s.hroot := rfl
@[simp] theorem State.withRes_hvalid (v : Nat) (s : State) : (s.withRes v).hvalid = s.hvalid := rfl
@[simp] theorem State.withRes_work (v : Nat) (s : State) : (s.withRes v).work = { s.work with res := v } := rfl
@[simp] theorem State.withRes_phase (v : Nat) (s : State) : (s.withRes v).phase = s.phase := rfl
@[simp] theorem State.withRes_pending (v : Nat) (s : State) : (s.withRes v).pending = s.pending := rfl
@[simp] theorem State.withRes_ended (v : Nat) (s : State) : (s.withRes v).ended = s.ended := rfl

@[simp] theorem State.afterReset_cfg (s : State) : s.afterReset.cfg = s.cfg := rfl
@[simp] theorem State.afterReset_inMem (s : State) : s.afterReset.inMem = [] := rfl
@[simp] theorem State.afterReset_inLen (s : State) : s.afterReset.inLen = 0 := rfl
@[simp] theorem State.afterReset_cmd (s : State) : s.afterReset.cmd = none := rfl
@[simp] theorem State.afterReset_status (s : State) : s.afterReset.status = .idle := rfl
@[simp] theorem State.afterReset_err (s : State) : s.afterReset.err = .noError := rfl
@[simp] theorem State.afterReset_outMem (s : State) : s.afterReset.outMem = [] := rfl
@[simp] theorem State.afterReset_outLen (s : State) : s.afterReset.outLen = 0 := rfl
@[simp] theorem State.afterReset_nodeMem (s : State) : s.afterReset.nodeMem = [] := rfl
@[simp] theorem State.afterReset_nodePresent (s : State) : s.afterReset.nodePresent = 0#255 := rfl
@[simp] theorem State.afterReset_hroot (s : State) : s.afterReset.hroot = 0#8 := rfl
@[simp] theorem State.afterReset_hvalid (s : State) : s.afterReset.hvalid = false := rfl
@[simp] theorem State.afterReset_work (s : State) : s.afterReset.work = Work.reset := rfl
@[simp] theorem State.afterReset_phase (s : State) : s.afterReset.phase = .idle := rfl
@[simp] theorem State.afterReset_pending (s : State) : s.afterReset.pending = s.pending := rfl
@[simp] theorem State.afterReset_ended (s : State) : s.afterReset.ended = s.ended := rfl

@[simp] theorem State.withCur_cur (c : Cursor) (s : State) : (s.withCur c).cur = c := rfl
@[simp] theorem State.withRes_cur (v : Nat) (s : State) : (s.withRes v).cur = s.cur := rfl
@[simp] theorem State.withCur_withCur (c d : Cursor) (s : State) : (s.withCur c).withCur d = s.withCur d := rfl

/-- The table that has been set is the one that is read; the others are kept. -/
theorem HuffTables.get_set (h : HuffTables) (t u : TableId) (l : List HuffLeaf) :
    (h.set t l).get u = if u = t then l else h.get u := by
  cases t <;> cases u <;> rfl

end Sys2Proof.Machine
end

