-- ==== Sys2Proof/Laws/Ops.lean ====
section
/-! SUPPORT. One law for each shared operation: what it answers where it succeeds, and what its success
says. The accessors of the memories, the header fields, and the two output primitives. -/

namespace Sys2Proof.Machine

open Sys2Proof

/-! ## Accessors -/

/-- `IN[a]` succeeds exactly below `IN_LEN` on a written byte, and changes nothing. -/
theorem inByte_eq_ok {a : Nat} {b : Byte} {s t : State} :
    inByte a s = .ok b t ↔ a < s.inLen ∧ s.inMem.read a = some b ∧ t = s := by
  simp only [inByte, Eng.get_bind, Eng.bind_eq_ok, ensure_eq_ok, orStuck_eq_ok]
  constructor
  · rintro ⟨_, u, ⟨h, rfl⟩, hr, rfl⟩
    exact ⟨h, hr, rfl⟩
  · rintro ⟨h, hr, rfl⟩
    exact ⟨(), _, ⟨h, rfl⟩, hr, rfl⟩

/-- `OUT[a]` succeeds exactly below `OUT_LEN` on a written byte, and changes nothing. -/
theorem outByte_eq_ok {a : Nat} {b : Byte} {s t : State} :
    outByte a s = .ok b t ↔ a < s.outLen ∧ s.outMem.read a = some b ∧ t = s := by
  simp only [outByte, Eng.get_bind, Eng.bind_eq_ok, ensure_eq_ok, orStuck_eq_ok]
  constructor
  · rintro ⟨_, u, ⟨h, rfl⟩, hr, rfl⟩
    exact ⟨h, hr, rfl⟩
  · rintro ⟨h, hr, rfl⟩
    exact ⟨(), _, ⟨h, rfl⟩, hr, rfl⟩

/-- The state after one byte has been appended to `OUT`. -/
def State.push (s : State) (b : Byte) : State :=
  { s with outMem := s.outMem.write s.outLen b, outLen := s.outLen + 1 }

@[simp] theorem State.push_outLen (s : State) (b : Byte) : (s.push b).outLen = s.outLen + 1 := rfl
@[simp] theorem State.push_outMem (s : State) (b : Byte) : (s.push b).outMem = s.outMem.write s.outLen b := rfl
@[simp] theorem State.push_work (s : State) (b : Byte) : (s.push b).work = s.work := rfl
@[simp] theorem State.push_cfg (s : State) (b : Byte) : (s.push b).cfg = s.cfg := rfl
@[simp] theorem State.push_cmd (s : State) (b : Byte) : (s.push b).cmd = s.cmd := rfl
@[simp] theorem State.push_cur (s : State) (b : Byte) : (s.push b).cur = s.cur := rfl
@[simp] theorem State.push_inMem (s : State) (b : Byte) : (s.push b).inMem = s.inMem := rfl
@[simp] theorem State.push_inLen (s : State) (b : Byte) : (s.push b).inLen = s.inLen := rfl

/-- The one store to `OUT` succeeds exactly inside the capacity. -/
theorem outAppend_eq_ok {b : Byte} {s t : State} {u : Unit} :
    outAppend b s = .ok u t ↔ s.outLen < s.cfg.outCap ∧ t = s.push b := by
  simp only [outAppend, Eng.get_bind, Eng.bind_eq_ok, ensure_eq_ok, Eng.set_apply]
  constructor
  · rintro ⟨_, v, ⟨h, rfl⟩, hr⟩
    cases hr
    exact ⟨h, rfl⟩
  · rintro ⟨h, rfl⟩
    exact ⟨(), _, ⟨h, rfl⟩, rfl⟩

/-- `NODE[i]` succeeds exactly on a record index whose four bytes have been written. -/
theorem nodeRead_eq_ok {i : Nat} {r : NodeRec} {s t : State} :
    nodeRead i s = .ok r t ↔ i < 255 ∧ s.nodeAt i = some r ∧ t = s := by
  simp only [nodeRead, Eng.get_bind, Eng.bind_eq_ok, ensure_eq_ok, orStuck_eq_ok, Eng.pure_apply,
    State.nodeAt]
  constructor
  · rintro ⟨_, _, ⟨h, rfl⟩, lv, _, ⟨h1, rfl⟩, lt, _, ⟨h2, rfl⟩, rv, _, ⟨h3, rfl⟩, rt, _, ⟨h4, rfl⟩, hr⟩
    cases hr
    simp [h, h1, h2, h3, h4]
  · rintro ⟨h, hn, rfl⟩
    simp only [Option.bind_eq_bind, Option.bind_eq_some_iff, Option.some.injEq] at hn
    obtain ⟨lv, h1, lt, h2, rv, h3, rt, h4, rfl⟩ := hn
    exact ⟨(), _, ⟨h, rfl⟩, lv, _, ⟨h1, rfl⟩, lt, _, ⟨h2, rfl⟩, rv, _, ⟨h3, rfl⟩, rt, _, ⟨h4, rfl⟩, rfl⟩

/-- `NODE[i]` of the dictionary succeeds exactly where there is a dictionary and the record can be read. -/
theorem dictRead_eq_ok {i : Nat} {r : NodeRec} {s t : State} :
    dictRead i s = .ok r t ↔ s.hvalid = true ∧ i < 255 ∧ s.nodeAt i = some r ∧ t = s := by
  simp only [dictRead, Eng.get_bind, Eng.bind_eq_ok, ensure_eq_ok, nodeRead_eq_ok]
  constructor
  · rintro ⟨_, _, ⟨h, rfl⟩, hr⟩
    exact ⟨h, hr⟩
  · rintro ⟨h, hr⟩
    exact ⟨(), _, ⟨h, rfl⟩, hr⟩

@[simp] theorem nodeWrite_apply (i : Nat) (r : NodeRec) (s : State) :
    nodeWrite i r s = .ok () { s with
      nodeMem := s.nodeMem.writeList (4 * i) [r.lv, r.lt, r.rv, r.rt]
      nodePresent := setPresent s.nodePresent i true } := rfl

@[simp] theorem nodeAbsent_apply (i : Nat) (s : State) :
    nodeAbsent i s = .ok () { s with nodePresent := setPresent s.nodePresent i false } := rfl

/-- A presence bit that has been set or cleared is read back; the others are kept. -/
theorem getLsbD_setPresent (v : BitVec 255) {i j : Nat} (p : Bool) (hj : j < 255) :
    (setPresent v i p).getLsbD j = if j = i then p else v.getLsbD j := by
  unfold setPresent
  by_cases h : j = i
  · subst h
    cases p <;> simp [hj]
  · have h' : i ≠ j := fun e => h e.symm
    cases p <;> simp [h, h'] <;> omega

/-! ## Header fields -/

/-- What `IN` holds depends on `IN` and `IN_LEN` alone. -/
theorem State.inHas_congr {s t : State} (hm : t.inMem = s.inMem) (hl : t.inLen = s.inLen) (a : Nat)
    (bytes : List Byte) : t.inHas a bytes ↔ s.inHas a bytes := by
  induction bytes generalizing a with
  | nil => rfl
  | cons b bs ih => simp only [State.inHas, hm, hl, ih]

@[simp] theorem State.inHas_withCur (s : State) (c : Cursor) (a : Nat) (bytes : List Byte) :
    (s.withCur c).inHas a bytes ↔ s.inHas a bytes :=
  State.inHas_congr (s := s) (t := s.withCur c) rfl rfl a bytes

@[simp] theorem State.inHas_push (s : State) (b : Byte) (a : Nat) (bytes : List Byte) :
    (s.push b).inHas a bytes ↔ s.inHas a bytes :=
  State.inHas_congr (s := s) (t := s.push b) rfl rfl a bytes

theorem leNat_cons (b : Byte) (bs : List Byte) : leNat (b :: bs) = b.toNat + 256 * leNat bs := rfl

theorem leNat_lt (bs : List Byte) : leNat bs < 256 ^ bs.length := by
  induction bs with
  | nil => simp [leNat]
  | cons b bs ih =>
    have := b.isLt
    rw [leNat_cons, List.length_cons, Nat.pow_succ]
    omega

theorem byte_or_shift (b n : Nat) (h : b < 256) : b ||| n <<< 8 = b + 256 * n := by
  rw [Nat.shiftLeft_eq, Nat.or_comm, Nat.mul_comm n, ← Nat.two_pow_add_eq_or_of_lt (i := 8) (by omega)]
  omega

theorem shift_or_byte (b n : Nat) (h : b < 256) : n <<< 8 ||| b = 256 * n + b := by
  rw [Nat.or_comm, byte_or_shift b n h]
  omega

/-- Little-endian bytes of `IN`: their number, nothing changed. -/
theorem inLe_ok {s : State} {bytes : List Byte} {a : Nat} (h : s.inHas a bytes) :
    inLe a bytes.length s = .ok (leNat bytes) s := by
  induction bytes generalizing a with
  | nil => rfl
  | cons b bs ih =>
    obtain ⟨h1, h2, h3⟩ := h
    simp only [List.length_cons, inLe]
    rw [Eng.bind_ok (inByte_eq_ok.2 ⟨h1, h2, rfl⟩), Eng.bind_ok (ih h3), Eng.pure_apply,
      byte_or_shift _ _ b.isLt]
    rfl

/-- Little-endian bytes that were read: the range lies in `IN`, nothing changed. -/
theorem inLe_eq_ok {a n v : Nat} {s t : State} (h : inLe a n s = .ok v t) :
    t = s ∧ ∃ bytes, bytes.length = n ∧ s.inHas a bytes ∧ v = leNat bytes := by
  induction n generalizing a v t with
  | zero =>
    cases h
    exact ⟨rfl, [], rfl, trivial, rfl⟩
  | succ n ih =>
    simp only [inLe, Eng.bind_eq_ok, inByte_eq_ok, Eng.pure_apply] at h
    obtain ⟨b, _, ⟨h1, h2, rfl⟩, r, u, h3, h4⟩ := h
    obtain ⟨rfl, bs, hl, hb, rfl⟩ := ih h3
    cases h4
    exact ⟨rfl, b :: bs, by simp [hl], ⟨h1, h2, hb⟩, by rw [byte_or_shift _ _ b.isLt]; rfl⟩

/-- Big-endian bytes of `IN` after a number. -/
theorem inBe_ok {s : State} {bytes : List Byte} {a acc : Nat} (h : s.inHas a bytes) :
    inBe a bytes.length acc s = .ok (acc * 256 ^ bytes.length + leNat bytes.reverse) s := by
  induction bytes generalizing a acc with
  | nil => simp [inBe, leNat]
  | cons b bs ih =>
    obtain ⟨h1, h2, h3⟩ := h
    simp only [List.length_cons, inBe]
    rw [Eng.bind_ok (inByte_eq_ok.2 ⟨h1, h2, rfl⟩), ih h3, shift_or_byte _ _ b.isLt]
    have : ∀ l : List Byte, leNat (l ++ [b]) = leNat l + 256 ^ l.length * b.toNat := by
      intro l
      induction l with
      | nil => simp [leNat]
      | cons x l ih =>
        simp only [List.cons_append, leNat_cons, ih, List.length_cons, Nat.pow_succ]
        ring
    rw [List.reverse_cons, this, List.length_reverse]
    congr 1
    ring

/-- A comparison of bytes of `IN` with given ones. -/
theorem inMatches_ok {s : State} {bytes ref : List Byte} {a : Nat} (h : s.inHas a bytes)
    (hl : ref.length = bytes.length) : inMatches a ref s = .ok (bytes == ref) s := by
  induction ref generalizing a bytes with
  | nil =>
    cases bytes with
    | nil => rfl
    | cons b bs => simp at hl
  | cons r ref ih =>
    cases bytes with
    | nil => simp at hl
    | cons b bs =>
      obtain ⟨h1, h2, h3⟩ := h
      simp only [inMatches]
      rw [Eng.bind_ok (inByte_eq_ok.2 ⟨h1, h2, rfl⟩), Eng.bind_ok (ih h3 (by simpa using hl)),
        Eng.pure_apply]
      rfl

/-! ## Output -/

/-- `emit` (R71) succeeds exactly with room for the byte. -/
theorem emit_eq_ok {b : Byte} {s t : State} {u : Unit} :
    emit b s = .ok u t ↔ s.outLen < s.work.declLen.toNat ∧ s.outLen < s.cfg.outCap ∧ t = s.push b := by
  simp only [emit, Eng.get_bind, Eng.bind_eq_ok, require_eq_ok, outAppend_eq_ok]
  constructor
  · rintro ⟨_, v, ⟨h, rfl⟩, h2, rfl⟩
    exact ⟨h, h2, rfl⟩
  · rintro ⟨h, h2, rfl⟩
    exact ⟨(), _, ⟨h, rfl⟩, h2, rfl⟩

/-- `emit` at the declared length raises (R71). -/
theorem emit_full {b : Byte} {s : State} (h : s.work.declLen.toNat ≤ s.outLen) :
    emit b s = .error (.raise .fileSizeMismatch) s := by
  simp only [emit, Eng.get_bind]
  exact require_bind_neg (by omega) _ _ _

/-- A copy's source byte in front of the output is 0 (R72, R73). -/
theorem lzSource_before {dist : Nat} {s : State} (h : s.outLen < dist) : lzSource dist s = .ok 0#8 s := by
  simp [lzSource, h]

/-- A copy's source byte in the output (R72). -/
theorem lzSource_inside {dist : Nat} {b : Byte} {s : State} (h1 : 1 ≤ dist) (h : dist ≤ s.outLen)
    (hb : s.outMem.read (s.outLen - dist) = some b) : lzSource dist s = .ok b s := by
  simp only [lzSource, Eng.get_bind, if_neg (Nat.not_lt.2 h)]
  exact outByte_eq_ok.2 ⟨by omega, hb, rfl⟩

/-- One step of a copy appends its source byte (R72). -/
theorem lzStep_ok {dist : Nat} {b : Byte} {s : State} (hb : lzSource dist s = .ok b s)
    (h1 : s.outLen < s.work.declLen.toNat) (h2 : s.outLen < s.cfg.outCap) :
    lzStep dist s = .ok () (s.push b) := by
  rw [lzStep, Eng.bind_ok hb]
  exact emit_eq_ok.2 ⟨h1, h2, rfl⟩

end Sys2Proof.Machine
end

