-- ==== Sys2Proof/Laws/Cursor.lean ====
section
/-! SUPPORT. The laws of the bit cursor: what each operation answers where it succeeds, where it raises,
and what its success says. -/

namespace Sys2Proof.Machine

open Sys2Proof

/-! ## Refill -/

/-- The refill shift of R133 is the one by the layout of R33. -/
theorem Cursor.load_eq_withWord (c : Cursor) (w : Nat) (h : c.cnt < c.width.bits) :
    c.load w = c.withWord w := by
  obtain ⟨base, fin, order, width, policy, pos, sr, cnt⟩ := c
  cases order with
  | lsb => rfl
  | msb =>
    simp only at h
    have : 2 * width.bits - cnt - width.bits = width.bits - cnt := by omega
    simp only [Cursor.load, Cursor.withWord, this]

/-- `REFILL` (R133) succeeds exactly where its precondition holds and a whole word, written, lies in the
range; it puts the word behind the pending bits and changes nothing else. -/
theorem refill_eq_ok {s t : State} {u : Unit} :
    refill s = .ok u t ↔ s.cur.cnt < s.cur.width.bits ∧
      ∃ bytes, s.nextWord bytes ∧ t = s.withCur (s.cur.withWord (leNat bytes)) := by
  simp only [refill, getCur_bind, Eng.bind_eq_ok, ensure_eq_ok, require_eq_ok, setCur_apply]
  constructor
  · rintro ⟨_, _, ⟨h1, rfl⟩, _, _, ⟨h2, rfl⟩, w, v, hw, ht⟩
    obtain ⟨rfl, bytes, hl, hb, rfl⟩ := inLe_eq_ok hw
    cases ht
    exact ⟨h1, bytes, ⟨hl, h2, hb⟩, by rw [← Cursor.load_eq_withWord _ _ h1]⟩
  · rintro ⟨h1, bytes, ⟨hl, h2, hb⟩, rfl⟩
    exact ⟨(), s, ⟨h1, rfl⟩, (), s, ⟨h2, rfl⟩, leNat bytes, s, hl ▸ inLe_ok hb,
      by rw [← Cursor.load_eq_withWord _ _ h1]⟩

theorem refill_ok {s : State} {bytes : List Byte} (h : s.cur.cnt < s.cur.width.bits) (hw : s.nextWord bytes) :
    refill s = .ok () (s.withCur (s.cur.withWord (leNat bytes))) := refill_eq_ok.2 ⟨h, bytes, hw, rfl⟩

/-- Where the whole word does not lie in the range, `REFILL` raises (R133, R143). -/
theorem refill_underrun {s : State} (h : s.cur.cnt < s.cur.width.bits)
    (hf : s.cur.fin < s.cur.pos + s.cur.width.bytes) :
    refill s = .error (.raise .bitstreamUnderrun) s := by
  simp only [refill, getCur_bind]
  rw [ensure_bind_pos h, require_bind_neg (Nat.not_le.2 hf)]

/-! ## Single bits -/

theorem Cursor.dropBit_eq_dropped (c : Cursor) : c.dropBit = c.dropped 1 := by
  unfold Cursor.dropBit Cursor.dropped
  cases c.order <;> simp [Nat.shiftRight_eq_div_pow, Nat.shiftLeft_eq]

theorem Cursor.nextBit_toNat (c : Cursor) : c.nextBit.toNat = c.front := by
  unfold Cursor.nextBit Cursor.front
  cases c.order
  · simp only [Nat.toNat_testBit, Nat.pow_zero, Nat.div_one]
  · simp only [Nat.toNat_testBit]

/-- `TAKE` (R134) succeeds exactly on a pending bit, which it consumes. -/
theorem take_eq_ok {s t : State} {b : Bool} :
    take s = .ok b t ↔ 1 ≤ s.cur.cnt ∧ b = s.cur.nextBit ∧ t = s.withCur (s.cur.dropped 1) := by
  simp only [take, getCur_bind, Eng.bind_eq_ok, ensure_eq_ok, setCur_apply, Eng.pure_apply]
  rw [← Cursor.dropBit_eq_dropped]
  constructor
  · rintro ⟨_, _, ⟨h, rfl⟩, _, _, h2, h3⟩
    cases h2
    cases h3
    exact ⟨h, rfl, rfl⟩
  · rintro ⟨h, rfl, rfl⟩
    exact ⟨(), s, ⟨h, rfl⟩, (), _, rfl, rfl⟩

theorem take_ok {s : State} (h : 1 ≤ s.cur.cnt) :
    take s = .ok s.cur.nextBit (s.withCur (s.cur.dropped 1)) := take_eq_ok.2 ⟨h, rfl, rfl⟩

/-- A word that follows at the position follows there for every cursor with the same position, range end
and width. -/
theorem State.nextWord_withCur {s : State} {c : Cursor} {bytes : List Byte} (hw : s.nextWord bytes)
    (h1 : c.pos = s.cur.pos) (h2 : c.fin = s.cur.fin) (h3 : c.width = s.cur.width) :
    (s.withCur c).nextWord bytes := by
  unfold State.nextWord at *
  simp only [State.withCur_cur, State.inHas_withCur, h1, h2, h3]
  exact hw

theorem readBit_onDemand {s : State} (hp : s.cur.policy = .onDemand) :
    readBit s = ((if s.cur.cnt = 0 then refill else pure ()) >>= fun _ => take) s := by
  simp only [readBit, getCur_bind, hp]
  split <;> rfl

theorem readBit_onExhaust {s : State} (hp : s.cur.policy = .onExhaust) (h : 1 ≤ s.cur.cnt) :
    readBit s = ((if s.cur.cnt = 1 then refill else pure ()) >>= fun _ => pure s.cur.nextBit)
      (s.withCur (s.cur.dropped 1)) := by
  simp only [readBit, getCur_bind, hp]
  rw [Eng.bind_ok (take_ok h), getCur_bind]
  have : ((s.withCur (s.cur.dropped 1)).cur.cnt = 0) = (s.cur.cnt = 1) := by
    change (s.cur.cnt - 1 = 0) = _
    simp only [eq_iff_iff]
    omega
  simp only [this]
  split <;> rfl

/-- `READ_BIT` (R135) that needs no refill, under either policy. -/
theorem readBit_pending {s : State}
    (h : (s.cur.policy = .onDemand ∧ 1 ≤ s.cur.cnt) ∨ (s.cur.policy = .onExhaust ∧ 2 ≤ s.cur.cnt)) :
    readBit s = .ok s.cur.nextBit (s.withCur (s.cur.dropped 1)) := by
  rcases h with ⟨hp, h⟩ | ⟨hp, h⟩
  · rw [readBit_onDemand hp, if_neg (by omega)]
    exact take_ok h
  · rw [readBit_onExhaust hp (by omega), if_neg (by omega)]
    rfl

/-- `READ_BIT` under `on_demand` with no pending bit: the next word is loaded first (R135). -/
theorem readBit_onDemand_refill {s : State} {bytes : List Byte} (hp : s.cur.policy = .onDemand)
    (h : s.cur.cnt = 0) (hw : s.nextWord bytes) :
    readBit s = .ok (s.cur.withWord (leNat bytes)).nextBit
      (s.withCur ((s.cur.withWord (leNat bytes)).dropped 1)) := by
  have hb : 0 < s.cur.width.bits := by cases s.cur.width <;> decide
  rw [readBit_onDemand hp, if_pos h, Eng.bind_ok (refill_ok (by omega) hw), take_ok]
  · rfl
  · simp only [State.withCur_cur, Cursor.withWord]
    omega

/-- `READ_BIT` under `on_exhaust` that consumes the last pending bit: the next word is loaded at once
(R135). -/
theorem readBit_onExhaust_refill {s : State} {bytes : List Byte} (hp : s.cur.policy = .onExhaust)
    (h : s.cur.cnt = 1) (hw : s.nextWord bytes) :
    readBit s = .ok s.cur.nextBit (s.withCur ((s.cur.dropped 1).withWord (leNat bytes))) := by
  have hb : 0 < s.cur.width.bits := by cases s.cur.width <;> decide
  rw [readBit_onExhaust hp (by omega), if_pos h, Eng.bind_ok (refill_ok (bytes := bytes) ?_ ?_)]
  · rfl
  · change s.cur.cnt - 1 < s.cur.width.bits
    omega
  · exact State.nextWord_withCur hw rfl rfl rfl

/-- A `READ_BIT` that needs a word which does not lie in the range raises (R135, R143). The state it
raises in differs from the first one in the cursor alone. -/
theorem readBit_underrun {s : State}
    (h : (s.cur.policy = .onDemand ∧ s.cur.cnt = 0) ∨ (s.cur.policy = .onExhaust ∧ s.cur.cnt = 1))
    (hf : s.cur.fin < s.cur.pos + s.cur.width.bytes) :
    ∃ c, readBit s = .error (.raise .bitstreamUnderrun) (s.withCur c) := by
  have hb : 0 < s.cur.width.bits := by cases s.cur.width <;> decide
  rcases h with ⟨hp, h⟩ | ⟨hp, h⟩
  · rw [readBit_onDemand hp, if_pos h, Eng.bind_error (refill_underrun (by omega) hf)]
    exact ⟨s.cur, rfl⟩
  · have hr : refill (s.withCur (s.cur.dropped 1)) = _ :=
      refill_underrun (by change s.cur.cnt - 1 < s.cur.width.bits; omega) hf
    rw [readBit_onExhaust hp (by omega), if_pos h, Eng.bind_error hr]
    exact ⟨_, rfl⟩

/-! ## Byte-aligned fields -/

/-- A byte-aligned field (R139 to R141) succeeds exactly where its bytes, written, lie in the range; only
the position moves. -/
theorem readField_eq_ok {n v : Nat} {s t : State} :
    readField n s = .ok v t ↔ ∃ bytes, bytes.length = n ∧ s.nextBytes bytes ∧ v = leNat bytes ∧
      t = s.withCur { s.cur with pos := s.cur.pos + n } := by
  simp only [readField, getCur_bind, Eng.bind_eq_ok, require_eq_ok, setCur_apply, Eng.pure_apply]
  constructor
  · rintro ⟨_, _, ⟨h, rfl⟩, w, u, hw, _, _, h2, h3⟩
    obtain ⟨rfl, bytes, rfl, hb, rfl⟩ := inLe_eq_ok hw
    cases h2
    cases h3
    exact ⟨bytes, rfl, ⟨h, hb⟩, rfl, rfl⟩
  · rintro ⟨bytes, rfl, ⟨h, hb⟩, rfl, rfl⟩
    exact ⟨(), s, ⟨h, rfl⟩, leNat bytes, s, inLe_ok hb, (), _, rfl, rfl⟩

theorem readField_ok {s : State} {bytes : List Byte} (h : s.nextBytes bytes) :
    readField bytes.length s = .ok (leNat bytes)
      (s.withCur { s.cur with pos := s.cur.pos + bytes.length }) :=
  readField_eq_ok.2 ⟨bytes, rfl, h, rfl, rfl⟩

/-- A field that does not lie in the range raises, and nothing is consumed (R143). -/
theorem readField_underrun {n : Nat} {s : State} (h : s.cur.fin < s.cur.pos + n) :
    readField n s = .error (.raise .bitstreamUnderrun) s := by
  simp only [readField, getCur_bind]
  exact require_bind_neg (Nat.not_le.2 h) _ _ _

/-- `READ_BYTE` (R139). -/
theorem readByte_ok {s : State} {b : Byte} (h : s.nextBytes [b]) :
    readByte s = .ok b (s.withCur { s.cur with pos := s.cur.pos + 1 }) := by
  have hf : readField 1 s = .ok (leNat [b]) (s.withCur { s.cur with pos := s.cur.pos + 1 }) := readField_ok h
  rw [readByte, Eng.bind_ok hf]
  simp [leNat]

theorem readByte_underrun {s : State} (h : s.cur.fin < s.cur.pos + 1) :
    readByte s = .error (.raise .bitstreamUnderrun) s := Eng.bind_error (readField_underrun h)

/-! ## Control bits of the CWC stream as lists -/

@[simp] theorem bitsMsbFirst_length (n v : Nat) : (bitsMsbFirst n v).length = n := by
  induction n with
  | zero => rfl
  | succ n ih => simp [bitsMsbFirst, ih]

@[simp] theorem Cursor.pendingBits_length (c : Cursor) : c.pendingBits.length = c.cnt := bitsMsbFirst_length _ _

@[simp] theorem State.cwcBits_zero (s : State) : s.cwcBits 0 = s.cur.pendingBits := by simp [State.cwcBits]

/-- Every word that is loaded adds its 32 bits. -/
@[simp] theorem State.cwcBits_length (s : State) (q : Nat) : (s.cwcBits q).length = s.cur.cnt + 32 * q := by
  simp [State.cwcBits, List.length_flatMap, Nat.mul_comm]

@[simp] theorem msbNat_nil : msbNat [] = 0 := rfl

theorem msbNat_append_bit (bits : List Bool) (b : Bool) : msbNat (bits ++ [b]) = 2 * msbNat bits + b.toNat := by
  simp [msbNat]

/-- A number's value with one more leading bit. -/
theorem msbNat_cons (b : Bool) (bits : List Bool) :
    msbNat (b :: bits) = b.toNat * 2 ^ bits.length + msbNat bits := by
  induction bits using List.reverseRecOn with
  | nil => simp [msbNat]
  | append_singleton bits c ih =>
    rw [← List.cons_append, msbNat_append_bit, ih, msbNat_append_bit, List.length_append, List.length_singleton, pow_succ]
    ring

/-- The bits of a field stand for the field. -/
theorem msbNat_bitsMsbFirst (n v : Nat) : msbNat (bitsMsbFirst n v) = v % 2 ^ n := by
  induction n with
  | zero => simp [bitsMsbFirst, Nat.mod_one]
  | succ n ih =>
    rw [bitsMsbFirst, msbNat_cons, ih, bitsMsbFirst_length, Nat.mod_pow_succ, Nat.testBit_eq_decide_div_mod_eq]
    rcases Nat.mod_two_eq_zero_or_one (v / 2 ^ n) with h | h <;> simp [h, Nat.add_comm]

end Sys2Proof.Machine
end

