-- ==== Sys2Proof/Laws/Frame.lean ====
section
/-! SUPPORT. The frame of the decoders: no operation of `RNC_DECODE`, `CWC_DECODE` and `HUF_CHUNK` changes
the parameters, `IN`, `IN_LEN`, `CMD`, the dictionary or the host's pending actions, whether it
succeeds or stops (R293). -/

namespace Sys2Proof.Machine

open Sys2Proof

variable {α β : Type}

/-- The parts of the state that no decoder writes. -/
structure Outside (s t : State) : Prop where
  cfg : t.cfg = s.cfg
  inMem : t.inMem = s.inMem
  inLen : t.inLen = s.inLen
  cmd : t.cmd = s.cmd
  nodeMem : t.nodeMem = s.nodeMem
  nodePresent : t.nodePresent = s.nodePresent
  hroot : t.hroot = s.hroot
  hvalid : t.hvalid = s.hvalid
  pending : t.pending = s.pending

theorem Outside.refl (s : State) : Outside s s := ⟨rfl, rfl, rfl, rfl, rfl, rfl, rfl, rfl, rfl⟩

theorem Outside.trans {s t u : State} (h : Outside s t) (k : Outside t u) : Outside s u :=
  ⟨k.cfg.trans h.cfg, k.inMem.trans h.inMem, k.inLen.trans h.inLen, k.cmd.trans h.cmd,
    k.nodeMem.trans h.nodeMem, k.nodePresent.trans h.nodePresent, k.hroot.trans h.hroot,
    k.hvalid.trans h.hvalid, k.pending.trans h.pending⟩

/-- A sequence of operations that leaves the outside alone, however it ends. -/
def Frames (x : Eng α) : Prop :=
  ∀ s, (∀ a t, x s = .ok a t → Outside s t) ∧ ∀ e t, x s = .error e t → Outside s t

theorem Frames.pure (a : α) : Frames (pure a : Eng α) :=
  fun s => ⟨fun _ _ h => by cases h; exact Outside.refl s, fun _ _ h => by cases h⟩

theorem Frames.get : Frames (get : Eng State) :=
  fun s => ⟨fun _ _ h => by cases h; exact Outside.refl s, fun _ _ h => by cases h⟩

theorem Frames.raise (k : ErrKind) : Frames (raise k : Eng α) :=
  fun s => ⟨fun _ _ h => (by rw [raise_apply] at h; cases h), fun _ _ h => by cases h; exact Outside.refl s⟩

theorem Frames.stuck (f : Fault) : Frames (stuck f : Eng α) :=
  fun s => ⟨fun _ _ h => (by rw [stuck_apply] at h; cases h), fun _ _ h => by cases h; exact Outside.refl s⟩

theorem Frames.bind {x : Eng α} {f : α → Eng β} (hx : Frames x) (hf : ∀ a, Frames (f a)) :
    Frames (x >>= f) := by
  refine fun s => ⟨fun b t h => ?_, fun e t h => ?_⟩
  · obtain ⟨a, u, h1, h2⟩ := Eng.bind_eq_ok.1 h
    exact ((hx s).1 a u h1).trans ((hf a u).1 b t h2)
  · rcases Eng.bind_eq_error.1 h with h1 | ⟨a, u, h1, h2⟩
    · exact (hx s).2 e t h1
    · exact ((hx s).1 a u h1).trans ((hf a u).2 e t h2)

theorem Frames.ite {c : Prop} [Decidable c] {x y : Eng α} (hx : Frames x) (hy : Frames y) :
    Frames (if c then x else y) := by
  split
  · exact hx
  · exact hy

theorem Frames.modify {f : State → State} (h : ∀ s, Outside s (f s)) : Frames (modify f : Eng PUnit) :=
  fun s => ⟨fun _ _ e => by cases e; exact h s, fun _ _ e => by cases e⟩

theorem Frames.modifyWork (f : Work → Work) : Frames (modifyWork f) :=
  Frames.modify fun _ => ⟨rfl, rfl, rfl, rfl, rfl, rfl, rfl, rfl, rfl⟩

theorem Frames.setCur (c : Cursor) : Frames (setCur c) := Frames.modifyWork _

theorem Frames.setRes (v : Nat) : Frames (setRes v) := Frames.modifyWork _

theorem Frames.setPhase (p : Phase) : Frames (setPhase p) :=
  Frames.modify fun _ => ⟨rfl, rfl, rfl, rfl, rfl, rfl, rfl, rfl, rfl⟩

theorem Frames.completeCommand : Frames completeCommand :=
  Frames.modify fun _ => ⟨rfl, rfl, rfl, rfl, rfl, rfl, rfl, rfl, rfl⟩

theorem Frames.getCur : Frames getCur := Frames.bind Frames.get fun _ => Frames.pure _

theorem Frames.require (c : Prop) [Decidable c] (k : ErrKind) : Frames (require c k) :=
  Frames.ite (Frames.pure _) (Frames.raise k)

theorem Frames.ensure (c : Prop) [Decidable c] (f : Fault) : Frames (ensure c f) :=
  Frames.ite (Frames.pure _) (Frames.stuck f)

theorem Frames.orStuck (o : Option α) (f : Fault) : Frames (orStuck o f) := by
  cases o
  · exact Frames.stuck f
  · exact Frames.pure _

theorem Frames.discard {x : Eng α} (hx : Frames x) : Frames (discard x : Eng PUnit) := by
  intro s
  have h := hx s
  rw [Eng.discard_apply]
  cases hs : x s with
  | ok a t => exact ⟨fun _ _ e => by cases e; exact h.1 a t hs, fun _ _ e => by cases e⟩
  | error e t => exact ⟨fun _ _ e => (by cases e), fun _ _ k => by cases k; exact h.2 e t hs⟩

theorem Frames.map {g : α → β} {x : Eng α} (hx : Frames x) : Frames (g <$> x) := by
  intro s
  have h := hx s
  rw [Eng.map_apply]
  cases hs : x s with
  | ok a t => exact ⟨fun _ _ e => by cases e; exact h.1 a t hs, fun _ _ e => by cases e⟩
  | error e t => exact ⟨fun _ _ e => (by cases e), fun _ _ k => by cases k; exact h.2 e t hs⟩

theorem Frames.repeatEng {x : Eng Unit} (hx : Frames x) : ∀ n, Frames (repeatEng n x)
  | 0 => Frames.pure _
  | n + 1 => Frames.bind hx fun _ => Frames.repeatEng hx n

/-! ## Memories and the cursor -/

theorem Frames.inByte (a : Nat) : Frames (inByte a) :=
  Frames.bind Frames.get fun _ => Frames.bind (Frames.ensure _ _) fun _ => Frames.orStuck _ _

theorem Frames.outByte (a : Nat) : Frames (outByte a) :=
  Frames.bind Frames.get fun _ => Frames.bind (Frames.ensure _ _) fun _ => Frames.orStuck _ _

theorem Frames.nodeRead (i : Nat) : Frames (nodeRead i) :=
  Frames.bind Frames.get fun _ => Frames.bind (Frames.ensure _ _) fun _ =>
    Frames.bind (Frames.orStuck _ _) fun _ => Frames.bind (Frames.orStuck _ _) fun _ =>
    Frames.bind (Frames.orStuck _ _) fun _ => Frames.bind (Frames.orStuck _ _) fun _ => Frames.pure _

theorem Frames.dictRead (i : Nat) : Frames (dictRead i) :=
  Frames.bind Frames.get fun _ => Frames.bind (Frames.ensure _ _) fun _ => Frames.nodeRead i

theorem Frames.set_after {f : State → State} {c : State → Prop} [∀ s, Decidable (c s)] (k : Fault)
    (h : ∀ s, Outside s (f s)) : 
    Frames (do
      let s ← (MonadState.get : Eng State)
      Machine.ensure (c s) k
      MonadStateOf.set (f s)) := by
  intro s
  rw [Eng.get_bind, Eng.bind_apply, ensure_apply]
  by_cases hc : c s
  · simp only [if_pos hc]
    exact ⟨fun _ _ e => (by cases e; exact h s), fun _ _ e => (by cases e)⟩
  · simp only [if_neg hc]
    exact ⟨fun _ _ e => (by cases e), fun _ _ e => (by cases e; exact Outside.refl s)⟩

theorem Frames.outAppend (b : Byte) : Frames (outAppend b) :=
  Frames.set_after (c := fun s => s.outLen < s.cfg.outCap) _ fun _ => ⟨rfl, rfl, rfl, rfl, rfl, rfl, rfl, rfl, rfl⟩

theorem Frames.inLe : ∀ n a, Frames (inLe a n)
  | 0, _ => Frames.pure _
  | n + 1, a => Frames.bind (Frames.inByte a) fun _ => Frames.bind (Frames.inLe n (a + 1)) fun _ => Frames.pure _

theorem Frames.inBe : ∀ n a acc, Frames (inBe a n acc)
  | 0, _, _ => Frames.pure _
  | n + 1, a, _ => Frames.bind (Frames.inByte a) fun _ => Frames.inBe n (a + 1) _

theorem Frames.inMatches : ∀ bs a, Frames (inMatches a bs)
  | [], _ => Frames.pure _
  | _ :: bs, a => Frames.bind (Frames.inByte a) fun _ => Frames.bind (Frames.inMatches bs (a + 1)) fun _ => Frames.pure _

theorem Frames.refill : Frames refill :=
  Frames.bind Frames.getCur fun _ => Frames.bind (Frames.ensure _ _) fun _ =>
    Frames.bind (Frames.require _ _) fun _ => Frames.bind (Frames.inLe _ _) fun _ => Frames.setCur _

theorem Frames.prime : Frames prime :=
  Frames.bind Frames.getCur fun _ => Frames.bind (Frames.ensure _ _) fun _ => Frames.refill

theorem Frames.take : Frames take :=
  Frames.bind Frames.getCur fun _ => Frames.bind (Frames.ensure _ _) fun _ =>
    Frames.bind (Frames.setCur _) fun _ => Frames.pure _

theorem Frames.readBit : Frames readBit := by
  refine Frames.bind Frames.getCur fun c => ?_
  split
  · split
    · exact Frames.bind Frames.refill fun _ => Frames.take
    · exact Frames.take
  · refine Frames.bind Frames.take fun _ => Frames.bind Frames.getCur fun _ => ?_
    split
    · exact Frames.bind Frames.refill fun _ => Frames.pure _
    · exact Frames.pure _

theorem Frames.readBitsFrom (o : BitOrder) : ∀ n i v, Frames (readBitsFrom o n i v)
  | 0, _, _ => Frames.pure _
  | n + 1, i, _ => Frames.bind Frames.readBit fun _ => Frames.readBitsFrom o n (i + 1) _

theorem Frames.readBits (n : Nat) : Frames (readBits n) :=
  Frames.bind Frames.getCur fun _ => Frames.bind (Frames.ensure _ _) fun _ => Frames.readBitsFrom _ _ _ _

theorem Frames.peekBits (n : Nat) : Frames (peekBits n) := by
  refine Frames.bind Frames.getCur fun _ => Frames.bind (Frames.ensure _ _) fun _ => ?_
  split
  · exact Frames.bind Frames.refill fun _ => Frames.bind Frames.getCur fun _ => Frames.pure _
  · exact Frames.bind Frames.getCur fun _ => Frames.pure _

theorem Frames.skipBits (n : Nat) : Frames (skipBits n) :=
  Frames.bind Frames.getCur fun _ => Frames.bind (Frames.ensure _ _) fun _ =>
    Frames.repeatEng (Frames.discard Frames.take) _

theorem Frames.readField (n : Nat) : Frames (readField n) :=
  Frames.bind Frames.getCur fun _ => Frames.bind (Frames.require _ _) fun _ =>
    Frames.bind (Frames.inLe _ _) fun _ => Frames.bind (Frames.setCur _) fun _ => Frames.pure _

theorem Frames.readByte : Frames readByte := Frames.bind (Frames.readField 1) fun _ => Frames.pure _

theorem Frames.readU16 : Frames readU16 := Frames.bind (Frames.readField 2) fun _ => Frames.pure _

theorem Frames.readU24 : Frames readU24 := Frames.bind (Frames.readField 3) fun _ => Frames.pure _

theorem Frames.realign : Frames realign := Frames.pure _

/-! ## Output and checksum -/

theorem Frames.emit (b : Byte) : Frames (emit b) :=
  Frames.bind Frames.get fun _ => Frames.bind (Frames.require _ _) fun _ => Frames.outAppend b

theorem Frames.lzSource (d : Nat) : Frames (lzSource d) :=
  Frames.bind Frames.get fun _ => Frames.ite (Frames.pure _) (Frames.outByte _)

theorem Frames.lzCopy (d l : Nat) : Frames (lzCopy d l) :=
  Frames.bind (Frames.ensure _ _) fun _ => Frames.bind Frames.get fun _ =>
    Frames.bind (Frames.require _ _) fun _ =>
    Frames.repeatEng (Frames.bind (Frames.lzSource d) fun _ => Frames.emit _) l

theorem Frames.crcByte (b : Byte) : Frames (crcByte b) :=
  Frames.modify fun _ => ⟨rfl, rfl, rfl, rfl, rfl, rfl, rfl, rfl, rfl⟩

theorem Frames.crcLoop {rd : Nat → Eng Byte} (h : ∀ a, Frames (rd a)) : ∀ n a, Frames (crcLoop rd n a)
  | 0, _ => Frames.pure _
  | n + 1, a => Frames.bind (h a) fun _ => Frames.bind (Frames.crcByte _) fun _ => Frames.crcLoop h n (a + 1)

theorem Frames.crc16 {rd : Nat → Eng Byte} (h : ∀ a, Frames (rd a)) (a n : Nat) : Frames (crc16 rd a n) :=
  Frames.bind (Frames.modify fun _ => ⟨rfl, rfl, rfl, rfl, rfl, rfl, rfl, rfl, rfl⟩) fun _ =>
    Frames.bind (Frames.crcLoop h n a) fun _ => Frames.bind Frames.get fun _ => Frames.pure _

/-! ## RNC -/

theorem Frames.readLengths : ∀ n, Frames (readLengths n)
  | 0 => Frames.pure _
  | n + 1 => Frames.bind (Frames.readBits 4) fun _ => Frames.bind (Frames.readLengths n) fun _ => Frames.pure _

theorem Frames.huftab (t : TableId) : Frames (huftab t) := by
  refine Frames.bind (Frames.readBits 5) fun n => Frames.ite (Frames.pure _) ?_
  refine Frames.bind (Frames.readLengths n) fun _ => ?_
  split
  · exact Frames.raise _
  · exact Frames.modifyWork _

theorem Frames.scanLeaves : ∀ l, Frames (scanLeaves l)
  | [] => Frames.raise _
  | leaf :: rest => Frames.bind (Frames.peekBits leaf.len) fun _ =>
      Frames.ite (Frames.bind (Frames.skipBits leaf.len) fun _ => Frames.pure _) (Frames.scanLeaves rest)

theorem Frames.hufValue (t : TableId) : Frames (hufValue t) :=
  Frames.bind (Frames.bind Frames.get fun _ => Frames.scanLeaves _) fun _ =>
    Frames.ite (Frames.pure _) (Frames.bind (Frames.require _ _) fun _ =>
      Frames.bind (Frames.readBits _) fun _ => Frames.pure _)

theorem Frames.rncPrime : Frames rncPrime :=
  Frames.bind Frames.prime fun _ => Frames.discard (Frames.readBits 2)

theorem Frames.rncChcnt : Frames rncChcnt :=
  Frames.bind (Frames.readBits 16) fun _ => Frames.modifyWork _

theorem Frames.rncRaw : Frames rncRaw :=
  Frames.bind (Frames.hufValue _) fun _ => Frames.bind (Frames.modifyWork _) fun _ =>
    Frames.bind (Frames.repeatEng (Frames.bind Frames.readByte fun _ => Frames.emit _) _) fun _ =>
    Frames.bind Frames.realign fun _ => Frames.modifyWork _

theorem Frames.rncMatch : Frames rncMatch :=
  Frames.bind (Frames.hufValue _) fun _ => Frames.bind (Frames.modifyWork _) fun _ =>
    Frames.bind (Frames.hufValue _) fun _ => Frames.bind (Frames.modifyWork _) fun _ => Frames.lzCopy _ _

theorem Frames.rncHeader : Frames rncHeader :=
  Frames.bind Frames.get fun _ => Frames.bind (Frames.require _ _) fun _ =>
    Frames.bind (Frames.inMatches _ _) fun _ => Frames.bind (Frames.require _ _) fun _ =>
    Frames.bind (Frames.inBe _ _ _) fun _ => Frames.bind (Frames.inBe _ _ _) fun _ =>
    Frames.bind (Frames.inBe _ _ _) fun _ => Frames.bind (Frames.inBe _ _ _) fun _ =>
    Frames.bind (Frames.modifyWork _) fun _ => Frames.bind (Frames.require _ _) fun _ =>
    Frames.bind (Frames.require _ _) fun _ => Frames.bind (Frames.crc16 Frames.inByte _ _) fun _ =>
    Frames.require _ _

theorem Frames.rncStart : Frames rncStart :=
  Frames.bind (Frames.modifyWork _) fun _ => Frames.bind Frames.get fun _ => Frames.setCur _

theorem Frames.rncFinish : Frames rncFinish :=
  Frames.bind Frames.get fun _ => Frames.bind (Frames.require _ _) fun _ =>
    Frames.bind (Frames.crc16 Frames.outByte _ _) fun _ => Frames.bind (Frames.require _ _) fun _ =>
    Frames.completeCommand

theorem Frames.rncTuples : ∀ n, Frames (rncTuples n)
  | 0 => Frames.stuck _
  | n + 1 => Frames.bind Frames.rncRaw fun _ => Frames.bind Frames.get fun _ =>
      Frames.ite (Frames.pure _) (Frames.bind Frames.rncMatch fun _ => Frames.rncTuples n)

theorem Frames.rncChunks (b : Nat) : ∀ n, Frames (rncChunks b n)
  | 0 => Frames.stuck _
  | n + 1 => Frames.bind Frames.get fun _ => Frames.ite
      (Frames.bind (Frames.bind (Frames.huftab _) fun _ => Frames.bind (Frames.huftab _) fun _ =>
        Frames.bind (Frames.huftab _) fun _ => Frames.bind Frames.rncChcnt fun _ => Frames.rncTuples b)
        fun _ => Frames.rncChunks b n) (Frames.pure _)

/-- `RNC_DECODE` leaves the outside alone. -/
theorem Frames.rncDecode : Frames rncDecode :=
  Frames.bind Frames.rncHeader fun _ => Frames.bind Frames.rncStart fun _ =>
    Frames.bind Frames.rncPrime fun _ => Frames.bind Frames.get fun _ =>
    Frames.bind (Frames.rncChunks _ _) fun _ => Frames.rncFinish

/-! ## CWC -/

theorem Frames.cwcHeader : Frames cwcHeader :=
  Frames.bind Frames.get fun _ => Frames.bind (Frames.require _ _) fun _ =>
    Frames.bind (Frames.inMatches _ _) fun _ => Frames.bind (Frames.require _ _) fun _ =>
    Frames.bind (Frames.inByte _) fun _ => Frames.bind (Frames.inLe _ _) fun _ =>
    Frames.bind (Frames.inLe _ _) fun _ => Frames.bind (Frames.modifyWork _) fun _ =>
    Frames.bind (Frames.require _ _) fun _ => Frames.bind (Frames.require _ _) fun _ => Frames.require _ _

theorem Frames.cwcStart : Frames cwcStart :=
  Frames.bind Frames.get fun _ => Frames.bind (Frames.setCur _) fun _ => Frames.prime

theorem Frames.latch (len pos : Nat) : Frames (cursorReader.latch len pos) := by
  simp only [cursorReader]
  exact Frames.modifyWork _

theorem Frames.cwcFetch : Frames cwcFetch := by
  refine Frames.bind Frames.get fun _ => Frames.bind Frames.readBit fun _ => Frames.ite (Frames.pure _) ?_
  refine Frames.bind Frames.readBit fun _ => Frames.ite ?_ ?_
  · exact Frames.bind (Frames.readBits _) fun _ => Frames.bind Frames.readByte fun _ =>
      Frames.bind (Frames.latch _ _) fun _ => Frames.pure _
  · refine Frames.bind Frames.readBit fun _ => Frames.ite ?_ ?_
    · exact Frames.bind (Frames.bind Frames.readU16 fun _ => Frames.bind (Frames.modifyWork _) fun _ =>
        Frames.pure _) fun _ => Frames.bind (Frames.latch _ _) fun _ => Frames.pure _
    · exact Frames.bind (Frames.bind Frames.readU24 fun _ => Frames.bind (Frames.modifyWork _) fun _ =>
        Frames.pure _) fun _ => Frames.bind (Frames.latch _ _) fun _ => Frames.pure _

theorem Frames.cwcLiteral : Frames cwcLiteral :=
  Frames.bind Frames.readByte fun _ => Frames.bind (Frames.modifyWork _) fun _ => Frames.emit _

theorem Frames.cwcRun (len : Nat) : Frames (cwcRun len) :=
  Frames.bind Frames.readByte fun _ => Frames.bind (Frames.modifyWork _) fun _ =>
    Frames.repeatEng (Frames.emit _) _

theorem Frames.cwcCopy (len pos : Nat) : Frames (cwcCopy len pos) :=
  Frames.bind (Frames.ensure _ _) fun _ => Frames.bind (Frames.modifyWork _) fun _ => Frames.lzCopy _ _

theorem Frames.cwcTerm : Frames cwcTerm :=
  Frames.bind Frames.get fun _ => Frames.bind (Frames.require _ _) fun _ => Frames.completeCommand

theorem Frames.cwcLitstr : Frames cwcLitstr :=
  Frames.bind Frames.readByte fun _ => Frames.bind (Frames.modifyWork _) fun _ =>
    Frames.repeatEng Frames.cwcLiteral _

theorem Frames.cwcOpMeaning : ∀ op, Frames (cwcOpMeaning op)
  | .lit => Frames.cwcLiteral
  | .shortRun len => Frames.cwcRun len
  | .shortCopy len pos => Frames.cwcCopy len pos
  | .medRun len => Frames.cwcRun len
  | .medCopy len pos => Frames.cwcCopy len pos
  | .longCopy len pos => Frames.cwcCopy len pos
  | .longTerm => Frames.cwcTerm
  | .longNopSrc => Frames.pure _
  | .longNopDst => Frames.pure _
  | .longLitstr => Frames.cwcLitstr
  | .longRun len => Frames.cwcRun len

theorem Frames.cwcTest : Frames cwcTest :=
  Frames.bind Frames.get fun _ => Frames.ite Frames.completeCommand (Frames.pure _)

theorem Frames.cwcLoop : ∀ n, Frames (cwcLoop n)
  | 0 => Frames.stuck _
  | n + 1 => Frames.bind Frames.cwcFetch fun _ => Frames.bind (Frames.cwcOpMeaning _) fun _ =>
      Frames.bind Frames.get fun _ => Frames.ite (Frames.bind Frames.cwcTest fun _ =>
        Frames.bind Frames.get fun _ => Frames.ite (Frames.cwcLoop n) (Frames.pure _)) (Frames.pure _)

/-- `CWC_DECODE` leaves the outside alone. -/
theorem Frames.cwcDecode : Frames cwcDecode :=
  Frames.bind Frames.cwcHeader fun _ => Frames.bind Frames.cwcStart fun _ =>
    Frames.bind Frames.get fun _ => Frames.cwcLoop _

/-! ## The tree decoder -/

theorem Frames.hufEdge : Frames hufEdge := by
  refine Frames.bind (Frames.bind Frames.get fun _ => Frames.bind (Frames.require _ _) fun _ =>
    Frames.bind (Frames.inByte _) fun _ => Frames.bind (Frames.modifyWork _) fun _ => Frames.pure _) fun _ => ?_
  refine Frames.bind Frames.get fun _ => Frames.bind (Frames.dictRead _) fun _ => Frames.ite ?_ ?_
  · exact Frames.bind (Frames.emit _) fun _ => Frames.bind
      (Frames.modify fun _ => ⟨rfl, rfl, rfl, rfl, rfl, rfl, rfl, rfl, rfl⟩) fun _ => Frames.pure _
  · exact Frames.bind (Frames.modifyWork _) fun _ => Frames.pure _

theorem Frames.hufPath : ∀ n, Frames (hufPath n)
  | 0 => Frames.stuck _
  | n + 1 => Frames.bind Frames.hufEdge fun _ => Frames.ite (Frames.pure _) (Frames.hufPath n)

theorem Frames.hufSym : Frames hufSym := Frames.bind Frames.get fun _ => Frames.hufPath _

theorem Frames.hufStart : Frames hufStart :=
  Frames.bind Frames.get fun _ => Frames.bind (Frames.require _ _) fun _ =>
    Frames.bind (Frames.require _ _) fun _ => Frames.bind (Frames.inLe _ _) fun _ =>
    Frames.bind (Frames.modifyWork _) fun _ => Frames.ite Frames.completeCommand
      (Frames.bind (Frames.require _ _) fun _ => Frames.bind (Frames.require _ _) fun _ =>
        Frames.modify fun _ => ⟨rfl, rfl, rfl, rfl, rfl, rfl, rfl, rfl, rfl⟩)

theorem Frames.hufTest : Frames hufTest :=
  Frames.bind Frames.get fun _ => Frames.ite (Frames.pure _) Frames.completeCommand

theorem Frames.hufSymbols : ∀ n, Frames (hufSymbols n)
  | 0 => Frames.stuck _
  | n + 1 => Frames.bind Frames.get fun _ => Frames.ite
      (Frames.bind Frames.hufSym fun _ => Frames.hufSymbols n) Frames.completeCommand

/-- `HUF_CHUNK` leaves the outside alone. -/
theorem Frames.hufChunk : Frames hufChunk :=
  Frames.bind Frames.hufStart fun _ => Frames.bind Frames.get fun _ =>
    Frames.ite (Frames.hufSymbols _) (Frames.pure _)

/-- A meaning made of operations that frame: its next state, an error entry included, has the same
outside. -/
theorem Frames.runMeaning {x : Eng Unit} (hx : Frames x) {s t : State} (h : runMeaning x s = .next t) :
    Outside s t := by
  rcases runMeaning_eq_next.1 h with h1 | ⟨k, u, h1, rfl⟩
  · exact (hx s).1 () t h1
  · exact ((hx s).2 _ u h1).trans ⟨rfl, rfl, rfl, rfl, rfl, rfl, rfl, rfl, rfl⟩

end Sys2Proof.Machine
end

