-- ==== Sys2Proof/Laws/PerInstr.lean ====
section
/-! SUPPORT. Statements about the instructions as syntax, one lemma for each constructor. Family
`EncodingPlace`: an instruction is encoded exactly at the place that its syntax names (R93, R101, R108,
R114), and a micro-operation at none (R110). -/

namespace Sys2Proof.Laws

open Sys2Proof

/-- Where an instruction stands: `CMD`, a place of a stream, or nowhere. -/
def instrPlace : Instr → Option Place
  | .rncDecode => some .cmd
  | .cwcDecode => some .cmd
  | .hufLoad => some .cmd
  | .hufChunk => some .cmd
  | .prime => none
  | .refill => none
  | .readBit => none
  | .readBits _ => none
  | .peekBits _ => none
  | .skipBits _ => none
  | .readByte => none
  | .readU16 => none
  | .readU24 => none
  | .realign => none
  | .emit _ => none
  | .lzCopy _ _ => none
  | .crc16 _ => none
  | .rncPrime => some (.stream .rncPrime)
  | .rncHuftab t => some (.stream (.rncTab t))
  | .rncChcnt => some (.stream .rncCnt)
  | .rncRaw => some (.stream .rncRaw)
  | .rncMatch => some (.stream .rncMatch)
  | .cwcLit => some (.stream .cwcOp)
  | .cwcShortRun _ => some (.stream .cwcOp)
  | .cwcShortCopy _ _ => some (.stream .cwcOp)
  | .cwcMedRun _ => some (.stream .cwcOp)
  | .cwcMedCopy _ _ => some (.stream .cwcOp)
  | .cwcLongCopy _ _ => some (.stream .cwcOp)
  | .cwcLongTerm => some (.stream .cwcOp)
  | .cwcLongNopSrc => some (.stream .cwcOp)
  | .cwcLongNopDst => some (.stream .cwcOp)
  | .cwcLongLitstr => some (.stream .cwcOp)
  | .cwcLongRun _ => some (.stream .cwcOp)
  | .hufSym => some (.stream .hufSym)

/-- The family: what the encoder answers is encoded at that place. -/
def EncodingPlace.Statement (i : Instr) : Prop :=
  ∀ c : CwcCtx, (encode c i).map Prod.fst = instrPlace i

theorem EncodingPlace.rncDecode : EncodingPlace.Statement (.rncDecode) := fun _ => rfl
theorem EncodingPlace.cwcDecode : EncodingPlace.Statement (.cwcDecode) := fun _ => rfl
theorem EncodingPlace.hufLoad : EncodingPlace.Statement (.hufLoad) := fun _ => rfl
theorem EncodingPlace.hufChunk : EncodingPlace.Statement (.hufChunk) := fun _ => rfl
theorem EncodingPlace.prime : EncodingPlace.Statement (.prime) := fun _ => rfl
theorem EncodingPlace.refill : EncodingPlace.Statement (.refill) := fun _ => rfl
theorem EncodingPlace.readBit : EncodingPlace.Statement (.readBit) := fun _ => rfl
theorem EncodingPlace.readBits (n : Nat) : EncodingPlace.Statement (.readBits n) := fun _ => rfl
theorem EncodingPlace.peekBits (n : Nat) : EncodingPlace.Statement (.peekBits n) := fun _ => rfl
theorem EncodingPlace.skipBits (n : Nat) : EncodingPlace.Statement (.skipBits n) := fun _ => rfl
theorem EncodingPlace.readByte : EncodingPlace.Statement (.readByte) := fun _ => rfl
theorem EncodingPlace.readU16 : EncodingPlace.Statement (.readU16) := fun _ => rfl
theorem EncodingPlace.readU24 : EncodingPlace.Statement (.readU24) := fun _ => rfl
theorem EncodingPlace.realign : EncodingPlace.Statement (.realign) := fun _ => rfl
theorem EncodingPlace.emit (b : Byte) : EncodingPlace.Statement (.emit b) := fun _ => rfl
theorem EncodingPlace.lzCopy (dist len : Nat) : EncodingPlace.Statement (.lzCopy dist len) := fun _ => rfl
theorem EncodingPlace.crc16 (b : Byte) : EncodingPlace.Statement (.crc16 b) := fun _ => rfl
theorem EncodingPlace.rncPrime : EncodingPlace.Statement (.rncPrime) := fun _ => rfl
theorem EncodingPlace.rncHuftab (t : TableId) : EncodingPlace.Statement (.rncHuftab t) := fun _ => rfl
theorem EncodingPlace.rncChcnt : EncodingPlace.Statement (.rncChcnt) := fun _ => rfl
theorem EncodingPlace.rncRaw : EncodingPlace.Statement (.rncRaw) := fun _ => rfl
theorem EncodingPlace.rncMatch : EncodingPlace.Statement (.rncMatch) := fun _ => rfl
theorem EncodingPlace.cwcLit : EncodingPlace.Statement (.cwcLit) := fun _ => rfl
theorem EncodingPlace.cwcShortRun (len : Nat) : EncodingPlace.Statement (.cwcShortRun len) := fun _ => rfl
theorem EncodingPlace.cwcShortCopy (len pos : Nat) : EncodingPlace.Statement (.cwcShortCopy len pos) := fun _ => rfl
theorem EncodingPlace.cwcMedRun (len : Nat) : EncodingPlace.Statement (.cwcMedRun len) := fun _ => rfl
theorem EncodingPlace.cwcMedCopy (len pos : Nat) : EncodingPlace.Statement (.cwcMedCopy len pos) := fun _ => rfl
theorem EncodingPlace.cwcLongCopy (len pos : Nat) : EncodingPlace.Statement (.cwcLongCopy len pos) := fun _ => rfl
theorem EncodingPlace.cwcLongTerm : EncodingPlace.Statement (.cwcLongTerm) := fun _ => rfl
theorem EncodingPlace.cwcLongNopSrc : EncodingPlace.Statement (.cwcLongNopSrc) := fun _ => rfl
theorem EncodingPlace.cwcLongNopDst : EncodingPlace.Statement (.cwcLongNopDst) := fun _ => rfl
theorem EncodingPlace.cwcLongLitstr : EncodingPlace.Statement (.cwcLongLitstr) := fun _ => rfl
theorem EncodingPlace.cwcLongRun (len : Nat) : EncodingPlace.Statement (.cwcLongRun len) := fun _ => rfl
theorem EncodingPlace.hufSym : EncodingPlace.Statement (.hufSym) := fun _ => rfl

end Sys2Proof.Laws
end

