-- ==== Sys2Proof/Tests/Slice0.lean ====
section
/-! SUPPORT. Tests: the refusals of `WellFormed`, the decoding of words written out from the spec's
encodings, one step of every instruction with the result taken from the spec (the rule's example, or
spec/95_test_vectors.md, or worked by hand from the rule), and for every statement with hypotheses a
concrete state that meets them. -/

namespace Sys2Proof.Tests

open Sys2Proof Sys2Proof.Machine

/-! ## WellFormed refuses -/

theorem test_wf_read_bits_wide : (Instr.readBits 33).wf ⟨4, 2⟩ = false := by decide
theorem test_wf_peek_bits_wide : (Instr.peekBits 33).wf ⟨4, 2⟩ = false := by decide
theorem test_wf_skip_bits_wide : (Instr.skipBits 64).wf ⟨4, 2⟩ = false := by decide
theorem test_wf_lz_copy_zero_distance : (Instr.lzCopy 0 3).wf ⟨4, 2⟩ = false := by decide
theorem test_wf_short_run_length : (Instr.cwcShortRun 1).wf ⟨4, 2⟩ = false ∧ (Instr.cwcShortRun 6).wf ⟨4, 2⟩ = false := by decide
theorem test_wf_short_copy_length : (Instr.cwcShortCopy 1 1).wf ⟨4, 2⟩ = false ∧ (Instr.cwcShortCopy 6 1).wf ⟨4, 2⟩ = false := by decide
theorem test_wf_short_copy_position : (Instr.cwcShortCopy 2 0).wf ⟨4, 2⟩ = false ∧ (Instr.cwcShortCopy 2 256).wf ⟨4, 2⟩ = false := by decide
theorem test_wf_med_run_length : (Instr.cwcMedRun 1).wf ⟨4, 2⟩ = false ∧ (Instr.cwcMedRun 18).wf ⟨4, 2⟩ = false := by decide
theorem test_wf_med_copy_length : (Instr.cwcMedCopy 1 1).wf ⟨4, 2⟩ = false ∧ (Instr.cwcMedCopy 18 1).wf ⟨4, 2⟩ = false := by decide
theorem test_wf_med_copy_position : (Instr.cwcMedCopy 2 0).wf ⟨4, 2⟩ = false ∧ (Instr.cwcMedCopy 2 4096).wf ⟨4, 2⟩ = false := by decide
theorem test_wf_long_copy_length : (Instr.cwcLongCopy 1 1).wf ⟨4, 2⟩ = false ∧ (Instr.cwcLongCopy 18 1).wf ⟨4, 2⟩ = false := by decide
theorem test_wf_long_copy_position : (Instr.cwcLongCopy 2 0).wf ⟨4, 2⟩ = false ∧ (Instr.cwcLongCopy 2 1048576).wf ⟨4, 2⟩ = false := by decide
theorem test_wf_long_bits : (Instr.cwcLongCopy 2 1).wf ⟨25, 2⟩ = false := by decide
theorem test_wf_term_base : Instr.cwcLongTerm.wf ⟨4, 1⟩ = false := by decide
theorem test_wf_nops_need_bits : Instr.cwcLongNopSrc.wf ⟨0, 2⟩ = false ∧ Instr.cwcLongNopDst.wf ⟨1, 2⟩ = false := by decide
theorem test_wf_litstr_needs_bits : Instr.cwcLongLitstr.wf ⟨1, 2⟩ = false := by decide
theorem test_wf_long_run_special : (Instr.cwcLongRun 5).wf ⟨4, 2⟩ = false ∧ (Instr.cwcLongRun 6).wf ⟨4, 2⟩ = true := by decide

/-! ## Words written out from spec/30_encoding.md, and what they mean -/

/-- R114: the four values of `CMD`. -/
theorem test_decode_commands :
    [1#8, 2#8, 3#8, 4#8].map (fun b => decode ⟨4, 2⟩ .cmd ⟨[], [b]⟩) =
      [.ok (.rncDecode, ⟨[], []⟩), .ok (.cwcDecode, ⟨[], []⟩), .ok (.hufLoad, ⟨[], []⟩), .ok (.hufChunk, ⟨[], []⟩)] := rfl

/-- R93, R199: an RNC opcode has no opcode bits; its place says which it is. -/
theorem test_decode_rnc_places :
    [Slot.rncPrime, .rncTab .raw, .rncTab .dist, .rncTab .len, .rncCnt, .rncRaw, .rncMatch, .hufSym].map
        (fun p => decode ⟨4, 2⟩ (.stream p) ⟨[true], []⟩) =
      [.ok (.rncPrime, ⟨[true], []⟩), .ok (.rncHuftab .raw, ⟨[true], []⟩), .ok (.rncHuftab .dist, ⟨[true], []⟩),
       .ok (.rncHuftab .len, ⟨[true], []⟩), .ok (.rncChcnt, ⟨[true], []⟩), .ok (.rncRaw, ⟨[true], []⟩),
       .ok (.rncMatch, ⟨[true], []⟩), .ok (.hufSym, ⟨[true], []⟩)] := rfl

/-- R102, R103: `1`; `0 1`, two bits of length with the high one first, a position byte. -/
theorem test_decode_lit_short :
    decode ⟨4, 2⟩ (.stream .cwcOp) ⟨[true, false], [9#8]⟩ = .ok (.cwcLit, ⟨[false], [9#8]⟩) ∧
    decode ⟨4, 2⟩ (.stream .cwcOp) ⟨[false, true, true, false], [0#8, 9#8]⟩ = .ok (.cwcShortRun 4, ⟨[], [9#8]⟩) ∧
    decode ⟨4, 2⟩ (.stream .cwcOp) ⟨[false, true, false, true], [255#8]⟩ = .ok (.cwcShortCopy 3 255, ⟨[], []⟩) :=
  ⟨rfl, rfl, rfl⟩

/-- R104: `0 0 1`, a little-endian field; length in the low 4 bits, position in the high 12. -/
theorem test_decode_med :
    decode ⟨4, 2⟩ (.stream .cwcOp) ⟨[false, false, true], [0x0F#8, 0x00#8]⟩ = .ok (.cwcMedRun 17, ⟨[], []⟩) ∧
    decode ⟨4, 2⟩ (.stream .cwcOp) ⟨[false, false, true], [0x34#8, 0x12#8]⟩ = .ok (.cwcMedCopy 6 0x123, ⟨[], []⟩) :=
  ⟨rfl, rfl⟩

/-- R105 with `bits = 4`: `0 0 0`, a little-endian 24-bit field; the special lengths 2 to 5 at position 0. -/
theorem test_decode_long :
    decode ⟨4, 2⟩ (.stream .cwcOp) ⟨[false, false, false], [0x56#8, 0x34#8, 0x12#8]⟩ = .ok (.cwcLongCopy 8 0x12345, ⟨[], []⟩) ∧
    decode ⟨4, 2⟩ (.stream .cwcOp) ⟨[false, false, false], [0#8, 0#8, 0#8]⟩ = .ok (.cwcLongTerm, ⟨[], []⟩) ∧
    decode ⟨4, 2⟩ (.stream .cwcOp) ⟨[false, false, false], [1#8, 0#8, 0#8]⟩ = .ok (.cwcLongNopSrc, ⟨[], []⟩) ∧
    decode ⟨4, 2⟩ (.stream .cwcOp) ⟨[false, false, false], [2#8, 0#8, 0#8]⟩ = .ok (.cwcLongNopDst, ⟨[], []⟩) ∧
    decode ⟨4, 2⟩ (.stream .cwcOp) ⟨[false, false, false], [3#8, 0#8, 0#8]⟩ = .ok (.cwcLongLitstr, ⟨[], []⟩) ∧
    decode ⟨4, 2⟩ (.stream .cwcOp) ⟨[false, false, false], [4#8, 0#8, 0#8]⟩ = .ok (.cwcLongRun 6, ⟨[], []⟩) :=
  ⟨rfl, rfl, rfl, rfl, rfl, rfl⟩

/-- R105: with `bits = 0` every `LONG` at position 0 is the terminator; with 24 no position is left. -/
theorem test_decode_long_extreme_bits :
    decode ⟨0, 2⟩ (.stream .cwcOp) ⟨[false, false, false], [1#8, 0#8, 0#8]⟩ = .ok (.cwcLongCopy 2 1, ⟨[], []⟩) ∧
    decode ⟨24, 2⟩ (.stream .cwcOp) ⟨[false, false, false], [0xFF#8, 0xFF#8, 0xFF#8]⟩ = .ok (.cwcLongRun 16777217, ⟨[], []⟩) :=
  ⟨rfl, rfl⟩

/-- The rows of spec/opcode_table.json: `CMD` values, and four-bit CWC prefixes. -/
theorem test_decode_table_words :
    [1, 2, 3, 4, 0, 5, 8].map (decodeTableWord 8) =
      [some .rncDecode, some .cwcDecode, some .hufLoad, some .hufChunk, some .cwcLongTerm, some (.cwcShortRun 3),
       some .cwcLit] := rfl

/-! ## Small states -/

/-- Bytes at consecutive addresses. -/
def cells : Nat → List Byte → Mem
  | _, [] => []
  | a, b :: bs => (a, b) :: cells (a + 1) bs

/-- An engine, not busy, with the given bytes in `IN`. -/
def loadedWith (bytes : List Byte) : State :=
  { State.reset with
    cfg := Config.defaults 64 64
    inMem := cells 0 bytes
    inLen := bytes.length }

/-- An engine busy with a command, with the given `IN`, cursor and `OUT`; 40 bytes are declared. -/
def busyWith (c : Command) (bytes : List Byte) (cur : Cursor) (out : List Byte) : State :=
  { loadedWith bytes with
    cmd := some c
    status := .busy
    outMem := cells 0 out
    outLen := out.length
    work := { Work.reset with
      cur := cur
      declLen := 40#32 } }

/-- A cursor of the RNC profile. -/
def rncCur (pos fin sr cnt : Nat) : Cursor := ⟨0, fin, .lsb, .w16, .onDemand, pos, sr, cnt⟩

/-- A cursor of the CWC profile. -/
def cwcCur (p : RefillPolicy) (pos fin sr cnt : Nat) : Cursor := ⟨0, fin, .msb, .w32, p, pos, sr, cnt⟩

/-- The outcome is a next state that passes a check. -/
def nextIs (o : Host.Outcome State Fault Refusal) (check : State → Bool) : Bool :=
  match o with
  | .next t => check t
  | .fault _ => false
  | .refused _ => false

/-! ## The bit cursor -/

/-- R133's example: `sr = 2`, `cnt = 5`, bytes `55 66`. -/
theorem test_refill : nextIs (exec .refill (busyWith .rncDecode [0x55#8, 0x66#8] (rncCur 0 2 2 5) []))
    (fun t => t.cur == rncCur 2 2 (0x2 ||| 0x6655 <<< 5) 21) = true := by decide +kernel

/-- R133, R143: one byte is not a word. -/
theorem test_refill_underrun : nextIs (exec .refill (busyWith .rncDecode [0x55#8, 0x66#8] (rncCur 1 2 2 5) []))
    (fun t => t.err == .bitstreamUnderrun && t.status == .error) = true := by decide +kernel

/-- R132's example: body `0C 80`. -/
theorem test_prime : nextIs (exec .prime (busyWith .rncDecode [0x0C#8, 0x80#8] (rncCur 0 2 0 0) []))
    (fun t => t.cur == rncCur 2 2 0x800C 16) = true := by decide +kernel

/-- R64, R131: the first control bit of the CWC word `01 02 03 84` is bit 7 of its fourth byte. -/
theorem test_prime_msb : nextIs (exec .prime (busyWith .cwcDecode [1#8, 2#8, 3#8, 0x84#8] (cwcCur .onExhaust 0 4 0 0) []))
    (fun t => t.cur == cwcCur .onExhaust 4 4 0x8403020100000000 32) = true := by decide +kernel

/-- R135's example: the last bit of `0x84030201` is 1, and the next word is loaded at once. -/
theorem test_read_bit_on_exhaust :
    nextIs (exec .readBit (busyWith .cwcDecode [1#8, 2#8, 3#8, 0x84#8, 0xAA#8, 0x11#8, 0x22#8, 0x33#8, 0x44#8]
      (cwcCur .onExhaust 5 9 (2 ^ 63) 1) []))
    (fun t => t.work.res == 1 && t.cur == cwcCur .onExhaust 9 9 0x4433221100000000 32) = true := by decide +kernel

/-- R135: under `on_demand` the same read loads nothing. -/
theorem test_read_bit_on_demand :
    nextIs (exec .readBit (busyWith .cwcDecode [1#8, 2#8, 3#8, 0x84#8, 0xAA#8, 0x11#8, 0x22#8, 0x33#8, 0x44#8]
      (cwcCur .onDemand 5 9 (2 ^ 63) 1) []))
    (fun t => t.work.res == 1 && t.cur == cwcCur .onDemand 5 9 0 0) = true := by decide +kernel

/-- R136's example: `READ_BITS(5) = 13` after two bits of `B4 12` (`sr = 4AD`, `cnt = 14`). -/
theorem test_read_bits_lsb : nextIs (exec (.readBits 5) (busyWith .rncDecode [0xB4#8, 0x12#8] (rncCur 2 2 0x4AD 14) []))
    (fun t => t.work.res == 13 && t.cur == rncCur 2 2 0x25 9) = true := by decide +kernel

/-- R136: MSB-first, the first bit read is the high bit of the value. -/
theorem test_read_bits_msb : nextIs (exec (.readBits 2) (busyWith .cwcDecode [] (cwcCur .onExhaust 0 0 (2 ^ 63) 9) []))
    (fun t => t.work.res == 2 && t.cur == cwcCur .onExhaust 0 0 0 7) = true := by decide +kernel

/-- R137's example: `sr = 156A`, `cnt = 14`: `PEEK_BITS(3) = 2`, the cursor unchanged. -/
theorem test_peek_bits : nextIs (exec (.peekBits 3) (busyWith .rncDecode [] (rncCur 0 0 0x156A 14) []))
    (fun t => t.work.res == 2 && t.cur == rncCur 0 0 0x156A 14) = true := by decide +kernel

/-- R138: three bits of `156A` go. -/
theorem test_skip_bits : nextIs (exec (.skipBits 3) (busyWith .rncDecode [] (rncCur 0 0 0x156A 14) []))
    (fun t => t.cur == rncCur 0 0 0x2AD 11) = true := by decide +kernel

/-- R139: the byte at the position; the pending bits stay. -/
theorem test_read_byte : nextIs (exec .readByte (busyWith .rncDecode [7#8, 0xCD#8] (rncCur 1 2 0x156A 14) []))
    (fun t => t.work.res == 0xCD && t.cur == rncCur 2 2 0x156A 14) = true := by decide +kernel

/-- R140: little-endian. -/
theorem test_read_u16 : nextIs (exec .readU16 (busyWith .cwcDecode [0x21#8, 0x43#8] (cwcCur .onExhaust 0 2 0 1) []))
    (fun t => t.work.res == 0x4321 && t.cur.pos == 2) = true := by decide +kernel

/-- R141: little-endian; two bytes left are an underrun. -/
theorem test_read_u24 : nextIs (exec .readU24 (busyWith .cwcDecode [0xA2#8, 1#8, 2#8] (cwcCur .onExhaust 0 3 0 1) []))
    (fun t => t.work.res == 0x0201A2 && t.cur.pos == 3) = true ∧
    nextIs (exec .readU24 (busyWith .cwcDecode [0xA2#8, 1#8, 2#8] (cwcCur .onExhaust 1 3 0 1) []))
    (fun t => t.err == .bitstreamUnderrun) = true := by decide +kernel

/-- R142. -/
theorem test_realign : nextIs (exec .realign (busyWith .rncDecode [] (rncCur 0 0 0x156A 14) []))
    (fun t => t.cur == rncCur 0 0 0x156A 14) = true := by decide +kernel

/-! ## Output and checksum -/

/-- R71: the byte goes to the write position; R71's example, one byte too many. -/
theorem test_emit : nextIs (exec (.emit 0x43#8) (busyWith .cwcDecode [] Cursor.reset [0x41#8]))
    (fun t => t.outMem == cells 0 [0x41#8, 0x43#8] && t.outLen == 2) = true := by decide +kernel

theorem test_emit_full :
    nextIs (exec (.emit 0x43#8) { busyWith .cwcDecode [] Cursor.reset [] with outLen := 40 })
    (fun t => t.err == .fileSizeMismatch && t.outLen == 0) = true := by decide +kernel

/-- R75's example: `OUT = 61 62`, `lz_copy(2, 5)`. -/
theorem test_lz_copy_overlap : nextIs (exec (.lzCopy 2 5) (busyWith .rncDecode [] Cursor.reset [0x61#8, 0x62#8]))
    (fun t => t.outMem == cells 0 [0x61#8, 0x62#8, 0x61#8, 0x62#8, 0x61#8, 0x62#8, 0x61#8]) = true := by decide +kernel

/-- R73's example: `OUT_LEN = 1`, `lz_copy(32769, 2)` in CWC emits 0 then 0; one further is an error. -/
theorem test_lz_copy_zero_history :
    nextIs (exec (.lzCopy 32769 2) (busyWith .cwcDecode [] Cursor.reset [0x61#8]))
      (fun t => t.outMem == cells 0 [0x61#8, 0#8, 0#8]) = true ∧
    nextIs (exec (.lzCopy 32770 2) (busyWith .cwcDecode [] Cursor.reset [0x61#8]))
      (fun t => t.err == .outputOverrun) = true := by decide +kernel

/-- R173: `crc16("A") = 30C0`, and then `"B"` gives `61B0`. -/
theorem test_crc16 :
    crcUpdate defaultCrcTable 0#16 0x41#8 = 0x30C0#16 ∧ crcUpdate defaultCrcTable 0x30C0#16 0x42#8 = 0x61B0#16 := by
  decide +kernel

/-- R171: the first entries and the last. -/
theorem test_crc_table :
    (List.range 8).map crcTableEntry = [0x0000#16, 0xC0C1#16, 0xC181#16, 0x0140#16, 0xC301#16, 0x03C0#16, 0x0280#16, 0xC241#16] ∧
    crcTableEntry 255 = 0x4040#16 := by decide +kernel

/-! ## RNC -/

/-- R185's example: body `0C 80`. -/
theorem test_rnc_prime : nextIs (exec .rncPrime (busyWith .rncDecode [0x0C#8, 0x80#8] (rncCur 0 2 0 0) []))
    (fun t => t.cur == rncCur 2 2 0x2003 14) = true := by decide +kernel

/-- R163's worked example: lengths 3, 0, 1, 2, 3. -/
theorem test_canonical_table :
    canonicalTable [3, 0, 1, 2, 3] = some [⟨0, 1, 2⟩, ⟨1, 2, 3⟩, ⟨3, 3, 0⟩, ⟨7, 3, 4⟩] := by decide +kernel

/-- R165's example: three codes of one bit. -/
theorem test_canonical_table_oversubscribed : canonicalTable [1, 1, 1] = none := by decide +kernel

/-- R160: count 3, lengths 0, 0, 1, as in the RNC-P1 body. The other tables stay. -/
theorem test_huftab :
    nextIs (exec (.rncHuftab .dist) (busyWith .rncDecode [] (rncCur 0 0 (3 ||| 1 <<< 13) 18) []))
    (fun t => t.work.ht == ⟨[], [⟨0, 1, 2⟩], []⟩ && t.cur == rncCur 0 0 0 1) = true := by decide +kernel

/-- R161: a count of 0 keeps the table. -/
theorem test_huftab_zero :
    nextIs (exec (.rncHuftab .raw)
      { busyWith .rncDecode [] (rncCur 0 0 32 6) [] with work := { Work.reset with
          cur := rncCur 0 0 32 6
          ht := ⟨[⟨0, 1, 2⟩], [], []⟩ } })
    (fun t => t.work.ht == ⟨[⟨0, 1, 2⟩], [], []⟩ && t.cur == rncCur 0 0 1 1) = true := by decide +kernel

/-- R187. -/
theorem test_rnc_chcnt : nextIs (exec .rncChcnt (busyWith .rncDecode [1#8, 0#8] (rncCur 0 2 3 2) []))
    (fun t => t.work.chcnt == 7#16 && t.cur == rncCur 2 2 0 2) = true := by decide +kernel

/-- An engine inside a chunk: table `RAW` has the value 2 at code 0, `DIST` the value 1, `LEN` the value 2. -/
def rncBusy (bytes : List Byte) (cur : Cursor) (out : List Byte) (chcnt : Word16) : State :=
  { busyWith .rncDecode bytes cur out with work := { Work.reset with
      cur := cur
      declLen := 40#32
      ht := ⟨[⟨0, 1, 2⟩], [⟨0, 1, 1⟩], [⟨0, 1, 2⟩]⟩
      chcnt := chcnt } }

/-- R188, R167: value 2 with extension bit 0 is a run of 2; R189, R195: the count 0 wraps. -/
theorem test_rnc_raw : nextIs (exec .rncRaw (rncBusy [0x41#8, 0x42#8] (rncCur 0 2 0 5) [] 0#16))
    (fun t => t.outMem == cells 0 [0x41#8, 0x42#8] && t.work.chcnt == 0xFFFF#16 && t.cur == rncCur 2 2 0 3) = true := by decide +kernel

/-- R190: distance 1 + 1, length 3 + 2 (extension bit 1), from `61 62`. -/
theorem test_rnc_match : nextIs (exec .rncMatch (rncBusy [] (rncCur 0 0 4 5) [0x61#8, 0x62#8] 1#16))
    (fun t => t.outMem == cells 0 [0x61#8, 0x62#8, 0x61#8, 0x62#8, 0x61#8, 0x62#8, 0x61#8] &&
      t.work.rncD == 2 && t.work.rncL == 5 && t.cur == rncCur 0 0 0 2) = true := by decide +kernel

/-! ## CWC -/

/-- R225. -/
theorem test_cwc_lit : nextIs (exec .cwcLit (busyWith .cwcDecode [0x41#8] (cwcCur .onExhaust 0 1 0 9) []))
    (fun t => t.outMem == cells 0 [0x41#8] && t.cur.pos == 1) = true := by decide +kernel

/-- R226's example: `L = 3`, fill `42`: four bytes. -/
theorem test_cwc_short_run : nextIs (exec (.cwcShortRun 3) (busyWith .cwcDecode [0x42#8] (cwcCur .onExhaust 0 1 0 9) []))
    (fun t => t.outMem == cells 0 [0x42#8, 0x42#8, 0x42#8, 0x42#8]) = true := by decide +kernel

/-- R235's example: `OUT = 41`, `L = 2`, `P = 1`: appends `00 41`. -/
theorem test_cwc_short_copy : nextIs (exec (.cwcShortCopy 2 1) (busyWith .cwcDecode [] (cwcCur .onExhaust 0 0 0 9) [0x41#8]))
    (fun t => t.outMem == cells 0 [0x41#8, 0x00#8, 0x41#8] && t.work.cwcD == 2) = true := by decide +kernel

/-- R233: `L + 1` bytes. -/
theorem test_cwc_med_run : nextIs (exec (.cwcMedRun 2) (busyWith .cwcDecode [7#8] (cwcCur .onExhaust 0 1 0 9) []))
    (fun t => t.outMem == cells 0 [7#8, 7#8, 7#8]) = true := by decide +kernel

/-- R227's example: `L = 3`, `P = 2`, `D = 4`. -/
theorem test_cwc_med_copy : nextIs (exec (.cwcMedCopy 3 2) (busyWith .cwcDecode [] (cwcCur .onExhaust 0 0 0 9) [1#8, 2#8, 3#8, 4#8]))
    (fun t => t.outMem == cells 0 [1#8, 2#8, 3#8, 4#8, 1#8, 2#8, 3#8] && t.work.cwcD == 4) = true := by decide +kernel

/-- R235's example: the first opcode copies four zeros from in front of the output. -/
theorem test_cwc_long_copy : nextIs (exec (.cwcLongCopy 4 10) (busyWith .cwcDecode [] (cwcCur .onExhaust 0 0 0 9) []))
    (fun t => t.outMem == cells 0 [0#8, 0#8, 0#8, 0#8]) = true := by decide +kernel

/-- R229: below the declared length the terminator is an error. -/
theorem test_cwc_term_short : nextIs (exec .cwcLongTerm (busyWith .cwcDecode [] (cwcCur .onExhaust 0 0 0 9) [1#8]))
    (fun t => t.status == .error && t.err == .fileSizeMismatch && t.outLen == 0) = true := by decide +kernel

/-- R230. -/
theorem test_cwc_nops : nextIs (exec .cwcLongNopSrc (busyWith .cwcDecode [] (cwcCur .onExhaust 0 0 5 9) [1#8]))
      (fun t => t.cur == cwcCur .onExhaust 0 0 5 9 && t.outLen == 1) = true ∧
    nextIs (exec .cwcLongNopDst (busyWith .cwcDecode [] (cwcCur .onExhaust 0 0 5 9) [1#8]))
      (fun t => t.cur == cwcCur .onExhaust 0 0 5 9 && t.outLen == 1) = true := by decide +kernel

/-- R231's example: `03 78 79 7A`. -/
theorem test_cwc_litstr : nextIs (exec .cwcLongLitstr (busyWith .cwcDecode [3#8, 0x78#8, 0x79#8, 0x7A#8] (cwcCur .onExhaust 0 4 0 9) []))
    (fun t => t.outMem == cells 0 [0x78#8, 0x79#8, 0x7A#8] && t.cur.pos == 4) = true := by decide +kernel

/-- R232's example: `L = 8`, fill `2E`: nine bytes. -/
theorem test_cwc_long_run : nextIs (exec (.cwcLongRun 8) (busyWith .cwcDecode [0x2E#8] (cwcCur .onExhaust 0 1 0 9) []))
    (fun t => t.outMem == cells 0 (List.replicate 9 0x2E#8)) = true := by decide +kernel

/-! ## The tree decoder -/

/-- A dictionary of three records in walking order: record 1 is the root, its right half is record 0. -/
def hufBusy (byte : Byte) : State :=
  { busyWith .hufChunk [2#8, 0#8, 0#8, 0#8, byte] Cursor.reset [] with
    nodeMem := cells 0 [0x48#8, 0#8, 0x69#8, 0#8, 0x21#8, 0#8, 0#8, 1#8]
    hroot := 1#8
    hvalid := true
    work := { Work.reset with
      declLen := 2#32
      hbyte := 4
      hbit := 6
      hnode := 1#8 } }

/-- R271: bit 0 takes the left half, a leaf; the walk is back on the root. -/
theorem test_huf_sym_left : nextIs (exec .hufSym (hufBusy 0x80#8))
    (fun t => t.outMem == cells 0 [0x21#8] && t.work.hbyte == 4 && t.work.hbit == 7 && t.work.hnode == 1#8) = true := by decide +kernel

/-- R270, R271: bits 1 and 1, the second the last of its byte. -/
theorem test_huf_sym_right : nextIs (exec .hufSym (hufBusy 0xC0#8))
    (fun t => t.outMem == cells 0 [0x69#8] && t.work.hbyte == 5 && t.work.hbit == 0 && t.work.hnode == 1#8) = true := by decide +kernel

/-- R48: without a dictionary the walk has nothing to read. -/
theorem test_huf_sym_no_dictionary :
    exec .hufSym { hufBusy 0x80#8 with hvalid := false } = .fault .noDictionary := rfl

/-! ## Commands and steps -/

/-- spec/95_test_vectors.md CWC-P1. -/
def cwcP1 : List Byte :=
  [0x43#8, 0x57#8, 0x43#8, 8#8, 0#8, 0#8, 0#8, 0#8, 7#8, 0#8, 0#8, 0#8, 0#8, 0#8, 0#8, 0#8, 0#8, 0#8, 0#8]

theorem test_cwc_decode_p1 : nextIs (exec .cwcDecode (loadedWith cwcP1))
    (fun t => t.status == .done && t.err == .noError && t.outLen == 0 && t.cmd == some .cwcDecode) = true := by decide +kernel

/-- spec/95_test_vectors.md CWC-P2: four zeros. -/
theorem test_cwc_decode_p2 : nextIs (exec .cwcDecode (loadedWith [0x43#8, 0x57#8, 0x43#8, 4#8, 4#8, 0#8, 0#8, 0#8,
      7#8, 0#8, 0#8, 0#8, 0#8, 0#8, 0#8, 0#8, 0xA2#8, 0#8, 0#8]))
    (fun t => t.status == .done && t.outMem == cells 0 [0#8, 0#8, 0#8, 0#8]) = true := by decide +kernel

/-- spec/95_test_vectors.md RNC-P1: two bytes. -/
def rncP1 : List Byte :=
  [0x52#8, 0x4E#8, 0x43#8, 0x01#8, 0#8, 0#8, 0#8, 2#8, 0#8, 0#8, 0#8, 0x0A#8, 0x61#8, 0xB0#8, 0xBD#8, 0x17#8, 0#8, 1#8,
   0x0C#8, 0x80#8, 0x08#8, 0x11#8, 0x22#8, 0#8, 0#8, 0#8, 0x41#8, 0x42#8]

theorem test_rnc_decode_p1 : nextIs (exec .rncDecode (loadedWith rncP1))
    (fun t => t.status == .done && t.err == .noError && t.outMem == cells 0 [0x41#8, 0x42#8]) = true := by
  decide +kernel

/-- spec/95_test_vectors.md RNC-E3: the fourth magic byte. -/
theorem test_rnc_decode_e3 : nextIs (exec .rncDecode (loadedWith (rncP1.set 3 2#8)))
    (fun t => t.status == .error && t.err == .fileIsNotRnc && t.outLen == 0) = true := by decide +kernel

/-- R261: a table with no record has no root. -/
theorem test_huf_load_empty : nextIs (exec .hufLoad { loadedWith [] with hvalid := true })
    (fun t => t.status == .error && t.err == .incompleteDictionary && !t.hvalid) = true := by decide +kernel

/-- R268, R269: no dictionary; a count of 0. -/
theorem test_huf_chunk : nextIs (exec .hufChunk (loadedWith [0#8, 0#8, 0#8, 0#8]))
      (fun t => t.status == .error && t.err == .incompleteDictionary) = true ∧
    nextIs (exec .hufChunk { loadedWith [0#8, 0#8, 0#8, 0#8] with hvalid := true })
      (fun t => t.status == .done && t.outLen == 0) = true := by decide +kernel

/-- R291: the host writes `CMD`. R296: a value that names no command. -/
theorem test_step_command :
    nextIs (step { loadedWith cwcP1 with pending := [.writeCmd 2] }) (fun t => t.status == .done && t.pending == []) = true ∧
    nextIs (step { loadedWith cwcP1 with pending := [.writeCmd 5] }) (fun t => t.status == .idle && t.cmd == none) = true := by decide +kernel

/-- R350: reset while a command runs. -/
theorem test_step_reset :
    nextIs (step { busyWith .cwcDecode [1#8] Cursor.reset [2#8] with pending := [.reset] })
      (fun t => t.status == .idle && t.inLen == 0 && t.outLen == 0 && t.inMem == []) = true := by decide +kernel

/-- The placed rows of the opcode table run as the next step. -/
theorem test_fetch_word :
    nextIs (step (State.reset.withFetchWord 8 2)) (fun t => t.cmd == some .cwcDecode && t.err == .headerInvalid) = true ∧
    nextIs (step (State.reset.withFetchWord 8 0)) (fun t => t.status == .done) = true := by decide +kernel

/-! ## Witnesses: for each statement with hypotheses, states and operands that meet them -/

theorem nextIs_spec {o : Host.Outcome State Fault Refusal} {f : State → Bool} (h : nextIs o f = true) :
    ∃ t, o = .next t ∧ f t = true := by
  cases o with
  | next t => exact ⟨t, rfl, h⟩
  | fault r => cases h
  | refused r => cases h

/-- `DecodeOfEncode`, at the largest operands and with `bits` at both ends. -/
theorem test_witness_decode_of_encode :
    (Instr.cwcLongCopy 17 1048575).wf ⟨4, 2⟩ = true ∧
    encode ⟨4, 2⟩ (.cwcLongCopy 17 1048575) = some (.stream .cwcOp, ⟨[false, false, false], [0xFF#8, 0xFF#8, 0xFF#8]⟩) ∧
    (Instr.cwcLongCopy 2 16777215).wf ⟨0, 2⟩ = true ∧ (Instr.cwcLongRun 16777217).wf ⟨24, 2⟩ = true ∧
    encode ⟨24, 2⟩ (.cwcLongRun 16777217) = some (.stream .cwcOp, ⟨[false, false, false], [0xFF#8, 0xFF#8, 0xFF#8]⟩) := by
  decide +kernel

/-- `EncodeOfDecode`, `DecodedIsWellFormed`, with `bits` at its bound. -/
theorem test_witness_decode :
    decode ⟨24, 2⟩ (.stream .cwcOp) ⟨[false, false, false], [0#8, 0#8, 0#8]⟩ = .ok (.cwcLongTerm, ⟨[], []⟩) := rfl

/-- `CwcPrefixCodeComplete`, at the shortest parcel. -/
theorem test_witness_prefix_code : 4 ≤ (Parcel.mk [true, true, true, true] [0#8, 0#8, 0#8]).ctl.length ∧
    3 ≤ (Parcel.mk [true, true, true, true] [0#8, 0#8, 0#8]).bytes.length := by decide

/-- An RNC cursor with the largest count that admits a refill. -/
def rncFull : State := busyWith .rncDecode [0x55#8, 0x66#8] (rncCur 0 2 0x7FFF 15) []

/-- A CWC engine with a word and three bytes ahead. -/
def cwcAhead (p : RefillPolicy) (sr cnt : Nat) : State :=
  busyWith .cwcDecode [1#8, 2#8, 3#8, 0x84#8, 5#8] (cwcCur p 0 5 sr cnt) []

/-- `RefillAndPrimeLoadWord`, each clause, both widths. -/
theorem test_witness_refill :
    (rncFull.cur.cnt < rncFull.cur.width.bits ∧ rncFull.nextWord [0x55#8, 0x66#8]) ∧
    ((cwcAhead .onExhaust 0 0).cur.cnt < (cwcAhead .onExhaust 0 0).cur.width.bits ∧
      (cwcAhead .onExhaust 0 0).cur.cnt = 0 ∧ (cwcAhead .onExhaust 0 0).cur.sr = 0 ∧
      (cwcAhead .onExhaust 0 0).cur.pos = (cwcAhead .onExhaust 0 0).cur.base ∧
      (cwcAhead .onExhaust 0 0).nextWord [1#8, 2#8, 3#8, 0x84#8]) ∧
    (rncCur 1 2 0 0).cnt < (rncCur 1 2 0 0).width.bits ∧
      (rncCur 1 2 0 0).fin < (rncCur 1 2 0 0).pos + (rncCur 1 2 0 0).width.bytes := by
  repeat' apply And.intro
  all_goals first | rfl | decide | trivial

/-- `ReadBitUnderBothPolicies`, each clause at its boundary. -/
theorem test_witness_read_bit :
    ((cwcAhead .onDemand 0 1).cur.policy = .onDemand ∧ 1 ≤ (cwcAhead .onDemand 0 1).cur.cnt) ∧
    ((cwcAhead .onDemand 0 0).cur.cnt = 0 ∧ (cwcAhead .onDemand 0 0).nextWord [1#8, 2#8, 3#8, 0x84#8]) ∧
    ((cwcAhead .onExhaust 0 2).cur.policy = .onExhaust ∧ 2 ≤ (cwcAhead .onExhaust 0 2).cur.cnt) ∧
    ((cwcAhead .onExhaust 0 1).cur.cnt = 1 ∧ (cwcAhead .onExhaust 0 1).nextWord [1#8, 2#8, 3#8, 0x84#8]) ∧
    (cwcCur .onExhaust 2 5 0 1).fin < (cwcCur .onExhaust 2 5 0 1).pos + (cwcCur .onExhaust 2 5 0 1).width.bytes := by
  repeat' apply And.intro
  all_goals first | rfl | decide | trivial

theorem loaded_of {s : State} (h : (∀ a < s.inLen, (s.inMem.read a).isSome = true)) : s.loaded := h

theorem outFilled_of {s : State} (h : (∀ a < s.outLen, (s.outMem.read a).isSome = true)) : s.outFilled := h

theorem clean_lsb {c : Cursor} (ho : c.order = .lsb) (h : c.cnt ≤ 2 * c.width.bits - 1) (hs : c.sr < 2 ^ c.cnt) : c.clean := by
  unfold Cursor.clean
  rw [ho]
  exact ⟨h, hs⟩

/-- `ReadBitsLsbFirst`: no pending bit and sixteen to read, the most pending bits; and a missing word. -/
theorem test_witness_read_bits_lsb :
    (busyWith .rncDecode [0x55#8, 0x66#8] (rncCur 0 2 0 0) []).ctlReady 16 ∧
    (busyWith .rncDecode [] (rncCur 0 0 0x7FFFFFFF 31) []).ctlReady 16 ∧
    ((rncCur 1 2 0 15).isRnc ∧ (rncCur 1 2 0 15).cnt < 16 ∧ (rncCur 1 2 0 15).fin < (rncCur 1 2 0 15).pos + 2) := by
  refine ⟨⟨⟨rfl, rfl, rfl⟩, clean_lsb rfl (by decide) (by decide), by decide, by decide, loaded_of (by decide)⟩,
    ⟨⟨rfl, rfl, rfl⟩, clean_lsb rfl (by decide) (by decide), by decide, by decide, loaded_of (by decide)⟩,
    ⟨rfl, rfl, rfl⟩, by decide, by decide⟩

theorem cwcOk_of {c : Cursor} (ho : c.order = .msb) (hw : c.width = .w32) (h : c.cnt ≤ 63) (hs : c.sr < 2 ^ 64)
    (hd : 2 ^ (64 - c.cnt) ∣ c.sr) (he : c.policy = .onExhaust → 1 ≤ c.cnt) : c.cwcOk := by
  refine ⟨ho, hw, ?_, he⟩
  unfold Cursor.clean
  rw [ho, hw]
  exact ⟨h, hs, hd⟩

/-- `ReadBitsMsbFirst` and `FetchAgreesWithDecode` across a refill word, under either policy: three bits that
end with a word, which load the next one under `on_exhaust` only; the bits are those of R135's word
`01 02 03 84`, and `0 0 0` before it. -/
theorem test_witness_cwc_ready :
    ((cwcAhead .onExhaust 0 3).cwcReady 3 ∧ (cwcAhead .onExhaust 0 3).cwcSkip 3 = cwcCur .onExhaust 4 5 0x8403020100000000 32) ∧
    ((cwcAhead .onDemand 0 3).cwcReady 3 ∧ (cwcAhead .onDemand 0 3).cwcSkip 3 = cwcCur .onDemand 0 5 0 0) ∧
    ((cwcAhead .onDemand 0 3).cwcReady 4 ∧ (cwcAhead .onDemand 0 3).cwcCtl 4 = [false, false, false, true]) := by
  refine ⟨⟨⟨?_, by decide, ?_⟩, by decide +kernel⟩, ⟨⟨?_, by decide, trivial⟩, by decide +kernel⟩, ⟨?_, by decide, ?_⟩,
    by decide +kernel⟩
  all_goals first
    | exact cwcOk_of rfl rfl (by decide) (by decide) (by decide) (by decide)
    | exact ⟨by decide, rfl, by decide, rfl, by decide, rfl, by decide, rfl, trivial⟩

/-- `ReadBitsMsbFirst` and `FetchAgreesWithDecode`, the underruns: a word missing in the middle of a
selection, and, under `on_exhaust`, behind its last bit; and no field behind a whole selection. -/
theorem test_witness_cwc_underrun :
    ((cwcCur .onDemand 2 5 0 2).cwcOk ∧ 1 ≤ (cwcCur .onDemand 2 5 0 2).loadsFor 3 ∧
      (cwcCur .onDemand 2 5 0 2).fin < (cwcCur .onDemand 2 5 0 2).pos + 4 ∧
      ∀ i rest, decode ⟨4, 2⟩ (.stream .cwcOp) ⟨(cwcCur .onDemand 2 5 0 2).pendingBits, [0#8, 0#8, 0#8]⟩ ≠ .ok (i, rest)) ∧
    ((cwcCur .onExhaust 2 5 0 3).cwcOk ∧ 1 ≤ (cwcCur .onExhaust 2 5 0 3).loadsFor 3 ∧
      decode ⟨4, 2⟩ (.stream .cwcOp) ⟨(cwcCur .onExhaust 2 5 0 3).pendingBits, [0#8, 0#8, 0#8]⟩ = .ok (.cwcLongTerm, ⟨[], []⟩)) ∧
    (decode ⟨4, 2⟩ (.stream .cwcOp) ⟨(cwcAhead .onExhaust 0 3).cwcCtl 3, [0#8, 0#8, 0#8]⟩ = .ok (.cwcLongTerm, ⟨[], []⟩) ∧
      (cwcAhead .onExhaust 0 3).cur.fin < ((cwcAhead .onExhaust 0 3).cwcSkip 3).pos + 3) := by
  refine ⟨⟨cwcOk_of rfl rfl (by decide) (by decide) (by decide) (by decide), by decide, by decide, ?_⟩,
    ⟨cwcOk_of rfl rfl (by decide) (by decide) (by decide) (by decide), by decide, rfl⟩, rfl, by decide +kernel⟩
  rintro i rest h
  cases h

/-- `ReadBitsMsbFirst`, at the largest `n`. -/
theorem test_witness_read_bits_msb :
    (cwcCur .onExhaust 0 0 (2 ^ 63) 33).order = .msb ∧
    (cwcCur .onExhaust 0 0 (2 ^ 63) 33).sr < 2 ^ (2 * (cwcCur .onExhaust 0 0 (2 ^ 63) 33).width.bits) ∧
    32 ≤ (cwcCur .onExhaust 0 0 (2 ^ 63) 33).width.bits ∧ 32 < (cwcCur .onExhaust 0 0 (2 ^ 63) 33).cnt := by decide

/-- `ReadBitsIsPeekThenSkip`: a peek that refills, and one that raises. -/
theorem test_witness_peek_then_skip :
    (rncFull.cur.isRnc ∧ rncFull.cur.clean ∧ rncFull.status = .busy ∧
      ∃ t, exec (.peekBits 16) rncFull = .next t ∧ t.status = .busy) ∧
    ∃ t, exec (.peekBits 16) (busyWith .rncDecode [] (rncCur 0 0 0 0) []) = .next t ∧ t.status ≠ .busy := by
  refine ⟨⟨⟨rfl, rfl, rfl⟩, clean_lsb rfl (by decide) (by decide), rfl, ?_⟩, ?_⟩
  · obtain ⟨t, h, h'⟩ := nextIs_spec (o := exec (.peekBits 16) rncFull) (f := fun t => t.status == .busy) (by decide +kernel)
    exact ⟨t, h, by simpa using h'⟩
  · obtain ⟨t, h, h'⟩ := nextIs_spec (o := exec (.peekBits 16) (busyWith .rncDecode [] (rncCur 0 0 0 0) []))
      (f := fun t => t.status != .busy) (by decide +kernel)
    exact ⟨t, h, by simpa using h'⟩

/-- `PeekBitsKeepsBits` and `SkipDropsAndRealignKeeps`, each clause. -/
theorem test_witness_peek_skip :
    (rncFull.cur.order = .lsb ∧ rncFull.cur.policy = .onDemand ∧ 16 ≤ rncFull.cur.width.bits ∧
      15 ≤ rncFull.cur.cnt ∧ rncFull.cur.cnt < 16 ∧ rncFull.nextWord [0x55#8, 0x66#8]) ∧
    ((rncCur 1 2 0 15).cnt < 16 ∧ (rncCur 1 2 0 15).fin < (rncCur 1 2 0 15).pos + (rncCur 1 2 0 15).width.bytes) ∧
    (15 ≤ rncFull.cur.cnt ∧ rncFull.cur.sr < 2 ^ (2 * rncFull.cur.width.bits)) ∧
    (cwcAhead .onExhaust (2 ^ 63) 1).cur.sr < 2 ^ (2 * (cwcAhead .onExhaust (2 ^ 63) 1).cur.width.bits) := by
  repeat' apply And.intro
  all_goals first | rfl | decide | trivial

/-- `ByteAlignedReads`, each clause, the field at the very end of the range. -/
theorem test_witness_byte_reads :
    (busyWith .rncDecode [7#8, 8#8, 9#8] (rncCur 2 3 0 0) []).nextBytes [9#8] ∧
    (busyWith .rncDecode [7#8, 8#8, 9#8] (rncCur 1 3 0 0) []).nextBytes [8#8, 9#8] ∧
    (busyWith .rncDecode [7#8, 8#8, 9#8] (rncCur 0 3 0 0) []).nextBytes [7#8, 8#8, 9#8] ∧
    ((rncCur 3 3 0 0).fin < (rncCur 3 3 0 0).pos + 1 ∧ (rncCur 2 3 0 0).fin < (rncCur 2 3 0 0).pos + 2 ∧
      (rncCur 1 3 0 0).fin < (rncCur 1 3 0 0).pos + 3) := by
  repeat' apply And.intro
  all_goals first | rfl | decide | trivial

/-- An engine whose output has exactly `room` free bytes below the declared length 40. -/
def nearlyFull (c : Command) (bytes : List Byte) (room : Nat) : State :=
  { busyWith c bytes (cwcCur .onExhaust 0 bytes.length 0 9) (List.replicate (40 - room) 0x61#8) with phase := .idle }

/-- `EmitAppendsOrFails`, `CwcLitAppendsByte`: the last byte with room, and the first without. -/
theorem test_witness_emit :
    (nearlyFull .cwcDecode [5#8] 1).roomFor 1 ∧ (nearlyFull .cwcDecode [5#8] 1).nextBytes [5#8] ∧
    (nearlyFull .cwcDecode [5#8] 0).work.declLen.toNat ≤ (nearlyFull .cwcDecode [5#8] 0).outLen ∧
    (nearlyFull .cwcDecode [] 1).cur.fin < (nearlyFull .cwcDecode [] 1).cur.pos + 1 := by
  repeat' apply And.intro
  all_goals first | rfl | decide | trivial

/-- `LzCopyByteByByte`, `LzCopyRepeatsPeriodically`, `CwcCopyAppends`: the farthest legal distance and the
next one, with and without zero history; the last byte with room and the first without. -/
theorem test_witness_lz_copy :
    ((nearlyFull .cwcDecode [] 4).cmd = some .cwcDecode ∧ (nearlyFull .cwcDecode [] 4).outFilled ∧
      32804 ≤ (nearlyFull .cwcDecode [] 4).outLen + (nearlyFull .cwcDecode [] 4).cfg.zeroWindow ∧
      (nearlyFull .cwcDecode [] 4).outLen + (nearlyFull .cwcDecode [] 4).cfg.zeroWindow < 32805 ∧
      (nearlyFull .cwcDecode [] 4).roomFor 4) ∧
    ((nearlyFull .rncDecode [] 4).cmd ≠ some .cwcDecode ∧ 36 ≤ (nearlyFull .rncDecode [] 4).outLen ∧
      (nearlyFull .rncDecode [] 4).outLen < 37 ∧ (nearlyFull .rncDecode [] 4).outFilled ∧
      (nearlyFull .rncDecode [] 4).roomFor 4 ∧
      (nearlyFull .rncDecode [] 4).work.declLen.toNat ≤ (nearlyFull .rncDecode [] 4).cfg.outCap ∧
      (nearlyFull .rncDecode [] 4).work.declLen.toNat < (nearlyFull .rncDecode [] 4).outLen + 5) ∧
    32804 = 32801 - 1 + 4 := by
  refine ⟨⟨rfl, outFilled_of (by decide +kernel), by decide, by decide, by decide, by decide⟩,
    ⟨by decide, by decide, by decide, outFilled_of (by decide +kernel), ⟨by decide, by decide⟩, by decide, by decide⟩, rfl⟩

/-- `CwcRunAppendsFill`, each clause: a run that just fits, and one byte more. -/
theorem test_witness_runs :
    ((nearlyFull .cwcDecode [5#8] 3).nextBytes [5#8] ∧ (nearlyFull .cwcDecode [5#8] 3).roomFor (2 + 1) ∧
      (nearlyFull .cwcDecode [5#8] 3).outLen ≤ (nearlyFull .cwcDecode [5#8] 3).work.declLen.toNat ∧
      (nearlyFull .cwcDecode [5#8] 3).work.declLen.toNat ≤ (nearlyFull .cwcDecode [5#8] 3).cfg.outCap ∧
      (nearlyFull .cwcDecode [5#8] 3).work.declLen.toNat < (nearlyFull .cwcDecode [5#8] 3).outLen + (3 + 1)) ∧
    (nearlyFull .cwcDecode [] 3).cur.fin < (nearlyFull .cwcDecode [] 3).cur.pos + 1 := by
  repeat' apply And.intro
  all_goals first | rfl | decide | trivial

/-- `CwcLitstrAppendsString`: a string that just fits, the empty string, and no count byte. -/
theorem test_witness_litstr :
    ([7#8, 8#8] : List Byte).length = (2#8).toNat ∧
    (nearlyFull .cwcDecode [2#8, 7#8, 8#8] 2).nextBytes [2#8, 7#8, 8#8] ∧
    (nearlyFull .cwcDecode [2#8, 7#8, 8#8] 2).roomFor (2#8).toNat ∧
    (nearlyFull .cwcDecode [0#8] 0).nextBytes [0#8] ∧ (nearlyFull .cwcDecode [0#8] 0).roomFor (0#8).toNat ∧
    (nearlyFull .cwcDecode [] 0).cur.fin < (nearlyFull .cwcDecode [] 0).cur.pos + 1 := by
  repeat' apply And.intro
  all_goals first | rfl | decide | trivial

/-- `CwcTermAndNops`, `GrammarOrder`: at the declared length, and below it. -/
theorem test_witness_term :
    (nearlyFull .cwcDecode [] 0).outLen = (nearlyFull .cwcDecode [] 0).work.declLen.toNat ∧
    (nearlyFull .cwcDecode [] 1).outLen ≠ (nearlyFull .cwcDecode [] 1).work.declLen.toNat ∧
    (nearlyFull .cwcDecode [] 1).outLen < (nearlyFull .cwcDecode [] 1).work.declLen.toNat ∧
    (nearlyFull .cwcDecode [] 1).work.chcnt = 0#16 ∧ (rncBusy [] Cursor.reset [] 1#16).work.chcnt ≠ 0#16 := by decide

/-- An RNC engine with the given bytes, its cursor primed with nothing. -/
def rncAt (bytes : List Byte) : State := busyWith .rncDecode bytes (rncCur 0 bytes.length 0 0) []

theorem rncAt_ready (bytes : List Byte) (n : Nat) (h : 2 * ((n + 15) / 16) ≤ bytes.length)
    (hl : ∀ a < bytes.length, ((cells 0 bytes).read a).isSome = true) : (rncAt bytes).ctlReady n := by
  refine ⟨⟨rfl, rfl, rfl⟩, clean_lsb rfl (Nat.zero_le _) Nat.one_pos, ?_, le_refl _, hl⟩
  change 0 + 2 * ((n - 0 + 15) / 16) ≤ bytes.length
  omega

/-- `HuftabLoadsTable`: count 0; lengths 0, 0, 1, which have a table; lengths 1, 1, 1, which have none. -/
theorem test_witness_huftab :
    ((rncAt [0#8, 0#8]).ctlField 0 5 = 0 ∧ (rncAt [0#8, 0#8]).ctlReady 5) ∧
    ((List.range ((rncAt [0x03#8, 0x20#8, 0#8, 0#8]).ctlField 0 5)).map
        (fun i => (rncAt [0x03#8, 0x20#8, 0#8, 0#8]).ctlField (5 + 4 * i) 4) = [0, 0, 1] ∧
      (rncAt [0x03#8, 0x20#8, 0#8, 0#8]).ctlReady (5 + 4 * 3) ∧ canonicalTable [0, 0, 1] = some [⟨0, 1, 2⟩]) ∧
    ((List.range ((rncAt [0x23#8, 0x22#8, 0#8, 0#8]).ctlField 0 5)).map
        (fun i => (rncAt [0x23#8, 0x22#8, 0#8, 0#8]).ctlField (5 + 4 * i) 4) = [1, 1, 1] ∧
      (rncAt [0x23#8, 0x22#8, 0#8, 0#8]).ctlReady (5 + 4 * 3) ∧ canonicalTable [1, 1, 1] = none) := by
  refine ⟨⟨by decide +kernel, rncAt_ready _ _ (by decide) (by decide)⟩,
    ⟨by decide +kernel, rncAt_ready _ _ (by decide) (by decide), by decide⟩,
    ⟨by decide +kernel, rncAt_ready _ _ (by decide) (by decide), by decide⟩⟩

/-- `CanonicalTablePrefixFree`, `CanonicalTableLeaves`: the five values of R163's example, and their codes. `GammaFormUnique`: the
largest number. -/
theorem test_witness_tables :
    canonicalTable [3, 0, 1, 2, 3] = some [⟨0, 1, 2⟩, ⟨1, 2, 3⟩, ⟨3, 3, 0⟩, ⟨7, 3, 4⟩] ∧
    [(2, 1), (3, 2), (0, 3), (4, 3)].map (fun p => canonicalCode [3, 0, 1, 2, 3] p.1 p.2) = [0, 2, 6, 7] ∧ 131071 < 2 ^ 17 := by decide

/-- `RncPrimeDiscardsTwoBits`: a body of two bytes; a body of one. -/
theorem test_witness_rnc_prime :
    ((rncAt [0x0C#8, 0x80#8]).cur.isRnc ∧ (rncAt [0x0C#8, 0x80#8]).cur.cnt = 0 ∧ (rncAt [0x0C#8, 0x80#8]).cur.sr = 0 ∧
      (rncAt [0x0C#8, 0x80#8]).cur.pos = (rncAt [0x0C#8, 0x80#8]).cur.base ∧
      (rncAt [0x0C#8, 0x80#8]).nextBytes [0x0C#8, 0x80#8]) ∧
    ((rncAt [0x0C#8]).cur.isRnc ∧ (rncAt [0x0C#8]).cur.cnt = 0 ∧ (rncAt [0x0C#8]).cur.sr = 0 ∧
      (rncAt [0x0C#8]).cur.pos = (rncAt [0x0C#8]).cur.base ∧ (rncAt [0x0C#8]).cur.fin < (rncAt [0x0C#8]).cur.base + 2) := by
  repeat' apply And.intro
  all_goals first | rfl | decide | trivial

/-- `RncChcntReadsCount`: a count of 0, which is 65536 tuples. -/
theorem test_witness_chcnt : (rncAt [0#8, 0#8]).ctlReady 16 ∧ (rncAt [0#8, 0#8]).ctlField 0 16 = 0 :=
  ⟨rncAt_ready _ _ (by decide) (by decide), by decide +kernel⟩

/-- An engine inside a chunk with three one-leaf tables, code 0, of the given values. -/
def rncTables (bytes : List Byte) (vr vd vl : Nat) (out : List Byte) : State :=
  { busyWith .rncDecode bytes (rncCur 0 bytes.length 0 0) out with work := { Work.reset with
      cur := rncCur 0 bytes.length 0 0
      declLen := 40#32
      ht := ⟨[⟨0, 1, vr⟩], [⟨0, 1, vd⟩], [⟨0, 1, vl⟩]⟩ } }

theorem rncTables_ready (bytes : List Byte) (vr vd vl n : Nat) (out : List Byte)
    (h : 2 * ((n + 15) / 16) ≤ bytes.length) (hl : ∀ a < bytes.length, ((cells 0 bytes).read a).isSome = true) :
    (rncTables bytes vr vd vl out).ctlReady n := by
  refine ⟨⟨rfl, rfl, rfl⟩, clean_lsb rfl (Nat.zero_le _) Nat.one_pos, ?_, le_refl _, hl⟩
  change 0 + 2 * ((n - 0 + 15) / 16) ≤ bytes.length
  omega

/-- `RncRawAppendsRun`: a run of 2 that ends with the body. -/
theorem test_witness_rnc_raw :
    (rncTables [0#8, 0#8, 7#8, 8#8] 2 1 2 []).selects (rncTables [0#8, 0#8, 7#8, 8#8] 2 1 2 []).work.ht.raw ⟨0, 1, 2⟩ ∧
    (HuffLeaf.mk 0 1 2).value ≤ 17 ∧
    (rncTables [0#8, 0#8, 7#8, 8#8] 2 1 2 []).ctlReady (HuffLeaf.mk 0 1 2).bits ∧
    ((rncTables [0#8, 0#8, 7#8, 8#8] 2 1 2 []).ctlSkip (HuffLeaf.mk 0 1 2).bits).pos +
        (rncTables [0#8, 0#8, 7#8, 8#8] 2 1 2 []).hufNumber ⟨0, 1, 2⟩ ≤ (rncTables [0#8, 0#8, 7#8, 8#8] 2 1 2 []).cur.fin ∧
    (rncTables [0#8, 0#8, 7#8, 8#8] 2 1 2 []).roomFor ((rncTables [0#8, 0#8, 7#8, 8#8] 2 1 2 []).hufNumber ⟨0, 1, 2⟩) := by
  refine ⟨⟨by decide, by decide +kernel, [], [], rfl, by simp⟩, by decide, rncTables_ready _ _ _ _ _ _ (by decide) (by decide),
    by decide +kernel, by decide +kernel, by decide +kernel⟩

/-- The engine of `test_witness_rnc_match` between distance and length. -/
def rncMatchMid : State := (rncTables [0#8, 0#8] 2 1 2 [1#8, 2#8]).withCur ((rncTables [0#8, 0#8] 2 1 2 [1#8, 2#8]).ctlSkip 1)

/-- `RncMatchCopies`: distance 2 with exactly two bytes of output, length 4; and a distance of 2 with none. -/
theorem test_witness_rnc_match :
    ((rncTables [0#8, 0#8] 2 1 2 [1#8, 2#8]).cmd = some .rncDecode ∧
      (rncTables [0#8, 0#8] 2 1 2 [1#8, 2#8]).selects (rncTables [0#8, 0#8] 2 1 2 [1#8, 2#8]).work.ht.dist ⟨0, 1, 1⟩ ∧
      (rncTables [0#8, 0#8] 2 1 2 [1#8, 2#8]).ctlReady (HuffLeaf.mk 0 1 1).bits ∧
      rncMatchMid.selects rncMatchMid.work.ht.len ⟨0, 1, 2⟩ ∧ rncMatchMid.ctlReady (HuffLeaf.mk 0 1 2).bits) ∧
    ((rncTables [0#8, 0#8] 2 1 2 [1#8, 2#8]).hufNumber ⟨0, 1, 1⟩ + 1 = 2 ∧ rncMatchMid.hufNumber ⟨0, 1, 2⟩ + 2 = 4 ∧
      2 ≤ (rncTables [0#8, 0#8] 2 1 2 [1#8, 2#8]).outLen ∧ (rncTables [0#8, 0#8] 2 1 2 [1#8, 2#8]).outFilled ∧
      (rncTables [0#8, 0#8] 2 1 2 [1#8, 2#8]).roomFor 4 ∧ (rncTables [0#8, 0#8] 2 1 2 []).outLen < 2) := by
  refine ⟨⟨rfl, ⟨by decide, by decide +kernel, [], [], rfl, by simp⟩, rncTables_ready _ _ _ _ _ _ (by decide) (by decide),
    ⟨by decide, by decide +kernel, [], [], rfl, by simp⟩,
    ⟨⟨rfl, rfl, rfl⟩, clean_lsb rfl (by decide +kernel) (by decide +kernel), by decide +kernel, by decide +kernel,
      loaded_of (by decide)⟩⟩,
    by decide +kernel, by decide +kernel, by decide, outFilled_of (by decide), ⟨by decide, by decide⟩, by decide⟩

/-- An engine after the distance of a match; its next bit is 0 and its length table has the value 18. -/
def rncBadLen : State := (rncTables [0#8, 0#8] 2 1 18 []).withCur ((rncTables [0#8, 0#8] 2 1 18 []).ctlSkip 1)

/-- `HufDecodeErrors`, each cause and each table: empty tables, a bit that is no code, the leaf value 18. -/
theorem test_witness_huf_errors :
    ((rncAt []).undecodable (rncAt []).work.ht.raw ∧ (rncAt []).undecodable (rncAt []).work.ht.dist) ∧
    ((rncTables [1#8, 0#8] 2 1 2 []).undecodable (rncTables [1#8, 0#8] 2 1 2 []).work.ht.raw ∧
      (rncTables [1#8, 0#8] 2 1 2 []).undecodable (rncTables [1#8, 0#8] 2 1 2 []).work.ht.dist) ∧
    (rncTables [0#8, 0#8] 18 1 2 []).undecodable (rncTables [0#8, 0#8] 18 1 2 []).work.ht.raw ∧
    ((rncTables [0#8, 0#8] 2 1 18 []).selects (rncTables [0#8, 0#8] 2 1 18 []).work.ht.dist ⟨0, 1, 1⟩ ∧
      (rncTables [0#8, 0#8] 2 1 18 []).ctlReady (HuffLeaf.mk 0 1 1).bits ∧
      rncBadLen.undecodable (rncTables [0#8, 0#8] 2 1 18 []).work.ht.len) := by
  have ready := rncTables_ready [1#8, 0#8] 2 1 2 15 [] (by decide) (by decide)
  refine ⟨⟨.inl rfl, .inl rfl⟩, ⟨.inr (.inl ⟨ready, by decide +kernel⟩), .inr (.inl ⟨ready, by decide +kernel⟩)⟩,
    .inr (.inr ⟨⟨0, 1, 18⟩, ⟨by decide, by decide +kernel, [], [], rfl, by simp⟩, rncTables_ready _ _ _ _ _ _ (by decide) (by decide),
      by decide⟩),
    ⟨by decide, by decide +kernel, [], [], rfl, by simp⟩, rncTables_ready _ _ _ _ _ _ (by decide) (by decide),
    .inr (.inr ⟨⟨0, 1, 18⟩, ⟨by decide, by decide +kernel, [], [], rfl, by simp⟩,
      ⟨⟨rfl, rfl, rfl⟩, clean_lsb rfl (by decide +kernel) (by decide +kernel), by decide +kernel, by decide +kernel,
        loaded_of (by decide)⟩, by decide⟩)⟩

/-- `HufSymFollowsPath`: the path of two bits across a byte's end; and no byte left. -/
theorem test_witness_huf_sym :
    ((hufBusy 0xC0#8).work.hnode.toNat < 255 ∧ (hufBusy 0xC0#8).hvalid = true ∧ (hufBusy 0xC0#8).pathTo 1 [true, true] 0x69#8 ∧
      (hufBusy 0xC0#8).bitsAt (hufBusy 0xC0#8).hufBit [true, true] ∧ (hufBusy 0xC0#8).roomFor 1) ∧
    (hufBusy 0xC0#8).nodeAt 0 = some ⟨0x48#8, 0#8, 0x69#8, 0#8⟩ ∧
    (hufBusy 0xC0#8).nodeAt 1 = some ⟨0x21#8, 0#8, 0#8, 1#8⟩ ∧ (hufBusy 0xC0#8).nodeAt 2 = none ∧
    (rncAt []).inLen ≤ (rncAt []).work.hbyte ∧
    ({ hufBusy 0x80#8 with hvalid := false }.work.hbyte < { hufBusy 0x80#8 with hvalid := false }.inLen ∧
      { hufBusy 0x80#8 with hvalid := false }.inMem.read 4 = some 0x80#8) := by
  refine ⟨⟨by decide, rfl, ⟨_, rfl, by decide, _, rfl, rfl, rfl⟩, ⟨by decide, ⟨_, rfl, by decide⟩, by decide, ⟨_, rfl, by decide⟩, trivial⟩,
    by decide, by decide⟩, rfl, rfl, rfl, by decide, by decide, rfl⟩

/-! The chain dictionary of spec/95_test_vectors.md, H-D3: record `n` has the leaf `254 - n` on its left
and record `n - 1` on its right; record 0 has two leaves. -/

def chainRec : Nat → NodeRec
  | 0 => ⟨0xFE#8, 0#8, 0xFF#8, 0#8⟩
  | n + 1 => ⟨BitVec.ofNat 8 (253 - n), 0#8, BitVec.ofNat 8 n, 1#8⟩

def chainTree : Nat → HufTree
  | 0 => .node 0 (.leaf 0xFE#8) (.leaf 0xFF#8)
  | n + 1 => .node (n + 1) (.leaf (BitVec.ofNat 8 (253 - n))) (chainTree n)

def chainBytes : Nat → Nat → List Byte
  | _, 0 => []
  | i, k + 1 => (chainRec i).lv :: (chainRec i).lt :: (chainRec i).rv :: (chainRec i).rt :: chainBytes (i + 1) k

/-- An idle engine with the dictionary in `IN`. -/
def chainInput : State := loadedWith (chainBytes 0 255)

theorem read_cells (a k : Nat) (l : List Byte) : Mem.read (cells a l) (a + k) = l[k]? := by
  induction l generalizing a k with
  | nil => rfl
  | cons b l ih =>
    cases k with
    | zero => exact if_pos rfl
    | succ k =>
      have := ih (a + 1) k
      rw [show a + 1 + k = a + (k + 1) by omega] at this
      exact (if_neg (by omega)).trans this

theorem chainBytes_length (i k : Nat) : (chainBytes i k).length = 4 * k := by
  induction k generalizing i with
  | zero => rfl
  | succ k ih =>
    simp only [chainBytes, List.length_cons, ih]
    omega

theorem chainBytes_get (i k j : Nat) (h : j < k) :
    (chainBytes i k)[4 * j]? = some (chainRec (i + j)).lv ∧ (chainBytes i k)[4 * j + 1]? = some (chainRec (i + j)).lt ∧
    (chainBytes i k)[4 * j + 2]? = some (chainRec (i + j)).rv ∧ (chainBytes i k)[4 * j + 3]? = some (chainRec (i + j)).rt := by
  induction k generalizing i j with
  | zero => omega
  | succ k ih =>
    cases j with
    | zero => exact ⟨rfl, rfl, rfl, rfl⟩
    | succ j =>
      have := ih (i + 1) j (by omega)
      rw [show i + 1 + j = i + (j + 1) by omega] at this
      exact this

theorem chain_read (k : Nat) : Mem.read (cells 0 (chainBytes 0 255)) k = (chainBytes 0 255)[k]? := by
  have := read_cells 0 k (chainBytes 0 255)
  rwa [Nat.zero_add] at this

theorem chainInput_table (i : Nat) (hi : i < 255) : chainInput.tableAt i = some (chainRec i) := by
  obtain ⟨h1, h2, h3, h4⟩ := chainBytes_get 0 255 i hi
  rw [Nat.zero_add, ← chain_read] at h1 h2 h3 h4
  have hc : i < chainInput.nodeCount := by
    have hl : chainInput.inLen = 4 * 255 := chainBytes_length 0 255
    unfold State.nodeCount
    rw [hl]
    omega
  unfold State.tableAt
  rw [if_pos hc]
  change (do
    let lv ← Mem.read (cells 0 (chainBytes 0 255)) (4 * i)
    let lt ← Mem.read (cells 0 (chainBytes 0 255)) (4 * i + 1)
    let rv ← Mem.read (cells 0 (chainBytes 0 255)) (4 * i + 2)
    let rt ← Mem.read (cells 0 (chainBytes 0 255)) (4 * i + 3)
    some (NodeRec.mk lv lt rv rt)) = _
  rw [h1, h2, h3, h4]
  rfl

theorem chainTree_spelled : ∀ n < 255, (chainTree n).spelled chainInput.tableAt
  | 0, h => ⟨_, chainInput_table 0 h, ⟨rfl, rfl⟩, ⟨rfl, rfl⟩, trivial, trivial⟩
  | n + 1, h => by
    refine ⟨_, chainInput_table (n + 1) h, ⟨rfl, rfl⟩, ?_, trivial, chainTree_spelled n (by omega)⟩
    cases n with
    | zero => exact ⟨rfl, rfl⟩
    | succ m => exact ⟨rfl, by change (BitVec.ofNat 8 (m + 1)).toNat = m + 1; rw [BitVec.toNat_ofNat]; omega⟩

theorem chainInput_loaded : ∀ a < chainInput.inLen, (chainInput.inMem.read a).isSome = true := by
  intro a ha
  change (Mem.read (cells 0 (chainBytes 0 255)) a).isSome = true
  rw [chain_read, List.getElem?_eq_getElem ha]
  rfl

theorem chainInput_size : 1020 ≤ chainInput.inLen := by
  change 1020 ≤ (chainBytes 0 255).length
  rw [chainBytes_length]

theorem chainTree_nodes (n : Nat) : (∀ x ∈ (chainTree n).nodes, x ≤ n) ∧ (chainTree n).nodes.Nodup := by
  induction n with
  | zero => exact ⟨by decide, by decide⟩
  | succ n ih =>
    simp only [chainTree, HufTree.nodes, List.nil_append]
    refine ⟨fun x hx => ?_, List.nodup_cons.2 ⟨fun h => ?_, ih.2⟩⟩
    · rcases List.mem_cons.1 hx with rfl | hx
      · exact le_refl _
      · exact Nat.le_succ_of_le (ih.1 x hx)
    · exact absurd (ih.1 _ h) (by omega)

theorem chainTree_leaves (n : Nat) (h : n < 255) :
    (∀ x ∈ (chainTree n).leaves, 254 - n ≤ x.toNat) ∧ (chainTree n).leaves.Nodup ∧ (chainTree n).leaves.length = n + 2 := by
  induction n with
  | zero => exact ⟨by decide, by decide, rfl⟩
  | succ n ih =>
    have ih := ih (by omega)
    have hv : (BitVec.ofNat 8 (253 - n)).toNat = 253 - n := by
      rw [BitVec.toNat_ofNat]
      omega
    simp only [chainTree, HufTree.leaves, List.singleton_append, List.length_cons]
    refine ⟨fun x hx => ?_, List.nodup_cons.2 ⟨fun hm => ?_, ih.2.1⟩, by rw [ih.2.2]⟩
    · rcases List.mem_cons.1 hx with rfl | hx
      · omega
      · exact le_trans (by omega) (ih.1 x hx)
    · have := ih.1 _ hm
      omega

/-- `HufLoadAtConventionalRoot` and the first clause of `HufLoadFindsTheRoot`. -/
theorem test_witness_huf_load : chainInput.status ≠ .busy ∧ chainInput.loaded ∧ 1020 ≤ chainInput.inLen ∧
    ProperTreeAt chainInput.tableAt 254 (chainTree 254) :=
  ⟨fun h => (by cases h), loaded_of chainInput_loaded, chainInput_size, .leaf (BitVec.ofNat 8 (253 - 253)), chainTree 253, rfl,
    chainTree_spelled 254 (by decide), (chainTree_nodes 254).2, (chainTree_leaves 254 (by decide)).2⟩

/-- The second clause of `HufLoadFindsTheRoot`: no record, no tree. -/
theorem test_witness_huf_load_fails : (loadedWith []).status ≠ .busy ∧ (loadedWith []).loaded ∧
    ∀ r tree, ¬ ProperTreeAt (loadedWith []).tableAt r tree := by
  refine ⟨by decide, loaded_of (by decide), ?_⟩
  rintro r tree ⟨left, right, rfl, ⟨e, he, _⟩, _⟩
  have : (loadedWith []).tableAt r = none := if_neg (Nat.not_lt_zero r)
  rw [this] at he
  cases he

/-- An idle engine with the chain dictionary loaded and a chunk in `IN`. -/
def chainChunk (bytes : List Byte) : State :=
  { loadedWith bytes with
    nodeMem := cells 0 (chainBytes 0 255)
    hroot := 254#8
    hvalid := true }

theorem chainChunk_node (bytes : List Byte) (i : Nat) (hi : i < 255) :
    (chainChunk bytes).nodeAt i = some (chainRec i) := by
  obtain ⟨h1, h2, h3, h4⟩ := chainBytes_get 0 255 i hi
  rw [Nat.zero_add, ← chain_read] at h1 h2 h3 h4
  unfold State.nodeAt
  change (do
    let lv ← Mem.read (cells 0 (chainBytes 0 255)) (4 * i)
    let lt ← Mem.read (cells 0 (chainBytes 0 255)) (4 * i + 1)
    let rv ← Mem.read (cells 0 (chainBytes 0 255)) (4 * i + 2)
    let rt ← Mem.read (cells 0 (chainBytes 0 255)) (4 * i + 3)
    some (NodeRec.mk lv lt rv rt)) = _
  rw [h1, h2, h3, h4]
  rfl

/-- `HufChunkValidation`, each clause at its boundary; capacity 64. -/
theorem test_witness_chunk_validation :
    ((loadedWith [0#8]).status ≠ .busy ∧ (loadedWith [0#8]).hvalid = false) ∧
    ((chainChunk [0#8, 0#8, 0#8]).hvalid = true ∧ (chainChunk [0#8, 0#8, 0#8]).inLen < 4) ∧
    ((chainChunk [0#8, 0#8, 0#8, 0#8]).inHas 0 [0#8, 0#8, 0#8, 0#8] ∧ leNat [0#8, 0#8, 0#8, 0#8] = 0) ∧
    ((chainChunk [65#8, 0#8, 0#8, 0#8]).inHas 0 [65#8, 0#8, 0#8, 0#8] ∧
      (chainChunk [65#8, 0#8, 0#8, 0#8]).cfg.outCap < leNat [65#8, 0#8, 0#8, 0#8]) ∧
    ((chainChunk [9#8, 0#8, 0#8, 0#8, 0#8]).inHas 0 [9#8, 0#8, 0#8, 0#8] ∧
      leNat [9#8, 0#8, 0#8, 0#8] ≤ (chainChunk [9#8, 0#8, 0#8, 0#8, 0#8]).cfg.outCap ∧
      8 * ((chainChunk [9#8, 0#8, 0#8, 0#8, 0#8]).inLen - 4) < leNat [9#8, 0#8, 0#8, 0#8]) := by
  repeat' apply And.intro
  all_goals first | rfl | decide | trivial

/-- `HufChunkDecodesSymbols`, `CommandsTerminate`: two symbols, values 0 (code `0`) and 1 (code `1 0`). -/
theorem test_witness_chunk :
    (chainChunk [2#8, 0#8, 0#8, 0#8, 2#8]).status ≠ .busy ∧ (chainChunk [2#8, 0#8, 0#8, 0#8, 2#8]).hvalid = true ∧
    (chainChunk [2#8, 0#8, 0#8, 0#8, 2#8]).walkable ∧
    (chainChunk [2#8, 0#8, 0#8, 0#8, 2#8]).inHas 0 [2#8, 0#8, 0#8, 0#8] ∧
    [([false], 0#8), ([true, false], 1#8)].length = leNat [2#8, 0#8, 0#8, 0#8] ∧
    (chainChunk [2#8, 0#8, 0#8, 0#8, 2#8]).spells [([false], 0#8), ([true, false], 1#8)] ∧
    (chainChunk [2#8, 0#8, 0#8, 0#8, 2#8]).bitsAt 32 ([([false], 0#8), ([true, false], 1#8)].map Prod.fst).flatten ∧
    (chainChunk [2#8, 0#8, 0#8, 0#8, 2#8]).loaded := by
  refine ⟨by decide, rfl, ⟨by decide, fun i hi => ⟨_, chainChunk_node _ i hi, ?_, ?_⟩⟩, ⟨by decide, rfl, by decide, rfl, by decide, rfl, by decide, rfl, trivial⟩,
    rfl, ⟨⟨_, chainChunk_node _ 254 (by decide), rfl, rfl⟩, ⟨_, chainChunk_node _ 254 (by decide), by decide, _, chainChunk_node _ 253 (by decide), rfl, rfl⟩, trivial⟩,
    ⟨by decide, ⟨_, rfl, by decide⟩, by decide, ⟨_, rfl, by decide⟩, by decide, ⟨_, rfl, by decide⟩, trivial⟩, loaded_of (by decide)⟩
  · cases i with
    | zero => intro h; exact absurd rfl h
    | succ n => intro h; exact absurd rfl h
  · cases i with
    | zero => intro h; exact absurd rfl h
    | succ n =>
      intro _
      change (BitVec.ofNat 8 n).toNat < 255
      rw [BitVec.toNat_ofNat]
      omega

/-- `CwcTerminatorOnlyFile`: CWC-P1, `bits = 8`. -/
theorem test_witness_cwc_empty : (loadedWith cwcP1).status ≠ .busy ∧ (8#8 : Byte).toNat ≤ 24 ∧
    (loadedWith cwcP1).cfg.cwcSpecialBase = 2 ∧
    (loadedWith cwcP1).inHas 0 ([0x43#8, 0x57#8, 0x43#8, 8#8] ++ [0#8, 0#8, 0#8, 0#8] ++ [7#8, 0#8, 0#8, 0#8] ++
      List.replicate 7 0#8) := by
  repeat' apply And.intro
  all_goals first | rfl | decide | trivial

/-- An RNC file of no bytes with a body of two zeros: both checksums are 0. -/
def rncEmpty : List Byte :=
  [0x52#8, 0x4E#8, 0x43#8, 0x01#8, 0#8, 0#8, 0#8, 0#8, 0#8, 0#8, 0#8, 2#8, 0#8, 0#8, 0#8, 0#8, 9#8, 9#8, 0#8, 0#8]

/-- `RncEmptyFile`. -/
theorem test_witness_rnc_empty : (loadedWith rncEmpty).status ≠ .busy ∧
    (loadedWith rncEmpty).inHas 0 ([0x52#8, 0x4E#8, 0x43#8, 0x01#8] ++ [0#8, 0#8, 0#8, 0#8] ++ [0#8, 0#8, 0#8, 2#8] ++
      [0#8, 0#8, 0#8, 0#8, 9#8, 9#8, 0#8, 0#8]) ∧
    (0#8 : Byte) ++ (0#8 : Byte) = (loadedWith rncEmpty).cfg.rncCrcInit ∧
    (0#8 : Byte) ++ (0#8 : Byte) = crcUpdate (loadedWith rncEmpty).cfg.rncCrcTable
      (crcUpdate (loadedWith rncEmpty).cfg.rncCrcTable (loadedWith rncEmpty).cfg.rncCrcInit 0#8) 0#8 ∧
    (0#8 : Byte) ++ (1#8 : Byte) ≠ (loadedWith (rncEmpty.set 13 1#8)).cfg.rncCrcInit := by
  refine ⟨by decide, ?_, rfl, by decide +kernel, by decide⟩
  repeat' apply And.intro
  all_goals first | rfl | decide | trivial

/-- `RncHeaderChecks`: the packed checksum of a body of two zeros is 0, and the header says 1. -/
theorem test_witness_rnc_packed :
    (loadedWith (rncEmpty.set 15 1#8)).inHas 0 ((rncEmpty.set 15 1#8).take 16) ∧
    [0#8, 0#8].length = ((0#8 : Byte) ++ (0#8 : Byte) ++ (0#8 : Byte) ++ (2#8 : Byte)).toNat ∧
    (loadedWith (rncEmpty.set 15 1#8)).inHas 18 [0#8, 0#8] ∧
    (0#8 : Byte) ++ (1#8 : Byte) ≠ (loadedWith (rncEmpty.set 15 1#8)).checksum [0#8, 0#8] := by
  refine ⟨?_, rfl, ?_, by decide +kernel⟩
  all_goals repeat' apply And.intro
  all_goals first | rfl | decide | trivial

/-- `CwcHeaderChecks`, each clause at its boundary; capacity 64. -/
theorem test_witness_cwc_header :
    ((loadedWith (cwcP1.take 11)).status ≠ .busy ∧ (loadedWith (cwcP1.take 11)).inLen < 12) ∧
    (loadedWith (cwcP1.set 0 0#8)).inHas 0 ((cwcP1.set 0 0#8).take 12) ∧
    ((loadedWith (cwcP1.set 8 8#8)).inHas 0 ((cwcP1.set 8 8#8).take 12) ∧
      (loadedWith (cwcP1.set 8 8#8)).inLen < 12 + leNat [8#8, 0#8, 0#8, 0#8]) ∧
    ((loadedWith (cwcP1.set 3 25#8)).inHas 0 ((cwcP1.set 3 25#8).take 12) ∧ 24 < (25#8 : Byte).toNat) ∧
    ((loadedWith (cwcP1.set 4 65#8)).inHas 0 ((cwcP1.set 4 65#8).take 12) ∧
      (loadedWith (cwcP1.set 4 65#8)).cfg.outCap < leNat [65#8, 0#8, 0#8, 0#8]) ∧
    ((loadedWith (cwcP1.set 8 3#8)).inHas 0 ((cwcP1.set 8 3#8).take 12) ∧
      12 + leNat [3#8, 0#8, 0#8, 0#8] ≤ (loadedWith (cwcP1.set 8 3#8)).inLen ∧ leNat [3#8, 0#8, 0#8, 0#8] < 4) := by
  repeat' apply And.intro
  all_goals first | rfl | decide | trivial

/-- `GrammarOrder`: an RNC engine at its declared length, with and without the checksum of its output; and
one beyond it, which no run reaches. -/
def rncEnd (crc : Word16) (declared : Nat) : State :=
  { busyWith .rncDecode [] (rncCur 0 0 0 0) [0x41#8, 0x42#8] with work := { Work.reset with
      declLen := BitVec.ofNat 32 declared
      unpackedCrc := crc } }

theorem test_witness_rnc_end :
    ((rncEnd 0x61B0#16 2).outLen = (rncEnd 0x61B0#16 2).work.declLen.toNat ∧ (rncEnd 0x61B0#16 2).outFilled ∧
      (rncEnd 0x61B0#16 2).work.chcnt = 0#16 ∧
      (rncEnd 0x61B0#16 2).checksum (rncEnd 0x61B0#16 2).outBytes = (rncEnd 0x61B0#16 2).work.unpackedCrc) ∧
    (rncEnd 0#16 2).checksum (rncEnd 0#16 2).outBytes ≠ (rncEnd 0#16 2).work.unpackedCrc ∧
    (rncEnd 0#16 1).work.declLen.toNat < (rncEnd 0#16 1).outLen :=
  ⟨⟨by decide, outFilled_of (by decide), by decide, by decide +kernel⟩, by decide +kernel, by decide⟩

/-- `RncHeaderChecks`, each clause: 17 bytes; 18 bytes with a wrong magic; a packed length one too large. -/
theorem test_witness_rnc_header :
    ((loadedWith (rncEmpty.take 17)).status ≠ .busy ∧ (loadedWith (rncEmpty.take 17)).inLen < 18) ∧
    (18 ≤ (loadedWith ((2#8 :: rncEmpty).take 18)).inLen ∧
      (loadedWith ((2#8 :: rncEmpty).take 18)).inHas 0 ((2#8 :: rncEmpty).take 16)) ∧
    (18 ≤ (loadedWith (rncEmpty.set 11 3#8)).inLen ∧ (loadedWith (rncEmpty.set 11 3#8)).inHas 0 ((rncEmpty.set 11 3#8).take 16) ∧
      (loadedWith (rncEmpty.set 11 3#8)).inLen < 18 + ((0#8 : Byte) ++ (0#8 : Byte) ++ (0#8 : Byte) ++ (3#8 : Byte)).toNat) := by
  repeat' apply And.intro
  all_goals first | rfl | decide | trivial

/-- `CommandsTerminate`, `CommandsPreserve`, `CommandResults`, `StepwiseEqualsWhole`: a command that ends
`DONE`. `ErrorKindsOfCommands`: one that ends in an error. -/
theorem test_witness_commands :
    ((loadedWith cwcP1).status ≠ .busy ∧ (loadedWith cwcP1).loaded ∧ (loadedWith cwcP1).pending = [] ∧
      ∃ t, exec Command.cwcDecode.toInstr (loadedWith cwcP1) = .next t ∧ t.status = .done) ∧
    ∃ t, exec Command.cwcDecode.toInstr (loadedWith []) = .next t ∧ t.status = .error := by
  refine ⟨⟨by decide, loaded_of (by decide +kernel), rfl, ?_⟩, ?_⟩
  · obtain ⟨t, h, h'⟩ := nextIs_spec (o := exec .cwcDecode (loadedWith cwcP1)) (f := fun t => t.status == .done) (by decide +kernel)
    exact ⟨t, h, by simpa using h'⟩
  · obtain ⟨t, h, h'⟩ := nextIs_spec (o := exec .cwcDecode (loadedWith [])) (f := fun t => t.status == .error) (by decide +kernel)
    exact ⟨t, h, by simpa using h'⟩

/-- Another engine with the same input below `IN_LEN`, and nothing else the same. -/
def otherEngine : State :=
  { loadedWith cwcP1 with
    inMem := (loadedWith cwcP1).inMem ++ [(40, 9#8)]
    status := .error
    err := .hufDecodeError
    ended := 7 }

/-- `CommandsArePure`: two engines that differ in all that does not matter. -/
theorem test_witness_purity : (loadedWith cwcP1).status ≠ .busy ∧ otherEngine.status ≠ .busy ∧
    (loadedWith cwcP1).cfg = otherEngine.cfg ∧ (loadedWith cwcP1).inLen = otherEngine.inLen ∧
    ∀ a < (loadedWith cwcP1).inLen, (loadedWith cwcP1).inMem.read a = otherEngine.inMem.read a :=
  ⟨by decide, by decide, rfl, rfl, by decide +kernel⟩

/-- An engine inside `CWC_DECODE` whose next opcode is a literal, and whose last bit is used. -/
def litNext : State :=
  { busyWith .cwcDecode [0x41#8, 1#8, 2#8] (cwcCur .onExhaust 0 3 (2 ^ 63) 5) [] with phase := .stream .cwcOp }

/-- `StepRunsDecodedInstruction`: a command the host writes; a fetched opcode that leaves the engine busy,
and one that ends its command. -/
theorem test_witness_step_runs :
    decode ⟨0, 2⟩ .cmd ⟨[], [BitVec.ofNat 8 4]⟩ = .ok (.hufChunk, ⟨[], []⟩) ∧
    (litNext.status = .busy ∧ litNext.pending = [] ∧ litNext.phase = .stream .cwcOp) ∧
    fetch .cwcOp litNext = .ok .cwcLit (litNext.withCur (cwcCur .onExhaust 0 3 0 4)) ∧
    (∃ t, exec .cwcLit (litNext.withCur (cwcCur .onExhaust 0 3 0 4)) = .next t ∧ t.status = .busy) ∧
    (∃ t, exec .cwcLit (litNext.withCur (cwcCur .onExhaust 3 3 0 4)) = .next t ∧ t.status ≠ .busy) ∧
    decode ⟨0, 2⟩ (.stream .rncMatch) ⟨[], []⟩ = .ok (.rncMatch, ⟨[], []⟩) := by
  refine ⟨rfl, ⟨rfl, rfl, rfl⟩, rfl, ?_, ?_, rfl⟩
  · obtain ⟨t, h, h'⟩ := nextIs_spec (o := exec .cwcLit (litNext.withCur (cwcCur .onExhaust 0 3 0 4)))
      (f := fun t => t.status == .busy) (by decide +kernel)
    exact ⟨t, h, by simpa using h'⟩
  · obtain ⟨t, h, h'⟩ := nextIs_spec (o := exec .cwcLit (litNext.withCur (cwcCur .onExhaust 3 3 0 4)))
      (f := fun t => t.status != .busy) (by decide +kernel)
    exact ⟨t, h, by simpa using h'⟩

/-- `FetchAgreesWithDecode`, at the fewest pending bits. -/
theorem test_witness_fetch : litNext.cur.order = .msb ∧ litNext.cur.width = .w32 ∧ litNext.cur.sr < 2 ^ 64 ∧
    5 ≤ litNext.cur.cnt ∧ litNext.nextBytes [0x41#8, 1#8, 2#8] ∧
    decode litNext.cwcCtx (.stream .cwcOp) ⟨bitsMsbFirst 4 (litNext.cur.sr / 2 ^ 60), [0x41#8, 1#8, 2#8]⟩ =
      .ok (.cwcLit, ⟨[false, false, false], [0x41#8, 1#8, 2#8]⟩) := by
  refine ⟨rfl, rfl, by decide, by decide, ⟨by decide, by decide, rfl, by decide, rfl, by decide, rfl, trivial⟩, rfl⟩

/-- `IdleEngineTakesNoStep`, `ResetEventAtAnyTime`, `IllegalUseOfCmd`, `HostLoadsInput`: a list of actions for
each, on an idle and on a busy engine; the last byte of `IN`, and the largest `IN_LEN`. -/
theorem test_witness_host :
    ((loadedWith []).pending = [] ∧ (loadedWith []).status ≠ .busy) ∧
    { litNext with pending := [.reset] }.pending = .reset :: [] ∧
    ({ litNext with pending := [.writeCmd 1] }.pending = .writeCmd 1 :: [] ∧ litNext.status = .busy) ∧
    { loadedWith [] with pending := [.startCmd 5] }.pending = .startCmd 5 :: [] ∧
    (63 < (loadedWith []).cfg.inCap ∧ 64 ≤ (loadedWith []).cfg.inCap ∧
      { loadedWith [] with pending := [.writeIn 63 1#8] }.pending = .writeIn 63 1#8 :: [] ∧
      { loadedWith [] with pending := [.writeInLen 64] }.pending = .writeInLen 64 :: []) := by
  repeat' apply And.intro
  all_goals first | rfl | decide

/-- `EngineStepsPreserve`: an opcode step. -/
theorem test_witness_engine_step : (∃ t, engineStep litNext = .next t) ∧ litNext.phase ≠ .header := by
  refine ⟨?_, by decide⟩
  obtain ⟨t, h, _⟩ := nextIs_spec (o := engineStep litNext) (f := fun _ => true) (by decide +kernel)
  exact ⟨t, h⟩

/-- `StepKeepsInvariant`, `StepKeepsCursorInvariant`: a busy engine inside `CWC_DECODE` that takes a step. -/
theorem test_witness_invariants : litNext.Inv ∧ litNext.CursorInv ∧ ∃ t, step litNext = .next t := by
  refine ⟨⟨by decide, by decide, by decide, by decide, ?_, by decide, by decide, by decide, by decide, ⟨by decide, ?_⟩,
    by decide, ?_, nofun, nofun⟩, ⟨?_, ?_, ?_⟩, ?_⟩
  · intro a
    change (none : Option Byte).isSome = true ↔ a < 0
    simp
  · intro slot h
    injection h with h
    subst h
    rfl
  · intro slot _
    exact ⟨by decide, by decide⟩
  · intro h
    cases h
  · intro slot h hc
    injection h with h
    subst h
    cases hc
  · intro _
    exact ⟨⟨rfl, rfl, rfl⟩, by decide, by decide, by decide,
      ⟨by decide, (by decide : 2 ^ 63 < 2 ^ 64), (by decide : 2 ^ 59 ∣ 2 ^ 63)⟩, fun _ => by decide⟩
  · obtain ⟨t, h, _⟩ := nextIs_spec (o := step litNext) (f := fun _ => true) (by decide +kernel)
    exact ⟨t, h⟩

end Sys2Proof.Tests
end

section
/-! SUPPORT. Which error kinds a sequence of engine operations can raise (R17, R324): each operation that can
raise names its kinds as hypotheses on `K`; an operation without such a hypothesis never raises. -/

namespace Sys2Proof.Machine

open Sys2Proof

variable {α β : Type} {K : ErrKind → Prop}

/-- Every error kind that the sequence raises is one of `K`. -/
def Raises (K : ErrKind → Prop) (x : Eng α) : Prop := ∀ s k t, x s = .error (.raise k) t → K k

theorem Raises.pure (a : α) : Raises K (pure a : Eng α) := fun _ _ _ h => by cases h

theorem Raises.get : Raises K (get : Eng State) := fun _ _ _ h => by cases h

theorem Raises.set (t : State) : Raises K (set t : Eng PUnit) := fun _ _ _ h => by cases h

theorem Raises.modify (f : State → State) : Raises K (modify f : Eng PUnit) := fun _ _ _ h => by cases h

theorem Raises.raise {k : ErrKind} (hk : K k) : Raises K (raise k : Eng α) := fun _ _ _ h => by
  cases h
  exact hk

theorem Raises.stuck (f : Fault) : Raises K (stuck f : Eng α) := fun _ _ _ h => by cases h

theorem Raises.bind {x : Eng α} {f : α → Eng β} (hx : Raises K x) (hf : ∀ a, Raises K (f a)) :
    Raises K (x >>= f) := fun s k t h => by
  rcases Eng.bind_eq_error.1 h with h1 | ⟨a, u, -, h2⟩
  · exact hx s k t h1
  · exact hf a u k t h2

theorem Raises.ite {c : Prop} [Decidable c] {x y : Eng α} (hx : Raises K x) (hy : Raises K y) :
    Raises K (if c then x else y) := by
  split
  · exact hx
  · exact hy

theorem Raises.discard {x : Eng α} (hx : Raises K x) : Raises K (discard x : Eng PUnit) := fun s k t h => by
  rw [Eng.discard_apply] at h
  split at h
  · cases h
  · cases h
    exact hx s k t ‹_›

theorem Raises.require (c : Prop) [Decidable c] {k : ErrKind} (hk : K k) : Raises K (require c k) :=
  Raises.ite (Raises.pure _) (Raises.raise hk)

theorem Raises.ensure (c : Prop) [Decidable c] (f : Fault) : Raises K (ensure c f) :=
  Raises.ite (Raises.pure _) (Raises.stuck f)

theorem Raises.orStuck (o : Option α) (f : Fault) : Raises K (orStuck o f) := by
  cases o
  · exact Raises.stuck f
  · exact Raises.pure _

theorem Raises.repeatEng {x : Eng Unit} (hx : Raises K x) : ∀ n, Raises K (repeatEng n x)
  | 0 => Raises.pure _
  | n + 1 => Raises.bind hx fun _ => Raises.repeatEng hx n

theorem Raises.modifyWork (f : Work → Work) : Raises K (modifyWork f) := Raises.modify _

theorem Raises.setCur (c : Cursor) : Raises K (setCur c) := Raises.modifyWork _

theorem Raises.getCur : Raises K getCur := Raises.bind Raises.get fun _ => Raises.pure _

/-! ## Memories: a read faults, it never raises -/

theorem Raises.inByte (a : Nat) : Raises K (inByte a) :=
  Raises.bind Raises.get fun _ => Raises.bind (Raises.ensure _ _) fun _ => Raises.orStuck _ _

theorem Raises.outByte (a : Nat) : Raises K (outByte a) :=
  Raises.bind Raises.get fun _ => Raises.bind (Raises.ensure _ _) fun _ => Raises.orStuck _ _

theorem Raises.nodeRead (i : Nat) : Raises K (nodeRead i) :=
  Raises.bind Raises.get fun _ => Raises.bind (Raises.ensure _ _) fun _ =>
    Raises.bind (Raises.orStuck _ _) fun _ => Raises.bind (Raises.orStuck _ _) fun _ =>
    Raises.bind (Raises.orStuck _ _) fun _ => Raises.bind (Raises.orStuck _ _) fun _ => Raises.pure _

theorem Raises.dictRead (i : Nat) : Raises K (dictRead i) :=
  Raises.bind Raises.get fun _ => Raises.bind (Raises.ensure _ _) fun _ => Raises.nodeRead i

theorem Raises.inLe : ∀ n a, Raises K (inLe a n)
  | 0, _ => Raises.pure _
  | n + 1, a => Raises.bind (Raises.inByte a) fun _ => Raises.bind (Raises.inLe n (a + 1)) fun _ => Raises.pure _

theorem Raises.inBe : ∀ n a acc, Raises K (inBe a n acc)
  | 0, _, _ => Raises.pure _
  | n + 1, a, _ => Raises.bind (Raises.inByte a) fun _ => Raises.inBe n (a + 1) _

theorem Raises.inMatches : ∀ bs a, Raises K (inMatches a bs)
  | [], _ => Raises.pure _
  | _ :: bs, a => Raises.bind (Raises.inByte a) fun _ =>
      Raises.bind (Raises.inMatches bs (a + 1)) fun _ => Raises.pure _

theorem Raises.crc16 {rd : Nat → Eng Byte} (h : ∀ a, Raises K (rd a)) (a n : Nat) : Raises K (crc16 rd a n) := by
  refine Raises.bind (Raises.modify _) fun _ => Raises.bind ?_ fun _ => Raises.bind Raises.get fun _ => Raises.pure _
  induction n generalizing a with
  | zero => exact Raises.pure _
  | succ n ih => exact Raises.bind (h a) fun _ => Raises.bind (Raises.modify _) fun _ => ih (a + 1)

/-! ## The cursor raises `BitstreamUnderrun` alone (R143) -/

theorem Raises.take : Raises K take :=
  Raises.bind Raises.getCur fun _ => Raises.bind (Raises.ensure _ _) fun _ =>
    Raises.bind (Raises.modifyWork _) fun _ => Raises.pure _

theorem Raises.skipBits (n : Nat) : Raises K (skipBits n) :=
  Raises.bind Raises.getCur fun _ => Raises.bind (Raises.ensure _ _) fun _ =>
    Raises.repeatEng (Raises.discard Raises.take) _

theorem Raises.refill (hu : K .bitstreamUnderrun) : Raises K refill :=
  Raises.bind Raises.getCur fun _ => Raises.bind (Raises.ensure _ _) fun _ =>
    Raises.bind (Raises.require _ hu) fun _ => Raises.bind (Raises.inLe _ _) fun _ => Raises.modifyWork _

theorem Raises.prime (hu : K .bitstreamUnderrun) : Raises K prime :=
  Raises.bind Raises.getCur fun _ => Raises.bind (Raises.ensure _ _) fun _ => Raises.refill hu

theorem Raises.readBit (hu : K .bitstreamUnderrun) : Raises K readBit := by
  refine Raises.bind Raises.getCur fun c => ?_
  cases c.policy with
  | onDemand => exact Raises.ite (Raises.bind (Raises.refill hu) fun _ => Raises.take) Raises.take
  | onExhaust =>
    exact Raises.bind Raises.take fun _ => Raises.bind Raises.getCur fun _ =>
      Raises.ite (Raises.bind (Raises.refill hu) fun _ => Raises.pure _) (Raises.pure _)

theorem Raises.peekBits (hu : K .bitstreamUnderrun) (n : Nat) : Raises K (peekBits n) :=
  Raises.bind Raises.getCur fun _ => Raises.bind (Raises.ensure _ _) fun _ =>
    Raises.ite (Raises.bind (Raises.refill hu) fun _ => Raises.bind Raises.getCur fun _ => Raises.pure _)
      (Raises.bind Raises.getCur fun _ => Raises.pure _)

theorem Raises.readField (hu : K .bitstreamUnderrun) (n : Nat) : Raises K (readField n) :=
  Raises.bind Raises.getCur fun _ => Raises.bind (Raises.require _ hu) fun _ =>
    Raises.bind (Raises.inLe _ _) fun _ => Raises.bind (Raises.modifyWork _) fun _ => Raises.pure _

theorem Raises.nextBit (hu : K .bitstreamUnderrun) : Raises K nextBit :=
  Raises.bind Raises.get fun _ => Raises.bind (Raises.require _ hu) fun _ =>
    Raises.bind (Raises.inByte _) fun _ => Raises.bind (Raises.modifyWork _) fun _ => Raises.pure _

/-! ## Output -/

theorem Raises.emit (hf : K .fileSizeMismatch) (b : Byte) : Raises K (emit b) :=
  Raises.bind Raises.get fun _ => Raises.bind (Raises.require _ hf) fun _ =>
    Raises.bind Raises.get fun _ => Raises.bind (Raises.ensure _ _) fun _ => Raises.set _

/-! ## Headers and ends -/

theorem Raises.rncHeader (hh : K .headerInvalid) (hn : K .fileIsNotRnc) (hp : K .packedCrcError) :
    Raises K rncHeader :=
  Raises.bind Raises.get fun _ => Raises.bind (Raises.require _ hh) fun _ =>
    Raises.bind (Raises.inMatches _ _) fun _ => Raises.bind (Raises.require _ hn) fun _ =>
    Raises.bind (Raises.inBe _ _ _) fun _ => Raises.bind (Raises.inBe _ _ _) fun _ =>
    Raises.bind (Raises.inBe _ _ _) fun _ => Raises.bind (Raises.inBe _ _ _) fun _ =>
    Raises.bind (Raises.modifyWork _) fun _ => Raises.bind (Raises.require _ hh) fun _ =>
    Raises.bind (Raises.require _ hh) fun _ => Raises.bind (Raises.crc16 Raises.inByte _ _) fun _ =>
    Raises.require _ hp

theorem Raises.rncStart : Raises K rncStart :=
  Raises.bind (Raises.modifyWork _) fun _ => Raises.bind Raises.get fun _ => Raises.setCur _

theorem Raises.rncFinish (hf : K .fileSizeMismatch) (hc : K .unpackedCrcError) : Raises K rncFinish :=
  Raises.bind Raises.get fun _ => Raises.bind (Raises.require _ hf) fun _ =>
    Raises.bind (Raises.crc16 Raises.outByte _ _) fun _ => Raises.bind (Raises.require _ hc) fun _ =>
    Raises.modify _

theorem Raises.cwcHeader (hh : K .headerInvalid) : Raises K cwcHeader :=
  Raises.bind Raises.get fun _ => Raises.bind (Raises.require _ hh) fun _ =>
    Raises.bind (Raises.inMatches _ _) fun _ => Raises.bind (Raises.require _ hh) fun _ =>
    Raises.bind (Raises.inByte _) fun _ => Raises.bind (Raises.inLe _ _) fun _ =>
    Raises.bind (Raises.inLe _ _) fun _ => Raises.bind (Raises.modifyWork _) fun _ =>
    Raises.bind (Raises.require _ hh) fun _ => Raises.bind (Raises.require _ hh) fun _ => Raises.require _ hh

theorem Raises.cwcStart (hu : K .bitstreamUnderrun) : Raises K cwcStart :=
  Raises.bind Raises.get fun _ => Raises.bind (Raises.setCur _) fun _ => Raises.prime hu

theorem Raises.cwcTerm (hf : K .fileSizeMismatch) : Raises K cwcTerm :=
  Raises.bind Raises.get fun _ => Raises.bind (Raises.require _ hf) fun _ => Raises.modify _

theorem Raises.cwcTest : Raises K cwcTest :=
  Raises.bind Raises.get fun _ => Raises.ite (Raises.modify _) (Raises.pure _)

theorem Raises.hufStart (hd : K .incompleteDictionary) (hu : K .bitstreamUnderrun) (hh : K .headerInvalid) :
    Raises K hufStart :=
  Raises.bind Raises.get fun _ => Raises.bind (Raises.require _ hd) fun _ =>
    Raises.bind (Raises.require _ hu) fun _ => Raises.bind (Raises.inLe _ _) fun _ =>
    Raises.bind (Raises.modifyWork _) fun _ => Raises.ite (Raises.modify _)
      (Raises.bind (Raises.require _ hh) fun _ => Raises.bind (Raises.require _ hu) fun _ => Raises.modify _)

theorem Raises.hufTest : Raises K hufTest :=
  Raises.bind Raises.get fun _ => Raises.ite (Raises.pure _) (Raises.modify _)

end Sys2Proof.Machine
end

section
/-! SUPPORT. The cursor invariant (R32 to R35) under the operations of the cursor: a refill and a consumed bit
keep the register clean and the position in its range, and a read keeps a bit pending under `on_exhaust`. -/

namespace Sys2Proof.Machine

open Sys2Proof

/-! ## The register (R33, R34) -/

theorem RefillWidth.bits_pos (w : RefillWidth) : 0 < w.bits := by cases w <;> decide

/-- As many bytes make a refill word as its bits ask for (R133). -/
theorem RefillWidth.pow_bytes (w : RefillWidth) : 256 ^ w.bytes = 2 ^ w.bits := by cases w <;> decide

/-- A word behind at most `W - 1` pending bits leaves the register clean. -/
theorem Cursor.clean_withWord {c : Cursor} {w : Nat} (h : c.clean) (hc : c.cnt < c.width.bits)
    (hw : w < 2 ^ c.width.bits) : (c.withWord w).clean := by
  obtain ⟨base, fin, order, width, policy, pos, sr, cnt⟩ := c
  obtain ⟨-, hsr⟩ := h
  dsimp only at hc hw hsr
  cases order with
  | lsb =>
    refine ⟨by change cnt + width.bits ≤ 2 * width.bits - 1; omega, ?_⟩
    change sr ||| w <<< cnt < 2 ^ (cnt + width.bits)
    refine Nat.or_lt_two_pow (hsr.trans_le (Nat.pow_le_pow_right (by omega) (by omega))) ?_
    rw [Nat.shiftLeft_eq, Nat.pow_add, Nat.mul_comm]
    exact Nat.mul_lt_mul_of_pos_left hw (by positivity)
  | msb =>
    obtain ⟨hlt, hdvd⟩ := hsr
    refine ⟨by change cnt + width.bits ≤ 2 * width.bits - 1; omega, ?_, ?_⟩
    · change sr ||| w <<< (width.bits - cnt) < 2 ^ (2 * width.bits)
      refine Nat.or_lt_two_pow hlt ?_
      rw [Nat.shiftLeft_eq]
      calc w * 2 ^ (width.bits - cnt) < 2 ^ width.bits * 2 ^ (width.bits - cnt) :=
            Nat.mul_lt_mul_of_pos_right hw (by positivity)
        _ = 2 ^ (width.bits + (width.bits - cnt)) := (Nat.pow_add ..).symm
        _ ≤ 2 ^ (2 * width.bits) := Nat.pow_le_pow_right (by omega) (by omega)
    · change 2 ^ (2 * width.bits - (cnt + width.bits)) ∣ sr ||| w <<< (width.bits - cnt)
      have hk : 2 * width.bits - (cnt + width.bits) = width.bits - cnt := by omega
      have hs : 2 ^ (width.bits - cnt) ∣ sr := (Nat.pow_dvd_pow 2 (by omega)).trans hdvd
      rw [hk, Nat.dvd_iff_mod_eq_zero, Nat.or_mod_two_pow, Nat.dvd_iff_mod_eq_zero.1 hs, Nat.shiftLeft_eq,
        Nat.mul_mod_left]
      rfl

/-- Consuming a pending bit leaves the register clean. -/
theorem Cursor.clean_dropped_one {c : Cursor} (h : c.clean) (h1 : 1 ≤ c.cnt) : (c.dropped 1).clean := by
  obtain ⟨base, fin, order, width, policy, pos, sr, cnt⟩ := c
  obtain ⟨hcnt, hsr⟩ := h
  dsimp only at h1 hcnt hsr
  cases order with
  | lsb =>
    refine ⟨by change cnt - 1 ≤ 2 * width.bits - 1; omega, ?_⟩
    change sr / 2 ^ 1 < 2 ^ (cnt - 1)
    rw [Nat.div_lt_iff_lt_mul (by decide), ← Nat.pow_add, Nat.sub_add_cancel h1]
    exact hsr
  | msb =>
    obtain ⟨-, hdvd⟩ := hsr
    refine ⟨by change cnt - 1 ≤ 2 * width.bits - 1; omega, Nat.mod_lt _ (by positivity), ?_⟩
    change 2 ^ (2 * width.bits - (cnt - 1)) ∣ sr * 2 ^ 1 % 2 ^ (2 * width.bits)
    refine (Nat.dvd_mod_iff (Nat.pow_dvd_pow 2 (by omega))).2 ?_
    rw [show 2 * width.bits - (cnt - 1) = 2 * width.bits - cnt + 1 by omega, Nat.pow_add]
    exact Nat.mul_dvd_mul_right hdvd _

/-! ## The cursor between two operations -/

/-- The part of the cursor invariant that every single operation keeps: position, range and register. -/
def State.cursorSound (s : State) : Prop :=
  s.cur.base ≤ s.cur.pos ∧ s.cur.pos ≤ s.cur.fin ∧ s.cur.fin ≤ s.inLen ∧ s.cur.clean

theorem State.cursorOk_iff {s : State} :
    s.cursorOk ↔ s.cursorSound ∧ (s.cur.policy = .onExhaust → 1 ≤ s.cur.cnt) := by
  simp only [State.cursorOk, State.cursorSound, and_assoc]

/-- `CONFIG` over a range of `IN` (R130). -/
theorem State.cursorSound_config {s : State} {base fin : Nat} (h1 : base ≤ fin) (h2 : fin ≤ s.inLen)
    (order : BitOrder) (width : RefillWidth) (policy : RefillPolicy) :
    (s.withCur (Cursor.config base fin order width policy)).cursorSound := by
  refine ⟨Nat.le_refl base, h1, h2, Nat.zero_le _, ?_⟩
  cases order with
  | lsb => exact Nat.one_pos
  | msb => exact ⟨by change 0 < 2 ^ _; positivity, Nat.dvd_zero _⟩

/-- The cursor's configuration: what `CONFIG` fixes and no other operation changes (R31). -/
structure SameProfile (c d : Cursor) : Prop where
  order : d.order = c.order
  width : d.width = c.width
  policy : d.policy = c.policy

theorem SameProfile.refl (c : Cursor) : SameProfile c c := ⟨rfl, rfl, rfl⟩

theorem SameProfile.trans {c d e : Cursor} (h : SameProfile c d) (k : SameProfile d e) : SameProfile c e :=
  ⟨k.order.trans h.order, k.width.trans h.width, k.policy.trans h.policy⟩

theorem SameProfile.isRnc {c d : Cursor} (h : SameProfile c d) (hc : c.isRnc) : d.isRnc :=
  ⟨h.order.trans hc.1, h.width.trans hc.2.1, h.policy.trans hc.2.2⟩

theorem SameProfile.isCwc {c d : Cursor} {p : RefillPolicy} (h : SameProfile c d) (hc : c.isCwc p) : d.isCwc p :=
  ⟨h.order.trans hc.1, h.width.trans hc.2.1, h.policy.trans hc.2.2⟩

/-- What one operation of the cursor does: only the cursor changes, its configuration stays, and it stays
sound. -/
def MovesCursor (s t : State) : Prop :=
  ∃ c, t = s.withCur c ∧ SameProfile s.cur c ∧ (s.cursorSound → (s.withCur c).cursorSound)

theorem MovesCursor.refl (s : State) : MovesCursor s s := ⟨s.cur, rfl, SameProfile.refl _, id⟩

theorem MovesCursor.trans {s t u : State} (h : MovesCursor s t) (k : MovesCursor t u) : MovesCursor s u := by
  obtain ⟨c, rfl, hp, hs⟩ := h
  obtain ⟨d, rfl, kp, ks⟩ := k
  exact ⟨d, rfl, hp.trans kp, fun h => ks (hs h)⟩

/-- `REFILL` (R133): a word more is pending. -/
theorem refill_moves {s t : State} {u : Unit} (h : refill s = .ok u t) :
    MovesCursor s t ∧ t.cur.cnt = s.cur.cnt + s.cur.width.bits := by
  obtain ⟨hc, bytes, ⟨hl, hf, -⟩, rfl⟩ := refill_eq_ok.1 h
  refine ⟨⟨_, rfl, ⟨rfl, rfl, rfl⟩, fun ⟨h1, h2, h3, h4⟩ => ⟨h1.trans (Nat.le_add_right _ _), hf, h3, ?_⟩⟩, rfl⟩
  exact Cursor.clean_withWord h4 hc (by rw [← RefillWidth.pow_bytes, ← hl]; exact leNat_lt bytes)

/-- `TAKE` (R134): a bit fewer is pending. -/
theorem take_moves {s t : State} {b : Bool} (h : take s = .ok b t) :
    MovesCursor s t ∧ 1 ≤ s.cur.cnt ∧ t.cur.cnt = s.cur.cnt - 1 := by
  obtain ⟨hc, -, rfl⟩ := take_eq_ok.1 h
  exact ⟨⟨_, rfl, ⟨rfl, rfl, rfl⟩, fun ⟨h1, h2, h3, h4⟩ => ⟨h1, h2, h3, Cursor.clean_dropped_one h4 hc⟩⟩, hc, rfl⟩

/-- A `REFILL` behind a test: without it nothing changes. -/
theorem refillIf_moves {α : Type} {p : Prop} [Decidable p] {x : Eng α} {s t : State} {a : α}
    (h : (if p then refill >>= fun _ => x else x) s = .ok a t) :
    ∃ u, MovesCursor s u ∧ (p → s.cur.width.bits ≤ u.cur.cnt) ∧ (¬ p → u = s) ∧ x u = .ok a t := by
  split at h
  · obtain ⟨_, u, hu, ht⟩ := Eng.bind_eq_ok.1 h
    obtain ⟨hm, hc⟩ := refill_moves hu
    exact ⟨u, hm, fun _ => hc ▸ Nat.le_add_left _ _, fun hn => absurd ‹p› hn, ht⟩
  · exact ⟨s, MovesCursor.refl s, fun hp => absurd hp ‹¬ p›, fun _ => rfl, h⟩

/-- `READ_BIT` (R135): under `on_exhaust` a bit is pending afterwards (R35). -/
theorem readBit_moves {s t : State} {b : Bool} (h : readBit s = .ok b t) :
    MovesCursor s t ∧ (s.cur.policy = .onExhaust → 1 ≤ t.cur.cnt) := by
  simp only [readBit, getCur_bind] at h
  cases hp : s.cur.policy with
  | onDemand =>
    rw [hp] at h
    obtain ⟨u, hu, -, -, ht⟩ := refillIf_moves h
    exact ⟨hu.trans (take_moves ht).1, nofun⟩
  | onExhaust =>
    rw [hp] at h
    obtain ⟨_, u, hu, h⟩ := Eng.bind_eq_ok.1 h
    rw [getCur_bind] at h
    obtain ⟨v, hv, hfull, hkeep, ht⟩ := refillIf_moves h
    cases ht
    refine ⟨(take_moves hu).1.trans hv, fun _ => ?_⟩
    by_cases hz : u.cur.cnt = 0
    · exact (RefillWidth.bits_pos _).trans_le (hfull hz)
    · rw [hkeep hz]
      omega

/-- `SKIP_BITS` (R138). -/
theorem skipBits_moves {n : Nat} {s t : State} {u : Unit} (h : skipBits n s = .ok u t) : MovesCursor s t := by
  simp only [skipBits, getCur_bind, Eng.bind_eq_ok, ensure_eq_ok] at h
  obtain ⟨_, _, ⟨-, rfl⟩, h⟩ := h
  refine repeatEng_keeps MovesCursor.refl MovesCursor.trans (fun s t h => ?_) n _ t h
  rw [Eng.discard_apply] at h
  split at h
  · cases h
    exact (take_moves ‹_›).1
  · cases h

/-- `PEEK_BITS` (R137), which is for `on_demand` alone. -/
theorem peekBits_moves {n v : Nat} {s t : State} (h : peekBits n s = .ok v t) :
    MovesCursor s t ∧ s.cur.policy = .onDemand := by
  simp only [peekBits, getCur_bind, Eng.bind_eq_ok, ensure_eq_ok] at h
  obtain ⟨_, _, ⟨⟨-, hp, -⟩, rfl⟩, h⟩ := h
  obtain ⟨u, hu, -, -, ht⟩ := refillIf_moves h
  cases ht
  exact ⟨hu, hp⟩

/-- A byte-aligned field (R139 to R141): the pending bits are kept. -/
theorem readField_moves {n v : Nat} {s t : State} (h : readField n s = .ok v t) :
    MovesCursor s t ∧ t.cur.cnt = s.cur.cnt := by
  obtain ⟨bytes, rfl, ⟨hf, -⟩, -, rfl⟩ := readField_eq_ok.1 h
  exact ⟨⟨_, rfl, ⟨rfl, rfl, rfl⟩, fun ⟨h1, _, h3, h4⟩ => ⟨h1.trans (Nat.le_add_right _ _), hf, h3, h4⟩⟩, rfl⟩

end Sys2Proof.Machine
end

section
/-! SUPPORT. What the operations of a stream opcode do to the registers that the invariants speak of: `STATUS`,
`ERR`, the place in the grammar and `DECL_LEN` stay, and `OUT`, the cursor and the tree decoder's record stay
in order. One lemma for each operation up to the opcodes and loops of the three decoders; only the
terminator of CWC ends a command. -/

namespace Sys2Proof.Machine

open Sys2Proof

variable {α β : Type} {K : ErrKind → Prop}

/-- `OUT` holds a byte exactly below `OUT_LEN`, which is within the declared length and the capacity. -/
structure State.OutputOk (s : State) : Prop where
  wf : s.outMem.wf = true
  exact : ∀ a, (s.outMem.read a).isSome = true ↔ a < s.outLen
  declared : s.outLen ≤ s.work.declLen.toNat
  cap : s.outLen ≤ s.cfg.outCap

/-- The dictionary can be walked, and the tree decoder stands on one of its records (R45). -/
def State.onRecord (s : State) : Prop := s.walkable ∧ s.work.hnode.toNat < 255

/-- What the operations of a stream opcode keep. -/
structure Decodes (s t : State) : Prop where
  status : t.status = s.status
  err : t.err = s.err
  phase : t.phase = s.phase
  declLen : t.work.declLen = s.work.declLen
  profile : SameProfile s.cur t.cur
  output : s.OutputOk → t.OutputOk
  cursor : s.cursorOk → t.cursorOk
  record : s.onRecord → t.onRecord

theorem Decodes.refl (s : State) : Decodes s s := ⟨rfl, rfl, rfl, rfl, SameProfile.refl _, id, id, id⟩

theorem Decodes.trans {s t u : State} (h : Decodes s t) (k : Decodes t u) : Decodes s u :=
  ⟨k.status.trans h.status, k.err.trans h.err, k.phase.trans h.phase, k.declLen.trans h.declLen,
    h.profile.trans k.profile, k.output ∘ h.output, k.cursor ∘ h.cursor, k.record ∘ h.record⟩

/-- New values in working registers other than the cursor, `DECL_LEN` and `HNODE`. -/
theorem Decodes.work {s : State} {w : Work} (hc : w.cur = s.work.cur) (hd : w.declLen = s.work.declLen)
    (hn : w.hnode = s.work.hnode) : Decodes s { s with work := w } where
  status := rfl
  err := rfl
  phase := rfl
  declLen := hd
  profile := (show w.cur = s.cur from hc) ▸ SameProfile.refl _
  output h := ⟨h.wf, h.exact, hd ▸ h.declared, h.cap⟩
  cursor h := by
    unfold State.cursorOk State.cur at *
    rw [hc]
    exact h
  record h := ⟨h.1, hn ▸ h.2⟩

/-- The tree decoder goes to a record of the dictionary. -/
theorem Decodes.atRecord {s : State} {n : Byte} (hn : s.walkable → n.toNat < 255) :
    Decodes s { s with work := { s.work with hnode := n } } :=
  ⟨rfl, rfl, rfl, rfl, SameProfile.refl _, fun h => ⟨h.wf, h.exact, h.declared, h.cap⟩, id, fun h => ⟨h.1, hn h.1⟩⟩

/-- An operation of the cursor that leaves a bit pending where `on_exhaust` asks for one (R35). -/
theorem MovesCursor.decodes {s t : State} (h : MovesCursor s t)
    (hp : s.cur.policy = .onExhaust → 1 ≤ s.cur.cnt → 1 ≤ t.cur.cnt) : Decodes s t := by
  obtain ⟨c, rfl, hc, hs⟩ := h
  refine ⟨rfl, rfl, rfl, rfl, hc, fun h => ⟨h.wf, h.exact, h.declared, h.cap⟩, fun h => ?_, id⟩
  obtain ⟨h1, h2⟩ := State.cursorOk_iff.1 h
  exact State.cursorOk_iff.2 ⟨hs h1, fun he => have hs := hc.policy.symm.trans he; hp hs (h2 hs)⟩

/-- A byte appended to `OUT` with room for it (R71). -/
theorem Decodes.push {s : State} {b : Byte} (hd : s.outLen < s.work.declLen.toNat) (hc : s.outLen < s.cfg.outCap) :
    Decodes s (s.push b) where
  status := rfl
  err := rfl
  phase := rfl
  declLen := rfl
  profile := SameProfile.refl _
  output h := by
    refine ⟨Mem.write_wf _ _ h.wf, fun a => ?_, hd, hc⟩
    rw [State.push_outMem, State.push_outLen, Mem.read_write]
    split
    · simp only [Option.isSome_some, true_iff]
      omega
    · rw [h.exact]
      omega
  cursor h := h
  record h := h

/-! ## Sequences -/

/-- A sequence of operations of a stream opcode, with the error kinds that it can raise. -/
structure Decoding (K : ErrKind → Prop) (x : Eng α) : Prop where
  decodes : ∀ {s a t}, x s = .ok a t → Decodes s t
  raises : Raises K x

/-- An operation that only reads. -/
theorem Decoding.of_read {x : Eng α} (hx : ∀ s a t, x s = .ok a t → t = s) (hr : Raises K x) : Decoding K x :=
  ⟨fun h => hx _ _ _ h ▸ Decodes.refl _, hr⟩

theorem Decoding.pure (a : α) : Decoding K (pure a : Eng α) :=
  .of_read (fun _ _ _ h => by cases h; rfl) (Raises.pure a)

theorem Decoding.get : Decoding K (get : Eng State) :=
  .of_read (fun _ _ _ h => by cases h; rfl) Raises.get

theorem Decoding.raise {k : ErrKind} (hk : K k) : Decoding K (raise k : Eng α) :=
  .of_read (fun _ _ _ h => by cases h) (Raises.raise hk)

theorem Decoding.stuck (f : Fault) : Decoding K (stuck f : Eng α) :=
  .of_read (fun _ _ _ h => by cases h) (Raises.stuck f)

theorem Decoding.require (c : Prop) [Decidable c] {k : ErrKind} (hk : K k) : Decoding K (require c k) :=
  .of_read (fun _ _ _ h => (require_eq_ok.1 h).2) (Raises.require c hk)

theorem Decoding.ensure (c : Prop) [Decidable c] (f : Fault) : Decoding K (ensure c f) :=
  .of_read (fun _ _ _ h => (ensure_eq_ok.1 h).2) (Raises.ensure c f)

theorem Decoding.getCur : Decoding K getCur :=
  .of_read (fun _ _ _ h => by cases h; rfl) Raises.getCur

theorem Decoding.bind {x : Eng α} {f : α → Eng β} (hx : Decoding K x) (hf : ∀ a, Decoding K (f a)) :
    Decoding K (x >>= f) := by
  refine ⟨fun h => ?_, hx.raises.bind fun a => (hf a).raises⟩
  obtain ⟨a, u, h1, h2⟩ := Eng.bind_eq_ok.1 h
  exact (hx.decodes h1).trans ((hf a).decodes h2)

theorem Decoding.ite {c : Prop} [Decidable c] {x y : Eng α} (hx : Decoding K x) (hy : Decoding K y) :
    Decoding K (if c then x else y) := by
  split
  · exact hx
  · exact hy

theorem Decoding.discard {x : Eng α} (hx : Decoding K x) : Decoding K (discard x : Eng PUnit) := by
  refine ⟨fun h => ?_, hx.raises.discard⟩
  rw [Eng.discard_apply] at h
  split at h
  · cases h
    exact hx.decodes ‹_›
  · cases h

theorem Decoding.repeatEng {x : Eng Unit} (hx : Decoding K x) (n : Nat) : Decoding K (repeatEng n x) :=
  ⟨fun h => repeatEng_keeps Decodes.refl Decodes.trans (fun _ _ => hx.decodes) n _ _ h, hx.raises.repeatEng n⟩

theorem Decoding.modifyWork {f : Work → Work}
    (hf : ∀ w, (f w).cur = w.cur ∧ (f w).declLen = w.declLen ∧ (f w).hnode = w.hnode) :
    Decoding K (modifyWork f) := by
  refine ⟨fun {s _ _} h => ?_, Raises.modifyWork f⟩
  obtain ⟨hc, hd, hn⟩ := hf s.work
  cases h
  exact Decodes.work hc hd hn

/-! ## The cursor -/

theorem Decoding.readBit (hu : K .bitstreamUnderrun) : Decoding K readBit :=
  ⟨fun h => (readBit_moves h).1.decodes fun hp _ => (readBit_moves h).2 hp, Raises.readBit hu⟩

theorem Decoding.readBitsFrom (hu : K .bitstreamUnderrun) (o : BitOrder) : ∀ n i v, Decoding K (readBitsFrom o n i v)
  | 0, _, _ => .pure _
  | n + 1, i, _ => .bind (.readBit hu) fun _ => .readBitsFrom hu o n (i + 1) _

theorem Decoding.readBits (hu : K .bitstreamUnderrun) (n : Nat) : Decoding K (readBits n) :=
  .bind .getCur fun _ => .bind (.ensure _ _) fun _ => .readBitsFrom hu _ _ _ _

theorem Decoding.readField (hu : K .bitstreamUnderrun) (n : Nat) : Decoding K (readField n) :=
  ⟨fun h => (readField_moves h).1.decodes fun _ h1 => (readField_moves h).2 ▸ h1, Raises.readField hu n⟩

theorem Decoding.readByte (hu : K .bitstreamUnderrun) : Decoding K readByte :=
  .bind (.readField hu 1) fun _ => .pure _

theorem Decoding.readU16 (hu : K .bitstreamUnderrun) : Decoding K readU16 :=
  .bind (.readField hu 2) fun _ => .pure _

theorem Decoding.readU24 (hu : K .bitstreamUnderrun) : Decoding K readU24 :=
  .bind (.readField hu 3) fun _ => .pure _

theorem Decoding.peekBits (hu : K .bitstreamUnderrun) (n : Nat) : Decoding K (peekBits n) :=
  ⟨fun h => (peekBits_moves h).1.decodes fun hp => (nomatch (peekBits_moves h).2.symm.trans hp),
    Raises.peekBits hu n⟩

/-! ## Output -/

theorem Decoding.emit (hf : K .fileSizeMismatch) (b : Byte) : Decoding K (emit b) := by
  refine ⟨fun h => ?_, Raises.emit hf b⟩
  obtain ⟨hd, hc, rfl⟩ := emit_eq_ok.1 h
  exact Decodes.push hd hc

theorem Decoding.outByte (a : Nat) : Decoding K (outByte a) :=
  .of_read (fun _ _ _ h => (outByte_eq_ok.1 h).2.2) (Raises.outByte a)

theorem Decoding.lzCopy (ho : K .outputOverrun) (hf : K .fileSizeMismatch) (dist len : Nat) :
    Decoding K (lzCopy dist len) :=
  .bind (.ensure _ _) fun _ => .bind .get fun _ => .bind (.require _ ho) fun _ =>
    .repeatEng (.bind (.bind .get fun _ => .ite (.pure _) (.outByte _)) fun _ => .emit hf _) len

/-! ## RNC -/

theorem Decoding.readLengths (hu : K .bitstreamUnderrun) : ∀ n, Decoding K (readLengths n)
  | 0 => .pure _
  | n + 1 => .bind (.readBits hu 4) fun _ => .bind (.readLengths hu n) fun _ => .pure _

theorem Decoding.huftab (hu : K .bitstreamUnderrun) (hd : K .hufDecodeError) (t : TableId) : Decoding K (huftab t) := by
  refine .bind (.readBits hu 5) fun n => .ite (.pure _) (.bind (.readLengths hu n) fun lens => ?_)
  cases canonicalTable lens with
  | none => exact .raise hd
  | some leaves => exact .modifyWork fun _ => ⟨rfl, rfl, rfl⟩

/-- A leaf's bits are skipped only after a peek, so only under `on_demand`. -/
theorem Decoding.peekThenSkip (hu : K .bitstreamUnderrun) (leaf : HuffLeaf) {x : Eng Nat} (hx : Decoding K x) :
    Decoding K (do
      let v ← Machine.peekBits leaf.len
      if v = leaf.code then do
        Machine.skipBits leaf.len
        Pure.pure leaf.value
      else x) := by
  refine ⟨fun h => ?_, (Raises.peekBits hu _).bind fun _ =>
    .ite (.bind (Raises.skipBits _) fun _ => .pure _) hx.raises⟩
  obtain ⟨v, u, h1, h2⟩ := Eng.bind_eq_ok.1 h
  obtain ⟨hm, hp⟩ := peekBits_moves h1
  refine ((Decoding.peekBits hu _).decodes h1).trans ?_
  split at h2
  · obtain ⟨_, w, h3, h4⟩ := Eng.bind_eq_ok.1 h2
    cases h4
    refine (skipBits_moves h3).decodes fun hq => ?_
    obtain ⟨c, rfl, hc, -⟩ := hm
    rw [State.withCur_cur, hc.policy, hp] at hq
    cases hq
  · exact hx.decodes h2

theorem Decoding.scanLeaves (hu : K .bitstreamUnderrun) (hd : K .hufDecodeError) : ∀ l, Decoding K (scanLeaves l)
  | [] => .raise hd
  | leaf :: rest => .peekThenSkip hu leaf (.scanLeaves hu hd rest)

theorem Decoding.hufValue (hu : K .bitstreamUnderrun) (hd : K .hufDecodeError) (t : TableId) :
    Decoding K (hufValue t) :=
  .bind (.bind .get fun _ => .scanLeaves hu hd _) fun _ => .ite (.pure _) <|
    .bind (.require _ hd) fun _ => .bind (.readBits hu _) fun _ => .pure _

theorem Decoding.rncChcnt (hu : K .bitstreamUnderrun) : Decoding K rncChcnt :=
  .bind (.readBits hu 16) fun _ => .modifyWork fun _ => ⟨rfl, rfl, rfl⟩

theorem Decoding.rncRaw (hu : K .bitstreamUnderrun) (hd : K .hufDecodeError) (hf : K .fileSizeMismatch) :
    Decoding K rncRaw :=
  .bind (.hufValue hu hd _) fun n => .bind (.modifyWork fun _ => ⟨rfl, rfl, rfl⟩) fun _ =>
    .bind (.repeatEng (.bind (.readByte hu) fun _ => .emit hf _) n) fun _ =>
    .bind (.pure _) fun _ => .modifyWork fun _ => ⟨rfl, rfl, rfl⟩

theorem Decoding.rncMatch (hu : K .bitstreamUnderrun) (hd : K .hufDecodeError) (ho : K .outputOverrun)
    (hf : K .fileSizeMismatch) : Decoding K rncMatch :=
  .bind (.hufValue hu hd _) fun _ => .bind (.modifyWork fun _ => ⟨rfl, rfl, rfl⟩) fun _ =>
    .bind (.hufValue hu hd _) fun _ => .bind (.modifyWork fun _ => ⟨rfl, rfl, rfl⟩) fun _ => .lzCopy ho hf _ _

/-- `RNC.PRIME` (R185), whose refill loads the first word. -/
theorem Decoding.rncPrime (hu : K .bitstreamUnderrun) : Decoding K rncPrime := by
  refine .bind ⟨fun {s _ t} h => ?_, Raises.prime hu⟩ fun _ => .discard (.readBits hu 2)
  simp only [Machine.prime, getCur_bind, Eng.bind_eq_ok, ensure_eq_ok] at h
  obtain ⟨_, _, ⟨-, rfl⟩, h⟩ := h
  obtain ⟨hm, hc⟩ := refill_moves h
  exact hm.decodes fun _ h1 => by omega

theorem Decoding.rncTuples (hu : K .bitstreamUnderrun) (hd : K .hufDecodeError) (ho : K .outputOverrun)
    (hf : K .fileSizeMismatch) : ∀ n, Decoding K (rncTuples n)
  | 0 => .stuck _
  | n + 1 => .bind (.rncRaw hu hd hf) fun _ => .bind .get fun _ => .ite (.pure _) <|
      .bind (.rncMatch hu hd ho hf) fun _ => .rncTuples hu hd ho hf n

theorem Decoding.rncChunks (hu : K .bitstreamUnderrun) (hd : K .hufDecodeError) (ho : K .outputOverrun)
    (hf : K .fileSizeMismatch) (b : Nat) : ∀ n, Decoding K (rncChunks b n)
  | 0 => .stuck _
  | n + 1 => .bind .get fun _ => .ite
      (.bind (.bind (.huftab hu hd _) fun _ => .bind (.huftab hu hd _) fun _ => .bind (.huftab hu hd _) fun _ =>
        .bind (.rncChcnt hu) fun _ => .rncTuples hu hd ho hf b) fun _ => .rncChunks hu hd ho hf b n) (.pure _)

/-! ## CWC -/

theorem Decoding.cwcFetch (hu : K .bitstreamUnderrun) : Decoding K cwcFetch := by
  have hl len pos : Decoding K (cursorReader.latch len pos) :=
    .modifyWork (f := fun w => { w with cwcL := len, cwcP := pos }) fun _ => ⟨rfl, rfl, rfl⟩
  refine .bind .get fun _ => .bind (.readBit hu) fun _ => .ite (.pure _) <| .bind (.readBit hu) fun _ => .ite ?short <|
    .bind (.readBit hu) fun _ => .ite ?med ?long
  case short =>
    exact .bind (.readBits hu _) fun _ => .bind (.readByte hu) fun _ => .bind (hl _ _) fun _ => .pure _
  case med =>
    exact .bind (.bind (.readU16 hu) fun _ => .bind (.modifyWork fun _ => ⟨rfl, rfl, rfl⟩) fun _ => .pure _) fun _ =>
      .bind (hl _ _) fun _ => .pure _
  case long =>
    exact .bind (.bind (.readU24 hu) fun _ => .bind (.modifyWork fun _ => ⟨rfl, rfl, rfl⟩) fun _ => .pure _) fun _ =>
      .bind (hl _ _) fun _ => .pure _

theorem Decoding.cwcLiteral (hu : K .bitstreamUnderrun) (hf : K .fileSizeMismatch) : Decoding K cwcLiteral :=
  .bind (.readByte hu) fun _ => .bind (.modifyWork fun _ => ⟨rfl, rfl, rfl⟩) fun _ => .emit hf _

theorem Decoding.cwcRun (hu : K .bitstreamUnderrun) (hf : K .fileSizeMismatch) (len : Nat) : Decoding K (cwcRun len) :=
  .bind (.readByte hu) fun _ => .bind (.modifyWork fun _ => ⟨rfl, rfl, rfl⟩) fun _ => .repeatEng (.emit hf _) _

theorem Decoding.cwcCopy (ho : K .outputOverrun) (hf : K .fileSizeMismatch) (len pos : Nat) :
    Decoding K (cwcCopy len pos) :=
  .bind (.ensure _ _) fun _ => .bind (.modifyWork fun _ => ⟨rfl, rfl, rfl⟩) fun _ => .lzCopy ho hf _ _

theorem Decoding.cwcLitstr (hu : K .bitstreamUnderrun) (hf : K .fileSizeMismatch) : Decoding K cwcLitstr :=
  .bind (.readByte hu) fun _ => .bind (.modifyWork fun _ => ⟨rfl, rfl, rfl⟩) fun _ =>
    .repeatEng (.cwcLiteral hu hf) _

/-- Every CWC opcode but the terminator. -/
theorem Decoding.cwcOpMeaning (hu : K .bitstreamUnderrun) (ho : K .outputOverrun) (hf : K .fileSizeMismatch) :
    ∀ op, op ≠ .longTerm → Decoding K (cwcOpMeaning op)
  | .lit, _ => .cwcLiteral hu hf
  | .shortRun len, _ => .cwcRun hu hf len
  | .shortCopy len pos, _ => .cwcCopy ho hf len pos
  | .medRun len, _ => .cwcRun hu hf len
  | .medCopy len pos, _ => .cwcCopy ho hf len pos
  | .longCopy len pos, _ => .cwcCopy ho hf len pos
  | .longTerm, h => absurd rfl h
  | .longNopSrc, _ => .pure _
  | .longNopDst, _ => .pure _
  | .longLitstr, _ => .cwcLitstr hu hf
  | .longRun len, _ => .cwcRun hu hf len

/-! ## The tree decoder -/

/-- `next_bit()` (R270) moves the tree decoder's own position and nothing else. -/
theorem nextBit_eq_ok {s t : State} {b : Bool} (h : nextBit s = .ok b t) :
    t = { s with work := t.work } ∧ t.work.cur = s.work.cur ∧ t.work.declLen = s.work.declLen ∧
      t.work.hnode = s.work.hnode := by
  simp only [nextBit, Eng.get_bind, Eng.bind_eq_ok, require_eq_ok, inByte_eq_ok, modifyWork_apply, Eng.pure_apply] at h
  obtain ⟨_, _, ⟨-, rfl⟩, v, _, ⟨-, -, rfl⟩, _, _, h1, h2⟩ := h
  cases h1
  cases h2
  exact ⟨rfl, rfl, rfl, rfl⟩

/-- An edge (R271) ends on a record of a dictionary that can be walked: the root after a leaf, else the record
that the half names. -/
theorem Decoding.hufEdge (hu : K .bitstreamUnderrun) (hf : K .fileSizeMismatch) : Decoding K hufEdge := by
  refine ⟨fun {s a t} h => ?_, ?_⟩
  · obtain ⟨b, u, h1, he⟩ := Eng.bind_eq_ok.1 h
    obtain ⟨hw, hc, hd, hn⟩ := nextBit_eq_ok h1
    refine Decodes.trans (t := u) (hw ▸ Decodes.work hc hd hn) ?_
    clear h h1 hw hc hd hn
    rw [Eng.get_bind] at he
    obtain ⟨r, v, h2, h⟩ := Eng.bind_eq_ok.1 he
    obtain ⟨-, hi, hr, rfl⟩ := dictRead_eq_ok.1 h2
    by_cases ht : (if b then r.rt else r.lt) = 0#8
    · rw [if_pos ht] at h
      obtain ⟨_, w, h3, h4⟩ := Eng.bind_eq_ok.1 h
      cases h4
      exact ((Decoding.emit (K := K) hf _).decodes h3).trans (Decodes.atRecord fun hw => hw.1)
    · rw [if_neg ht] at h
      cases h
      refine Decodes.atRecord fun hw => ?_
      obtain ⟨r', hr', hleft, hright⟩ := hw.2 _ hi
      cases hr.symm.trans hr'
      cases b
      · exact hleft ht
      · exact hright ht
  · exact .bind (Raises.nextBit hu) fun _ => .bind .get fun _ => .bind (Raises.dictRead _) fun _ =>
      .ite (.bind (Raises.emit hf _) fun _ => .bind (.modify _) fun _ => .pure _)
        (.bind (.modifyWork _) fun _ => .pure _)

theorem Decoding.hufSym (hu : K .bitstreamUnderrun) (hf : K .fileSizeMismatch) : Decoding K hufSym := by
  refine .bind .get fun s => ?_
  generalize 8 * s.inLen + 1 = n
  induction n with
  | zero => exact .stuck _
  | succ n ih => exact .bind (.hufEdge hu hf) fun _ => .ite (.pure _) ih

end Sys2Proof.Machine
end

section
/-! SUPPORT. `HUF_LOAD` (R262 to R266): what the copy of the table and the root search change, and why a root that
the search accepts has a dictionary that can be walked. The accepting walk meets 256 different leaf values;
a walk that enters `n` records meets at most `n + 1` leaves; so it has entered all 255 records, and each
of them has been written and names only records. -/

namespace Sys2Proof.Machine

open Sys2Proof

/-- Only the working registers may differ. -/
def OnlyWork (s t : State) : Prop := ∃ w, t = { s with work := w }

theorem OnlyWork.refl (s : State) : OnlyWork s s := ⟨s.work, rfl⟩

theorem OnlyWork.trans {s t u : State} (h : OnlyWork s t) (k : OnlyWork t u) : OnlyWork s u := by
  obtain ⟨v, rfl⟩ := h
  obtain ⟨w, rfl⟩ := k
  exact ⟨w, rfl⟩

/-! ## Bit vectors as sets -/

/-- The bits that are 1. -/
def bitSet {w : Nat} (v : BitVec w) : Finset Nat := (Finset.range w).filter fun i => v.getLsbD i = true

theorem mem_bitSet {w i : Nat} {v : BitVec w} : i ∈ bitSet v ↔ v.getLsbD i = true := by
  simp only [bitSet, Finset.mem_filter, Finset.mem_range, and_iff_right_iff_imp]
  exact BitVec.lt_of_getLsbD

theorem bitSet_zero (w : Nat) : bitSet (0#w) = ∅ := by
  ext i
  simp [mem_bitSet]

theorem bitSet_allOnes (w : Nat) : bitSet (BitVec.allOnes w) = Finset.range w := by
  ext i
  simp [mem_bitSet]

theorem bitSet_subset_range {w : Nat} (v : BitVec w) : bitSet v ⊆ Finset.range w := Finset.filter_subset _ _

/-- Setting a bit inserts it (R263). -/
theorem bitSet_or_twoPow {w i : Nat} (v : BitVec w) (hi : i < w) :
    bitSet (v ||| BitVec.twoPow w i) = insert i (bitSet v) := by
  ext j
  simp only [mem_bitSet, Finset.mem_insert, BitVec.getLsbD_or, BitVec.getLsbD_twoPow, Bool.or_eq_true, Bool.and_eq_true,
    decide_eq_true_eq]
  constructor
  · rintro (h | ⟨-, rfl⟩)
    · exact .inr h
    · exact .inl rfl
  · rintro (rfl | h)
    · exact .inr ⟨hi, rfl⟩
    · exact .inl h

/-! ## The walk (R263) -/

/-- Record `i` has been written, and a half that is no leaf names a record (R266 (c)). -/
def State.soundRecord (s : State) (i : Nat) : Prop :=
  ∃ r, s.nodeAt i = some r ∧ (r.lt ≠ 0#8 → r.lv.toNat < 255) ∧ (r.rt ≠ 0#8 → r.rv.toNat < 255)

/-- One half of a record in the walk: a leaf value is collected, a record is walked (R263). -/
def walkHalf (depth : Nat) (v t : Byte) : Eng Bool :=
  if t = 0#8 then do
    addLeaf v
    pure true
  else if t = 1#8 then walk depth v.toNat
  else pure false

theorem walkHalf_bind (depth : Nat) (v t : Byte) (f : Bool → Eng Bool) : (walkHalf depth v t >>= f) =
    if t = 0#8 then addLeaf v >>= fun _ => pure true >>= f
    else if t = 1#8 then walk depth v.toNat >>= f
    else pure false >>= f := by
  unfold walkHalf
  split
  · exact bind_assoc ..
  · split <;> rfl

theorem walk_succ (depth i : Nat) : walk (depth + 1) i = (do
    let s ← get
    if 254 < i ∨ s.nodePresent.getLsbD i = false then pure false
    else if s.work.visited.getLsbD i then pure false
    else do
      addVisited i
      let r ← nodeRead i
      let left ← walkHalf depth r.lv r.lt
      if left then walkHalf depth r.rv r.rt else pure false) := by
  simp only [walkHalf_bind]
  rfl

/-- What a walk that succeeds adds to the two sets: only sound records become visited, and there are at most
`k` more new leaf values than new records. -/
structure Walked (k : Nat) (s t : State) : Prop where
  sound : ∀ j ∈ bitSet t.work.visited, j ∈ bitSet s.work.visited ∨ s.soundRecord j
  count : (bitSet t.work.leaves).card + (bitSet s.work.visited).card ≤
    (bitSet s.work.leaves).card + (bitSet t.work.visited).card + k

/-- Two walks, one after the other. -/
theorem Walked.trans {k l : Nat} {s t u : State} (ho : OnlyWork s t) (h : Walked k s t) (h' : Walked l t u) :
    Walked (k + l) s u := by
  obtain ⟨w, rfl⟩ := ho
  refine ⟨fun j hj => (h'.sound j hj).elim (h.sound j) .inr, ?_⟩
  have := h.count
  have := h'.count
  omega

/-- A record that is entered, and the walks of its two halves. -/
theorem Walked.node {s t : State} {i : Nat} (hi : i < 255) (hnew : i ∉ bitSet s.work.visited) (hs : s.soundRecord i)
    (h : Walked 2 { s with work := { s.work with visited := s.work.visited ||| BitVec.twoPow 255 i } } t) :
    Walked 1 s t := by
  have hv : bitSet (s.work.visited ||| BitVec.twoPow 255 i) = insert i (bitSet s.work.visited) :=
    bitSet_or_twoPow _ hi
  constructor
  · intro j hj
    rcases h.sound j hj with hj | hj
    · rw [hv, Finset.mem_insert] at hj
      rcases hj with rfl | hj
      · exact .inr hs
      · exact .inl hj
    · exact .inr hj
  · have := h.count
    rw [hv, Finset.card_insert_of_notMem hnew] at this
    change _ ≤ (bitSet s.work.leaves).card + _ + 2 at this
    omega

/-- An operation of the walk: it writes working registers alone, and where it answers yes, `P` holds and it has
collected a subtree. -/
def Collects (P : Prop) (x : Eng Bool) : Prop :=
  ∀ s b t, x s = .ok b t → OnlyWork s t ∧ (b = true → P ∧ Walked 1 s t)

theorem Collects.no {P : Prop} : Collects P (pure false) := fun s _ _ h => by
  cases h
  exact ⟨OnlyWork.refl s, nofun⟩

theorem Collects.leaf {P : Prop} (hP : P) (v : Byte) : Collects P (do addLeaf v; pure true) := fun s _ _ h => by
  cases h
  refine ⟨⟨_, rfl⟩, fun _ => ⟨hP, fun _ => .inl, ?_⟩⟩
  have hl := bitSet_or_twoPow s.work.leaves v.isLt
  have hc := Finset.card_insert_le v.toNat (bitSet s.work.leaves)
  rw [← hl] at hc
  calc _ ≤ (bitSet s.work.leaves).card + 1 + (bitSet s.work.visited).card := Nat.add_le_add_right hc _
    _ = _ := Nat.add_right_comm _ _ _

theorem Collects.half {depth : Nat} (ih : ∀ i, Collects (i < 255) (walk depth i)) (v t : Byte) :
    Collects (t ≠ 0#8 → v.toNat < 255) (walkHalf depth v t) := by
  unfold walkHalf
  split
  · exact .leaf (fun h => absurd ‹_› h) v
  · split
    · intro s b t h
      obtain ⟨ho, hb⟩ := ih _ s b t h
      exact ⟨ho, fun h => ⟨fun _ => (hb h).1, (hb h).2⟩⟩
    · exact .no

/-- The walk (R263), by the depth. -/
theorem Collects.walk : ∀ depth i, Collects (i < 255) (walk depth i)
  | 0, _ => .no
  | depth + 1, i => by
    intro s b t h
    rw [walk_succ, Eng.get_bind] at h
    split at h
    · exact Collects.no s b t h
    split at h
    · exact Collects.no s b t h
    rename_i hi hnew
    have hlt : i < 255 := by omega
    obtain ⟨_, u, hu, h⟩ := Eng.bind_eq_ok.1 h
    cases hu
    obtain ⟨r, u, hr, h⟩ := Eng.bind_eq_ok.1 h
    obtain ⟨-, hat, rfl⟩ := nodeRead_eq_ok.1 hr
    obtain ⟨left, u, hl, h⟩ := Eng.bind_eq_ok.1 h
    obtain ⟨hol, hwl⟩ := Collects.half (Collects.walk depth) _ _ _ _ _ hl
    have ho : OnlyWork s u := OnlyWork.trans ⟨_, rfl⟩ hol
    cases left with
    | false =>
      cases h
      exact ⟨ho, nofun⟩
    | true =>
      obtain ⟨hor, hwr⟩ := Collects.half (Collects.walk depth) _ _ _ _ _ h
      refine ⟨ho.trans hor, fun hb => ⟨hlt, ?_⟩⟩
      obtain ⟨hlv, hwl⟩ := hwl rfl
      obtain ⟨hrv, hwr⟩ := hwr hb
      exact .node hlt (fun hm => hnew (mem_bitSet.1 hm)) ⟨r, hat, hlv, hrv⟩ (hwl.trans hol hwr)

/-- A candidate that is valid (R263): every record is sound, so the dictionary can be walked from it. -/
theorem candidateValid_eq_ok {r : Nat} {b : Bool} {s t : State} (h : candidateValid r s = .ok b t) :
    OnlyWork s t ∧ (b = true → r < 255 ∧ ∀ i < 255, s.soundRecord i) := by
  simp only [candidateValid, modifyWork_bind] at h
  obtain ⟨ok, u, hw, h⟩ := Eng.bind_eq_ok.1 h
  cases h
  obtain ⟨ho, hwalk⟩ := Collects.walk _ _ _ _ _ hw
  refine ⟨OnlyWork.trans ⟨_, rfl⟩ ho, fun hb => ?_⟩
  simp only [Bool.and_eq_true, beq_iff_eq] at hb
  obtain ⟨hok, hall⟩ := hb
  obtain ⟨hr, hsound, hcount⟩ := hwalk hok
  refine ⟨hr, fun i hi => ?_⟩
  have hfull : bitSet t.work.visited = Finset.range 255 := by
    refine Finset.eq_of_subset_of_card_le (bitSet_subset_range _) ?_
    rw [hall, bitSet_allOnes, bitSet_zero, bitSet_zero] at hcount
    simp only [Finset.card_range, Finset.card_empty] at hcount ⊢
    omega
  refine (hsound i (hfull ▸ Finset.mem_range.2 hi)).resolve_left ?_
  simp [bitSet_zero]

/-! ## The search and the command -/

theorem Raises.walk {K : ErrKind → Prop} : ∀ depth i, Raises K (walk depth i)
  | 0, _ => .pure _
  | depth + 1, i => by
    have half v t : Raises K (walkHalf depth v t) :=
      .ite (.bind (.modifyWork _) fun _ => .pure _) (.ite (.walk depth _) (.pure _))
    rw [walk_succ]
    exact .bind .get fun _ => .ite (.pure _) <| .ite (.pure _) <| .bind (.modifyWork _) fun _ =>
      .bind (.nodeRead i) fun _ => .bind (half _ _) fun _ => .ite (half _ _) (.pure _)

theorem Raises.candidateValid {K : ErrKind → Prop} (r : Nat) : Raises K (candidateValid r) :=
  .bind (.modifyWork _) fun _ => .bind (.walk _ _) fun _ => .bind .get fun _ => .pure _

/-- The root search that finds a root (R265): the dictionary can be walked from it. -/
theorem hufSearch_eq_ok {t : State} {u : Unit} : ∀ {rs : List Nat} {s : State}, hufSearch rs s = .ok u t →
    ∃ r w, t = State.complete { s with work := w, hroot := r, hvalid := true } ∧
      State.walkable { s with work := w, hroot := r, hvalid := true }
  | [], _, h => by cases h
  | r :: rs, s, h => by
    obtain ⟨b, v, hv, h⟩ := Eng.bind_eq_ok.1 h
    obtain ⟨⟨w, rfl⟩, hb⟩ := candidateValid_eq_ok hv
    cases b with
    | true =>
      cases h
      obtain ⟨hr, hsound⟩ := hb rfl
      refine ⟨_, w, rfl, ?_, hsound⟩
      change (BitVec.ofNat 8 r).toNat < 255
      rw [BitVec.toNat_ofNat]
      omega
    | false => exact hufSearch_eq_ok (s := { s with work := w }) (rs := rs) h

/-- The root search that finds none (R265) raises and has written working registers alone. -/
theorem hufSearch_raises {t : State} {k : ErrKind} : ∀ {rs : List Nat} {s : State}, hufSearch rs s = .error (.raise k) t →
    OnlyWork s t ∧ k = .incompleteDictionary
  | [], s, h => by
    cases h
    exact ⟨OnlyWork.refl _, rfl⟩
  | r :: rs, s, h => by
    rcases Eng.bind_eq_error.1 h with hv | ⟨b, v, hv, h⟩
    · exact (Raises.candidateValid (K := fun _ => False) r _ _ _ hv).elim
    · cases b with
      | true => cases h
      | false =>
        obtain ⟨ho, -⟩ := candidateValid_eq_ok hv
        obtain ⟨hs, hk⟩ := hufSearch_raises h
        exact ⟨ho.trans hs, hk⟩

/-- What `HUF_LOAD` changes up to its end: the dictionary, `HVALID` among it, and working registers (R293). -/
structure Loads (valid : Bool) (s t : State) : Prop where
  only : ∃ m p r w, t = { s with nodeMem := m, nodePresent := p, hroot := r, hvalid := valid, work := w }
  nodeWf : s.nodeMem.wf = true → t.nodeMem.wf = true

theorem inNode_eq_ok {i : Nat} {r : NodeRec} {s t : State} (h : inNode i s = .ok r t) : t = s := by
  simp only [inNode, Eng.get_bind, Eng.bind_eq_ok, inByte_eq_ok, Eng.pure_apply] at h
  obtain ⟨_, _, ⟨-, -, rfl⟩, _, _, ⟨-, -, rfl⟩, _, _, ⟨-, -, rfl⟩, _, _, ⟨-, -, rfl⟩, h⟩ := h
  cases h
  rfl

theorem hufCopy_succ (nn n i : Nat) : hufCopy nn (n + 1) i =
    (if i < nn then inNode i >>= nodeWrite i else nodeAbsent i) >>= fun _ => hufCopy nn n (i + 1) := by
  rw [hufCopy]
  split
  · exact (bind_assoc ..).symm
  · rfl

/-- The copy of the table (R262): a record is written, or marked absent. -/
theorem hufCopy_eq_ok {nn : Nat} {t : State} {u : Unit} : ∀ {n i : Nat} {s : State}, hufCopy nn n i s = .ok u t →
    Loads s.hvalid s t
  | 0, _, s, h => by
    cases h
    exact ⟨⟨_, _, _, _, rfl⟩, id⟩
  | n + 1, i, s, h => by
    rw [hufCopy_succ] at h
    obtain ⟨_, v, hv, h⟩ := Eng.bind_eq_ok.1 h
    obtain ⟨⟨m, p, r, w, rfl⟩, hwf⟩ := hufCopy_eq_ok h
    split at hv
    · obtain ⟨rec, _, hr, hv⟩ := Eng.bind_eq_ok.1 hv
      cases inNode_eq_ok hr
      cases hv
      exact ⟨⟨_, _, _, _, rfl⟩, fun h => hwf (Mem.writeList_wf _ _ h)⟩
    · cases hv
      exact ⟨⟨_, _, _, _, rfl⟩, hwf⟩

theorem Raises.hufCopy {K : ErrKind → Prop} (nn : Nat) : ∀ n i, Raises K (hufCopy nn n i)
  | 0, _ => .pure _
  | n + 1, i => by
    rw [hufCopy_succ]
    have hr : Raises K (inNode i) :=
      .bind .get fun _ => .bind (.inByte _) fun _ => .bind (.inByte _) fun _ => .bind (.inByte _) fun _ =>
        .bind (.inByte _) fun _ => .pure _
    exact .bind (.ite (.bind hr fun _ => .modify _) (.modify _)) fun _ => .hufCopy nn n (i + 1)

/-- `HUF_LOAD` that finds a root: it ends with a dictionary that can be walked (R265, R266). -/
theorem hufLoad_eq_ok {s t : State} {u : Unit} (h : hufLoad s = .ok u t) :
    ∃ v, Loads true s v ∧ v.walkable ∧ t = v.complete := by
  simp only [hufLoad, Eng.modify_bind, Eng.get_bind] at h
  obtain ⟨_, v, hc, h⟩ := Eng.bind_eq_ok.1 h
  obtain ⟨⟨m, p, r, w, rfl⟩, hwf⟩ := hufCopy_eq_ok hc
  obtain ⟨r, w, rfl, hw⟩ := hufSearch_eq_ok h
  exact ⟨_, ⟨⟨_, _, _, _, rfl⟩, hwf⟩, hw, rfl⟩

/-- `HUF_LOAD` that finds none raises with no valid dictionary (R262, R265). -/
theorem hufLoad_raises {s t : State} {k : ErrKind} (h : hufLoad s = .error (.raise k) t) :
    Loads false s t ∧ k = .incompleteDictionary := by
  simp only [hufLoad, Eng.modify_bind, Eng.get_bind] at h
  rcases Eng.bind_eq_error.1 h with hc | ⟨_, v, hc, h⟩
  · exact (Raises.hufCopy (K := fun _ => False) _ _ _ _ _ _ hc).elim
  · obtain ⟨⟨m, p, r, w, rfl⟩, hwf⟩ := hufCopy_eq_ok hc
    obtain ⟨⟨w, rfl⟩, hk⟩ := hufSearch_raises h
    exact ⟨⟨⟨_, _, _, _, rfl⟩, hwf⟩, hk⟩

end Sys2Proof.Machine
end

section
/-! SUPPORT. The header steps of the three decoders (R181 to R184, R221, R222, R268, R269): a header that is
accepted declares the length of the output, within `OUT_CAP`, and leaves the reader of its command where
the first stream opcode expects it. -/

namespace Sys2Proof.Machine

open Sys2Proof

/-! ## Header fields that have been read -/

/-- An operation that changes nothing. -/
def Reads {α : Type} (x : Eng α) : Prop := ∀ s a t, x s = .ok a t → t = s

/-- A sequence that begins with a read: the read succeeded, and the rest goes on in the same state. -/
theorem Reads.bind_eq_ok {α β : Type} {x : Eng α} (hx : Reads x) {f : α → Eng β} {s t : State} {b : β} :
    (x >>= f) s = .ok b t ↔ ∃ a, x s = .ok a s ∧ f a s = .ok b t := by
  rw [Eng.bind_eq_ok]
  constructor
  · rintro ⟨a, u, h, hf⟩
    cases hx _ _ _ h
    exact ⟨a, h, hf⟩
  · rintro ⟨a, h, hf⟩
    exact ⟨a, s, h, hf⟩

theorem require_bind_eq_ok {β : Type} {c : Prop} [Decidable c] {k : ErrKind} {f : Unit → Eng β} {s t : State} {b : β} :
    (require c k >>= f) s = .ok b t ↔ c ∧ f () s = .ok b t := by
  rw [Reads.bind_eq_ok fun _ _ _ h => (require_eq_ok.1 h).2]
  simp only [require_eq_ok, and_true]
  exact ⟨fun ⟨(), h⟩ => h, fun h => ⟨(), h⟩⟩

theorem Reads.inByte (a : Nat) : Reads (inByte a) := fun _ _ _ h => (inByte_eq_ok.1 h).2.2

theorem State.bytesAt_of_inHas {s : State} {a : Nat} {bytes : List Byte} (h : s.inHas a bytes) :
    s.bytesAt a bytes.length = bytes := by
  induction bytes generalizing a with
  | nil => rfl
  | cons b bs ih =>
    obtain ⟨-, hb, hbs⟩ := h
    have := ih hbs
    simp only [State.bytesAt, List.length_cons, List.range_succ_eq_map, List.map_cons, List.map_map, Nat.add_zero,
      hb, Option.getD_some] at this ⊢
    refine congrArg (b :: ·) (Eq.trans (List.map_congr_left fun k _ => ?_) this)
    rw [Function.comp_apply, Nat.succ_eq_add_one, Nat.add_right_comm, Nat.add_assoc]

theorem State.bytesAt_length (s : State) (a n : Nat) : (s.bytesAt a n).length = n := by simp [State.bytesAt]

/-- A little-endian field that has been read (R17). -/
theorem inLe_eq_ok_bytesAt {a n v : Nat} {s t : State} (h : inLe a n s = .ok v t) :
    t = s ∧ v = leNat (s.bytesAt a n) := by
  obtain ⟨rfl, bytes, rfl, hb, rfl⟩ := inLe_eq_ok h
  rw [State.bytesAt_of_inHas hb]
  exact ⟨rfl, rfl⟩

theorem Reads.inLe (a n : Nat) : Reads (inLe a n) := fun _ _ _ h => (inLe_eq_ok h).1

theorem inHas_of_inBe {n a acc v : Nat} {s t : State} (h : inBe a n acc s = .ok v t) :
    ∃ bytes, bytes.length = n ∧ s.inHas a bytes := by
  induction n generalizing a acc with
  | zero => exact ⟨[], rfl, trivial⟩
  | succ n ih =>
    obtain ⟨b, hb, h⟩ := (Reads.inByte a).bind_eq_ok.1 h
    obtain ⟨h1, h2, -⟩ := inByte_eq_ok.1 hb
    obtain ⟨bs, hl, hbs⟩ := ih h
    exact ⟨b :: bs, by rw [List.length_cons, hl], h1, h2, hbs⟩

/-- A big-endian field that has been read (R17). -/
theorem inBe_eq_ok_bytesAt {a n v : Nat} {s t : State} (h : inBe a n 0 s = .ok v t) :
    t = s ∧ v = leNat (s.bytesAt a n).reverse := by
  obtain ⟨bytes, rfl, hb⟩ := inHas_of_inBe h
  rw [inBe_ok hb, Nat.zero_mul, Nat.zero_add] at h
  cases h
  rw [State.bytesAt_of_inHas hb]
  exact ⟨rfl, rfl⟩

theorem Reads.inBe (a n : Nat) : Reads (inBe a n 0) := fun _ _ _ h => (inBe_eq_ok_bytesAt h).1

theorem Reads.inMatches : ∀ ref a, Reads (inMatches a ref)
  | [], _ => fun _ _ _ h => by
    cases h
    rfl
  | b :: ref, a => fun _ _ _ h => by
    obtain ⟨v, -, h⟩ := (Reads.inByte a).bind_eq_ok.1 h
    obtain ⟨m, -, h⟩ := (Reads.inMatches ref (a + 1)).bind_eq_ok.1 h
    cases h
    rfl

/-- The number of four bytes fits a 32-bit register. -/
theorem toNat_ofNat_leNat {bytes : List Byte} (h : bytes.length = 4) :
    (BitVec.ofNat 32 (leNat bytes)).toNat = leNat bytes := by
  rw [BitVec.toNat_ofNat]
  refine Nat.mod_eq_of_lt ((leNat_lt bytes).trans_eq ?_)
  rw [h]
  rfl

/-- A checksum over bytes that are only read changes the register `CRC` alone (R170, R172). -/
theorem crc16_eq_ok {rd : Nat → Eng Byte} (hrd : ∀ a, Reads (rd a)) {a n : Nat} {v : Word16}
    {s t : State} (h : crc16 rd a n s = .ok v t) : ∃ c, t = { s with work := { s.work with crc := c } } := by
  simp only [crc16, Eng.modify_bind] at h
  obtain ⟨_, u, hl, hv⟩ := Eng.bind_eq_ok.1 h
  cases hv
  clear h
  generalize s.cfg.rncCrcInit = c at hl
  induction n generalizing a c with
  | zero =>
    cases hl
    exact ⟨c, rfl⟩
  | succ n ih =>
    obtain ⟨b, -, hl⟩ := (hrd a).bind_eq_ok.1 hl
    exact ih _ hl

/-! ## The header steps -/

/-- The length that the header of a command's file declares (R181, R221, R269). -/
def State.declared (s : State) : Command → Nat
  | .rncDecode => leNat (s.bytesAt 4 4).reverse
  | .cwcDecode => leNat (s.bytesAt 4 4)
  | .hufLoad => 0
  | .hufChunk => leNat (s.bytesAt 0 4)

/-- A header has been accepted: only working registers have changed, and `DECL_LEN` is the declared length. -/
structure Declares (c : Command) (s t : State) : Prop where
  only : OnlyWork s t
  declLen : t.work.declLen.toNat = s.declared c
  cap : t.work.declLen.toNat ≤ t.cfg.outCap

/-- Where the reader of a command stands before its first stream opcode. -/
def State.positioned (s : State) : Command → Prop
  | .rncDecode => s.cur.isRnc ∧ s.cursorOk ∧ s.cur.cnt = 0 ∧ s.cur.pos = s.cur.base
  | .cwcDecode => s.cur.isCwc s.cfg.cwcRefillPolicy ∧ s.cursorOk
  | .hufLoad => True
  | .hufChunk => s.hvalid = true ∧ s.work.hnode = s.hroot

/-- The RNC header (R181 to R183). -/
theorem rncHeader_eq_ok {s t : State} {u : Unit} (h : rncHeader s = .ok u t) :
    Declares .rncDecode s t ∧ 18 + t.work.packedLen.toNat ≤ t.inLen := by
  simp only [rncHeader, Eng.get_bind, modifyWork_bind, require_bind_eq_ok, (Reads.inMatches _ _).bind_eq_ok,
    (Reads.inBe _ _).bind_eq_ok] at h
  obtain ⟨-, _, -, -, n, hn, p, hp, _, -, _, -, hl, hc, h⟩ := h
  obtain ⟨_, _, hcrc, h⟩ := Eng.bind_eq_ok.1 h
  obtain ⟨-, rfl⟩ := require_eq_ok.1 h
  obtain ⟨-, rfl⟩ := inBe_eq_ok_bytesAt hn
  obtain ⟨-, rfl⟩ := inBe_eq_ok_bytesAt hp
  obtain ⟨c, rfl⟩ := crc16_eq_ok Reads.inByte hcrc
  have hdecl := toNat_ofNat_leNat (bytes := (s.bytesAt 4 4).reverse) (by simp [State.bytesAt_length])
  have hpack := toNat_ofNat_leNat (bytes := (s.bytesAt 8 4).reverse) (by simp [State.bytesAt_length])
  exact ⟨⟨⟨_, rfl⟩, hdecl, hdecl.trans_le hc⟩, (congrArg (18 + ·) hpack).trans_le hl⟩

/-- Header and initialisation of `RNC_DECODE` (R181 to R184). -/
theorem rncHead_eq_ok {s v t : State} {u u' : Unit} (h : rncHeader s = .ok u v) (h' : rncStart v = .ok u' t) :
    Declares .rncDecode s t ∧ t.positioned .rncDecode := by
  obtain ⟨⟨ho, hd, hc⟩, hl⟩ := rncHeader_eq_ok h
  cases h'
  refine ⟨⟨ho.trans ⟨_, rfl⟩, hd, hc⟩, ⟨rfl, rfl, rfl⟩, ?_, rfl, rfl⟩
  exact State.cursorOk_iff.2 ⟨State.cursorSound_config (Nat.le_add_right _ _) hl _ _ _, nofun⟩

/-- The CWC header (R221). -/
theorem cwcHeader_eq_ok {s t : State} {u : Unit} (h : cwcHeader s = .ok u t) :
    Declares .cwcDecode s t ∧ 12 + t.work.payLen.toNat ≤ t.inLen := by
  simp only [cwcHeader, Eng.get_bind, modifyWork_bind, require_bind_eq_ok, (Reads.inMatches _ _).bind_eq_ok,
    (Reads.inByte _).bind_eq_ok, (Reads.inLe _ _).bind_eq_ok, require_eq_ok] at h
  obtain ⟨-, _, -, -, _, -, n, hn, p, hp, hl, -, hc, rfl⟩ := h
  obtain ⟨-, rfl⟩ := inLe_eq_ok_bytesAt hn
  obtain ⟨-, rfl⟩ := inLe_eq_ok_bytesAt hp
  have hdecl := toNat_ofNat_leNat (s.bytesAt_length 4 4)
  have hpay := toNat_ofNat_leNat (s.bytesAt_length 8 4)
  exact ⟨⟨⟨_, rfl⟩, hdecl, hdecl.trans_le hc⟩, (congrArg (12 + ·) hpay).trans_le hl⟩

/-- Header and start of `CWC_DECODE` (R221, R222): the cursor is primed. -/
theorem cwcHead_eq_ok {s v t : State} {u u' : Unit} (h : cwcHeader s = .ok u v) (h' : cwcStart v = .ok u' t) :
    Declares .cwcDecode s t ∧ t.positioned .cwcDecode := by
  obtain ⟨⟨ho, hd, hc⟩, hl⟩ := cwcHeader_eq_ok h
  simp only [cwcStart, Eng.get_bind, config, setCur_bind, prime, getCur_bind, Eng.bind_eq_ok, ensure_eq_ok] at h'
  obtain ⟨_, _, ⟨-, rfl⟩, hr⟩ := h'
  obtain ⟨⟨c, rfl, hp, hs⟩, hcnt⟩ := refill_moves hr
  refine ⟨⟨ho.trans ⟨_, rfl⟩, hd, hc⟩, hp.isCwc ⟨rfl, rfl, rfl⟩, ?_⟩
  refine State.cursorOk_iff.2 ⟨hs (State.cursorSound_config (Nat.le_add_right _ _) hl _ _ _), fun _ => ?_⟩
  rw [hcnt]
  exact Nat.le_add_left 1 31

/-- Validation and start of `HUF_CHUNK` (R268, R269): a declared count of 0 completes at once, else the decoder
stands on the root. -/
theorem hufStart_eq_ok {s t : State} {u : Unit} (h : hufStart s = .ok u t) :
    ∃ v, Declares .hufChunk s v ∧ (v.work.declLen.toNat = 0 ∧ t = v.complete ∨ v.positioned .hufChunk ∧ t = v) := by
  simp only [hufStart, Eng.get_bind, modifyWork_bind, require_bind_eq_ok, (Reads.inLe _ _).bind_eq_ok] at h
  obtain ⟨hv, -, n, hn, h⟩ := h
  obtain ⟨-, rfl⟩ := inLe_eq_ok_bytesAt hn
  have hdecl := toNat_ofNat_leNat (s.bytesAt_length 0 4)
  split at h
  · cases h
    have hz := hdecl.trans ‹leNat (s.bytesAt 0 4) = 0›
    exact ⟨_, ⟨⟨_, rfl⟩, hdecl, hz.trans_le (Nat.zero_le _)⟩, .inl ⟨hz, rfl⟩⟩
  · simp only [require_bind_eq_ok] at h
    obtain ⟨hc, -, h⟩ := h
    cases h
    refine ⟨_, ?_, .inr ⟨?_, rfl⟩⟩
    · exact ⟨⟨_, rfl⟩, hdecl, hdecl.trans_le hc⟩
    · exact ⟨hv, rfl⟩

end Sys2Proof.Machine
end

section
/-! SUPPORT. How a decoder's stream runs and ends: one opcode step either finishes the command, with the declared
length produced, or goes on at a place of the same stream; and the whole commands are such steps to the end. -/

namespace Sys2Proof.Machine

open Sys2Proof

/-- The declared length has been produced (R186, R223, R272). -/
def State.Full (s : State) : Prop := s.work.declLen.toNat ≤ s.outLen

theorem State.OutputOk.outLen_eq {s : State} (h : s.OutputOk) (hf : s.Full) : s.outLen = s.work.declLen.toNat :=
  Nat.le_antisymm h.declared hf

/-- The command ends with success once the declared length has been produced (R193, R223, R272). -/
def Finishes (s t : State) : Prop := ∃ u, Decodes s u ∧ u.Full ∧ t = u.complete

theorem Finishes.now {s : State} (h : s.Full) : Finishes s s.complete := ⟨s, Decodes.refl s, h, rfl⟩

theorem Finishes.after {s t u : State} (h : Decodes s t) (k : Finishes t u) : Finishes s u := by
  obtain ⟨v, hv, hf, rfl⟩ := k
  exact ⟨v, h.trans hv, hf, rfl⟩

/-- An error kind that an error ends with: one that is not `None` (R28). -/
def ErrKind.IsError (k : ErrKind) : Prop := k ≠ .noError

/-! ## The ends of the streams -/

/-- The end of `RNC_DECODE` (R191 to R193). -/
theorem rncFinish_eq_ok {s t : State} {u : Unit} (h : rncFinish s = .ok u t) : Finishes s t := by
  simp only [rncFinish, Eng.get_bind, require_bind_eq_ok] at h
  obtain ⟨hlen, h⟩ := h
  obtain ⟨_, v, hc, h⟩ := Eng.bind_eq_ok.1 h
  obtain ⟨-, h⟩ := require_bind_eq_ok.1 h
  cases h
  obtain ⟨c, rfl⟩ := crc16_eq_ok (fun a _ _ _ h => (outByte_eq_ok.1 h).2.2) hc
  exact ⟨_, Decodes.work rfl rfl rfl, hlen.ge, rfl⟩

/-- The terminator of CWC (R229). -/
theorem cwcTerm_eq_ok {s t : State} {u : Unit} (h : cwcTerm s = .ok u t) : Finishes s t := by
  simp only [cwcTerm, Eng.get_bind, require_bind_eq_ok, completeCommand_apply] at h
  obtain ⟨hlen, h⟩ := h
  cases h
  exact .now hlen.ge

/-- The length test of CWC (R223). -/
theorem cwcTest_eq_ok {s t : State} {u : Unit} (h : cwcTest s = .ok u t) : t = s ∨ Finishes s t := by
  rw [cwcTest, Eng.get_bind] at h
  split at h
  · cases h
    exact .inr (.now (Eq.ge ‹_›))
  · cases h
    exact .inl rfl

/-- The test of the tree decoder's loop (R272). -/
theorem hufTest_eq_ok {s t : State} {u : Unit} (h : hufTest s = .ok u t) : t = s ∨ Finishes s t := by
  rw [hufTest, Eng.get_bind] at h
  split at h
  · cases h
    exact .inl rfl
  · cases h
    exact .inr (.now (Nat.le_of_not_lt ‹_›))

/-- The test between chunks of RNC (R186). -/
theorem rncChunkTest_eq_ok {s t : State} {u : Unit} (h : rncChunkTest s = .ok u t) :
    t = { s with phase := .stream (.rncTab .raw) } ∨ Finishes s t := by
  rw [rncChunkTest, Eng.get_bind] at h
  split at h
  · cases h
    exact .inl rfl
  · exact .inr (rncFinish_eq_ok h)

theorem Raises.rncChunkTest : Raises ErrKind.IsError rncChunkTest :=
  .bind .get fun _ => .ite (.modify _) (.rncFinish nofun nofun)

theorem Frames.rncChunkTest : Frames rncChunkTest :=
  Frames.bind Frames.get fun _ => Frames.ite (Frames.setPhase _) Frames.rncFinish

/-! ## One opcode of CWC -/

/-- One CWC opcode with the length test behind it (R223). -/
def cwcStep : Eng Unit := do
  let op ← cwcFetch
  cwcOpMeaning op
  let s ← get
  if s.status = .busy then cwcTest else pure ()

theorem cwcOpMeaning_eq_ok {op : CwcOp} {s t : State} {u : Unit} (h : cwcOpMeaning op s = .ok u t) :
    Decodes s t ∨ Finishes s t := by
  by_cases ho : op = .longTerm
  · subst ho
    exact .inr (cwcTerm_eq_ok h)
  · exact .inl ((Decoding.cwcOpMeaning (K := ErrKind.IsError) nofun nofun nofun op ho).decodes h)

theorem cwcStep_eq_ok {s t : State} {u : Unit} (h : cwcStep s = .ok u t) : Decodes s t ∨ Finishes s t := by
  obtain ⟨op, v, hf, h⟩ := Eng.bind_eq_ok.1 h
  obtain ⟨_, w, hm, h⟩ := Eng.bind_eq_ok.1 h
  have hd := (Decoding.cwcFetch (K := ErrKind.IsError) nofun).decodes hf
  rw [Eng.get_bind] at h
  rcases cwcOpMeaning_eq_ok hm with hw | hw
  · split at h
    · rcases cwcTest_eq_ok h with rfl | ht
      · exact .inl (hd.trans hw)
      · exact .inr (.after (hd.trans hw) ht)
    · cases h
      exact .inl (hd.trans hw)
  · have hdone : w.status ≠ .busy := by
      obtain ⟨x, -, -, rfl⟩ := hw
      nofun
    rw [if_neg hdone] at h
    cases h
    exact .inr (.after hd hw)

theorem Raises.cwcOpMeaning (op : CwcOp) : Raises ErrKind.IsError (cwcOpMeaning op) := by
  by_cases ho : op = .longTerm
  · subst ho
    exact .cwcTerm nofun
  · exact (Decoding.cwcOpMeaning nofun nofun nofun op ho).raises

theorem Raises.cwcStep : Raises ErrKind.IsError cwcStep :=
  .bind (Decoding.cwcFetch nofun).raises fun op => .bind (.cwcOpMeaning op) fun _ => .bind .get fun _ =>
    .ite .cwcTest (.pure _)

theorem Frames.cwcStep : Frames cwcStep :=
  Frames.bind Frames.cwcFetch fun op => Frames.bind (Frames.cwcOpMeaning op) fun _ => Frames.bind Frames.get fun _ =>
    Frames.ite Frames.cwcTest (Frames.pure _)

/-- The loop of CWC (R223) goes on after a step that has not ended the command. -/
theorem cwcLoop_succ (n : Nat) : cwcLoop (n + 1) = cwcStep >>= fun _ => get >>= fun s =>
    if s.status = .busy then cwcLoop n else pure () := by
  simp only [cwcLoop, cwcStep, bind_assoc]
  refine bind_congr fun op => bind_congr fun _ => funext fun s => ?_
  rw [Eng.get_bind, Eng.get_bind]
  by_cases hb : s.status = .busy
  · rw [if_pos hb, if_pos hb]
  · rw [if_neg hb, if_neg hb, pure_bind, Eng.get_bind, if_neg hb]

theorem cwcLoop_eq_ok {t : State} {u : Unit} : ∀ {n : Nat} {s : State}, s.status = .busy → cwcLoop n s = .ok u t →
    Finishes s t
  | 0, _, _, h => by cases h
  | n + 1, s, hb, h => by
    rw [cwcLoop_succ] at h
    obtain ⟨_, v, hv, h⟩ := Eng.bind_eq_ok.1 h
    rw [Eng.get_bind] at h
    rcases cwcStep_eq_ok hv with hd | hd
    · have hvb := hd.status.trans hb
      rw [if_pos hvb] at h
      exact .after hd (cwcLoop_eq_ok hvb h)
    · obtain ⟨w, hw, hf, rfl⟩ := hd
      cases h
      exact ⟨w, hw, hf, rfl⟩

theorem Raises.cwcLoop : ∀ n, Raises ErrKind.IsError (cwcLoop n)
  | 0 => .stuck _
  | n + 1 => by
    rw [cwcLoop_succ]
    exact .bind .cwcStep fun _ => .bind .get fun _ => .ite (.cwcLoop n) (.pure _)

/-! ## The symbols of a chunk -/

theorem hufSymbols_eq_ok {t : State} {u : Unit} : ∀ {n : Nat} {s : State}, hufSymbols n s = .ok u t → Finishes s t
  | 0, _, h => by cases h
  | n + 1, s, h => by
    rw [hufSymbols, Eng.get_bind] at h
    split at h
    · obtain ⟨_, v, hv, h⟩ := Eng.bind_eq_ok.1 h
      exact .after ((Decoding.hufSym (K := ErrKind.IsError) nofun nofun).decodes hv) (hufSymbols_eq_ok h)
    · cases h
      exact .now (Nat.le_of_not_lt ‹_›)

theorem Raises.hufSymbols : ∀ n, Raises ErrKind.IsError (hufSymbols n)
  | 0 => .stuck _
  | n + 1 => .bind .get fun _ => .ite (.bind (Decoding.hufSym nofun nofun).raises fun _ => .hufSymbols n) (.modify _)

/-! ## The whole commands -/

/-- The operations of a command (R198, R236, R274, R275). -/
def commandBody : Command → Eng Unit
  | .rncDecode => Machine.rncDecode
  | .cwcDecode => Machine.cwcDecode
  | .hufLoad => Machine.hufLoad
  | .hufChunk => Machine.hufChunk

theorem exec_toInstr (c : Command) (s : State) : exec c.toInstr s = runCommand c (commandBody c) s := by cases c <;> rfl

/-- A command that starts on an engine that is not busy (R291). -/
theorem exec_toInstr_of_not_busy {c : Command} {s : State} (h : s.status ≠ .busy) :
    exec c.toInstr s = runMeaning (commandBody c) (s.begin c) := by
  rw [exec_toInstr, runCommand, if_neg h]

/-- A write to `CMD` while `BUSY` is ignored (R297). -/
theorem exec_toInstr_of_busy {c : Command} {s : State} (h : s.status = .busy) : exec c.toInstr s = .next s := by
  rw [exec_toInstr, runCommand, if_pos h]

theorem OnlyWork.status {s t : State} (h : OnlyWork s t) : t.status = s.status := by
  obtain ⟨w, rfl⟩ := h
  rfl

/-- A whole decoder that succeeds reads a header and then finishes its stream. -/
theorem decoder_eq_ok {c : Command} (hc : c ≠ .hufLoad) {s t : State} {u : Unit} (hb : s.status = .busy)
    (h : commandBody c s = .ok u t) : ∃ v, Declares c s v ∧ Finishes v t := by
  cases c with
  | rncDecode =>
    obtain ⟨_, v, h1, h⟩ := Eng.bind_eq_ok.1 h
    obtain ⟨_, w, h2, h⟩ := Eng.bind_eq_ok.1 h
    obtain ⟨_, x, h3, h⟩ := Eng.bind_eq_ok.1 h
    rw [Eng.get_bind] at h
    obtain ⟨_, y, h4, h⟩ := Eng.bind_eq_ok.1 h
    have hp := (Decoding.rncPrime (K := ErrKind.IsError) nofun).decodes h3
    have hl := (Decoding.rncChunks (K := ErrKind.IsError) nofun nofun nofun nofun _ _).decodes h4
    exact ⟨w, (rncHead_eq_ok h1 h2).1, .after (hp.trans hl) (rncFinish_eq_ok h)⟩
  | cwcDecode =>
    obtain ⟨_, v, h1, h⟩ := Eng.bind_eq_ok.1 h
    obtain ⟨_, w, h2, h⟩ := Eng.bind_eq_ok.1 h
    have hd := (cwcHead_eq_ok h1 h2).1
    exact ⟨w, hd, cwcLoop_eq_ok (hd.only.status.trans hb) h⟩
  | hufLoad => exact absurd rfl hc
  | hufChunk =>
    obtain ⟨_, v, h1, h⟩ := Eng.bind_eq_ok.1 h
    rw [Eng.get_bind] at h
    obtain ⟨w, hd, ⟨hz, rfl⟩ | ⟨-, rfl⟩⟩ := hufStart_eq_ok h1
    · cases h
      exact ⟨w, hd, .now (hz.trans_le (Nat.zero_le _))⟩
    · rw [if_pos (hd.only.status.trans hb)] at h
      exact ⟨v, hd, hufSymbols_eq_ok h⟩

theorem Raises.commandBody {c : Command} (hc : c ≠ .hufLoad) : Raises ErrKind.IsError (commandBody c) := by
  cases c with
  | rncDecode =>
    exact .bind (.rncHeader nofun nofun nofun) fun _ => .bind .rncStart fun _ =>
      .bind (Decoding.rncPrime nofun).raises fun _ => .bind .get fun _ =>
      .bind (Decoding.rncChunks nofun nofun nofun nofun _ _).raises fun _ => .rncFinish nofun nofun
  | cwcDecode =>
    exact .bind (.cwcHeader nofun) fun _ => .bind (.cwcStart nofun) fun _ => .bind .get fun _ => .cwcLoop _
  | hufLoad => exact absurd rfl hc
  | hufChunk =>
    exact .bind (.hufStart nofun nofun nofun) fun _ => .bind .get fun _ => .ite (.hufSymbols _) (.pure _)

theorem Frames.commandBody {c : Command} (hc : c ≠ .hufLoad) : Frames (commandBody c) := by
  cases c with
  | rncDecode => exact Frames.rncDecode
  | cwcDecode => exact Frames.cwcDecode
  | hufLoad => exact absurd rfl hc
  | hufChunk => exact Frames.hufChunk

/-! ## One opcode step -/

/-- The opcode at a place of a stream, with what follows it (R199, R223, R272), as one sequence. -/
def streamStep : Slot → Eng Unit
  | .rncPrime => do
    rncPrime
    rncChunkTest
  | .rncTab .raw => do
    huftab .raw
    setPhase (.stream (.rncTab .dist))
  | .rncTab .dist => do
    huftab .dist
    setPhase (.stream (.rncTab .len))
  | .rncTab .len => do
    huftab .len
    setPhase (.stream .rncCnt)
  | .rncCnt => do
    rncChcnt
    setPhase (.stream .rncRaw)
  | .rncRaw => do
    rncRaw
    let s ← get
    if s.work.chcnt = 0#16 then rncChunkTest else setPhase (.stream .rncMatch)
  | .rncMatch => do
    rncMatch
    setPhase (.stream .rncRaw)
  | .cwcOp => cwcStep
  | .hufSym => do
    hufSym
    hufTest

/-- Executing an opcode and going on in the grammar, as one sequence: an error entry ends both (R324). -/
theorem afterOpcode_runMeaning (i : Instr) (x : Eng Unit) (s : State) : afterOpcode i (runMeaning x s) =
    runMeaning (do
      x
      let v ← get
      if v.status = .busy then advance i else pure ()) s := by
  unfold runMeaning
  rw [Eng.bind_apply]
  cases x s with
  | ok _ v =>
    dsimp only
    rw [Eng.get_bind]
    by_cases hb : v.status = .busy
    · simp only [outcomeOf, afterOpcode, runMeaning, if_pos hb]
    · simp only [outcomeOf, afterOpcode, if_neg hb, Eng.pure_apply]
  | error e v =>
    cases e with
    | raise k => rfl
    | fault f => rfl

/-- An opcode that does not end the command is followed by what follows it in the grammar. -/
theorem afterOpcode_decoding {i : Instr} {x : Eng Unit} {s : State} (hx : Decoding ErrKind.IsError x)
    (hb : s.status = .busy) :
    afterOpcode i (runMeaning x s) = runMeaning (x >>= fun _ => advance i) s := by
  rw [afterOpcode_runMeaning]
  unfold runMeaning
  rw [Eng.bind_apply, Eng.bind_apply]
  cases h : x s with
  | ok _ v =>
    dsimp only
    rw [Eng.get_bind, if_pos ((hx.decodes h).status.trans hb)]
  | error e v => rfl

theorem exec_cwcOp (op : CwcOp) (s : State) : exec op.toInstr s = runMeaning (cwcOpMeaning op) s := by
  cases op <;> rfl

theorem advance_cwcOp (op : CwcOp) : advance op.toInstr = cwcTest := by cases op <;> rfl

/-- An opcode step of the busy engine is the sequence of its place. -/
theorem opcodeStep_eq_streamStep {slot : Slot} {s : State} (hb : s.status = .busy) :
    opcodeStep slot s = runMeaning (streamStep slot) s := by
  cases slot with
  | rncPrime => exact afterOpcode_decoding (i := .rncPrime) (.rncPrime nofun) hb
  | rncTab t => cases t <;> exact afterOpcode_decoding (i := .rncHuftab _) (.huftab nofun nofun _) hb
  | rncCnt => exact afterOpcode_decoding (i := .rncChcnt) (.rncChcnt nofun) hb
  | rncRaw => exact afterOpcode_decoding (i := .rncRaw) (.rncRaw nofun nofun nofun) hb
  | rncMatch => exact afterOpcode_decoding (i := .rncMatch) (.rncMatch nofun nofun nofun nofun) hb
  | cwcOp =>
    have hf : fetch .cwcOp s = _ := Eng.map_apply CwcOp.toInstr cwcFetch s
    rw [opcodeStep, hf, streamStep, cwcStep, runMeaning, Eng.bind_apply]
    cases cwcFetch s with
    | ok op v =>
      dsimp only
      rw [exec_cwcOp, afterOpcode_runMeaning, advance_cwcOp]
      rfl
    | error e v => cases e <;> rfl
  | hufSym => exact afterOpcode_decoding (i := .hufSym) (.hufSym nofun nofun) hb

/-- What an opcode step that succeeds comes to: the end of the command, or another place of the same stream, never
`RNC.PRIME` again (R199, R223, R272). -/
inductive Advanced (c : Command) (s : State) : State → Prop
  | ended {t : State} (h : Finishes s t) : Advanced c s t
  | goesOn {u : State} {slot : Slot} (h : Decodes s u) (hc : slot.command = c) (hn : slot ≠ .rncPrime) :
      Advanced c s { u with phase := .stream slot }

theorem Advanced.after {c : Command} {s t u : State} (h : Decodes s t) (k : Advanced c t u) : Advanced c s u := by
  cases k with
  | ended k => exact .ended (.after h k)
  | goesOn k hc hn => exact .goesOn (h.trans k) hc hn

theorem Advanced.setPhase {c : Command} {s t : State} {u : Unit} (slot : Slot)
    (hc : slot.command = c) (hn : slot ≠ .rncPrime) (h : setPhase (.stream slot) s = .ok u t) : Advanced c s t := by
  cases h
  exact .goesOn (Decodes.refl s) hc hn

theorem Advanced.rncChunkTest {s t : State} {u : Unit} (h : rncChunkTest s = .ok u t) : Advanced .rncDecode s t := by
  rcases rncChunkTest_eq_ok h with rfl | h
  · exact .goesOn (Decodes.refl s) rfl nofun
  · exact .ended h

/-- A step that stays at its place. -/
theorem Advanced.stay {slot : Slot} {s t : State} (hp : s.phase = .stream slot) (hn : slot ≠ .rncPrime)
    (h : Decodes s t) : Advanced slot.command s t := by
  have hs : t = { t with phase := .stream slot } := by rw [← hp, ← h.phase]
  rw [hs]
  exact .goesOn h rfl hn

/-- An opcode that does not end the command, and what follows it. -/
theorem Advanced.bind {c : Command} {x : Eng Unit} {f : Unit → Eng Unit} {s t : State} {u : Unit}
    (hx : Decoding ErrKind.IsError x) (hf : ∀ {v}, f () v = .ok u t → Advanced c v t) (h : (x >>= f) s = .ok u t) :
    Advanced c s t := by
  obtain ⟨_, v, hv, h⟩ := Eng.bind_eq_ok.1 h
  exact .after (hx.decodes hv) (hf h)

/-- An opcode step that succeeds ends the command or goes on in its grammar. -/
theorem streamStep_eq_ok {slot : Slot} {s t : State} {u : Unit} (hp : s.phase = .stream slot)
    (h : streamStep slot s = .ok u t) : Advanced slot.command s t := by
  cases slot with
  | rncPrime => exact .bind (.rncPrime nofun) .rncChunkTest h
  | rncTab tab =>
    cases tab with
    | raw => exact .bind (.huftab nofun nofun .raw) (.setPhase (.rncTab .dist) rfl nofun) h
    | dist => exact .bind (.huftab nofun nofun .dist) (.setPhase (.rncTab .len) rfl nofun) h
    | len => exact .bind (.huftab nofun nofun .len) (.setPhase .rncCnt rfl nofun) h
  | rncCnt => exact .bind (.rncChcnt nofun) (.setPhase .rncRaw rfl nofun) h
  | rncRaw =>
    refine .bind (.rncRaw nofun nofun nofun) (fun {v} h => ?_) h
    rw [Eng.get_bind] at h
    split at h
    · exact .rncChunkTest h
    · exact .setPhase .rncMatch rfl nofun h
  | rncMatch => exact .bind (.rncMatch nofun nofun nofun nofun) (.setPhase .rncRaw rfl nofun) h
  | cwcOp =>
    rcases cwcStep_eq_ok h with h | h
    · exact .stay hp nofun h
    · exact .ended h
  | hufSym =>
    obtain ⟨_, v, hv, h⟩ := Eng.bind_eq_ok.1 h
    have hd := (Decoding.hufSym (K := ErrKind.IsError) nofun nofun).decodes hv
    rcases hufTest_eq_ok h with rfl | h
    · exact .stay hp nofun hd
    · exact .ended (.after hd h)

theorem Raises.streamStep : ∀ slot, Raises ErrKind.IsError (streamStep slot)
  | .rncPrime => .bind (Decoding.rncPrime nofun).raises fun _ => .rncChunkTest
  | .rncTab .raw => .bind (Decoding.huftab nofun nofun _).raises fun _ => .modify _
  | .rncTab .dist => .bind (Decoding.huftab nofun nofun _).raises fun _ => .modify _
  | .rncTab .len => .bind (Decoding.huftab nofun nofun _).raises fun _ => .modify _
  | .rncCnt => .bind (Decoding.rncChcnt nofun).raises fun _ => .modify _
  | .rncRaw => .bind (Decoding.rncRaw nofun nofun nofun).raises fun _ => .bind .get fun _ =>
      .ite .rncChunkTest (.modify _)
  | .rncMatch => .bind (Decoding.rncMatch nofun nofun nofun nofun).raises fun _ => .modify _
  | .cwcOp => .cwcStep
  | .hufSym => .bind (Decoding.hufSym nofun nofun).raises fun _ => .hufTest

theorem Frames.streamStep : ∀ slot, Frames (streamStep slot)
  | .rncPrime => Frames.bind Frames.rncPrime fun _ => Frames.rncChunkTest
  | .rncTab .raw => Frames.bind (Frames.huftab _) fun _ => Frames.setPhase _
  | .rncTab .dist => Frames.bind (Frames.huftab _) fun _ => Frames.setPhase _
  | .rncTab .len => Frames.bind (Frames.huftab _) fun _ => Frames.setPhase _
  | .rncCnt => Frames.bind Frames.rncChcnt fun _ => Frames.setPhase _
  | .rncRaw => Frames.bind Frames.rncRaw fun _ => Frames.bind Frames.get fun _ =>
      Frames.ite Frames.rncChunkTest (Frames.setPhase _)
  | .rncMatch => Frames.bind Frames.rncMatch fun _ => Frames.setPhase _
  | .cwcOp => Frames.cwcStep
  | .hufSym => Frames.bind Frames.hufSym fun _ => Frames.hufTest

end Sys2Proof.Machine
end

section
/-! SUPPORT. The invariants of the registers, the memories and the cursor, assembled: where no command runs they
follow from the stores and the output, where one runs from the registers of its stream. The whole commands
and the steps of the busy engine end in one of the two. -/

namespace Sys2Proof.Machine

open Sys2Proof

/-- `IN`, `IN_LEN` and the dictionary are in order: the part of the invariant that no decoder can break. -/
structure State.StoreOk (s : State) : Prop where
  inWf : s.inMem.wf = true
  nodeWf : s.nodeMem.wf = true
  inCap : s.inLen ≤ s.cfg.inCap
  dictionary : s.hvalid = true → s.walkable

theorem State.walkable_congr {s t : State} (hm : t.nodeMem = s.nodeMem) (hr : t.hroot = s.hroot) (h : s.walkable) :
    t.walkable := by
  simp only [State.walkable, State.nodeAt, hm, hr]
  exact h

theorem State.Inv.storeOk {s : State} (h : s.Inv) : s.StoreOk := ⟨h.inWf, h.nodeWf, h.inCap, h.dictionary⟩

/-- What frames the decoders keeps the stores (R293). -/
theorem Outside.storeOk {s t : State} (ho : Outside s t) (h : s.StoreOk) : t.StoreOk where
  inWf := ho.inMem ▸ h.inWf
  nodeWf := ho.nodeMem ▸ h.nodeWf
  inCap := by
    rw [ho.inLen, ho.cfg]
    exact h.inCap
  dictionary hv := State.walkable_congr ho.nodeMem ho.hroot (h.dictionary (ho.hvalid ▸ hv))

/-- `HUF_LOAD` keeps the stores, with a dictionary that can be walked where it leaves one. -/
theorem Loads.storeOk {valid : Bool} {s t : State} (hl : Loads valid s t) (hw : valid = true → t.walkable)
    (h : s.StoreOk) : t.StoreOk := by
  obtain ⟨⟨m, p, r, w, rfl⟩, hm⟩ := hl
  exact ⟨h.inWf, hm h.nodeWf, h.inCap, hw⟩

/-! ## Where no command runs -/

/-- The engine stands in no command (R291). -/
theorem State.Inv.of_idle {s : State} (hs : s.StoreOk) (hw : s.outMem.wf = true)
    (ho : ∀ a, (s.outMem.read a).isSome = true ↔ a < s.outLen) (hc : s.outLen ≤ s.cfg.outCap)
    (he : s.err = .noError ↔ s.status ≠ .error) (hz : s.status = .idle ∨ s.status = .error → s.outLen = 0)
    (hp : s.phase = .idle) (hb : s.status ≠ .busy) : s.Inv where
  inWf := hs.inWf
  outWf := hw
  nodeWf := hs.nodeWf
  inCap := hs.inCap
  outExact := ho
  outCap := hc
  errStatus := he
  outStatus := hz
  phaseBusy := by simp only [hp, hb, ne_eq, not_false_eq_true]
  phaseCmd := by
    rw [hp]
    exact ⟨nofun, nofun⟩
  headerFresh := by
    rw [hp]
    nofun
  declared := by
    rw [hp]
    nofun
  dictionary := hs.dictionary
  chunk := by
    rw [hp]
    nofun

theorem State.CursorInv.of_idle {s : State} (hp : s.phase = .idle) : s.CursorInv := by
  unfold State.CursorInv
  rw [hp]
  exact ⟨nofun, nofun, nofun⟩

theorem Mem.read_nil_exact (a : Nat) : (Mem.read [] a).isSome = true ↔ a < 0 := by simp

/-- After the reset event (R49, R350). -/
theorem State.Inv.afterReset (s : State) : s.afterReset.Inv :=
  .of_idle ⟨rfl, rfl, Nat.zero_le _, nofun⟩ rfl Mem.read_nil_exact (Nat.zero_le _) ⟨nofun, fun _ => rfl⟩
    (fun _ => rfl) rfl nofun

/-- After an error (R324). -/
theorem State.Inv.errorEntry {s : State} {k : ErrKind} (hs : s.StoreOk) (hk : k.IsError) : (s.errorEntry k).Inv :=
  .of_idle ⟨hs.inWf, hs.nodeWf, hs.inCap, hs.dictionary⟩ rfl Mem.read_nil_exact (Nat.zero_le _)
    ⟨fun h => absurd h hk, fun h => absurd rfl h⟩ (fun _ => rfl) rfl nofun

/-- After a completion (R193, R242, R265, R272). -/
theorem State.Inv.complete {s : State} (hs : s.StoreOk) (ho : s.OutputOk) : s.complete.Inv :=
  .of_idle ⟨hs.inWf, hs.nodeWf, hs.inCap, hs.dictionary⟩ ho.wf ho.exact ho.cap ⟨nofun, fun _ => rfl⟩ nofun rfl nofun

/-! ## Where a stream runs -/

/-- A command runs in its stream: the invariant without the place. -/
structure State.Streaming (c : Command) (s : State) : Prop where
  store : s.StoreOk
  output : s.OutputOk
  cap : s.work.declLen.toNat ≤ s.cfg.outCap
  status : s.status = .busy
  err : s.err = .noError
  cmd : s.cmd = some c
  chunk : c = .hufChunk → s.hvalid = true ∧ s.onRecord

/-- The cursor of a command that runs in its stream. -/
structure State.CursorStreaming (c : Command) (s : State) : Prop where
  rnc : c = .rncDecode → s.cur.isRnc ∧ s.cursorOk
  cwc : c = .cwcDecode → s.cur.isCwc s.cfg.cwcRefillPolicy ∧ s.cursorOk

theorem State.Inv.streaming {s : State} {slot : Slot} (h : s.Inv) (hp : s.phase = .stream slot) :
    s.Streaming slot.command := by
  have hb : s.status = .busy := by
    by_contra hb
    cases hp.symm.trans (h.phaseBusy.2 hb)
  refine ⟨h.storeOk, ⟨h.outWf, h.outExact, (h.declared slot hp).1, h.outCap⟩, (h.declared slot hp).2, hb,
    h.errStatus.2 fun he => (nomatch hb.symm.trans he), h.phaseCmd.2 slot hp, fun hc => ?_⟩
  cases slot <;> cases hc
  obtain ⟨hv, hn⟩ := h.chunk hp
  exact ⟨hv, h.dictionary hv, hn⟩

theorem State.CursorInv.streaming {s : State} {slot : Slot} (h : s.CursorInv) (hp : s.phase = .stream slot) :
    s.CursorStreaming slot.command := by
  refine ⟨h.2.1 slot hp, fun hc => h.2.2 ?_⟩
  cases slot <;> cases hc
  exact hp

/-- A stream that goes on at a place of its own command. -/
theorem State.Streaming.inv {s : State} {slot : Slot} (h : s.Streaming slot.command) :
    State.Inv { s with phase := .stream slot } where
  inWf := h.store.inWf
  outWf := h.output.wf
  nodeWf := h.store.nodeWf
  inCap := h.store.inCap
  outExact := h.output.exact
  outCap := h.output.cap
  errStatus := ⟨fun _ he => (nomatch h.status.symm.trans he), fun _ => h.err⟩
  outStatus := fun hs => by rcases hs with hs | hs <;> cases h.status.symm.trans hs
  phaseBusy := ⟨nofun, fun hb => absurd h.status hb⟩
  phaseCmd := ⟨nofun, fun slot' hp => by
    cases hp
    exact h.cmd⟩
  headerFresh := nofun
  declared := fun _ _ => ⟨h.output.declared, h.cap⟩
  dictionary := h.store.dictionary
  chunk := fun hp => by
    cases hp
    obtain ⟨hv, -, hn⟩ := h.chunk rfl
    exact ⟨hv, hn⟩

theorem State.CursorStreaming.cursorInv {s : State} {slot : Slot} (h : s.CursorStreaming slot.command)
    (hn : slot ≠ .rncPrime ∨ s.positioned .rncDecode) : State.CursorInv { s with phase := .stream slot } := by
  refine ⟨fun hp => ?_, fun slot' hp hc => ?_, fun hp => ?_⟩
  · cases hp
    exact hn.resolve_left fun hn => hn rfl
  · cases hp
    exact h.rnc hc
  · cases hp
    exact h.cwc rfl

/-- The operations of a stream keep it in order. -/
theorem Decodes.streaming {c : Command} {s t : State} (hd : Decodes s t) (ho : Outside s t) (h : s.Streaming c) :
    t.Streaming c where
  store := ho.storeOk h.store
  output := hd.output h.output
  cap := by
    rw [hd.declLen, ho.cfg]
    exact h.cap
  status := hd.status.trans h.status
  err := hd.err.trans h.err
  cmd := ho.cmd.trans h.cmd
  chunk hc := ⟨ho.hvalid.trans (h.chunk hc).1, hd.record (h.chunk hc).2⟩

theorem Decodes.cursorStreaming {c : Command} {s t : State} (hd : Decodes s t) (ho : Outside s t)
    (h : s.CursorStreaming c) : t.CursorStreaming c where
  rnc hc := ⟨hd.profile.isRnc (h.rnc hc).1, hd.cursor (h.rnc hc).2⟩
  cwc hc := ⟨ho.cfg ▸ hd.profile.isCwc (h.cwc hc).1, hd.cursor (h.cwc hc).2⟩

/-! ## A command before its header -/

/-- A command has started and has not read its header (R50, R291). -/
structure State.Fresh (s : State) : Prop where
  status : s.status = .busy
  err : s.err = .noError
  outWf : s.outMem.wf = true
  outExact : ∀ a, (s.outMem.read a).isSome = true ↔ a < s.outLen
  outLen : s.outLen = 0

theorem State.Fresh.begin (c : Command) (s : State) : (s.begin c).Fresh := ⟨rfl, rfl, rfl, Mem.read_nil_exact, rfl⟩

theorem State.Fresh.outputOk {s : State} (h : s.Fresh) : s.OutputOk :=
  ⟨h.outWf, h.outExact, h.outLen ▸ Nat.zero_le _, h.outLen ▸ Nat.zero_le _⟩

/-- A header that has been read leaves the output empty. -/
theorem Declares.outputOk {c : Command} {s t : State} (hd : Declares c s t) (h : s.Fresh) : t.OutputOk := by
  obtain ⟨w, rfl⟩ := hd.only
  exact State.Fresh.outputOk ⟨h.status, h.err, h.outWf, h.outExact, h.outLen⟩

theorem Loads.outputOk {valid : Bool} {s t : State} (hl : Loads valid s t) (h : s.Fresh) : t.OutputOk := by
  obtain ⟨m, p, r, w, rfl⟩ := hl.only
  exact State.Fresh.outputOk ⟨h.status, h.err, h.outWf, h.outExact, h.outLen⟩

/-! ## Whole commands -/

/-- What a command keeps, by the command: the decoders everything outside their stream, `HUF_LOAD` everything
but the dictionary, and that one in order where it is `valid` (R293). -/
inductive Keeps (valid : Bool) : Command → State → State → Prop
  | decoder {c : Command} {s t : State} (hc : c ≠ .hufLoad) (ho : Outside s t) : Keeps valid c s t
  | load {s t : State} (hl : Loads valid s t) (hw : valid = true → t.walkable) : Keeps valid .hufLoad s t

theorem Keeps.storeOk {valid : Bool} {c : Command} {s t : State} (hk : Keeps valid c s t) (h : s.StoreOk) :
    t.StoreOk := by
  cases hk with
  | decoder _ ho => exact ho.storeOk h
  | load hl hw => exact hl.storeOk hw h

/-- How a command ends (R193, R242, R265, R272, R324): in an error, or with the declared length produced. -/
inductive Ended (c : Command) (s : State) : State → Prop
  | failed {t : State} {k : ErrKind} (hk : k.IsError) (h : Keeps false c s t) : Ended c s (t.errorEntry k)
  | done {t : State} (ho : t.OutputOk) (hl : t.outLen = s.declared c) (h : Keeps true c s t) : Ended c s t.complete

/-- The state from which a decoder's command was completed keeps the outside. -/
theorem Frames.ok_complete {x : Eng Unit} (hx : Frames x) {s t : State} {u : Unit} (h : x s = .ok u t.complete) :
    Outside s t := by
  have ho := (hx s).1 u _ h
  exact ⟨ho.cfg, ho.inMem, ho.inLen, ho.cmd, ho.nodeMem, ho.nodePresent, ho.hroot, ho.hvalid, ho.pending⟩

theorem commandBody_ended {c : Command} {s t : State} (hf : s.Fresh) (h : runMeaning (commandBody c) s = .next t) :
    Ended c s t := by
  by_cases hc : c = .hufLoad
  · subst hc
    rcases runMeaning_eq_next.1 h with hr | ⟨k, u, hr, rfl⟩
    · obtain ⟨v, hl, hw, rfl⟩ := hufLoad_eq_ok hr
      refine .done (hl.outputOk hf) ?_ (.load hl fun _ => hw)
      obtain ⟨m, p, r, w, rfl⟩ := hl.only
      exact hf.outLen
    · obtain ⟨hl, rfl⟩ := hufLoad_raises hr
      exact .failed nofun (.load hl nofun)
  · rcases runMeaning_eq_next.1 h with hr | ⟨k, u, hr, rfl⟩
    · obtain ⟨v, hd, w, hw, hfull, rfl⟩ := decoder_eq_ok hc hf.status hr
      have ho := hw.output (hd.outputOk hf)
      refine .done ho ?_ (.decoder hc ((Frames.commandBody hc).ok_complete hr))
      rw [ho.outLen_eq hfull, hw.declLen, hd.declLen]
    · exact .failed (Raises.commandBody hc _ _ _ hr) (.decoder hc ((Frames.commandBody hc s).2 _ _ hr))

/-- A command that has ended leaves the invariant. -/
theorem Ended.inv {c : Command} {s t : State} (h : Ended c s t) (hs : s.StoreOk) : t.Inv := by
  cases h with
  | failed hk hkeep => exact .errorEntry (hkeep.storeOk hs) hk
  | done ho _ hkeep => exact .complete (hkeep.storeOk hs) ho

theorem Ended.phase {c : Command} {s t : State} (h : Ended c s t) : t.phase = .idle := by
  cases h <;> rfl

end Sys2Proof.Machine
end

section
/-! PROOFS. The invariants at reset and under every step, and what the host reads after a command: the statements
O53, O58, O59, O60 and O44. -/

namespace Sys2Proof.Machine

open Sys2Proof

/-! ## The steps of the busy engine -/

/-- The header step of a decoder (R181 to R184, R221, R222, R268, R269): the command is complete, or its reader
stands before the first opcode. -/
theorem headerStep_eq_ok {c : Command} (hc : c ≠ .hufLoad) {s t : State} {u : Unit} (hb : s.status = .busy)
    (h : headerStep (some c) s = .ok u t) : ∃ v, Declares c s v ∧
      (v.Full ∧ t = v.complete ∨
        ∃ slot : Slot, slot.command = c ∧ v.positioned c ∧ t = { v with phase := .stream slot }) := by
  cases c with
  | rncDecode =>
    obtain ⟨_, v, h1, h⟩ := Eng.bind_eq_ok.1 h
    obtain ⟨_, w, h2, h⟩ := Eng.bind_eq_ok.1 h
    cases h
    obtain ⟨hd, hp⟩ := rncHead_eq_ok h1 h2
    exact ⟨w, hd, .inr ⟨.rncPrime, rfl, hp, rfl⟩⟩
  | cwcDecode =>
    obtain ⟨_, v, h1, h⟩ := Eng.bind_eq_ok.1 h
    obtain ⟨_, w, h2, h⟩ := Eng.bind_eq_ok.1 h
    cases h
    obtain ⟨hd, hp⟩ := cwcHead_eq_ok h1 h2
    exact ⟨w, hd, .inr ⟨.cwcOp, rfl, hp, rfl⟩⟩
  | hufLoad => exact absurd rfl hc
  | hufChunk =>
    obtain ⟨_, v, h1, h⟩ := Eng.bind_eq_ok.1 h
    rw [Eng.get_bind] at h
    obtain ⟨w, hd, ⟨hz, rfl⟩ | ⟨hp, rfl⟩⟩ := hufStart_eq_ok h1
    · cases h
      exact ⟨w, hd, .inl ⟨hz.trans_le (Nat.zero_le _), rfl⟩⟩
    · rw [if_pos (hd.only.status.trans hb)] at h
      cases h
      exact ⟨v, hd, .inr ⟨.hufSym, rfl, hp, rfl⟩⟩

theorem Raises.headerStep {c : Command} (hc : c ≠ .hufLoad) : Raises ErrKind.IsError (headerStep (some c)) := by
  cases c with
  | rncDecode =>
    exact .bind (.rncHeader nofun nofun nofun) fun _ => .bind .rncStart fun _ => .modify _
  | cwcDecode => exact .bind (.cwcHeader nofun) fun _ => .bind (.cwcStart nofun) fun _ => .modify _
  | hufLoad => exact absurd rfl hc
  | hufChunk =>
    exact .bind (.hufStart nofun nofun nofun) fun _ => .bind .get fun _ => .ite (.modify _) (.pure _)

theorem Frames.headerStep {c : Command} (hc : c ≠ .hufLoad) : Frames (headerStep (some c)) := by
  cases c with
  | rncDecode => exact Frames.bind Frames.rncHeader fun _ => Frames.bind Frames.rncStart fun _ => Frames.setPhase _
  | cwcDecode => exact Frames.bind Frames.cwcHeader fun _ => Frames.bind Frames.cwcStart fun _ => Frames.setPhase _
  | hufLoad => exact absurd rfl hc
  | hufChunk =>
    exact Frames.bind Frames.hufStart fun _ => Frames.bind Frames.get fun _ =>
      Frames.ite (Frames.setPhase _) (Frames.pure _)

theorem OnlyWork.outside {s t : State} (h : OnlyWork s t) : Outside s t := by
  obtain ⟨w, rfl⟩ := h
  exact ⟨rfl, rfl, rfl, rfl, rfl, rfl, rfl, rfl, rfl⟩

/-- A reader before its first opcode has a cursor in order. -/
theorem State.positioned.cursorStreaming {c : Command} {s : State} (h : s.positioned c) : s.CursorStreaming c := by
  refine ⟨fun hc => ?_, fun hc => ?_⟩ <;> subst hc
  · exact ⟨h.1, h.2.1⟩
  · exact h

/-- A header that has been accepted begins a stream. -/
theorem Declares.streaming {c : Command} {s t : State} (hd : Declares c s t) (hp : t.positioned c) (hf : s.Fresh)
    (hs : s.StoreOk) (hc : s.cmd = some c) : t.Streaming c := by
  have ho := hd.only.outside
  refine ⟨ho.storeOk hs, hd.outputOk hf, hd.cap, hd.only.status.trans hf.status, ?_, ho.cmd.trans hc, fun hch => ?_⟩
  · obtain ⟨w, rfl⟩ := hd.only
    exact hf.err
  · subst hch
    obtain ⟨hv, hn⟩ := hp
    have hw := (ho.storeOk hs).dictionary hv
    exact ⟨hv, hw, hn ▸ hw.1⟩

/-- What one step of the busy engine comes to: an error or a completion with the stores in order, or a place of a
stream, with the cursor in order if it was. -/
inductive Moved (s : State) : State → Prop
  | failed {t : State} {k : ErrKind} (hk : k.IsError) (hs : t.StoreOk) : Moved s (t.errorEntry k)
  | done {t : State} (hs : t.StoreOk) (ho : t.OutputOk) : Moved s t.complete
  | streams {t : State} {slot : Slot} (hs : t.Streaming slot.command)
      (hc : s.CursorInv → t.CursorStreaming slot.command) (hn : slot ≠ .rncPrime ∨ t.positioned .rncDecode) :
      Moved s { t with phase := .stream slot }

theorem Moved.inv {s t : State} (h : Moved s t) : t.Inv := by
  cases h with
  | failed hk hs => exact .errorEntry hs hk
  | done hs ho => exact .complete hs ho
  | streams hs _ _ => exact hs.inv

theorem Moved.cursorInv {s t : State} (h : Moved s t) (hc : s.CursorInv) : t.CursorInv := by
  cases h with
  | failed hk hs => exact .of_idle rfl
  | done hs ho => exact .of_idle rfl
  | streams _ hcs hn => exact (hcs hc).cursorInv hn

theorem Ended.moved {c : Command} {s t : State} (h : Ended c s t) (hs : s.StoreOk) : Moved s t := by
  cases h with
  | failed hk hkeep => exact .failed hk (hkeep.storeOk hs)
  | done ho _ hkeep => exact .done (hkeep.storeOk hs) ho

/-- The header step. -/
theorem headerStep_moved {s t : State} (hi : s.Inv) (hp : s.phase = .header)
    (h : runMeaning (headerStep s.cmd) s = .next t) : Moved s t := by
  obtain ⟨c, hcmd⟩ := Option.ne_none_iff_exists'.1 (hi.phaseCmd.1 hp)
  have hb : s.status = .busy := by
    by_contra hb
    cases hp.symm.trans (hi.phaseBusy.2 hb)
  have hf : s.Fresh :=
    ⟨hb, hi.errStatus.2 fun he => (nomatch hb.symm.trans he), hi.outWf, hi.outExact, hi.headerFresh hp⟩
  rw [hcmd] at h
  by_cases hc : c = .hufLoad
  · subst hc
    exact (commandBody_ended (c := .hufLoad) hf h).moved hi.storeOk
  · rcases runMeaning_eq_next.1 h with hr | ⟨k, u, hr, rfl⟩
    · obtain ⟨v, hd, ⟨hfull, rfl⟩ | ⟨slot, rfl, hpos, rfl⟩⟩ := headerStep_eq_ok hc hb hr
      · exact .done (hd.only.outside.storeOk hi.storeOk) (hd.outputOk hf)
      · refine .streams (hd.streaming hpos hf hi.storeOk hcmd) (fun _ => hpos.cursorStreaming) ?_
        by_cases hn : slot = .rncPrime
        · subst hn
          exact .inr hpos
        · exact .inl hn
    · exact .failed (Raises.headerStep hc _ _ _ hr) (((Frames.headerStep hc s).2 _ _ hr).storeOk hi.storeOk)

/-- An opcode step. -/
theorem streamStep_moved {slot : Slot} {s t : State} (hi : s.Inv) (hp : s.phase = .stream slot)
    (h : runMeaning (streamStep slot) s = .next t) : Moved s t := by
  have hs := hi.streaming hp
  rcases runMeaning_eq_next.1 h with hr | ⟨k, u, hr, rfl⟩
  · cases streamStep_eq_ok hp hr with
    | ended hfin =>
      obtain ⟨u, hu, -, rfl⟩ := hfin
      exact .done (((Frames.streamStep slot).ok_complete hr).storeOk hi.storeOk) (hu.output hs.output)
    | @goesOn u slot' hd hc hn =>
      have ho := (Frames.streamStep slot s).1 _ _ hr
      have ho : Outside s u :=
        ⟨ho.cfg, ho.inMem, ho.inLen, ho.cmd, ho.nodeMem, ho.nodePresent, ho.hroot, ho.hvalid, ho.pending⟩
      exact .streams (hc ▸ hd.streaming ho hs) (fun hcur => hc ▸ hd.cursorStreaming ho (hcur.streaming hp)) (.inl hn)
  · exact .failed (Raises.streamStep slot _ _ _ hr) (((Frames.streamStep slot s).2 _ _ hr).storeOk hi.storeOk)

/-- A step of the busy engine. -/
theorem engineStep_moved {s t : State} (hi : s.Inv) (h : engineStep s = .next t) : Moved s t := by
  unfold engineStep at h
  cases hp : s.phase with
  | idle =>
    rw [hp] at h
    cases h
  | header =>
    rw [hp] at h
    exact headerStep_moved hi hp h
  | stream slot =>
    rw [hp] at h
    exact streamStep_moved hi hp ((opcodeStep_eq_streamStep (hi.streaming hp).status).symm.trans h)

/-! ## Host actions and steps -/

/-- The host's later actions are no part of the invariants. -/
theorem State.Inv.withPending {s : State} (h : s.Inv) (rest : List HostAction) : State.Inv { s with pending := rest } :=
  ⟨h.inWf, h.outWf, h.nodeWf, h.inCap, h.outExact, h.outCap, h.errStatus, h.outStatus, h.phaseBusy, h.phaseCmd,
    h.headerFresh, h.declared, h.dictionary, h.chunk⟩

/-- A command that has started opcode by opcode (R291, R295). -/
theorem State.Inv.startCommand {s : State} (h : s.Inv) (c : Command) : (startCommand c s).Inv := by
  unfold Machine.startCommand
  split
  · exact h
  · exact ⟨h.inWf, rfl, h.nodeWf, h.inCap, Mem.read_nil_exact, Nat.zero_le _, ⟨nofun, fun _ => rfl⟩, fun _ => rfl,
      ⟨nofun, fun hb => absurd rfl hb⟩, ⟨nofun, nofun⟩, fun _ => rfl, nofun, h.dictionary, nofun⟩

theorem State.CursorInv.startCommand {s : State} (h : s.CursorInv) (c : Command) : (startCommand c s).CursorInv := by
  unfold Machine.startCommand
  split
  · exact h
  · exact ⟨nofun, nofun, nofun⟩

/-- A command that is written to `CMD` and runs whole (R291, R297). -/
theorem exec_toInstr_ended {c : Command} {s t : State} (h : exec c.toInstr s = .next t) :
    t = s ∨ Ended c (s.begin c) t := by
  by_cases hb : s.status = .busy
  · rw [exec_toInstr_of_busy hb] at h
    cases h
    exact .inl rfl
  · rw [exec_toInstr_of_not_busy hb] at h
    exact .inr (commandBody_ended (.begin c s) h)

/-- The host loads `IN` while no command runs (R290). -/
theorem State.Inv.loadInput {s : State} (h : s.Inv) {m : Mem} {n : Nat} (hm : m.wf = true) (hn : n ≤ s.cfg.inCap) :
    State.Inv { s with inMem := m, inLen := n } :=
  ⟨hm, h.outWf, h.nodeWf, hn, h.outExact, h.outCap, h.errStatus, h.outStatus, h.phaseBusy, h.phaseCmd,
    h.headerFresh, h.declared, h.dictionary, h.chunk⟩

/-- A host action keeps the invariants (R290, R296 to R298, R350). -/
theorem hostAct_keeps_invariants {a : HostAction} {s t : State} (hi : s.Inv) (h : hostAct a s = .next t) :
    t.Inv ∧ (s.CursorInv → t.CursorInv) := by
  cases a with
  | writeIn addr b =>
    simp only [hostAct] at h
    split at h
    · cases h
    · split at h <;> cases h
      exact ⟨hi.loadInput (Mem.write_wf _ _ hi.inWf) hi.inCap, fun _ => .of_idle (hi.phaseBusy.2 ‹_›)⟩
  | writeInLen n =>
    simp only [hostAct] at h
    split at h
    · cases h
    · split at h <;> cases h
      exact ⟨hi.loadInput hi.inWf ‹_›, fun _ => .of_idle (hi.phaseBusy.2 ‹_›)⟩
  | writeCmd n =>
    simp only [hostAct] at h
    split at h
    · rcases exec_toInstr_ended h with rfl | he
      · exact ⟨hi, id⟩
      · exact ⟨he.inv ⟨hi.inWf, hi.nodeWf, hi.inCap, hi.dictionary⟩, fun _ => .of_idle he.phase⟩
    · cases h
      exact ⟨hi, id⟩
  | startCmd n =>
    simp only [hostAct] at h
    split at h <;> cases h
    · exact ⟨hi.startCommand _, fun hc => hc.startCommand _⟩
    · exact ⟨hi, id⟩
  | poll =>
    cases h
    exact ⟨hi, id⟩
  | reset =>
    cases h
    exact ⟨.afterReset s, fun _ => .of_idle rfl⟩

/-- A step is a host action, a step of the busy engine, or nothing (R351). -/
theorem step_eq_next {s t : State} (h : step s = .next t) :
    t = s ∨ engineStep s = .next t ∨ ∃ a rest, hostAct a { s with pending := rest } = .next t := by
  unfold step machineStep at h
  split at h
  · split at h
    · exact .inr (.inl h)
    · cases h
      exact .inl rfl
  · split at h
    · exact .inr (.inl h)
    · exact .inr (.inr ⟨_, _, h⟩)

/-- Every step keeps both invariants. -/
theorem step_keeps_invariants {s t : State} (hi : s.Inv) (h : step s = .next t) :
    t.Inv ∧ (s.CursorInv → t.CursorInv) := by
  rcases step_eq_next h with rfl | h | ⟨a, rest, h⟩
  · exact ⟨hi, id⟩
  · have hm := engineStep_moved hi h
    exact ⟨hm.inv, hm.cursorInv⟩
  · exact hostAct_keeps_invariants (s := { s with pending := rest }) (hi.withPending rest) h

/-- Settles O59: a host action leaves an idle engine in order, and a step of the busy engine moves it. -/
theorem stepKeepsInvariant : Obligations.StepKeepsInvariant :=
  fun _ _ hi h => (step_keeps_invariants hi h).1

/-- Settles O60, by the same cases. -/
theorem stepKeepsCursorInvariant : Obligations.StepKeepsCursorInvariant :=
  fun _ _ hi hc h => (step_keeps_invariants hi h).2 hc

/-- Settles O58: the reset state is one after the reset event. -/
theorem invariantAtReset : Obligations.InvariantAtReset :=
  ⟨.afterReset State.reset, .of_idle rfl⟩

/-- Settles O53. -/
theorem resetValues : Obligations.ResetValues :=
  ⟨rfl, rfl, rfl, rfl, rfl, rfl, rfl, rfl, rfl, rfl, rfl⟩

/-! ## What the host reads after a command -/

/-- An error kind reads as a number from 1 to 9 (R321). -/
theorem ErrKind.code_of_isError {k : ErrKind} (h : k.IsError) : k.code ≠ 0 ∧ k.code.toNat ≤ 9 := by
  cases k
  case noError => exact absurd rfl h
  all_goals exact ⟨by decide, by decide⟩

/-- While a command runs, before its first step (R27, R290). -/
theorem hostReads_startCommand {s : State} (c : Command) (h : s.status ≠ .busy) :
    hostReadStatus (startCommand c s) = 1 ∧ hostReadErr (startCommand c s) = 0 ∧
      hostReadOutLen (startCommand c s) = 0 := by
  rw [startCommand, if_neg h]
  exact ⟨rfl, rfl, rfl⟩

/-- `STATUS` and `ERR` after a command (R290, R292). -/
theorem Ended.hostReads {c : Command} {s t : State} (h : Ended c s t) :
    t.status = .done ∧ t.err = .noError ∧ hostReadStatus t = 2 ∧ hostReadErr t = 0 ∨
      t.status = .error ∧ t.err ≠ .noError ∧ hostReadStatus t = 3 ∧ hostReadErr t ≠ 0 ∧
        (hostReadErr t).toNat ≤ 9 := by
  cases h with
  | failed hk _ => exact .inr ⟨rfl, hk, rfl, ErrKind.code_of_isError hk⟩
  | done _ _ _ => exact .inl ⟨rfl, rfl, rfl, rfl⟩

theorem Ended.outLen_of_error {c : Command} {s t : State} (h : Ended c s t) (he : t.status = .error) : t.outLen = 0 := by
  cases h with
  | failed _ _ => rfl
  | done _ _ _ => cases he

/-- On `DONE` the host reads the bytes that have been written, all of them (R290, R292). -/
theorem Ended.output_of_done {c : Command} {s t : State} (h : Ended c s t) (hd : t.status = .done) :
    t.outFilled ∧ ∀ k < t.outLen, t.outMem.read k = some (hostReadOut t k) := by
  cases h with
  | failed _ _ => cases hd
  | @done u ho _ _ =>
    refine ⟨fun a => (ho.exact a).2, fun k hk => ?_⟩
    obtain ⟨b, hb⟩ := Option.isSome_iff_exists.1 ((ho.exact k).2 hk)
    simp only [hostReadOut, State.complete_status, State.complete_outMem, hk, and_self, if_true, hb]

/-- On `DONE` the declared length has been produced (R193, R242, R272). -/
theorem Ended.outLen_of_done {c : Command} {s t : State} (h : Ended c s t) (hd : t.status = .done) :
    t.outLen = s.declared c := by
  cases h with
  | failed _ _ => cases hd
  | done _ hl _ => exact hl

theorem State.declared_begin (s : State) (c d : Command) : (s.begin c).declared d = s.declared d := by cases d <;> rfl

/-- After `HUF_LOAD` there is a dictionary exactly on `DONE` (R265), and no output. -/
theorem Ended.hufLoad {s t : State} (h : Ended .hufLoad s t) :
    t.outLen = 0 ∧ (hostReadHvalid t = true ↔ t.status = .done) ∧ (t.status = .done → hostReadHroot t = t.hroot) := by
  cases h with
  | failed _ hkeep =>
    cases hkeep with
    | decoder hc _ => exact absurd rfl hc
    | load hl _ =>
      obtain ⟨m, p, r, w, rfl⟩ := hl.only
      exact ⟨rfl, ⟨nofun, nofun⟩, nofun⟩
  | done _ hlen hkeep =>
    cases hkeep with
    | decoder hc _ => exact absurd rfl hc
    | load hl _ =>
      obtain ⟨m, p, r, w, rfl⟩ := hl.only
      exact ⟨hlen, ⟨fun _ => rfl, fun _ => rfl⟩, fun _ => rfl⟩

/-- After any other command the host reads the dictionary's registers as before (R293). -/
theorem Ended.dictionary {c : Command} {s t : State} (h : Ended c s t) (hc : c ≠ .hufLoad) :
    hostReadHvalid t = hostReadHvalid s ∧ hostReadHroot t = hostReadHroot s := by
  have keeps {valid : Bool} {u : State} (hk : Keeps valid c s u) : u.hvalid = s.hvalid ∧ u.hroot = s.hroot := by
    cases hk with
    | decoder _ ho => exact ⟨ho.hvalid, ho.hroot⟩
    | load _ _ => exact absurd rfl hc
  have reads : t.hvalid = s.hvalid ∧ t.hroot = s.hroot := by
    cases h with
    | @failed u _ _ hk => exact keeps (u := u) hk
    | @done u _ _ hk => exact keeps (u := u) hk
  obtain ⟨hv, hr⟩ := reads
  simp only [hostReadHvalid, hostReadHroot, hv, hr, and_self]

/-- Settles O44: a command that starts on an engine that is not busy ends in an error, or with the output that its
header declares. -/
theorem commandResults : Obligations.CommandResults := by
  intro s t c hb h
  rw [exec_toInstr_of_not_busy hb] at h
  have he : Ended c (s.begin c) t := commandBody_ended (.begin c s) h
  have hlen : t.status = .done → t.outLen = s.declared c := fun hd =>
    (he.outLen_of_done hd).trans (s.declared_begin c c)
  refine ⟨hostReads_startCommand c hb, he.hostReads, rfl, he.outLen_of_error, he.output_of_done, ?rnc, ?cwc, ?chunk,
    ?load, he.dictionary⟩
  case rnc =>
    rintro rfl
    exact hlen
  case cwc =>
    rintro rfl
    exact hlen
  case chunk =>
    rintro rfl
    exact hlen
  case load =>
    rintro rfl
    exact he.hufLoad

end Sys2Proof.Machine
end

section
/-! SUPPORT. Bytes appended to `OUT` (R71, R391): several pushes as one store, what they leave unchanged, and what a
copy appends. A copy's source byte is read in the output of that moment (R72), which is the output at the
end wherever the byte stands, since a push writes only beyond it; so the bytes copied satisfy an equation
about the output at the end alone, and for a distance inside the output they are periodic (R75). -/

namespace Sys2Proof.Machine

open Sys2Proof

/-! ## Appending several bytes -/

/-- The state after the bytes of a list have been appended to `OUT`. -/
def State.pushAll (s : State) (bs : List Byte) : State :=
  { s with outMem := s.outMem.writeList s.outLen bs, outLen := s.outLen + bs.length }

theorem State.push_pushAll (s : State) (b : Byte) (bs : List Byte) : (s.push b).pushAll bs = s.pushAll (b :: bs) := by
  have hlen : s.outLen + 1 + bs.length = s.outLen + (b :: bs).length := by
    rw [List.length_cons]
    omega
  simp only [State.pushAll, State.push, hlen, Mem.writeList]

theorem State.push_eq_pushAll (s : State) (b : Byte) : s.push b = s.pushAll [b] := rfl

theorem State.pushAll_sameButOutWork (s : State) (bs : List Byte) : s.sameButOutWork (s.pushAll bs) := rfl

@[simp] theorem State.pushAll_work (s : State) (bs : List Byte) : (s.pushAll bs).work = s.work := rfl

/-- Bytes below the write position stay (R71). -/
theorem State.read_pushAll_below (s : State) (bs : List Byte) {a : Nat} (h : a < s.outLen) :
    (s.pushAll bs).outMem.read a = s.outMem.read a :=
  Mem.read_writeList_other _ _ _ (.inl h)

theorem State.pushAll_appended (s : State) (bs : List Byte) :
    s.appended (s.pushAll bs) bs.length fun k => bs[k]? :=
  ⟨rfl, fun _ hk => Mem.read_writeList_same _ _ _ hk, fun _ ha => Mem.read_writeList_other _ _ _ ha⟩

/-- What is appended may be described in any way that agrees on the bytes appended. -/
theorem State.appended.congr {s t : State} {n : Nat} {f g : Nat → Option Byte} (h : s.appended t n f)
    (hfg : ∀ k < n, f k = g k) : s.appended t n g := by
  obtain ⟨hlen, hnew, hold⟩ := h
  exact ⟨hlen, fun k hk => (hnew k hk).trans (hfg k hk), hold⟩

/-- The error entry forgets what has been appended (R324). -/
@[simp] theorem State.errorEntry_pushAll (s : State) (bs : List Byte) (k : ErrKind) :
    (s.pushAll bs).errorEntry k = s.errorEntry k := rfl

/-- Appending to a filled output leaves it filled. -/
theorem State.outFilled.push {s : State} (h : s.outFilled) (b : Byte) : (s.push b).outFilled := by
  intro a ha
  rw [State.push_outLen] at ha
  rw [State.push_outMem, Mem.read_write]
  split
  · rfl
  · exact h a (by omega)

/-! ## The distance check -/

theorem State.maxDistance_of_cwc {s : State} (h : s.cmd = some .cwcDecode) :
    s.maxDistance = s.outLen + s.cfg.zeroWindow := by
  simp [State.maxDistance, State.zeroHistory, h]

theorem State.maxDistance_of_not_cwc {s : State} (h : s.cmd ≠ some .cwcDecode) : s.maxDistance = s.outLen := by
  simp [State.maxDistance, State.zeroHistory, h]

/-- A distance inside the output is legal under every command. -/
theorem State.outLen_le_maxDistance (s : State) : s.outLen ≤ s.maxDistance := by
  unfold State.maxDistance
  split
  · exact Nat.le_add_right _ _
  · exact Nat.le_refl _

/-- A legal copy is its loop. -/
theorem lzCopy_of_legal {dist len : Nat} {s : State} (h1 : 1 ≤ dist) (hd : dist ≤ s.maxDistance) :
    lzCopy dist len s = repeatEng len (lzStep dist) s := by
  rw [lzCopy, ensure_bind_pos h1, Eng.get_bind, require_bind_pos hd]

/-- A copy that reaches too far raises before it appends anything (R72). -/
theorem lzCopy_of_overrun {dist len : Nat} {s : State} (h1 : 1 ≤ dist) (hd : s.maxDistance < dist) :
    lzCopy dist len s = .error (.raise .outputOverrun) s := by
  rw [lzCopy, ensure_bind_pos h1, Eng.get_bind, require_bind_neg (Nat.not_le.2 hd)]

/-! ## The loop of a copy -/

/-- The byte at a distance behind the write position, 0 in front of the output, for the write position `pos` (R72). -/
def Mem.behind (m : Mem) (dist pos : Nat) : Option Byte :=
  if pos < dist then some 0#8 else m.read (pos - dist)

/-- Bytes appended later do not change a copy's source. -/
theorem State.behind_pushAll (s : State) (bs : List Byte) {dist : Nat} (h1 : 1 ≤ dist) :
    (s.pushAll bs).outMem.behind dist s.outLen = s.outMem.behind dist s.outLen := by
  unfold Mem.behind
  split
  · rfl
  · exact s.read_pushAll_below bs (by omega)

/-- In a filled output a copy has its source byte. -/
theorem lzSource_of_filled {dist : Nat} {s : State} (h1 : 1 ≤ dist) (hf : s.outFilled) :
    ∃ b, lzSource dist s = .ok b s ∧ s.outMem.behind dist s.outLen = some b := by
  by_cases hb : s.outLen < dist
  · exact ⟨0#8, lzSource_before hb, if_pos hb⟩
  · obtain ⟨b, hr⟩ := Option.isSome_iff_exists.1 (hf (s.outLen - dist) (by omega))
    exact ⟨b, lzSource_inside h1 (Nat.not_lt.1 hb) hr, (if_neg hb).trans hr⟩

/-- With room for all bytes the loop appends them, each the byte behind its own write position. -/
theorem repeatEng_lzStep_ok {dist : Nat} (h1 : 1 ≤ dist) : ∀ {len : Nat} {s : State}, s.outFilled → s.roomFor len →
    ∃ bs : List Byte, bs.length = len ∧ repeatEng len (lzStep dist) s = .ok () (s.pushAll bs) ∧
      ∀ k < len, bs[k]? = (s.pushAll bs).outMem.behind dist (s.outLen + k)
  | 0, s, _, _ => ⟨[], rfl, rfl, fun _ hk => absurd hk (Nat.not_lt_zero _)⟩
  | len + 1, s, hf, ⟨hdecl, hcap⟩ => by
    obtain ⟨b, hsrc, hb⟩ := lzSource_of_filled h1 hf
    have hroom : (s.push b).roomFor len := by
      constructor
      · rw [State.push_outLen, State.push_work]
        omega
      · rw [State.push_outLen, State.push_cfg]
        omega
    obtain ⟨bs, rfl, hrun, hbs⟩ := repeatEng_lzStep_ok h1 (hf.push b) hroom
    rw [State.push_pushAll] at hrun hbs
    refine ⟨b :: bs, rfl, ?_, fun k hk => ?_⟩
    · rw [repeatEng_succ, Eng.bind_ok (lzStep_ok hsrc (by omega) (by omega)), hrun]
    · cases k with
      | zero => exact hb.symm.trans (s.behind_pushAll _ h1).symm
      | succ k =>
        rw [List.getElem?_cons_succ, hbs k (by omega), State.push_outLen, Nat.add_assoc, Nat.add_comm 1 k]

/-- Without room for all bytes the loop appends those that fit, then raises (R71). -/
theorem repeatEng_lzStep_full {dist : Nat} (h1 : 1 ≤ dist) : ∀ {len : Nat} {s : State}, s.outFilled →
    s.outLen ≤ s.work.declLen.toNat → s.work.declLen.toNat ≤ s.cfg.outCap →
    s.work.declLen.toNat < s.outLen + len →
    ∃ bs, repeatEng len (lzStep dist) s = .error (.raise .fileSizeMismatch) (s.pushAll bs)
  | 0, s, _, hle, _, hfull => absurd hfull (Nat.not_lt.2 hle)
  | len + 1, s, hf, hle, hcap, hfull => by
    obtain ⟨b, hsrc, -⟩ := lzSource_of_filled h1 hf
    rw [repeatEng_succ]
    by_cases hroom : s.outLen < s.work.declLen.toNat
    · have hfull' : (s.push b).work.declLen.toNat < (s.push b).outLen + len := by
        rw [State.push_work, State.push_outLen]
        omega
      obtain ⟨bs, hrun⟩ := repeatEng_lzStep_full h1 (hf.push b) hroom hcap hfull'
      rw [State.push_pushAll] at hrun
      exact ⟨b :: bs, by rw [Eng.bind_ok (lzStep_ok hsrc hroom (by omega)), hrun]⟩
    · have hstep : lzStep dist s = .error (.raise .fileSizeMismatch) s := by
        rw [lzStep, Eng.bind_ok hsrc, emit_full (Nat.not_lt.1 hroom)]
      exact ⟨[], Eng.bind_error hstep⟩

/-- A legal copy with room appends each byte from behind its own write position, in the output at the end. -/
theorem exec_lzCopy_ok {dist len : Nat} {s : State} (h1 : 1 ≤ dist) (hd : dist ≤ s.maxDistance) (hf : s.outFilled)
    (hr : s.roomFor len) : ∃ t, exec (.lzCopy dist len) s = .next t ∧ s.sameButOutWork t ∧ t.work = s.work ∧
      s.appended t len fun k => t.outMem.behind dist (s.outLen + k) := by
  obtain ⟨bs, rfl, hrun, hbs⟩ := repeatEng_lzStep_ok h1 hf hr
  exact ⟨s.pushAll bs, runMeaning_ok ((lzCopy_of_legal h1 hd).trans hrun), s.pushAll_sameButOutWork bs, s.pushAll_work bs,
    (s.pushAll_appended bs).congr hbs⟩

/-! ## Overlapping copies -/

/-- Bytes appended each from a distance behind itself repeat the last bytes before them: one that lies a whole
distance into the copy is the one a distance before it (R75). -/
theorem State.appended.periodic {s t : State} {dist len : Nat} (h1 : 1 ≤ dist) (hd : dist ≤ s.outLen)
    (h : s.appended t len fun k => t.outMem.behind dist (s.outLen + k)) :
    s.appended t len fun k => s.outMem.read (s.outLen - dist + k % dist) := by
  obtain ⟨hlen, hnew, hold⟩ := h
  refine ⟨hlen, fun k => ?_, hold⟩
  induction k using Nat.strong_induction_on with
  | h k ih =>
    intro hk
    dsimp only at ih ⊢
    have hsrc : t.outMem.read (s.outLen + k) = t.outMem.read (s.outLen + k - dist) :=
      (hnew k hk).trans (if_neg (by omega))
    rw [hsrc]
    by_cases hkd : k < dist
    · rw [hold _ (.inl (by omega)), Nat.mod_eq_of_lt hkd, Nat.sub_add_comm hd]
    · rw [Nat.add_sub_assoc (Nat.not_lt.1 hkd), ih (k - dist) (by omega) (by omega), Nat.mod_eq_sub_mod (Nat.not_lt.1 hkd)]

end Sys2Proof.Machine
end

section
/-! SUPPORT. The frame of an engine step (R60, R293). An opcode step leaves the outside alone whatever `STATUS` is, and
so does every header step but that of `HUF_LOAD`, which writes the dictionary. -/

namespace Sys2Proof.Machine

open Sys2Proof

/-- An opcode whose meaning and successor leave the outside alone. -/
theorem afterOpcode_outside {i : Instr} {x : Eng Unit} (hx : Frames x) (ha : Frames (advance i)) {s t : State}
    (h : afterOpcode i (runMeaning x s) = .next t) : Outside s t := by
  rw [afterOpcode_runMeaning] at h
  exact (Frames.bind hx fun _ => Frames.bind Frames.get fun _ => Frames.ite ha (Frames.pure _)).runMeaning h

/-- A CWC opcode step: selection, meaning and length test. -/
theorem opcodeStep_cwcOp_outside {s t : State} (h : opcodeStep .cwcOp s = .next t) : Outside s t := by
  have hfetch : fetch .cwcOp s = _ := Eng.map_apply CwcOp.toInstr cwcFetch s
  rw [opcodeStep, hfetch] at h
  cases hc : cwcFetch s with
  | ok op v =>
    rw [hc] at h
    dsimp only at h
    rw [exec_cwcOp] at h
    have ha : Frames (advance op.toInstr) := by
      rw [advance_cwcOp]
      exact Frames.cwcTest
    exact ((Frames.cwcFetch s).1 op v hc).trans (afterOpcode_outside (Frames.cwcOpMeaning op) ha h)
  | error e v =>
    rw [hc] at h
    cases e with
    | raise k =>
      cases h
      exact ((Frames.cwcFetch s).2 _ v hc).trans ⟨rfl, rfl, rfl, rfl, rfl, rfl, rfl, rfl, rfl⟩
    | fault f => cases h

/-- An opcode step leaves the outside alone. -/
theorem opcodeStep_outside {slot : Slot} {s t : State} (h : opcodeStep slot s = .next t) : Outside s t := by
  cases slot with
  | rncPrime => exact afterOpcode_outside (i := .rncPrime) Frames.rncPrime Frames.rncChunkTest h
  | rncTab tab =>
    have ha : Frames (advance (.rncHuftab tab)) := by cases tab <;> exact Frames.setPhase _
    exact afterOpcode_outside (Frames.huftab tab) ha h
  | rncCnt => exact afterOpcode_outside (i := .rncChcnt) Frames.rncChcnt (Frames.setPhase _) h
  | rncRaw =>
    exact afterOpcode_outside (i := .rncRaw) Frames.rncRaw
      (Frames.bind Frames.get fun _ => Frames.ite Frames.rncChunkTest (Frames.setPhase _)) h
  | rncMatch => exact afterOpcode_outside (i := .rncMatch) Frames.rncMatch (Frames.setPhase _) h
  | cwcOp => exact opcodeStep_cwcOp_outside h
  | hufSym => exact afterOpcode_outside (i := .hufSym) Frames.hufSym Frames.hufTest h

/-- A header step of another command than `HUF_LOAD`, or of none, leaves the outside alone. -/
theorem headerStep_outside {s t : State} (hc : s.cmd ≠ some .hufLoad)
    (h : runMeaning (headerStep s.cmd) s = .next t) : Outside s t := by
  cases hcmd : s.cmd with
  | none =>
    rw [hcmd] at h
    exact (Frames.stuck _).runMeaning h
  | some c =>
    rw [hcmd] at h hc
    exact (Frames.headerStep fun e => hc (congrArg some e)).runMeaning h

/-- The parts of the state that no step of the engine writes: the parameters, `IN`, `IN_LEN` and the host's pending
actions. -/
structure InputKept (s t : State) : Prop where
  inMem : t.inMem = s.inMem
  inLen : t.inLen = s.inLen
  cfg : t.cfg = s.cfg
  pending : t.pending = s.pending

theorem Outside.inputKept {s t : State} (h : Outside s t) : InputKept s t := ⟨h.inMem, h.inLen, h.cfg, h.pending⟩

/-- `HUF_LOAD`, however it ends, writes the dictionary and not the input. -/
theorem hufLoad_inputKept {s t : State} (h : runMeaning hufLoad s = .next t) : InputKept s t := by
  rcases runMeaning_eq_next.1 h with hr | ⟨k, u, hr, rfl⟩
  · obtain ⟨v, ⟨⟨m, p, r, w, rfl⟩, -⟩, -, rfl⟩ := hufLoad_eq_ok hr
    exact ⟨rfl, rfl, rfl, rfl⟩
  · obtain ⟨⟨⟨m, p, r, w, rfl⟩, -⟩, -⟩ := hufLoad_raises hr
    exact ⟨rfl, rfl, rfl, rfl⟩

/-- A step of the engine that is not the step of `HUF_LOAD` leaves the outside alone. -/
theorem engineStep_outside {s t : State} (hl : s.phase ≠ .header ∨ s.cmd ≠ some .hufLoad)
    (h : engineStep s = .next t) : Outside s t := by
  unfold engineStep at h
  cases hp : s.phase with
  | idle =>
    rw [hp] at h
    cases h
  | header =>
    rw [hp] at h
    exact headerStep_outside (hl.resolve_left (absurd hp)) h
  | stream slot =>
    rw [hp] at h
    exact opcodeStep_outside h

/-- Every step of the engine keeps the input. -/
theorem engineStep_inputKept {s t : State} (h : engineStep s = .next t) : InputKept s t := by
  by_cases hl : s.phase = .header ∧ s.cmd = some .hufLoad
  · obtain ⟨hp, hc⟩ := hl
    rw [engineStep, hp] at h
    dsimp only at h
    rw [hc] at h
    exact hufLoad_inputKept h
  · exact (engineStep_outside (not_and_or.1 hl) h).inputKept

end Sys2Proof.Machine
end

section
/-! PROOFS. The output primitives and the frame of the engine: the statements O14, O15, O16 and O57. -/

namespace Sys2Proof.Machine

open Sys2Proof

/-- Settles O16: the bytes of a copy satisfy the equation of R72 in the output at the end, and so repeat. -/
theorem lzCopyRepeatsPeriodically : Obligations.LzCopyRepeatsPeriodically := by
  intro s dist len h1 hd hf hr
  obtain ⟨t, hrun, hsame, hwork, happ⟩ := exec_lzCopy_ok h1 (hd.trans s.outLen_le_maxDistance) hf hr
  exact ⟨t, hrun, hsame, hwork, happ.periodic h1 hd⟩

/-- Settles O15, by the distance check and then the room for all bytes. -/
theorem lzCopyByteByByte : Obligations.LzCopyByteByByte := by
  intro s dist len h1
  refine ⟨fun hover => ?overrun, fun hlegal hf hle hcap => ?legal⟩
  case overrun =>
    have hd : s.maxDistance < dist := by
      rcases hover with ⟨hc, h⟩ | ⟨hc, h⟩
      · rwa [State.maxDistance_of_cwc hc]
      · rwa [State.maxDistance_of_not_cwc hc]
    exact runMeaning_raise (lzCopy_of_overrun h1 hd)
  case legal =>
    have hd : dist ≤ s.maxDistance := by
      rcases hlegal with ⟨hc, h⟩ | ⟨hc, h⟩
      · rwa [State.maxDistance_of_cwc hc]
      · rwa [State.maxDistance_of_not_cwc hc]
    refine ⟨fun hroom => exec_lzCopy_ok h1 hd hf ⟨hroom, hroom.trans hcap⟩, fun hfull => ?_⟩
    obtain ⟨bs, hrun⟩ := repeatEng_lzStep_full h1 hf hle hcap hfull
    rw [← s.errorEntry_pushAll bs]
    exact runMeaning_raise ((lzCopy_of_legal h1 hd).trans hrun)

/-- Settles O57: a step of the engine is the step of `HUF_LOAD`, or leaves the outside alone. -/
theorem engineStepsPreserve : Obligations.EngineStepsPreserve := by
  intro s t h
  obtain ⟨hin, hlen, hcfg, hpend⟩ := engineStep_inputKept h
  refine ⟨hin, hlen, hcfg, hpend, fun hl => ?_⟩
  have ho := engineStep_outside hl h
  exact ⟨ho.nodeMem, ho.nodePresent, ho.hroot, ho.hvalid⟩

/-- Settles O14, by the two laws of `emit`. -/
theorem emitAppendsOrFails : Obligations.EmitAppendsOrFails := by
  intro s b
  refine ⟨fun ⟨hdecl, hcap⟩ => ?room, fun hfull => runMeaning_raise (emit_full hfull)⟩
  case room =>
    refine ⟨s.push b, runMeaning_ok (emit_eq_ok.2 ⟨hdecl, hcap, rfl⟩), rfl, rfl, ?_⟩
    rw [State.push_eq_pushAll]
    refine (s.pushAll_appended [b]).congr fun k hk => ?_
    rw [List.length_singleton, Nat.lt_one_iff] at hk
    rw [hk]
    rfl

end Sys2Proof.Machine
end

section
/-! SUPPORT. Reading from a parcel: one law for each reader, saying exactly which parcels it answers on. A reader's
success is an equation about the parcel itself, "what was read, then the rest", so that a law serves both
for taking a decoded parcel apart and for decoding one that has been put together. -/

namespace Sys2Proof

open Sys2Proof.Machine (leNat leNat_cons)

@[simp] theorem Parcel.empty_append (p : Parcel) : Parcel.append ⟨[], []⟩ p = p := rfl

/-! ## The parser monad -/

section Monad

variable {α β : Type}

theorem Parse.pure_eq_ok {a b : α} {p q : Parcel} : (pure a : Parse α) p = .ok (b, q) ↔ b = a ∧ p = q := by
  change Except.ok (a, p) = Except.ok (b, q) ↔ _
  simp [eq_comm]

theorem Parse.throw_ne_ok {e : Reject} {p : Parcel} {r : α × Parcel} : (throw e : Parse α) p ≠ .ok r := by
  rintro ⟨⟩

theorem Parse.bind_eq_ok {x : Parse α} {f : α → Parse β} {p : Parcel} {r : β × Parcel} :
    (x >>= f) p = .ok r ↔ ∃ a q, x p = .ok (a, q) ∧ f a q = .ok r := by
  change (x p >>= fun v => f v.1 v.2) = .ok r ↔ _
  cases x p with
  | error e => exact ⟨nofun, nofun⟩
  | ok v => exact ⟨fun h => ⟨v.1, v.2, rfl, h⟩, fun ⟨_, _, hv, h⟩ => by cases hv; exact h⟩

theorem Parse.map_eq_ok {g : α → β} {x : Parse α} {p q : Parcel} {b : β} :
    (g <$> x) p = .ok (b, q) ↔ ∃ a, x p = .ok (a, q) ∧ b = g a := by
  rw [← bind_pure_comp, Parse.bind_eq_ok]
  simp only [Parse.pure_eq_ok]
  exact ⟨fun ⟨a, _, h, hb, hq⟩ => ⟨a, hq ▸ h, hb⟩, fun ⟨a, h, hb⟩ => ⟨a, q, h, hb, rfl⟩⟩

end Monad

/-! ## Control bits -/

theorem parseBit_eq_ok {b : Bool} {p rest : Parcel} :
    parseBit p = .ok (b, rest) ↔ p = Parcel.append ⟨[b], []⟩ rest := by
  obtain ⟨ctl, bytes⟩ := p
  obtain ⟨ctl', bytes'⟩ := rest
  cases ctl <;> simp [parseBit, Parcel.append, and_assoc]

/-- The `n` bits of a number depend on the bits below `n` alone. -/
theorem bitsMsbFirst_congr {n v w : Nat} (h : ∀ i < n, v.testBit i = w.testBit i) :
    bitsMsbFirst n v = bitsMsbFirst n w := by
  induction n with
  | zero => rfl
  | succ n ih => rw [bitsMsbFirst, bitsMsbFirst, h n n.lt_succ_self, ih fun i hi => h i (Nat.lt_succ_of_lt hi)]

/-- A field with one more leading bit. -/
theorem bitsMsbFirst_leading {n f : Nat} (b : Bool) (hf : f < 2 ^ n) :
    bitsMsbFirst (n + 1) (2 ^ n * b.toNat + f) = b :: bitsMsbFirst n f := by
  have hbit := Nat.testBit_two_pow_mul_add b.toNat hf
  have hlead : (2 ^ n * b.toNat + f).testBit n = b := by
    rw [hbit, if_neg n.lt_irrefl, Nat.sub_self]
    cases b <;> rfl
  have hrest : bitsMsbFirst n (2 ^ n * b.toNat + f) = bitsMsbFirst n f :=
    bitsMsbFirst_congr fun i hi => (hbit i).trans (if_pos hi)
  rw [bitsMsbFirst, hlead, hrest]

/-- The bits of the parcel are those of the field, most significant first (R136). -/
theorem parseBits_eq_ok {n acc v : Nat} {p rest : Parcel} :
    parseBits n acc p = .ok (v, rest) ↔
      ∃ f < 2 ^ n, v = 2 ^ n * acc + f ∧ p = Parcel.append ⟨bitsMsbFirst n f, []⟩ rest := by
  induction n generalizing acc p with
  | zero => simp [parseBits, Parse.pure_eq_ok, bitsMsbFirst]
  | succ n ih =>
    simp only [parseBits, Parse.bind_eq_ok, parseBit_eq_ok, ih]
    constructor
    · rintro ⟨b, _, rfl, f, hf, rfl, rfl⟩
      refine ⟨2 ^ n * b.toNat + f, ?_, by ring, ?_⟩
      · have := b.toNat_le
        rw [pow_succ]
        nlinarith
      · rw [bitsMsbFirst_leading b hf]
        rfl
    · rintro ⟨f, hf, rfl, rfl⟩
      have hdiv : f / 2 ^ n < 2 := Nat.div_lt_of_lt_mul hf
      have hsplit : f = 2 ^ n * (f.testBit n).toNat + f % 2 ^ n := by
        rw [Nat.toNat_testBit, Nat.mod_eq_of_lt hdiv, Nat.div_add_mod]
      have hmod := f.mod_lt (Nat.two_pow_pos n)
      refine ⟨f.testBit n, _, ?_, f % 2 ^ n, hmod, ?_, rfl⟩
      · rw [hsplit, bitsMsbFirst_leading _ hmod, ← hsplit]
        rfl
      · conv_lhs => rw [hsplit]
        ring

theorem parseBits_zero_eq_ok {n v : Nat} {p rest : Parcel} :
    parseBits n 0 p = .ok (v, rest) ↔ v < 2 ^ n ∧ p = Parcel.append ⟨bitsMsbFirst n v, []⟩ rest := by
  simp only [parseBits_eq_ok, Nat.mul_zero, Nat.zero_add, ↓existsAndEq, true_and]

/-! ## Bytes -/

theorem parseByte_eq_ok {b : Byte} {p rest : Parcel} :
    parseByte p = .ok (b, rest) ↔ p = Parcel.append ⟨[], [b]⟩ rest := by
  obtain ⟨ctl, bytes⟩ := p
  obtain ⟨ctl', bytes'⟩ := rest
  cases bytes <;> simp [parseByte, Parcel.append, and_left_comm]

@[simp] theorem bytesLe_leNat (bs : List Byte) : bytesLe bs.length (leNat bs) = bs := by
  induction bs with
  | nil => rfl
  | cons b bs ih =>
    have hb := b.isLt
    have hdiv : (b.toNat + 256 * leNat bs) / 256 = leNat bs := by omega
    rw [List.length_cons, bytesLe, leNat_cons, hdiv, ih]
    congr 1
    apply BitVec.eq_of_toNat_eq
    rw [BitVec.toNat_ofNat]
    omega

theorem leNat_bytesLe (n v : Nat) : leNat (bytesLe n v) = v % 256 ^ n := by
  induction n generalizing v with
  | zero => simp [bytesLe, leNat, Nat.mod_one]
  | succ n ih => rw [bytesLe, leNat_cons, ih, BitVec.toNat_ofNat, pow_succ' 256 n, Nat.mod_mul (x := v)]

/-- A byte above a field: the little-endian number of both. -/
theorem toNat_byte_append {n : Nat} (b : Byte) (w : BitVec n) : (b ++ w).toNat = w.toNat + 2 ^ n * b.toNat := by
  rw [BitVec.toNat_append, ← Nat.shiftLeft_add_eq_or_of_lt w.isLt, Nat.shiftLeft_eq]
  ring

theorem toNat_u16 (b0 b1 : Byte) : (b1 ++ b0).toNat = leNat [b0, b1] := toNat_byte_append b1 b0

theorem toNat_u24 (b0 b1 b2 : Byte) : (b2 ++ b1 ++ b0).toNat = leNat [b0, b1, b2] := by
  rw [BitVec.toNat_append, ← Nat.shiftLeft_add_eq_or_of_lt b0.isLt, toNat_u16, Nat.shiftLeft_eq]
  simp only [leNat]
  ring

/-- The bytes of the parcel are those of the field, least significant first (R140). -/
theorem parseU16_eq_ok {w : BitVec 16} {p rest : Parcel} :
    parseU16 p = .ok (w, rest) ↔ p = Parcel.append ⟨[], bytesLe 2 w.toNat⟩ rest := by
  simp only [parseU16, Parse.bind_eq_ok, parseByte_eq_ok, Parse.pure_eq_ok]
  constructor
  · rintro ⟨b0, _, rfl, b1, q, rfl, rfl, rfl⟩
    rw [toNat_u16]
    exact congrArg (fun bs => Parcel.append ⟨[], bs⟩ q) (bytesLe_leNat [b0, b1]).symm
  · rintro rfl
    refine ⟨_, _, rfl, _, _, rfl, BitVec.eq_of_toNat_eq ?_, rfl⟩
    rw [toNat_u16]
    exact ((leNat_bytesLe 2 _).trans (Nat.mod_eq_of_lt w.isLt)).symm

/-- The bytes of the parcel are those of the field, least significant first (R141). -/
theorem parseU24_eq_ok {w : BitVec 24} {p rest : Parcel} :
    parseU24 p = .ok (w, rest) ↔ p = Parcel.append ⟨[], bytesLe 3 w.toNat⟩ rest := by
  simp only [parseU24, Parse.bind_eq_ok, parseByte_eq_ok, Parse.pure_eq_ok]
  constructor
  · rintro ⟨b0, _, rfl, b1, _, rfl, b2, q, rfl, rfl, rfl⟩
    rw [toNat_u24]
    exact congrArg (fun bs => Parcel.append ⟨[], bs⟩ q) (bytesLe_leNat [b0, b1, b2]).symm
  · rintro rfl
    refine ⟨_, _, rfl, _, _, rfl, _, _, rfl, BitVec.eq_of_toNat_eq ?_, rfl⟩
    rw [toNat_u24]
    exact ((leNat_bytesLe 3 _).trans (Nat.mod_eq_of_lt w.isLt)).symm

end Sys2Proof
end

section
/-! SUPPORT. The words of the wire: which bits and bytes, at which place, select which instruction (R101 to R105, R114,
R199). The decoder answers on exactly these words, the encoder writes exactly these words, and what they select
is well formed. -/

namespace Sys2Proof

/-- The words that select a CWC opcode, with the fields that the selection reads (R101, R103 to R105). -/
inductive CwcWord
  | lit
  | short (f : BitVec 2) (pos : Byte)
  | med (w : BitVec 16)
  | long (w : BitVec 24)

/-- The control bits and bytes of a CWC word. -/
def CwcWord.parcel : CwcWord → Parcel
  | .lit => ⟨[true], []⟩
  | .short f pos => ⟨false :: true :: bitsMsbFirst 2 f.toNat, [pos]⟩
  | .med w => ⟨[false, false, true], bytesLe 2 w.toNat⟩
  | .long w => ⟨[false, false, false], bytesLe 3 w.toNat⟩

/-- The opcode that a CWC word selects. -/
def CwcWord.op (c : CwcCtx) : CwcWord → CwcOp
  | .lit => .lit
  | .short f pos => cwcShort (cwcShortLen f.toNat) pos.toNat
  | .med w => cwcMed (cwcMedLen w) (cwcMedPos w)
  | .long w => cwcLong c.base (cwcLongLen c.bits w) (cwcLongPos c.bits w)

/-- The opcode that a place of a stream selects by itself (R199, R386); a CWC opcode needs bits. -/
def Slot.opcode : Slot → Option Instr
  | .rncPrime => some .rncPrime
  | .rncTab t => some (.rncHuftab t)
  | .rncCnt => some .rncChcnt
  | .rncRaw => some .rncRaw
  | .rncMatch => some .rncMatch
  | .cwcOp => none
  | .hufSym => some .hufSym

/-- The parcel is, at the place, the word that selects the instruction. -/
inductive Selects (c : CwcCtx) : Place → Parcel → Instr → Prop
  | command (k : Command) : Selects c .cmd (encodeCommand k).2 k.toInstr
  | slot {slot : Slot} {i : Instr} (h : slot.opcode = some i) : Selects c (.stream slot) ⟨[], []⟩ i
  | cwc (w : CwcWord) : Selects c (.stream .cwcOp) w.parcel (w.op c).toInstr

/-! ## The decoder -/

theorem Command.ofCode_eq_some {n : Nat} {k : Command} : Command.ofCode n = some k ↔ n = k.code := by
  constructor
  · intro h
    unfold Command.ofCode at h
    split_ifs at h <;> cases h <;> assumption
  · rintro rfl
    cases k <;> rfl

theorem parseCommand_eq_ok {p rest : Parcel} {i : Instr} :
    parseCommand p = .ok (i, rest) ↔ ∃ k : Command, i = k.toInstr ∧ p = (encodeCommand k).2.append rest := by
  simp only [parseCommand, Parse.bind_eq_ok, parseByte_eq_ok]
  constructor
  · rintro ⟨b, q, rfl, h⟩
    cases hk : Command.ofCode b.toNat with
    | some k =>
      rw [hk] at h
      obtain ⟨rfl, rfl⟩ := Parse.pure_eq_ok.1 h
      have hb : b = BitVec.ofNat 8 k.code := by
        rw [← Command.ofCode_eq_some.1 hk, BitVec.ofNat_toNat, BitVec.setWidth_eq]
      exact ⟨k, rfl, hb ▸ rfl⟩
    | none =>
      rw [hk] at h
      exact absurd h Parse.throw_ne_ok
  · rintro ⟨k, rfl, rfl⟩
    refine ⟨_, rest, rfl, ?_⟩
    cases k <;> rfl

/-- A choice by the next control bit (R224). -/
theorem ite_parseBit_eq_ok {α : Type} {x y : Parse α} {p : Parcel} {r : α × Parcel} :
    (parcelReader.bit >>= fun b => if b then x else y) p = .ok r ↔
      (∃ q, p = Parcel.append ⟨[true], []⟩ q ∧ x q = .ok r) ∨
      ∃ q, p = Parcel.append ⟨[false], []⟩ q ∧ y q = .ok r := by
  simp only [parcelReader, Parse.bind_eq_ok, parseBit_eq_ok, Bool.exists_bool, Bool.false_eq_true, reduceIte]
  exact or_comm

/-- A parcel has no registers to latch `L` and `P` in (R44). -/
theorem parcelReader_latch_bind {α : Type} (len pos : Nat) (f : Unit → Parse α) :
    (parcelReader.latch len pos >>= f) = f () := rfl

/-- The selection of a CWC opcode answers on exactly the CWC words (R101, R224). -/
theorem cwcSelect_eq_ok {c : CwcCtx} {p rest : Parcel} {op : CwcOp} :
    cwcSelect parcelReader c p = .ok (op, rest) ↔ ∃ w : CwcWord, op = w.op c ∧ p = w.parcel.append rest := by
  simp only [cwcSelect, ite_parseBit_eq_ok, parcelReader_latch_bind]
  simp only [parcelReader, Parse.bind_eq_ok, parseBits_zero_eq_ok, parseByte_eq_ok, parseU16_eq_ok, parseU24_eq_ok,
    Parse.pure_eq_ok]
  constructor
  · rintro (⟨_, rfl, rfl, rfl⟩ | ⟨_, rfl, hzero⟩)
    · exact ⟨.lit, rfl, rfl⟩
    rcases hzero with ⟨_, rfl, f, _, ⟨hf, rfl⟩, pos, _, rfl, rfl, rfl⟩ | ⟨_, rfl, hzero⟩
    · exact ⟨.short (BitVec.ofNatLT f hf) pos, rfl, rfl⟩
    rcases hzero with ⟨_, rfl, w, _, rfl, rfl, rfl⟩ | ⟨_, rfl, w, _, rfl, rfl, rfl⟩
    · exact ⟨.med w, rfl, rfl⟩
    · exact ⟨.long w, rfl, rfl⟩
  · rintro ⟨w, rfl, rfl⟩
    cases w with
    | lit => exact .inl ⟨_, rfl, rfl, rfl⟩
    | short f pos =>
      exact .inr ⟨_, rfl, .inl ⟨_, rfl, f.toNat, _, ⟨f.isLt, rfl⟩, pos, _, rfl, rfl, rfl⟩⟩
    | med w => exact .inr ⟨_, rfl, .inr ⟨_, rfl, .inl ⟨_, rfl, w, _, rfl, rfl, rfl⟩⟩⟩
    | long w => exact .inr ⟨_, rfl, .inr ⟨_, rfl, .inr ⟨_, rfl, w, _, rfl, rfl, rfl⟩⟩⟩

theorem parseSlot_of_opcode {slot : Slot} {i : Instr} (c : CwcCtx) (h : slot.opcode = some i) :
    parseSlot c slot = pure i := by
  cases slot <;> cases h <;> rfl

/-- The decoder answers on exactly the words of the wire. -/
theorem decode_eq_ok {c : CwcCtx} {pl : Place} {p rest : Parcel} {i : Instr} :
    decode c pl p = .ok (i, rest) ↔ ∃ q, Selects c pl q i ∧ p = q.append rest := by
  constructor
  · intro h
    match pl with
    | .cmd =>
      obtain ⟨k, rfl, rfl⟩ := parseCommand_eq_ok.1 h
      exact ⟨_, .command k, rfl⟩
    | .stream slot =>
      cases ho : slot.opcode with
      | some j =>
        simp only [decode, parseSlot_of_opcode c ho, Parse.pure_eq_ok] at h
        obtain ⟨rfl, rfl⟩ := h
        exact ⟨_, .slot ho, rfl⟩
      | none =>
        cases slot <;> cases ho
        obtain ⟨op, hop, rfl⟩ := Parse.map_eq_ok.1 h
        obtain ⟨w, rfl, rfl⟩ := cwcSelect_eq_ok.1 hop
        exact ⟨_, .cwc w, rfl⟩
  · rintro ⟨q, hq, rfl⟩
    cases hq with
    | command k => exact parseCommand_eq_ok.2 ⟨k, rfl, rfl⟩
    | slot ho =>
      rw [decode, parseSlot_of_opcode c ho]
      rfl
    | cwc w => exact Parse.map_eq_ok.2 ⟨_, cwcSelect_eq_ok.2 ⟨w, rfl, rfl⟩, rfl⟩

/-! ## The encoder -/

theorem encode_cwcShort (c : CwcCtx) (len pos : Nat) :
    encode c (cwcShort len pos).toInstr = some (.stream .cwcOp, encodeShort len pos) := by
  unfold cwcShort
  split
  · subst pos
    rfl
  · rfl

theorem encode_cwcMed (c : CwcCtx) (len pos : Nat) :
    encode c (cwcMed len pos).toInstr = some (.stream .cwcOp, encodeMed len pos) := by
  unfold cwcMed
  split
  · subst pos
    rfl
  · rfl

theorem encode_cwcLong (c : CwcCtx) (len pos : Nat) :
    encode c (cwcLong c.base len pos).toInstr = some (.stream .cwcOp, encodeLong c len pos) := by
  unfold cwcLong
  split_ifs with hpos hterm hsrc hdst hstr
  · rfl
  all_goals
    obtain rfl := not_ne_iff.1 hpos
    subst_vars
    rfl

theorem encodeShort_of_fields (f : BitVec 2) (pos : Byte) :
    encodeShort (cwcShortLen f.toNat) pos.toNat = (CwcWord.short f pos).parcel := by
  simp [encodeShort, cwcShortLen, CwcWord.parcel]

theorem encodeMed_of_field (w : BitVec 16) : encodeMed (cwcMedLen w) (cwcMedPos w) = (CwcWord.med w).parcel := by
  simp only [encodeMed, cwcMedLen, cwcMedPos, CwcWord.parcel, Nat.add_sub_cancel, Nat.mod_add_div]

theorem encodeLong_of_field (c : CwcCtx) (w : BitVec 24) :
    encodeLong c (cwcLongLen c.bits w) (cwcLongPos c.bits w) = (CwcWord.long w).parcel := by
  simp only [encodeLong, cwcLongLen, cwcLongPos, CwcWord.parcel, Nat.add_sub_cancel, Nat.mod_add_div]

/-- The encoder writes the word that selects an instruction, at its place. -/
theorem Selects.encode_eq {c : CwcCtx} {pl : Place} {q : Parcel} {i : Instr} (h : Selects c pl q i) :
    encode c i = some (pl, q) := by
  cases h with
  | command k => cases k <;> rfl
  | @slot slot _ ho => cases slot <;> cases ho <;> rfl
  | cwc w =>
    cases w with
    | lit => rfl
    | short f pos => rw [CwcWord.op, encode_cwcShort, encodeShort_of_fields]
    | med w => rw [CwcWord.op, encode_cwcMed, encodeMed_of_field]
    | long w => rw [CwcWord.op, encode_cwcLong, encodeLong_of_field]

/-! ## Well-formed instructions -/

theorem wf_cwcShort {c : CwcCtx} {len pos : Nat} (hl : 2 ≤ len ∧ len ≤ 5) (hp : pos ≤ 255) :
    (cwcShort len pos).toInstr.wf c = true := by
  unfold cwcShort
  split <;> simp [CwcOp.toInstr, Instr.wf, Nat.one_le_iff_ne_zero, *]

theorem wf_cwcMed {c : CwcCtx} {len pos : Nat} (hl : 2 ≤ len ∧ len ≤ 17) (hp : pos ≤ 4095) :
    (cwcMed len pos).toInstr.wf c = true := by
  unfold cwcMed
  split <;> simp [CwcOp.toInstr, Instr.wf, Nat.one_le_iff_ne_zero, *]

theorem wf_cwcLong {c : CwcCtx} {len pos : Nat} (hl : c.fitsLen len = true) (hp : pos < 2 ^ (24 - c.bits)) :
    (cwcLong c.base len pos).toInstr.wf c = true := by
  unfold cwcLong
  split_ifs with hpos hterm hsrc hdst hstr
  · simp [CwcOp.toInstr, Instr.wf, CwcCtx.fitsPos, hl, hp, Nat.one_le_iff_ne_zero, hpos]
  · rwa [hterm] at hl
  · rwa [hsrc] at hl
  · rwa [hdst] at hl
  · rwa [hstr] at hl
  · simp only [CwcOp.toInstr, Instr.wf, hl, Bool.true_and, Bool.or_eq_true, decide_eq_true_eq]
    omega

/-- What a word selects is well formed, for every `CWC_BITS` that the header check admits (R221). -/
theorem Selects.wf {c : CwcCtx} {pl : Place} {q : Parcel} {i : Instr} (hb : c.bits ≤ 24) (h : Selects c pl q i) :
    i.wf c = true := by
  cases h with
  | command k => cases k <;> rfl
  | @slot slot _ ho => cases slot <;> cases ho <;> rfl
  | cwc w =>
    cases w with
    | lit => rfl
    | short f pos => exact wf_cwcShort (by simp only [cwcShortLen]; omega) (by omega)
    | med w => exact wf_cwcMed (by simp only [cwcMedLen]; omega) (by simp only [cwcMedPos]; omega)
    | long w =>
      have hlen := w.toNat.mod_lt (Nat.two_pow_pos c.bits)
      refine wf_cwcLong ?_ ?_
      · simpa [CwcCtx.fitsLen, cwcLongLen, hb] using hlen
      · rw [cwcLongPos, Nat.div_lt_iff_lt_mul (Nat.two_pow_pos _), ← pow_add, Nat.sub_add_cancel hb]
        exact w.isLt

theorem selects_short {len pos : Nat} (c : CwcCtx) (hl : 2 ≤ len ∧ len ≤ 5) (hp : pos ≤ 255) :
    Selects c (.stream .cwcOp) (encodeShort len pos) (cwcShort len pos).toInstr := by
  have hlen : cwcShortLen (BitVec.ofNat 2 (len - 2)).toNat = len := by
    rw [cwcShortLen, BitVec.toNat_ofNat]
    omega
  have hpos : (BitVec.ofNat 8 pos).toNat = pos := by
    rw [BitVec.toNat_ofNat]
    omega
  have h := Selects.cwc (c := c) (.short (BitVec.ofNat 2 (len - 2)) (BitVec.ofNat 8 pos))
  rwa [← encodeShort_of_fields, CwcWord.op, hlen, hpos] at h

theorem selects_med {len pos : Nat} (c : CwcCtx) (hl : 2 ≤ len ∧ len ≤ 17) (hp : pos ≤ 4095) :
    Selects c (.stream .cwcOp) (encodeMed len pos) (cwcMed len pos).toInstr := by
  have hval : (BitVec.ofNat 16 (len - 2 + 16 * pos)).toNat = len - 2 + 16 * pos := by
    rw [BitVec.toNat_ofNat]
    omega
  have hlen : cwcMedLen (BitVec.ofNat 16 (len - 2 + 16 * pos)) = len := by
    rw [cwcMedLen, hval]
    omega
  have hpos : cwcMedPos (BitVec.ofNat 16 (len - 2 + 16 * pos)) = pos := by
    rw [cwcMedPos, hval]
    omega
  have h := Selects.cwc (c := c) (.med (BitVec.ofNat 16 (len - 2 + 16 * pos)))
  rwa [← encodeMed_of_field, CwcWord.op, hlen, hpos] at h

theorem selects_long {c : CwcCtx} {len pos : Nat} (hl : c.fitsLen len = true) (hp : pos < 2 ^ (24 - c.bits)) :
    Selects c (.stream .cwcOp) (encodeLong c len pos) (cwcLong c.base len pos).toInstr := by
  simp only [CwcCtx.fitsLen, Bool.and_eq_true, decide_eq_true_eq] at hl
  obtain ⟨⟨hb, hl2⟩, hlt⟩ := hl
  have hf : len - 2 < 2 ^ c.bits := by omega
  have hval : (BitVec.ofNat 24 (len - 2 + 2 ^ c.bits * pos)).toNat = len - 2 + 2 ^ c.bits * pos := by
    rw [BitVec.toNat_ofNat, Nat.mod_eq_of_lt]
    calc len - 2 + 2 ^ c.bits * pos < 2 ^ c.bits * (pos + 1) := by rw [Nat.mul_succ]; omega
      _ ≤ 2 ^ c.bits * 2 ^ (24 - c.bits) := Nat.mul_le_mul_left _ hp
      _ = 2 ^ 24 := by rw [← pow_add, Nat.add_sub_cancel' hb]
  have hlen : cwcLongLen c.bits (BitVec.ofNat 24 (len - 2 + 2 ^ c.bits * pos)) = len := by
    rw [cwcLongLen, hval, Nat.add_mul_mod_self_left, Nat.mod_eq_of_lt hf, Nat.sub_add_cancel hl2]
  have hpos : cwcLongPos c.bits (BitVec.ofNat 24 (len - 2 + 2 ^ c.bits * pos)) = pos := by
    rw [cwcLongPos, hval, Nat.add_mul_div_left _ _ (Nat.two_pow_pos _), Nat.div_eq_of_lt hf, Nat.zero_add]
  have h := Selects.cwc (c := c) (.long (BitVec.ofNat 24 (len - 2 + 2 ^ c.bits * pos)))
  rwa [← encodeLong_of_field, CwcWord.op, hlen, hpos] at h

/-- Position 0 in a `LONG`: the special codes and the run (R105, R228). -/
theorem selects_longCode {c : CwcCtx} {len : Nat} {op : CwcOp} (hl : c.fitsLen len = true)
    (hop : cwcLong c.base len 0 = op) : Selects c (.stream .cwcOp) (encodeLong c len 0) op.toInstr :=
  hop ▸ selects_long hl (Nat.two_pow_pos _)

/-- A well-formed instruction that has an encoding is selected by it. -/
theorem Selects.of_encode {c : CwcCtx} {pl : Place} {q : Parcel} {i : Instr} (hwf : i.wf c = true)
    (h : encode c i = some (pl, q)) : Selects c pl q i := by
  cases i with
  | rncDecode => cases h; exact .command .rncDecode
  | cwcDecode => cases h; exact .command .cwcDecode
  | hufLoad => cases h; exact .command .hufLoad
  | hufChunk => cases h; exact .command .hufChunk
  | rncPrime | rncHuftab _ | rncChcnt | rncRaw | rncMatch | hufSym => cases h; exact .slot rfl
  | cwcLit => cases h; exact .cwc .lit
  | cwcShortRun len =>
    simp only [Instr.wf, Bool.and_eq_true, decide_eq_true_eq] at hwf
    cases h
    exact selects_short c hwf (Nat.zero_le _)
  | cwcShortCopy len pos =>
    simp only [Instr.wf, Bool.and_eq_true, decide_eq_true_eq] at hwf
    obtain ⟨⟨hlen, hpos⟩, hmax⟩ := hwf
    cases h
    have hs := selects_short c hlen hmax
    rwa [cwcShort, if_neg (Nat.ne_of_gt hpos)] at hs
  | cwcMedRun len =>
    simp only [Instr.wf, Bool.and_eq_true, decide_eq_true_eq] at hwf
    cases h
    exact selects_med c hwf (Nat.zero_le _)
  | cwcMedCopy len pos =>
    simp only [Instr.wf, Bool.and_eq_true, decide_eq_true_eq] at hwf
    obtain ⟨⟨hlen, hpos⟩, hmax⟩ := hwf
    cases h
    have hs := selects_med c hlen hmax
    rwa [cwcMed, if_neg (Nat.ne_of_gt hpos)] at hs
  | cwcLongCopy len pos =>
    simp only [Instr.wf, CwcCtx.fitsPos, Bool.and_eq_true, decide_eq_true_eq] at hwf
    obtain ⟨hlen, hpos, hmax⟩ := hwf
    cases h
    have hs := selects_long hlen hmax
    rwa [cwcLong, if_pos (Nat.ne_of_gt hpos)] at hs
  | cwcLongTerm =>
    cases h
    exact selects_longCode (op := .longTerm) hwf (by simp [cwcLong])
  | cwcLongNopSrc =>
    cases h
    exact selects_longCode (op := .longNopSrc) hwf (by simp [cwcLong])
  | cwcLongNopDst =>
    cases h
    exact selects_longCode (op := .longNopDst) hwf (by simp [cwcLong])
  | cwcLongLitstr =>
    cases h
    exact selects_longCode (op := .longLitstr) hwf (by simp [cwcLong])
  | cwcLongRun len =>
    simp only [Instr.wf, Bool.and_eq_true, Bool.or_eq_true, decide_eq_true_eq] at hwf
    obtain ⟨hlen, hspecial⟩ := hwf
    cases h
    refine selects_longCode (op := .longRun len) hlen ?_
    rw [cwcLong, if_neg (not_not.2 rfl), if_neg (by omega), if_neg (by omega), if_neg (by omega), if_neg (by omega)]
  | _ => cases h

end Sys2Proof
end

section
/-! PROOFS. The encoding: the statements O1 to O5. -/

namespace Sys2Proof

/-- Settles O2: the encoding is the word that selects the instruction, and on words the decoder answers. -/
theorem decodeOfEncode : Obligations.DecodeOfEncode :=
  fun _ _ _ q _ hwf he => decode_eq_ok.2 ⟨q, Selects.of_encode hwf he, rfl⟩

/-- Settles O3: the decoder has read a word, and the encoder writes that word. -/
theorem encodeOfDecode : Obligations.EncodeOfDecode := by
  intro c pl p rest i h
  obtain ⟨q, hq, rfl⟩ := decode_eq_ok.1 h
  exact ⟨q, hq.encode_eq, rfl⟩

/-- Settles O4: the decoder has read a word, and words select well-formed instructions. -/
theorem decodedIsWellFormed : Obligations.DecodedIsWellFormed := by
  intro c pl p rest i hb h
  obtain ⟨q, hq, rfl⟩ := decode_eq_ok.1 h
  exact hq.wf hb

/-- Four control bits and three bytes begin with a CWC word: the leading bits say which (R101). -/
theorem exists_cwcWord {p : Parcel} (hctl : 4 ≤ p.ctl.length) (hbytes : 3 ≤ p.bytes.length) :
    ∃ (w : CwcWord) (rest : Parcel), p = w.parcel.append rest := by
  obtain ⟨ctl, bytes⟩ := p
  match ctl, bytes, hctl, hbytes with
  | b0 :: b1 :: b2 :: b3 :: ctl, y0 :: y1 :: y2 :: bytes, _, _ =>
    match b0, b1, b2 with
    | true, b1, b2 => exact ⟨.lit, ⟨b1 :: b2 :: b3 :: ctl, y0 :: y1 :: y2 :: bytes⟩, rfl⟩
    | false, true, b2 =>
      have hbits : bitsMsbFirst 2 (BitVec.ofBool b2 ++ BitVec.ofBool b3).toNat = [b2, b3] := by
        cases b2 <;> cases b3 <;> rfl
      refine ⟨.short (BitVec.ofBool b2 ++ BitVec.ofBool b3) y0, ⟨ctl, y1 :: y2 :: bytes⟩, ?_⟩
      rw [CwcWord.parcel, hbits]
      rfl
    | false, false, true =>
      have hfield : bytesLe 2 (y1 ++ y0).toNat = [y0, y1] := toNat_u16 y0 y1 ▸ bytesLe_leNat [y0, y1]
      refine ⟨.med (y1 ++ y0), ⟨b3 :: ctl, y2 :: bytes⟩, ?_⟩
      rw [CwcWord.parcel, hfield]
      rfl
    | false, false, false =>
      have hfield : bytesLe 3 (y2 ++ y1 ++ y0).toNat = [y0, y1, y2] := toNat_u24 y0 y1 y2 ▸ bytesLe_leNat [y0, y1, y2]
      refine ⟨.long (y2 ++ y1 ++ y0), ⟨b3 :: ctl, bytes⟩, ?_⟩
      rw [CwcWord.parcel, hfield]
      rfl

/-- Settles O5: such a parcel begins with a CWC word, and on words the decoder answers. -/
theorem cwcPrefixCodeComplete : Obligations.CwcPrefixCodeComplete := by
  intro c p hctl hbytes
  obtain ⟨w, rest, rfl⟩ := exists_cwcWord hctl hbytes
  exact ⟨_, rest, decode_eq_ok.2 ⟨w.parcel, .cwc w, rfl⟩⟩

/-- Settles O1, by running the decoder. -/
theorem decodeSampleWords : Obligations.DecodeSampleWords :=
  ⟨rfl, rfl, rfl, rfl, rfl, rfl, rfl, rfl, rfl, rfl, rfl, rfl⟩

end Sys2Proof
end

section
/-! SUPPORT. Gamma numbers (R99, R167): the leaf value is the number's length in bits, the extension is what lies
below its leading bit. -/

namespace Sys2Proof.Machine

@[simp] theorem gammaValue_zero (ext : Nat) : gammaValue 0 ext = 0 := rfl

theorem gammaValue_of_pos {v ext : Nat} (hv : 1 ≤ v) (he : ext < 2 ^ gammaBits v) :
    gammaValue v ext = 2 ^ gammaBits v + ext := by
  unfold gammaValue
  split
  · obtain rfl : v = 1 := by omega
    rw [gammaBits, Nat.sub_self, pow_zero, Nat.lt_one_iff] at he
    rw [he]
    rfl
  · rw [← Nat.shiftLeft_add_eq_or_of_lt he, Nat.shiftLeft_eq, Nat.one_mul]

theorem size_gammaValue {v ext : Nat} (he : ext < 2 ^ gammaBits v) : (gammaValue v ext).size = v := by
  rcases Nat.eq_zero_or_pos v with rfl | hv
  · rfl
  · have htwo : 2 ^ v = 2 ^ gammaBits v * 2 := by rw [gammaBits, ← pow_succ, Nat.sub_add_cancel hv]
    rw [gammaValue_of_pos hv he]
    apply le_antisymm
    · rw [Nat.size_le]
      omega
    · have : gammaBits v < (2 ^ gammaBits v + ext).size := Nat.lt_size.2 (Nat.le_add_right _ _)
      unfold gammaBits at this ⊢
      omega

/-- The extension of a form is what its number has below the leading bit. -/
theorem gammaValue_sub {v ext : Nat} (he : ext < 2 ^ gammaBits v) : gammaValue v ext - 2 ^ gammaBits v = ext := by
  rcases Nat.eq_zero_or_pos v with rfl | hv
  · exact (Nat.lt_one_iff.1 he).symm
  · rw [gammaValue_of_pos hv he, Nat.add_sub_cancel_left]

/-- Every number has the form whose leaf value is its length. -/
theorem gammaValue_size (n : Nat) : n - 2 ^ gammaBits n.size < 2 ^ gammaBits n.size ∧
    gammaValue n.size (n - 2 ^ gammaBits n.size) = n := by
  rcases Nat.eq_zero_or_pos n with rfl | hn
  · exact ⟨Nat.one_pos, rfl⟩
  · have hs : 1 ≤ n.size := Nat.size_pos.2 hn
    have hlow : 2 ^ gammaBits n.size ≤ n := Nat.lt_size.1 (Nat.sub_lt hs Nat.one_pos)
    have hhigh : n < 2 ^ gammaBits n.size * 2 := by
      rw [gammaBits, ← pow_succ, Nat.sub_add_cancel hs]
      exact Nat.lt_size_self n
    have hext : n - 2 ^ gammaBits n.size < 2 ^ gammaBits n.size := by omega
    exact ⟨hext, by rw [gammaValue_of_pos hs hext, Nat.add_sub_cancel' hlow]⟩

end Sys2Proof.Machine
end

section
/-! SUPPORT. Multi-bit reads of the RNC cursor (R136) against the control bits of the stream: what lies before the
cursor after some bits have been consumed is what lay behind them, however many words were loaded for them. -/

namespace Sys2Proof.Machine

open Sys2Proof

/-! ## Bytes of `IN` -/

theorem leNat_append (xs ys : List Byte) : leNat (xs ++ ys) = leNat xs + 256 ^ xs.length * leNat ys := by
  induction xs with
  | nil => simp [leNat]
  | cons x xs ih =>
    rw [List.cons_append, leNat_cons, leNat_cons, ih, List.length_cons, pow_succ]
    ring

theorem State.bytesAt_add (s : State) (a m n : Nat) :
    s.bytesAt a (m + n) = s.bytesAt a m ++ s.bytesAt (a + m) n := by
  simp [State.bytesAt, List.range_add, Nat.add_assoc]

/-- What the host has loaded below `IN_LEN` can be read (R352). -/
theorem State.loaded.inHas {s : State} (h : s.loaded) {a n : Nat} (hn : a + n ≤ s.inLen) :
    s.inHas a (s.bytesAt a n) := by
  induction n generalizing a with
  | zero => exact trivial
  | succ n ih =>
    rw [Nat.add_comm n 1, State.bytesAt_add]
    obtain ⟨b, hb⟩ := Option.isSome_iff_exists.1 (h a (by omega))
    exact ⟨by omega, by simp [hb], ih (by omega)⟩

/-! ## The control bits before the cursor -/

/-- How many control bits lie in the register and the next `q` words. -/
theorem State.ctlBuffer_lt {s : State} (h : s.cur.sr < 2 ^ s.cur.cnt) (q : Nat) :
    s.ctlBuffer q < 2 ^ (s.cur.cnt + 16 * q) := by
  have hword : leNat (s.bytesAt s.cur.pos (2 * q)) < 2 ^ (16 * q) := by
    have hlt := leNat_lt (s.bytesAt s.cur.pos (2 * q))
    rwa [State.bytesAt_length, pow_mul, show 256 ^ 2 = 2 ^ 16 from rfl, ← pow_mul] at hlt
  calc s.ctlBuffer q < 2 ^ s.cur.cnt * (leNat (s.bytesAt s.cur.pos (2 * q)) + 1) := by
        rw [State.ctlBuffer, Nat.mul_succ]
        omega
    _ ≤ 2 ^ s.cur.cnt * 2 ^ (16 * q) := Nat.mul_le_mul_left _ hword
    _ = 2 ^ (s.cur.cnt + 16 * q) := (pow_add _ _ _).symm

/-- More words go above the bits of the first ones. -/
theorem State.ctlBuffer_add (s : State) (q r : Nat) : s.ctlBuffer (q + r) =
    s.ctlBuffer q + 2 ^ (s.cur.cnt + 16 * q) * leNat (s.bytesAt (s.cur.pos + 2 * q) (2 * r)) := by
  rw [State.ctlBuffer, State.ctlBuffer, Nat.mul_add, State.bytesAt_add, leNat_append, State.bytesAt_length,
    pow_mul 256 2 q, pow_add, pow_mul 2 16 q]
  ring

theorem Cursor.le_wordsFor (c : Cursor) (n : Nat) : n ≤ c.cnt + 16 * c.wordsFor n := by
  unfold Cursor.wordsFor
  omega

theorem Cursor.wordsFor_mono (c : Cursor) {m n : Nat} (h : m ≤ n) : c.wordsFor m ≤ c.wordsFor n := by
  unfold Cursor.wordsFor
  omega

/-- A field does not depend on how many words are looked at, as long as it lies in them. -/
theorem State.ctlField_eq {s : State} {o n q : Nat} (hq : s.cur.wordsFor (o + n) ≤ q) :
    s.ctlField o n = s.ctlBuffer q / 2 ^ o % 2 ^ n := by
  obtain ⟨r, rfl⟩ := Nat.exists_eq_add_of_le hq
  obtain ⟨k, hk⟩ := Nat.exists_eq_add_of_le (s.cur.le_wordsFor (o + n))
  rw [State.ctlField, State.ctlBuffer_add, hk, pow_add, pow_add, Nat.mul_assoc, Nat.mul_assoc,
    Nat.add_mul_div_left _ _ (Nat.two_pow_pos o), Nat.add_mul_mod_self_left]

/-- A field of two parts: the first bits are the low ones (R136). -/
theorem State.ctlField_add (s : State) (o m n : Nat) :
    s.ctlField o (m + n) = s.ctlField o m + 2 ^ m * s.ctlField (o + m) n := by
  have hm : s.cur.wordsFor (o + m) ≤ s.cur.wordsFor (o + m + n) := s.cur.wordsFor_mono (Nat.le_add_right _ _)
  rw [State.ctlField_eq hm, State.ctlField, ← Nat.add_assoc, State.ctlField, pow_add, Nat.mod_mul,
    Nat.div_div_eq_div_mul, ← pow_add]

theorem State.ctlField_lt (s : State) (o n : Nat) : s.ctlField o n < 2 ^ n := Nat.mod_lt _ (Nat.two_pow_pos n)

/-! ## After some control bits -/

theorem State.ctlSkip_eq (s : State) (n : Nat) : s.ctlSkip n = { s.cur with
    pos := s.cur.pos + 2 * s.cur.wordsFor n
    sr := s.ctlBuffer (s.cur.wordsFor n) / 2 ^ n
    cnt := s.cur.cnt + 16 * s.cur.wordsFor n - n } := rfl

@[simp] theorem State.ctlSkip_pos (s : State) (n : Nat) : (s.ctlSkip n).pos = s.cur.pos + 2 * s.cur.wordsFor n := rfl

@[simp] theorem State.ctlSkip_fin (s : State) (n : Nat) : (s.ctlSkip n).fin = s.cur.fin := rfl

@[simp] theorem State.ctlSkip_sr (s : State) (n : Nat) :
    (s.ctlSkip n).sr = s.ctlBuffer (s.cur.wordsFor n) / 2 ^ n := rfl

@[simp] theorem State.ctlSkip_cnt (s : State) (n : Nat) :
    (s.ctlSkip n).cnt = s.cur.cnt + 16 * s.cur.wordsFor n - n := rfl

theorem State.ctlSkip_zero (s : State) : s.ctlSkip 0 = s.cur := by
  have hw : s.cur.wordsFor 0 = 0 := by simp [Cursor.wordsFor]
  simp [State.ctlSkip, State.ctlBuffer, State.bytesAt, leNat, hw]

theorem State.wordsFor_ctlSkip (s : State) (m n : Nat) :
    s.cur.wordsFor m + (s.ctlSkip m).wordsFor n = s.cur.wordsFor (m + n) := by
  simp only [State.ctlSkip, Cursor.wordsFor]
  omega

theorem State.ctlBuffer_skip (s : State) (m q : Nat) :
    (s.withCur (s.ctlSkip m)).ctlBuffer q = s.ctlBuffer (s.cur.wordsFor m + q) / 2 ^ m := by
  obtain ⟨k, hk⟩ := Nat.exists_eq_add_of_le (s.cur.le_wordsFor m)
  rw [State.ctlBuffer_add, hk, pow_add, Nat.mul_assoc, Nat.add_mul_div_left _ _ (Nat.two_pow_pos m)]
  simp only [State.ctlBuffer, State.withCur_cur, State.ctlSkip, hk, Nat.add_sub_cancel_left]
  rfl

theorem State.ctlField_skip (s : State) (m o n : Nat) :
    (s.withCur (s.ctlSkip m)).ctlField o n = s.ctlField (m + o) n := by
  rw [State.ctlField, State.ctlBuffer_skip, State.withCur_cur, State.wordsFor_ctlSkip, Nat.div_div_eq_div_mul,
    ← pow_add, State.ctlField, Nat.add_assoc]

theorem State.ctlSkip_skip (s : State) (m n : Nat) : (s.withCur (s.ctlSkip m)).ctlSkip n = s.ctlSkip (m + n) := by
  have hw := s.wordsFor_ctlSkip m n
  have hm := s.cur.le_wordsFor m
  have hpos : (s.ctlSkip m).pos + 2 * (s.ctlSkip m).wordsFor n = s.cur.pos + 2 * s.cur.wordsFor (m + n) := by
    rw [State.ctlSkip_pos]
    omega
  have hcnt : (s.ctlSkip m).cnt + 16 * (s.ctlSkip m).wordsFor n - n =
      s.cur.cnt + 16 * s.cur.wordsFor (m + n) - (m + n) := by
    rw [State.ctlSkip_cnt]
    omega
  have hsr : (s.withCur (s.ctlSkip m)).ctlBuffer ((s.ctlSkip m).wordsFor n) / 2 ^ n =
      s.ctlBuffer (s.cur.wordsFor (m + n)) / 2 ^ (m + n) := by
    rw [State.ctlBuffer_skip, hw, Nat.div_div_eq_div_mul, ← pow_add]
  rw [(s.withCur (s.ctlSkip m)).ctlSkip_eq, State.withCur_cur, hpos, hcnt, hsr]
  rfl

theorem Cursor.isRnc.clean_iff {c : Cursor} (h : c.isRnc) : c.clean ↔ c.cnt ≤ 31 ∧ c.sr < 2 ^ c.cnt := by
  obtain ⟨ho, hw, -⟩ := h
  simp only [Cursor.clean, ho, hw]
  rfl

theorem State.ctlReady.skip {s : State} {m n : Nat} (h : s.ctlReady (m + n)) :
    (s.withCur (s.ctlSkip m)).ctlReady n := by
  obtain ⟨hrnc, hclean, hpos, hfin, hloaded⟩ := h
  obtain ⟨hcnt, hsr⟩ := hrnc.clean_iff.1 hclean
  have hskip : (s.ctlSkip m).isRnc := hrnc
  have hw := s.wordsFor_ctlSkip m n
  have hm := s.cur.le_wordsFor m
  refine ⟨hrnc, hskip.clean_iff.2 ⟨?cnt, ?sr⟩, ?pos, hfin, hloaded⟩
  case cnt =>
    simp only [State.ctlSkip, Cursor.wordsFor]
    omega
  case sr =>
    rw [State.ctlSkip_sr, State.ctlSkip_cnt, Nat.div_lt_iff_lt_mul (Nat.two_pow_pos m), ← pow_add,
      Nat.sub_add_cancel hm]
    exact State.ctlBuffer_lt hsr _
  case pos =>
    rw [State.withCur_cur, State.ctlSkip_pos, State.ctlSkip_fin]
    omega

theorem State.ctlReady.mono {s : State} {m n : Nat} (h : s.ctlReady n) (hmn : m ≤ n) : s.ctlReady m := by
  obtain ⟨hrnc, hclean, hpos, hfin, hloaded⟩ := h
  have := s.cur.wordsFor_mono hmn
  exact ⟨hrnc, hclean, by omega, hfin, hloaded⟩

/-! ## Reads -/

/-- The cursor with the next `q` words in its register. -/
def State.ctlLoaded (s : State) (q : Nat) : Cursor :=
  { s.cur with
    pos := s.cur.pos + 2 * q
    sr := s.ctlBuffer q
    cnt := s.cur.cnt + 16 * q }

theorem State.ctlLoaded_zero (s : State) : s.ctlLoaded 0 = s.cur := rfl

/-- A refill loads the next word (R133). -/
theorem State.ctlLoaded_one {s : State} (h : s.cur.isRnc) (hsr : s.cur.sr < 2 ^ s.cur.cnt) :
    s.cur.withWord (leNat (s.bytesAt s.cur.pos 2)) = s.ctlLoaded 1 := by
  obtain ⟨ho, hw, -⟩ := h
  have hor (w : Nat) : s.cur.sr ||| w <<< s.cur.cnt = s.cur.sr + 2 ^ s.cur.cnt * w := by
    rw [Nat.or_comm, ← Nat.shiftLeft_add_eq_or_of_lt hsr, Nat.shiftLeft_eq]
    ring
  simp only [Cursor.withWord, State.ctlLoaded, ho, hw, hor]
  rfl

/-- Control bits are consumed from the register, after the words they need have been loaded. -/
theorem State.ctlLoaded_dropped {s : State} (h : s.cur.isRnc) (n : Nat) :
    (s.ctlLoaded (s.cur.wordsFor n)).dropped n = s.ctlSkip n := by
  simp only [Cursor.dropped, State.ctlLoaded, State.ctlSkip_eq, h.1]

theorem State.ctlLoaded_front {s : State} (h : s.cur.isRnc) :
    (s.ctlLoaded (s.cur.wordsFor 1)).front = s.ctlField 0 1 := by
  have ho : (s.ctlLoaded (s.cur.wordsFor 1)).order = .lsb := h.1
  rw [Cursor.front, ho, State.ctlField, pow_zero, Nat.div_one]
  rfl

/-- `READ_BIT` of the RNC cursor (R135): the next control bit. -/
theorem readBit_ctl {s : State} (h : s.ctlReady 1) :
    ∃ b, readBit s = .ok b (s.withCur (s.ctlSkip 1)) ∧ b.toNat = s.ctlField 0 1 := by
  obtain ⟨hrnc, hclean, hpos, hfin, hloaded⟩ := h
  have hsr := (hrnc.clean_iff.1 hclean).2
  have hread : readBit s = .ok (s.ctlLoaded (s.cur.wordsFor 1)).nextBit
      (s.withCur ((s.ctlLoaded (s.cur.wordsFor 1)).dropped 1)) := by
    have ⟨_, hw, hp⟩ := hrnc
    rcases Nat.eq_zero_or_pos s.cur.cnt with h0 | h1
    · have hwords : s.cur.wordsFor 1 = 1 := by rw [Cursor.wordsFor, h0]
      rw [hwords] at hpos ⊢
      have hnext : s.nextWord (s.bytesAt s.cur.pos 2) := by
        rw [State.nextWord, hw]
        exact ⟨State.bytesAt_length _ _ _, hpos, hloaded.inHas (by omega)⟩
      rw [readBit_onDemand_refill hp h0 hnext, State.ctlLoaded_one hrnc hsr]
    · have hwords : s.cur.wordsFor 1 = 0 := by
        unfold Cursor.wordsFor
        omega
      rw [hwords, State.ctlLoaded_zero]
      exact readBit_pending (.inl ⟨hp, h1⟩)
  rw [State.ctlLoaded_dropped hrnc] at hread
  exact ⟨_, hread, by rw [Cursor.nextBit_toNat, State.ctlLoaded_front hrnc]⟩

theorem addBit_lsb {i v : Nat} (hv : v < 2 ^ i) (b : Bool) : addBit .lsb i v b = v + 2 ^ i * b.toNat := by
  rw [addBit, Nat.or_comm, ← Nat.shiftLeft_add_eq_or_of_lt hv, Nat.shiftLeft_eq]
  ring

/-- The loop of `READ_BITS` on the RNC cursor: the bits to come go above those read before (R136). -/
theorem readBitsFrom_ctl {n i v : Nat} {s : State} (hv : v < 2 ^ i) (h : s.ctlReady n) :
    readBitsFrom .lsb n i v s = .ok (v + 2 ^ i * s.ctlField 0 n) (s.withCur (s.ctlSkip n)) := by
  induction n generalizing i v s with
  | zero =>
    rw [s.ctlSkip_zero, Nat.lt_one_iff.1 (s.ctlField_lt 0 0), Nat.mul_zero]
    rfl
  | succ n ih =>
    rw [Nat.add_comm n 1] at h ⊢
    obtain ⟨b, hread, hb⟩ := readBit_ctl (h.mono (Nat.le_add_right 1 n))
    have hv' : v + 2 ^ i * b.toNat < 2 ^ (i + 1) := by
      have := b.toNat_le
      rw [pow_succ]
      nlinarith
    rw [Nat.add_comm 1 n, readBitsFrom, Eng.bind_ok hread, addBit_lsb hv, ih hv' h.skip, State.withCur_withCur,
      State.ctlSkip_skip, State.ctlField_skip, Nat.add_comm n 1, State.ctlField_add, ← hb]
    congr 1
    ring

/-- `READ_BITS(n)` of the RNC cursor (R136): the field of the next `n` control bits. -/
theorem readBits_ctl {n : Nat} {s : State} (hn : n ≤ 16) (h : s.ctlReady n) :
    readBits n s = .ok (s.ctlField 0 n) (s.withCur (s.ctlSkip n)) := by
  obtain ⟨ho, hw, -⟩ := h.1
  have hread := readBitsFrom_ctl Nat.one_pos h (i := 0)
  simp only [readBits, getCur_bind]
  rw [ensure_bind_pos (by rw [hw]; exact hn), ho, hread]
  simp

end Sys2Proof.Machine
end

section
/-! PROOFS. Gamma numbers and the tuple count: the statements O22 and O24. -/

namespace Sys2Proof.Machine

/-- Settles O22: the leaf value is the length of the number in bits, at most 17 below `2^17`. -/
theorem gammaFormUnique : Obligations.GammaFormUnique := by
  intro n hn
  obtain ⟨hext, hval⟩ := gammaValue_size n
  refine ⟨(n.size, n - 2 ^ gammaBits n.size), ⟨Nat.size_le.2 hn, hext, hval⟩, ?_⟩
  rintro ⟨v, ext⟩ ⟨-, he, rfl⟩
  rw [size_gammaValue he, gammaValue_sub he]

/-- Settles O24: the count is a read of 16 control bits. -/
theorem rncChcntReadsCount : Obligations.RncChcntReadsCount := by
  intro s h
  refine runMeaning_ok ?_
  rw [rncChcnt, Eng.bind_ok (readBits_ctl le_rfl h)]
  rfl

end Sys2Proof.Machine
end

section
/-! SUPPORT. The rows of the bit cursor as meanings, and reads of several bits (R136 to R138): from the pending bits
under either policy, into a word that is missing, and the word that `PEEK_BITS` loads before `READ_BITS` would. -/

namespace Sys2Proof.Machine

open Sys2Proof

/-! ## Meanings -/

section Meanings

variable {α : Type} {x : Eng α} {s t : State}

/-- A row with a result keeps it (log entry 16). -/
theorem runMeaning_setRes {f : α → Nat} {a : α} (h : x s = .ok a t) :
    runMeaning (x >>= fun a => setRes (f a)) s = .next (t.withRes (f a)) := runMeaning_ok (Eng.bind_ok h)

theorem runMeaning_bind_raise {f : α → Eng Unit} {k : ErrKind} (h : x s = .error (.raise k) t) :
    runMeaning (x >>= f) s = .next (t.errorEntry k) := runMeaning_raise (Eng.bind_error h)

theorem runMeaning_bind_fault {f : α → Eng Unit} {e : Fault} (h : x s = .error (.fault e) t) :
    runMeaning (x >>= f) s = .fault e := runMeaning_fault (Eng.bind_error h)

/-- The error entry leaves no trace of where the cursor stood (R50, R324). -/
theorem State.errorEntry_withCur (s : State) (c : Cursor) (k : ErrKind) :
    (s.withCur c).errorEntry k = s.errorEntry k := rfl

end Meanings

/-! ## Byte-aligned fields -/

/-- `READ_U16` (R140). -/
theorem readU16_ok {b0 b1 : Byte} {s : State} (h : s.nextBytes [b0, b1]) :
    readU16 s = .ok (b1 ++ b0) (s.withCur { s.cur with pos := s.cur.pos + 2 }) := by
  have hf : readField 2 s = .ok (leNat [b0, b1]) _ := readField_ok h
  rw [readU16, Eng.bind_ok hf, ← toNat_u16, BitVec.ofNat_toNat, BitVec.setWidth_eq]
  rfl

/-- `READ_U24` (R141). -/
theorem readU24_ok {b0 b1 b2 : Byte} {s : State} (h : s.nextBytes [b0, b1, b2]) :
    readU24 s = .ok (b2 ++ b1 ++ b0) (s.withCur { s.cur with pos := s.cur.pos + 3 }) := by
  have hf : readField 3 s = .ok (leNat [b0, b1, b2]) _ := readField_ok h
  rw [readU24, Eng.bind_ok hf, ← toNat_u24, BitVec.ofNat_toNat, BitVec.setWidth_eq]
  rfl

/-! ## Several bits dropped -/

theorem Cursor.clean.sr_lt {c : Cursor} (h : c.clean) : c.sr < 2 ^ (2 * c.width.bits) := by
  obtain ⟨hcnt, hsr⟩ := h
  cases ho : c.order with
  | lsb =>
    rw [ho] at hsr
    exact hsr.trans_le (Nat.pow_le_pow_right Nat.two_pos (by omega))
  | msb =>
    rw [ho] at hsr
    exact hsr.1

theorem Cursor.dropped_zero {c : Cursor} (h : c.sr < 2 ^ (2 * c.width.bits)) : c.dropped 0 = c := by
  obtain ⟨base, fin, order, width, policy, pos, sr, cnt⟩ := c
  cases order with
  | lsb => simp [Cursor.dropped]
  | msb => simp [Cursor.dropped, Nat.mod_eq_of_lt h]

theorem Cursor.dropped_add (c : Cursor) (m n : Nat) : (c.dropped m).dropped n = c.dropped (m + n) := by
  cases ho : c.order with
  | lsb => simp only [Cursor.dropped, ho, Nat.div_div_eq_div_mul, pow_add, Nat.sub_sub]
  | msb => simp only [Cursor.dropped, ho, Nat.mod_mul_mod, Nat.mul_assoc, pow_add, Nat.sub_sub]

theorem Cursor.dropped_sr_lt {c : Cursor} (h : c.sr < 2 ^ (2 * c.width.bits)) (n : Nat) :
    (c.dropped n).sr < 2 ^ (2 * (c.dropped n).width.bits) := by
  cases ho : c.order with
  | lsb =>
    simp only [Cursor.dropped, ho]
    exact (Nat.div_le_self _ _).trans_lt h
  | msb =>
    simp only [Cursor.dropped, ho]
    exact Nat.mod_lt _ (Nat.two_pow_pos _)

/-- The loop of `SKIP_BITS` (R138). -/
theorem repeatEng_take {n : Nat} {s : State} (h : n ≤ s.cur.cnt) (hsr : s.cur.sr < 2 ^ (2 * s.cur.width.bits)) :
    repeatEng n (discard take) s = .ok () (s.withCur (s.cur.dropped n)) := by
  induction n generalizing s with
  | zero =>
    rw [Cursor.dropped_zero hsr]
    rfl
  | succ n ih =>
    have htake : (discard take : Eng Unit) s = .ok () (s.withCur (s.cur.dropped 1)) := by
      rw [Eng.discard_apply, take_ok (by omega)]
    rw [repeatEng_succ, Eng.bind_ok htake, ih (s := s.withCur (s.cur.dropped 1)) (Nat.le_sub_one_of_lt h)
      (Cursor.dropped_sr_lt hsr 1), State.withCur_withCur, State.withCur_cur, Cursor.dropped_add, Nat.add_comm 1 n]

/-- `SKIP_BITS` (R138). -/
theorem skipBits_ok {n : Nat} {s : State} (h : n ≤ s.cur.cnt) (hsr : s.cur.sr < 2 ^ (2 * s.cur.width.bits)) :
    skipBits n s = .ok () (s.withCur (s.cur.dropped n)) := by
  rw [skipBits, getCur_bind, ensure_bind_pos h, repeatEng_take h hsr]

/-! ## Reads from the pending bits -/

/-- `n` bits can be consumed without a refill (R135): under `on_exhaust` one more has to be pending. -/
def Cursor.noRefillFor (c : Cursor) (n : Nat) : Prop :=
  (c.policy = .onDemand ∧ n ≤ c.cnt) ∨ (c.policy = .onExhaust ∧ n < c.cnt)

/-- While `n` bits are consumed a word has to be loaded (R135). -/
def Cursor.refillWithin (c : Cursor) (n : Nat) : Prop :=
  (c.policy = .onDemand ∧ c.cnt < n) ∨ (c.policy = .onExhaust ∧ 1 ≤ c.cnt ∧ c.cnt ≤ n)

theorem Cursor.noRefillFor.first {c : Cursor} {n : Nat} (h : c.noRefillFor (n + 1)) : c.noRefillFor 1 :=
  h.imp (And.imp_right (by omega)) (And.imp_right (by omega))

theorem Cursor.noRefillFor.rest {c : Cursor} {n : Nat} (h : c.noRefillFor (n + 1)) :
    (c.dropped 1).noRefillFor n :=
  h.imp (And.imp_right Nat.le_sub_one_of_lt) (And.imp_right Nat.lt_sub_of_add_lt)

/-- The word is loaded for the first bit, or for a later one. -/
theorem Cursor.refillWithin.cases {c : Cursor} {n : Nat} (h : c.refillWithin (n + 1)) :
    (c.policy = .onDemand ∧ c.cnt = 0) ∨ (c.policy = .onExhaust ∧ c.cnt = 1) ∨
      (c.noRefillFor 1 ∧ (c.dropped 1).refillWithin n) := by
  have hcnt : (c.dropped 1).cnt = c.cnt - 1 := rfl
  rcases h with ⟨hp, h⟩ | ⟨hp, h1, h⟩
  · rcases Nat.eq_zero_or_pos c.cnt with h0 | h0
    · exact .inl ⟨hp, h0⟩
    · exact .inr (.inr ⟨.inl ⟨hp, h0⟩, .inl ⟨hp, by omega⟩⟩)
  · rcases Nat.eq_or_lt_of_le h1 with h0 | h0
    · exact .inr (.inl ⟨hp, h0.symm⟩)
    · exact .inr (.inr ⟨.inr ⟨hp, h0⟩, .inr ⟨hp, by omega, by omega⟩⟩)

theorem addBit_lsb_lt {i v : Nat} (hv : v < 2 ^ i) (b : Bool) : addBit .lsb i v b < 2 ^ (i + 1) := by
  have := b.toNat_le
  rw [addBit_lsb hv, pow_succ]
  nlinarith

theorem addBit_msb (i v : Nat) (b : Bool) : addBit .msb i v b = 2 * v + b.toNat := by
  rw [addBit, ← Nat.shiftLeft_add_eq_or_of_lt (b.toNat_lt), Nat.shiftLeft_eq]
  ring

/-- The loop of `READ_BITS` on pending bits, first bit in bit 0 (R136). -/
theorem readBitsFrom_lsb {n i v : Nat} {s : State} (ho : s.cur.order = .lsb) (hv : v < 2 ^ i)
    (h : s.cur.noRefillFor n) (hsr : s.cur.sr < 2 ^ (2 * s.cur.width.bits)) :
    readBitsFrom .lsb n i v s = .ok (v + 2 ^ i * (s.cur.sr % 2 ^ n)) (s.withCur (s.cur.dropped n)) := by
  induction n generalizing i v s with
  | zero =>
    rw [Cursor.dropped_zero hsr, pow_zero, Nat.mod_one, Nat.mul_zero]
    rfl
  | succ n ih =>
    have hfront : s.cur.nextBit.toNat = s.cur.sr % 2 := by rw [Cursor.nextBit_toNat, Cursor.front, ho]
    have hrest : (s.cur.dropped 1).sr = s.cur.sr / 2 := by simp only [Cursor.dropped, ho, pow_one]
    rw [readBitsFrom, Eng.bind_ok (readBit_pending h.first),
      ih (s := s.withCur (s.cur.dropped 1)) ho (addBit_lsb_lt hv _) h.rest (Cursor.dropped_sr_lt hsr 1),
      addBit_lsb hv, hfront, State.withCur_withCur, State.withCur_cur, Cursor.dropped_add, hrest,
      Nat.add_comm 1 n, pow_succ' 2 n, Nat.mod_mul]
    congr 1
    ring

/-- The top bits of a register of `w` bits: its top bit, then the top bits of what is left of it. -/
theorem div_two_pow_top {w n sr : Nat} (hn : n + 1 ≤ w) :
    sr / 2 ^ (w - (n + 1)) = 2 ^ n * (sr / 2 ^ (w - 1)) + sr * 2 % 2 ^ w / 2 ^ (w - n) := by
  obtain ⟨k, rfl⟩ := Nat.exists_eq_add_of_le hn
  have h1 : n + 1 + k - (n + 1) = k := by omega
  have h2 : n + 1 + k - 1 = k + n := by omega
  have h3 : n + 1 + k - n = k + 1 := by omega
  have h4 : n + 1 + k = k + n + 1 := by omega
  have hrest : sr * 2 % 2 ^ (k + n + 1) / 2 ^ (k + 1) = sr / 2 ^ k % 2 ^ n := by
    rw [pow_succ, Nat.mul_mod_mul_right, pow_succ 2 k, Nat.mul_div_mul_right _ _ Nat.two_pos, pow_add,
      Nat.mod_mul_right_div_self]
  rw [h1, h2, h3, h4, hrest, pow_add, ← Nat.div_div_eq_div_mul, Nat.div_add_mod]

/-- The loop of `READ_BITS` on pending bits, first bit the most significant (R136). -/
theorem readBitsFrom_msb {n i v : Nat} {s : State} (ho : s.cur.order = .msb) (hn : n ≤ 2 * s.cur.width.bits)
    (h : s.cur.noRefillFor n) (hsr : s.cur.sr < 2 ^ (2 * s.cur.width.bits)) :
    readBitsFrom .msb n i v s =
      .ok (2 ^ n * v + s.cur.sr / 2 ^ (2 * s.cur.width.bits - n)) (s.withCur (s.cur.dropped n)) := by
  induction n generalizing i v s with
  | zero =>
    rw [Cursor.dropped_zero hsr, Nat.sub_zero, Nat.div_eq_of_lt hsr, pow_zero, Nat.one_mul]
    rfl
  | succ n ih =>
    have htop : s.cur.sr / 2 ^ (2 * s.cur.width.bits - 1) < 2 := by
      rwa [Nat.div_lt_iff_lt_mul (Nat.two_pow_pos _), ← pow_succ', Nat.sub_add_cancel (by omega)]
    have hfront : s.cur.nextBit.toNat = s.cur.sr / 2 ^ (2 * s.cur.width.bits - 1) := by
      rw [Cursor.nextBit_toNat, Cursor.front, ho]
      exact Nat.mod_eq_of_lt htop
    have hrest : (s.cur.dropped 1).sr = s.cur.sr * 2 % 2 ^ (2 * s.cur.width.bits) := by
      simp only [Cursor.dropped, ho, pow_one]
    have hwidth : (s.cur.dropped 1).width = s.cur.width := rfl
    rw [readBitsFrom, Eng.bind_ok (readBit_pending h.first),
      ih (s := s.withCur (s.cur.dropped 1)) ho (Nat.le_of_succ_le hn) h.rest (Cursor.dropped_sr_lt hsr 1),
      addBit_msb, hfront, State.withCur_withCur, State.withCur_cur, Cursor.dropped_add, hrest, hwidth,
      Nat.add_comm 1 n, div_two_pow_top hn]
    congr 1
    ring

/-- The loop of `READ_BITS` raises where it needs a word that does not lie in the range; the state it raises in
differs from the first one in the cursor alone. -/
theorem readBitsFrom_underrun {order : BitOrder} {n i v : Nat} {s : State} (h : s.cur.refillWithin n)
    (hf : s.cur.fin < s.cur.pos + s.cur.width.bytes) :
    ∃ c, readBitsFrom order n i v s = .error (.raise .bitstreamUnderrun) (s.withCur c) := by
  induction n generalizing i v s with
  | zero => rcases h with ⟨-, h⟩ | ⟨-, h1, h⟩ <;> omega
  | succ n ih =>
    rw [readBitsFrom]
    rcases h.cases with h0 | h0 | ⟨h1, hrest⟩
    · exact (readBit_underrun (.inl h0) hf).imp fun _ => Eng.bind_error
    · exact (readBit_underrun (.inr h0) hf).imp fun _ => Eng.bind_error
    · rw [Eng.bind_ok (readBit_pending h1)]
      exact ih (s := s.withCur (s.cur.dropped 1)) hrest hf

theorem readBits_eq {n : Nat} {s : State} (hn : n ≤ s.cur.width.bits) :
    readBits n s = readBitsFrom s.cur.order n 0 0 s := by
  rw [readBits, getCur_bind, ensure_bind_pos hn]

/-- `READ_BITS` of pending bits, first bit in bit 0 (R136). -/
theorem readBits_lsb {n : Nat} {s : State} (ho : s.cur.order = .lsb) (hn : n ≤ s.cur.width.bits)
    (h : s.cur.noRefillFor n) (hsr : s.cur.sr < 2 ^ (2 * s.cur.width.bits)) :
    readBits n s = .ok (s.cur.sr % 2 ^ n) (s.withCur (s.cur.dropped n)) := by
  rw [readBits_eq hn, ho, readBitsFrom_lsb ho Nat.one_pos h hsr, Nat.zero_add, pow_zero, Nat.one_mul]

/-- `READ_BITS` of pending bits, first bit the most significant (R136). -/
theorem readBits_msb {n : Nat} {s : State} (ho : s.cur.order = .msb) (hn : n ≤ s.cur.width.bits)
    (h : s.cur.noRefillFor n) (hsr : s.cur.sr < 2 ^ (2 * s.cur.width.bits)) :
    readBits n s = .ok (s.cur.sr / 2 ^ (2 * s.cur.width.bits - n)) (s.withCur (s.cur.dropped n)) := by
  rw [readBits_eq hn, ho, readBitsFrom_msb ho (by omega) h hsr, Nat.mul_zero, Nat.zero_add]

/-- `READ_BITS` into a word that does not lie in the range (R136, R143). -/
theorem exec_readBits_underrun {n : Nat} {s : State} (hn : n ≤ s.cur.width.bits) (h : s.cur.refillWithin n)
    (hf : s.cur.fin < s.cur.pos + s.cur.width.bytes) :
    exec (.readBits n) s = .next (s.errorEntry .bitstreamUnderrun) := by
  obtain ⟨c, hc⟩ := readBitsFrom_underrun h hf (order := s.cur.order) (i := 0) (v := 0)
  rw [← s.errorEntry_withCur c]
  exact runMeaning_bind_raise ((readBits_eq hn).trans hc)

/-! ## A word loaded before it is needed -/

theorem State.nextWord.leNat_lt {s : State} {bytes : List Byte} (h : s.nextWord bytes) :
    leNat bytes < 2 ^ s.cur.width.bits := by
  rw [← RefillWidth.pow_bytes, ← h.1]
  exact Machine.leNat_lt bytes

theorem Cursor.withWord_nextBit {c : Cursor} (ho : c.order = .lsb) (h : 1 ≤ c.cnt) (w : Nat) :
    (c.withWord w).nextBit = c.nextBit := by
  have hbit : (w <<< c.cnt).testBit 0 = false := by
    rw [Nat.testBit_shiftLeft, decide_eq_false (Nat.not_le.2 h), Bool.false_and]
  simp only [Cursor.nextBit, Cursor.withWord, ho, Nat.testBit_or, hbit, Bool.or_false]

theorem Cursor.withWord_dropped_one {c : Cursor} (ho : c.order = .lsb) (h : 1 ≤ c.cnt) (w : Nat) :
    (c.withWord w).dropped 1 = (c.dropped 1).withWord w := by
  have hsr : (c.sr ||| w <<< c.cnt) / 2 ^ 1 = c.sr / 2 ^ 1 ||| w <<< (c.cnt - 1) := by
    obtain ⟨k, hk⟩ := Nat.exists_eq_add_of_le' h
    simp only [← Nat.shiftRight_eq_div_pow, Nat.shiftRight_or_distrib]
    rw [hk, Nat.add_sub_cancel, Nat.shiftLeft_add, Nat.shiftLeft_shiftRight]
  have hcnt : c.cnt + c.width.bits - 1 = c.cnt - 1 + c.width.bits := by omega
  simp only [Cursor.withWord, Cursor.dropped, ho, hsr, hcnt]

/-- Under `on_demand` a word that a read will need can as well be loaded before the read: its bits lie above
the pending ones. -/
theorem readBitsFrom_prefetch {n i v : Nat} {s : State} {bytes : List Byte} (ho : s.cur.order = .lsb)
    (hp : s.cur.policy = .onDemand) (h : s.cur.cnt < n) (hw : s.nextWord bytes) :
    readBitsFrom .lsb n i v s = readBitsFrom .lsb n i v (s.withCur (s.cur.withWord (leNat bytes))) := by
  induction n generalizing i v s with
  | zero => exact absurd h (Nat.not_lt_zero _)
  | succ n ih =>
    have hload : readBit (s.withCur (s.cur.withWord (leNat bytes))) = .ok _ _ :=
      readBit_pending (.inl ⟨hp, (RefillWidth.bits_pos _).trans_le (Nat.le_add_left _ _)⟩)
    rw [readBitsFrom, Eng.bind_ok hload]
    rcases Nat.eq_zero_or_pos s.cur.cnt with h0 | h1
    · rw [Eng.bind_ok (readBit_onDemand_refill hp h0 hw)]
      rfl
    · have hrest : (s.cur.dropped 1).cnt < n := by
        change s.cur.cnt - 1 < n
        omega
      rw [Eng.bind_ok (readBit_pending (.inl ⟨hp, h1⟩)),
        ih (s := s.withCur (s.cur.dropped 1)) ho hp hrest (State.nextWord_withCur hw rfl rfl rfl)]
      simp only [State.withCur_cur, State.withCur_withCur, Cursor.withWord_nextBit ho h1,
        Cursor.withWord_dropped_one ho h1]

/-- `READ_BITS` that needs the next word, first bit in bit 0 (R136). -/
theorem readBits_lsb_refill {n : Nat} {s : State} {bytes : List Byte} (ho : s.cur.order = .lsb)
    (hp : s.cur.policy = .onDemand) (hclean : (s.cur.withWord (leNat bytes)).clean) (hn : n ≤ s.cur.width.bits)
    (h : s.cur.cnt < n) (hw : s.nextWord bytes) :
    readBits n s = .ok ((s.cur.withWord (leNat bytes)).sr % 2 ^ n)
      (s.withCur ((s.cur.withWord (leNat bytes)).dropped n)) := by
  have hcnt : n ≤ (s.cur.withWord (leNat bytes)).cnt := hn.trans (Nat.le_add_left _ _)
  rw [readBits_eq hn, ho, readBitsFrom_prefetch ho hp h hw,
    readBitsFrom_lsb (s := s.withCur (s.cur.withWord (leNat bytes))) ho Nat.one_pos (.inl ⟨hp, hcnt⟩) hclean.sr_lt,
    Nat.zero_add, pow_zero, Nat.one_mul]
  rfl

/-- `REFILL` (R133) where its precondition holds: a next word, an underrun, or a byte that nothing has written. -/
theorem refill_cases {s : State} (h : s.cur.cnt < s.cur.width.bits) :
    (∃ bytes, s.nextWord bytes) ∨ s.cur.fin < s.cur.pos + s.cur.width.bytes ∨
      ∃ f t, refill s = .error (.fault f) t := by
  by_cases hf : s.cur.fin < s.cur.pos + s.cur.width.bytes
  · exact .inr (.inl hf)
  · have hin : refill s = (inLe s.cur.pos s.cur.width.bytes >>= fun w => setCur (s.cur.load w)) s := by
      rw [refill, getCur_bind, ensure_bind_pos h, require_bind_pos (Nat.not_lt.1 hf)]
    cases hread : inLe s.cur.pos s.cur.width.bytes s with
    | ok w t =>
      obtain ⟨-, bytes, hlen, hhas, -⟩ := inLe_eq_ok hread
      exact .inl ⟨bytes, hlen, Nat.not_lt.1 hf, hhas⟩
    | error e t =>
      cases e with
      | raise k => exact (Raises.inLe (K := fun _ => False) _ _ _ _ _ hread).elim
      | fault f => exact .inr (.inr ⟨f, t, hin.trans (Eng.bind_error hread)⟩)

/-! ## Peeks -/

section Peek

variable {s : State} {n : Nat}

/-- `PEEK_BITS` in its domain (R137): a refill if too few bits are pending, then the low bits. -/
theorem peekBits_eq (ho : s.cur.order = .lsb) (hp : s.cur.policy = .onDemand) (hn : n ≤ s.cur.width.bits) :
    peekBits n s = ((if s.cur.cnt < n then refill else pure ()) >>= fun _ =>
      getCur >>= fun c => pure (c.sr % 2 ^ n)) s := by
  simp only [peekBits, getCur_bind]
  rw [ensure_bind_pos ⟨ho, hp, hn⟩]
  simp only [Nat.one_shiftLeft, Nat.and_two_pow_sub_one_eq_mod]
  split <;> rfl

theorem peekBits_pending (ho : s.cur.order = .lsb) (hp : s.cur.policy = .onDemand)
    (hn : n ≤ s.cur.width.bits) (h : n ≤ s.cur.cnt) : peekBits n s = .ok (s.cur.sr % 2 ^ n) s := by
  rw [peekBits_eq ho hp hn, if_neg (Nat.not_lt.2 h)]
  rfl

theorem peekBits_refill {bytes : List Byte} (ho : s.cur.order = .lsb) (hp : s.cur.policy = .onDemand)
    (hn : n ≤ s.cur.width.bits) (h : s.cur.cnt < n) (hw : s.nextWord bytes) :
    peekBits n s = .ok ((s.cur.withWord (leNat bytes)).sr % 2 ^ n) (s.withCur (s.cur.withWord (leNat bytes))) := by
  rw [peekBits_eq ho hp hn, if_pos h, Eng.bind_ok (refill_ok (h.trans_le hn) hw)]
  rfl

/-- What stops the refill of `PEEK_BITS` stops `PEEK_BITS`. -/
theorem peekBits_error {e : Stop} {t : State} (ho : s.cur.order = .lsb) (hp : s.cur.policy = .onDemand)
    (hn : n ≤ s.cur.width.bits) (h : s.cur.cnt < n) (he : refill s = .error e t) :
    peekBits n s = .error e t := by
  rw [peekBits_eq ho hp hn, if_pos h, Eng.bind_error he]

/-- A clean cursor in the domain of `PEEK_BITS`: the peek leaves a register `c` with enough pending bits, whose low
bits `READ_BITS` reads; or the word that both need does not lie in the range; or it has not been written. -/
theorem peekBits_cases (ho : s.cur.order = .lsb) (hp : s.cur.policy = .onDemand) (hclean : s.cur.clean)
    (hn : n ≤ s.cur.width.bits) :
    (∃ c, n ≤ c.cnt ∧ c.clean ∧ peekBits n s = .ok (c.sr % 2 ^ n) (s.withCur c) ∧
      readBits n s = .ok (c.sr % 2 ^ n) (s.withCur (c.dropped n))) ∨
    (s.cur.cnt < n ∧ s.cur.fin < s.cur.pos + s.cur.width.bytes) ∨
    ∃ f t, peekBits n s = .error (.fault f) t := by
  rcases Nat.lt_or_ge s.cur.cnt n with hcnt | hcnt
  · have hroom := hcnt.trans_le hn
    rcases refill_cases hroom with ⟨bytes, hw⟩ | hf | ⟨f, t, hfault⟩
    · have hload := Cursor.clean_withWord hclean hroom hw.leNat_lt
      exact .inl ⟨s.cur.withWord (leNat bytes), hn.trans (Nat.le_add_left _ _), hload,
        peekBits_refill ho hp hn hcnt hw, readBits_lsb_refill ho hp hload hn hcnt hw⟩
    · exact .inr (.inl ⟨hcnt, hf⟩)
    · exact .inr (.inr ⟨f, t, peekBits_error ho hp hn hcnt hfault⟩)
  · exact .inl ⟨s.cur, hcnt, hclean, peekBits_pending ho hp hn hcnt,
      readBits_lsb ho hn (.inl ⟨hp, hcnt⟩) hclean.sr_lt⟩

end Peek

end Sys2Proof.Machine
end

section
/-! SUPPORT. Multi-bit reads of the CWC cursor (R136) against the control bits of the stream as a list, most
significant bit first: a cursor in order holds a list of bits at the top of its register, a refill appends a word to
it and a consumed bit is its head, whichever policy says when (R33, R135). -/

namespace Sys2Proof.Machine

open Sys2Proof

/-! ## Bits as a number -/

theorem msbNat_lt (bits : List Bool) : msbNat bits < 2 ^ bits.length := by
  induction bits with
  | nil => exact Nat.one_pos
  | cons b bits ih =>
    have := b.toNat_le
    rw [msbNat_cons, List.length_cons, pow_succ]
    nlinarith

/-- At the top of 64 bits there is room for at most 64. -/
theorem msbNat_top_lt {bits : List Bool} (h : bits.length ≤ 64) : msbNat bits * 2 ^ (64 - bits.length) < 2 ^ 64 := by
  calc msbNat bits * 2 ^ (64 - bits.length) < 2 ^ bits.length * 2 ^ (64 - bits.length) :=
        Nat.mul_lt_mul_of_pos_right (msbNat_lt bits) (Nat.two_pow_pos _)
    _ = 2 ^ 64 := by rw [← pow_add, Nat.add_sub_cancel' h]

theorem bitsMsbFirst_msbNat (bits : List Bool) : bitsMsbFirst bits.length (msbNat bits) = bits := by
  induction bits with
  | nil => rfl
  | cons b bits ih =>
    rw [msbNat_cons, Nat.mul_comm, List.length_cons, bitsMsbFirst_leading b (msbNat_lt bits), ih]

/-- The first bit is the most significant. -/
theorem msbNat_testBit (b : Bool) (bits : List Bool) : (msbNat (b :: bits)).testBit bits.length = b :=
  (List.cons.inj (bitsMsbFirst_msbNat (b :: bits))).1

theorem msbNat_append (xs ys : List Bool) : msbNat (xs ++ ys) = msbNat xs * 2 ^ ys.length + msbNat ys := by
  induction xs with
  | nil => simp
  | cons x xs ih =>
    rw [List.cons_append, msbNat_cons, ih, msbNat_cons, List.length_append, pow_add]
    ring

theorem State.inHas_append (s : State) (a : Nat) (xs ys : List Byte) :
    s.inHas a (xs ++ ys) ↔ s.inHas a xs ∧ s.inHas (a + xs.length) ys := by
  induction xs generalizing a with
  | nil => simp [State.inHas]
  | cons x xs ih =>
    simp only [List.cons_append, State.inHas, ih, List.length_cons, and_assoc, Nat.add_assoc,
      Nat.add_comm 1 xs.length]

/-! ## A register that holds a list of bits -/

/-- The cursor at a byte position, with the given bits pending at the top of a register of 64 bits (R33). -/
def Cursor.holding (c : Cursor) (pos : Nat) (bits : List Bool) : Cursor :=
  { c with pos := pos, sr := msbNat bits * 2 ^ (64 - bits.length), cnt := bits.length }

section Holding

variable (c : Cursor) (pos : Nat) (bits : List Bool)

@[simp] theorem Cursor.holding_pos : (c.holding pos bits).pos = pos := rfl
@[simp] theorem Cursor.holding_fin : (c.holding pos bits).fin = c.fin := rfl
@[simp] theorem Cursor.holding_order : (c.holding pos bits).order = c.order := rfl
@[simp] theorem Cursor.holding_width : (c.holding pos bits).width = c.width := rfl
@[simp] theorem Cursor.holding_policy : (c.holding pos bits).policy = c.policy := rfl
@[simp] theorem Cursor.holding_cnt : (c.holding pos bits).cnt = bits.length := rfl

/-- What is held is what is pending. -/
@[simp] theorem Cursor.pendingBits_holding : (c.holding pos bits).pendingBits = bits := by
  rw [Cursor.pendingBits]
  change bitsMsbFirst bits.length (msbNat bits * 2 ^ (64 - bits.length) / 2 ^ (64 - bits.length)) = bits
  rw [Nat.mul_div_cancel _ (Nat.two_pow_pos _), bitsMsbFirst_msbNat]

end Holding

section Register

variable {c : Cursor} {pos : Nat} {bits : List Bool}

/-- A clean register of the CWC profile holds its pending bits (R33). -/
theorem Cursor.holding_pendingBits (ho : c.order = .msb) (hw : c.width = .w32) (h : c.clean) :
    c.holding c.pos c.pendingBits = c := by
  obtain ⟨base, fin, order, width, policy, pos, sr, cnt⟩ := c
  obtain rfl : order = .msb := ho
  obtain rfl : width = .w32 := hw
  obtain ⟨hcnt, hlt, hdvd⟩ := h
  have hcnt : cnt ≤ 63 := hcnt
  have hlt : sr < 2 ^ 64 := hlt
  have hdvd : 2 ^ (64 - cnt) ∣ sr := hdvd
  have htop : sr / 2 ^ (64 - cnt) < 2 ^ cnt := by
    rwa [Nat.div_lt_iff_lt_mul (Nat.two_pow_pos _), ← pow_add, Nat.add_sub_cancel' (by omega)]
  simp only [Cursor.holding, Cursor.pendingBits, bitsMsbFirst_length, msbNat_bitsMsbFirst, Nat.mod_eq_of_lt htop,
    Nat.div_mul_cancel hdvd]

theorem Cursor.holding_clean (ho : c.order = .msb) (hw : c.width = .w32) (h : bits.length ≤ 63) :
    (c.holding pos bits).clean := by
  simp only [Cursor.clean, Cursor.holding_order, Cursor.holding_width, ho, hw]
  exact ⟨h, msbNat_top_lt (by omega), Nat.dvd_mul_left _ _⟩

/-- The head of the list is the next bit. -/
theorem Cursor.holding_nextBit {b : Bool} (ho : c.order = .msb) (hw : c.width = .w32) (h : bits.length ≤ 63) :
    (c.holding pos (b :: bits)).nextBit = b := by
  simp only [Cursor.nextBit, Cursor.holding, ho, hw]
  change (msbNat (b :: bits) * 2 ^ (64 - (bits.length + 1))).testBit 63 = b
  have hbit : 63 - (64 - (bits.length + 1)) = bits.length := by omega
  rw [Nat.testBit_mul_two_pow, hbit, msbNat_testBit, decide_eq_true (by omega), Bool.true_and]

/-- Consuming a bit leaves the tail. -/
theorem Cursor.holding_dropped_one {b : Bool} (ho : c.order = .msb) (hw : c.width = .w32) (h : bits.length ≤ 63) :
    (c.holding pos (b :: bits)).dropped 1 = c.holding pos bits := by
  have hone : 64 - (bits.length + 1) + 1 = 64 - bits.length := by omega
  have hall : bits.length + (64 - bits.length) = 64 := by omega
  have hsr : msbNat (b :: bits) * 2 ^ (64 - (bits.length + 1)) * 2 ^ 1 % 2 ^ 64 =
      msbNat bits * 2 ^ (64 - bits.length) := by
    rw [Nat.mul_assoc, ← pow_add, hone, msbNat_cons, Nat.add_mul, Nat.mul_assoc, ← pow_add, hall,
      Nat.mul_add_mod_self_right, Nat.mod_eq_of_lt (msbNat_top_lt (by omega))]
  simp only [Cursor.dropped, Cursor.holding, ho, hw, List.length_cons, Nat.add_sub_cancel]
  rw [show 2 * RefillWidth.w32.bits = 64 from rfl, hsr]

/-- A refill appends the bits of the word (R133, R131). -/
theorem Cursor.holding_withWord (ho : c.order = .msb) (hw : c.width = .w32) (h : bits.length ≤ 32) {w : Nat}
    (hlt : w < 2 ^ 32) : (c.holding pos bits).withWord w = c.holding (pos + 4) (bits ++ bitsMsbFirst 32 w) := by
  have hfree : 64 - bits.length = 32 + (32 - bits.length) := by omega
  have hleft : 64 - (bits.length + 32) = 32 - bits.length := by omega
  have hword : w * 2 ^ (32 - bits.length) < 2 ^ (64 - bits.length) := by
    rw [hfree, pow_add]
    exact Nat.mul_lt_mul_of_pos_right hlt (Nat.two_pow_pos _)
  have hsr : msbNat bits * 2 ^ (64 - bits.length) ||| w <<< (32 - bits.length) =
      msbNat (bits ++ bitsMsbFirst 32 w) * 2 ^ (64 - (bits ++ bitsMsbFirst 32 w).length) := by
    rw [← Nat.shiftLeft_eq, Nat.shiftLeft_eq w, ← Nat.shiftLeft_add_eq_or_of_lt hword, Nat.shiftLeft_eq,
      List.length_append, bitsMsbFirst_length, hleft, hfree, msbNat_append, bitsMsbFirst_length,
      msbNat_bitsMsbFirst, Nat.mod_eq_of_lt hlt, pow_add]
    ring
  have hcnt : (bits ++ bitsMsbFirst 32 w).length = bits.length + 32 := by simp
  simp only [Cursor.withWord, Cursor.holding, ho, hw]
  rw [← hsr, hcnt]
  rfl

/-- The first pending bit is the next one, the others are what is left. -/
theorem Cursor.cwcOk.pending_cons {b : Bool} (h : c.cwcOk) (hbits : c.pendingBits = b :: bits) :
    c.nextBit = b ∧ c.dropped 1 = c.holding c.pos bits := by
  obtain ⟨ho, hw, hclean, -⟩ := h
  have hcur : c = c.holding c.pos (b :: bits) := by rw [← hbits, Cursor.holding_pendingBits ho hw hclean]
  have hlen : bits.length ≤ 63 := by
    have hcnt : c.cnt = bits.length + 1 := congrArg Cursor.cnt hcur
    have := hclean.1
    rw [hw, RefillWidth.bits] at this
    omega
  exact ⟨(congrArg Cursor.nextBit hcur).trans (Cursor.holding_nextBit ho hw hlen),
    (congrArg (Cursor.dropped · 1) hcur).trans (Cursor.holding_dropped_one ho hw hlen)⟩

/-- A refill of a cursor in order appends the bits of the word to the pending ones. -/
theorem Cursor.cwcOk.withWord (h : c.cwcOk) (hcnt : c.cnt ≤ 32) {w : Nat} (hlt : w < 2 ^ 32) :
    c.withWord w = c.holding (c.pos + 4) (c.pendingBits ++ bitsMsbFirst 32 w) := by
  obtain ⟨ho, hw, hclean, -⟩ := h
  rw [← Cursor.holding_withWord ho hw (by rwa [Cursor.pendingBits_length]) hlt,
    Cursor.holding_pendingBits ho hw hclean]

end Register

/-! ## The control bits before the cursor -/

theorem State.cwcBits_add (s : State) (q r : Nat) : s.cwcBits (q + r) = s.cwcBits q ++
    (List.range r).flatMap fun j => bitsMsbFirst 32 (leNat (s.bytesAt (s.cur.pos + 4 * q + 4 * j) 4)) := by
  simp [State.cwcBits, List.range_add, List.flatMap_append, List.flatMap_map, Nat.mul_add, Nat.add_assoc]

/-- The words loaded leave no bit missing. -/
theorem Cursor.le_loadsFor (c : Cursor) (n : Nat) : n ≤ c.cnt + 32 * c.loadsFor n := by
  unfold Cursor.loadsFor
  split <;> omega

theorem State.cwcSkip_eq (s : State) (n : Nat) : s.cwcSkip n =
    s.cur.holding (s.cur.pos + 4 * s.cur.loadsFor n) ((s.cwcBits (s.cur.loadsFor n)).drop n) := rfl

theorem State.cwcSkip_cnt (s : State) (n : Nat) : (s.cwcSkip n).cnt = s.cur.cnt + 32 * s.cur.loadsFor n - n := by
  simp [State.cwcSkip_eq]

theorem State.loadsFor_cwcSkip (s : State) (m n : Nat) :
    s.cur.loadsFor m + (s.cwcSkip m).loadsFor n = s.cur.loadsFor (m + n) := by
  have hpol : (s.cwcSkip m).policy = s.cur.policy := rfl
  have hcnt := s.cwcSkip_cnt m
  simp only [Cursor.loadsFor, hpol] at hcnt ⊢
  cases hp : s.cur.policy <;> simp only [hp] at hcnt ⊢ <;> omega

/-- What lies before the cursor after some bits have been consumed is what lay behind them. -/
theorem State.cwcBits_skip (s : State) (m q : Nat) :
    (s.withCur (s.cwcSkip m)).cwcBits q = (s.cwcBits (s.cur.loadsFor m + q)).drop m := by
  rw [State.cwcBits_add, List.drop_append_of_le_length (by simpa using s.cur.le_loadsFor m)]
  simp only [State.cwcBits, State.withCur_cur, State.cwcSkip_eq, Cursor.pendingBits_holding, Cursor.holding_pos]
  rfl

theorem State.cwcSkip_skip (s : State) (m n : Nat) : (s.withCur (s.cwcSkip m)).cwcSkip n = s.cwcSkip (m + n) := by
  have hpos : (s.cwcSkip m).pos + 4 * (s.cwcSkip m).loadsFor n = s.cur.pos + 4 * s.cur.loadsFor (m + n) := by
    have := s.loadsFor_cwcSkip m n
    have : (s.cwcSkip m).pos = s.cur.pos + 4 * s.cur.loadsFor m := rfl
    omega
  rw [State.cwcSkip_eq, State.withCur_cur, hpos, State.cwcBits_skip, State.loadsFor_cwcSkip, List.drop_drop]
  rfl

theorem State.cwcCtl_length (s : State) (n : Nat) : (s.cwcCtl n).length = n := by
  simpa [State.cwcCtl] using s.cur.le_loadsFor n

/-- The first control bits, then those before the cursor that they leave. -/
theorem State.cwcCtl_add (s : State) (m n : Nat) :
    s.cwcCtl (m + n) = s.cwcCtl m ++ (s.withCur (s.cwcSkip m)).cwcCtl n := by
  have hfirst : (s.cwcBits (s.cur.loadsFor m + (s.cwcSkip m).loadsFor n)).take m = s.cwcCtl m := by
    rw [State.cwcBits_add, List.take_append_of_le_length (by simpa using s.cur.le_loadsFor m), State.cwcCtl]
  rw [State.cwcCtl, List.take_add, ← State.loadsFor_cwcSkip, hfirst, ← State.cwcBits_skip]
  rfl

theorem State.cwcSkip_zero {s : State} (h : s.cur.cwcOk) : s.cwcSkip 0 = s.cur := by
  obtain ⟨ho, hw, hclean, hone⟩ := h
  have hloads : s.cur.loadsFor 0 = 0 := by
    unfold Cursor.loadsFor
    cases hp : s.cur.policy with
    | onDemand => simp
    | onExhaust =>
      have := hone hp
      simp only
      omega
  rw [State.cwcSkip_eq, hloads, State.cwcBits_zero]
  exact Cursor.holding_pendingBits ho hw hclean

/-- A cursor in order stays in order: under `on_exhaust` the words loaded leave a bit pending (R35). -/
theorem Cursor.cwcOk.skip {s : State} (h : s.cur.cwcOk) (m : Nat) : (s.cwcSkip m).cwcOk := by
  obtain ⟨ho, hw, hclean, hone⟩ := h
  have hcnt : s.cur.cnt ≤ 63 := by simpa only [hw, RefillWidth.bits] using hclean.1
  refine ⟨ho, hw, Cursor.holding_clean ho hw ?few, fun hp => ?one⟩
  case few =>
    rw [List.length_drop, State.cwcBits_length]
    unfold Cursor.loadsFor
    split <;> omega
  case one =>
    have hp : s.cur.policy = .onExhaust := hp
    have := hone hp
    simp only [State.cwcSkip_cnt, Cursor.loadsFor, hp]
    omega

theorem State.cwcReady.skip {s : State} {m n : Nat} (h : s.cwcReady (m + n)) :
    (s.withCur (s.cwcSkip m)).cwcReady n := by
  obtain ⟨hok, hfin, hhas⟩ := h
  have hloads := s.loadsFor_cwcSkip m n
  have hpos : (s.cwcSkip m).pos = s.cur.pos + 4 * s.cur.loadsFor m := rfl
  refine ⟨hok.skip m, ?fin, ?has⟩
  case fin =>
    change (s.cwcSkip m).pos + 4 * (s.cwcSkip m).loadsFor n ≤ s.cur.fin
    omega
  case has =>
    rw [← hloads, Nat.mul_add, State.bytesAt_add, State.inHas_append, State.bytesAt_length] at hhas
    exact (State.inHas_withCur _ _ _ _).2 hhas.2

theorem State.cwcReady.mono {s : State} {m n : Nat} (h : s.cwcReady (m + n)) : s.cwcReady m := by
  obtain ⟨hok, hfin, hhas⟩ := h
  have hloads := s.loadsFor_cwcSkip m n
  rw [← hloads, Nat.mul_add, State.bytesAt_add, State.inHas_append] at hhas
  exact ⟨hok, by omega, hhas.1⟩

/-! ## Reads -/

theorem State.cwcBits_one (s : State) :
    s.cwcBits 1 = s.cur.pendingBits ++ bitsMsbFirst 32 (leNat (s.bytesAt s.cur.pos 4)) := by
  simp [State.cwcBits]

theorem State.leNat_bytesAt_four_lt (s : State) (a : Nat) : leNat (s.bytesAt a 4) < 2 ^ 32 := by
  have := leNat_lt (s.bytesAt a 4)
  rwa [State.bytesAt_length, show 256 ^ 4 = 2 ^ 32 from rfl] at this

/-- The word that a read of the CWC cursor loads. -/
theorem State.cwcReady.nextWord {s : State} {n : Nat} (h : s.cwcReady n) (hl : s.cur.loadsFor n = 1) :
    s.nextWord (s.bytesAt s.cur.pos 4) := by
  obtain ⟨⟨-, hw, -⟩, hfin, hhas⟩ := h
  rw [hl] at hfin hhas
  rw [State.nextWord, hw]
  exact ⟨State.bytesAt_length _ _ _, hfin, hhas⟩

/-- When a single bit is read without a refill, after one, or before one (R135). -/
theorem Cursor.cwcOk.readBit_cases {c : Cursor} (h : c.cwcOk) :
    (c.noRefillFor 1 ∧ c.loadsFor 1 = 0) ∨ (c.policy = .onDemand ∧ c.cnt = 0 ∧ c.loadsFor 1 = 1) ∨
      (c.policy = .onExhaust ∧ c.cnt = 1 ∧ c.loadsFor 1 = 1) := by
  obtain ⟨-, -, -, hone⟩ := h
  cases hp : c.policy with
  | onDemand =>
    rcases Nat.eq_zero_or_pos c.cnt with h0 | h1
    · exact .inr (.inl ⟨rfl, h0, by rw [Cursor.loadsFor, hp, h0]⟩)
    · exact .inl ⟨.inl ⟨hp, h1⟩, by simp only [Cursor.loadsFor, hp]; omega⟩
  | onExhaust =>
    rcases Nat.eq_or_lt_of_le (hone hp) with h1 | h2
    · exact .inr (.inr ⟨rfl, h1.symm, by rw [Cursor.loadsFor, hp, ← h1]⟩)
    · exact .inl ⟨.inr ⟨hp, h2⟩, by simp only [Cursor.loadsFor, hp]; omega⟩

/-- `READ_BIT` of the CWC cursor (R135) takes the head of the bits before it and leaves their tail. -/
theorem readBit_cwcBits {s : State} (h : s.cwcReady 1) : ∃ b rest, s.cwcBits (s.cur.loadsFor 1) = b :: rest ∧
    readBit s = .ok b (s.withCur (s.cur.holding (s.cur.pos + 4 * s.cur.loadsFor 1) rest)) := by
  have hok := h.1
  have ⟨ho, hw, _, _⟩ := hok
  have hlt := s.leNat_bytesAt_four_lt s.cur.pos
  rcases hok.readBit_cases with ⟨hp, hl⟩ | ⟨hp, h0, hl⟩ | ⟨hp, h1, hl⟩
  · obtain ⟨b, rest, hbits⟩ := List.exists_cons_of_length_pos (l := s.cur.pendingBits)
      (by rw [Cursor.pendingBits_length]; exact hp.elim And.right (Nat.le_of_lt ·.2))
    obtain ⟨hnext, hrest⟩ := hok.pending_cons hbits
    refine ⟨b, rest, by rw [hl, State.cwcBits_zero, hbits], ?_⟩
    rw [readBit_pending hp, hnext, hrest, hl, Nat.mul_zero, Nat.add_zero]
  · have hbits : s.cur.pendingBits = [] := List.eq_nil_of_length_eq_zero (s.cur.pendingBits_length.trans h0)
    have hword := hok.withWord (h0.trans_le (Nat.zero_le 32)) hlt
    rw [hbits, List.nil_append, bitsMsbFirst] at hword
    refine ⟨_, _, by rw [hl, State.cwcBits_one, hbits, List.nil_append, bitsMsbFirst], ?_⟩
    rw [readBit_onDemand_refill hp h0 (h.nextWord hl), hword, hl, Cursor.holding_nextBit ho hw (by simp),
      Cursor.holding_dropped_one ho hw (by simp)]
  · obtain ⟨b, hbits⟩ := List.length_eq_one_iff.1 (s.cur.pendingBits_length.trans h1)
    obtain ⟨hnext, hrest⟩ := hok.pending_cons hbits
    refine ⟨b, _, by rw [hl, State.cwcBits_one, hbits, List.singleton_append], ?_⟩
    rw [readBit_onExhaust_refill hp h1 (h.nextWord hl), hnext, hrest, hl,
      Cursor.holding_withWord (bits := []) ho hw (Nat.zero_le 32) hlt, List.nil_append]

/-- `READ_BIT` of the CWC cursor (R135): the next control bit. -/
theorem readBit_cwc {s : State} (h : s.cwcReady 1) :
    ∃ b, readBit s = .ok b (s.withCur (s.cwcSkip 1)) ∧ s.cwcCtl 1 = [b] := by
  obtain ⟨b, rest, hbits, hread⟩ := readBit_cwcBits h
  rw [State.cwcSkip_eq, State.cwcCtl, hbits]
  exact ⟨b, hread, rfl⟩

/-- The loop of `READ_BITS` on the CWC cursor: the bits to come go below those read before (R136). -/
theorem readBitsFrom_cwc {n i v : Nat} {s : State} (h : s.cwcReady n) :
    readBitsFrom .msb n i v s = .ok (v * 2 ^ n + msbNat (s.cwcCtl n)) (s.withCur (s.cwcSkip n)) := by
  induction n generalizing i v s with
  | zero =>
    rw [State.cwcSkip_zero h.1, State.cwcCtl, List.take_zero, pow_zero, Nat.mul_one]
    rfl
  | succ n ih =>
    rw [Nat.add_comm n 1] at h ⊢
    obtain ⟨b, hread, hb⟩ := readBit_cwc h.mono
    rw [Nat.add_comm 1 n, readBitsFrom, Eng.bind_ok hread, addBit_msb, ih h.skip, State.withCur_withCur,
      State.cwcSkip_skip, Nat.add_comm n 1, State.cwcCtl_add, hb, List.singleton_append, msbNat_cons,
      State.cwcCtl_length, pow_add]
    congr 1
    ring

/-- `READ_BITS(n)` of the CWC cursor (R136): the number of the next `n` control bits. -/
theorem readBits_cwc {n : Nat} {s : State} (hn : n ≤ 32) (h : s.cwcReady n) :
    readBits n s = .ok (msbNat (s.cwcCtl n)) (s.withCur (s.cwcSkip n)) := by
  obtain ⟨ho, hw, -⟩ := h.1
  rw [readBits_eq (by rw [hw]; exact hn), ho, readBitsFrom_cwc h, Nat.zero_mul, Nat.zero_add]

/-- A read that loads words starts with fewer pending bits than it needs (R135). -/
theorem Cursor.refillWithin_of_loadsFor {c : Cursor} {n : Nat} (hone : c.policy = .onExhaust → 1 ≤ c.cnt)
    (h : 1 ≤ c.loadsFor n) : c.refillWithin n := by
  unfold Cursor.loadsFor at h
  cases hp : c.policy with
  | onDemand => exact .inl ⟨hp, by simp only [hp] at h; omega⟩
  | onExhaust => exact .inr ⟨hp, hone hp, by simp only [hp] at h; omega⟩

end Sys2Proof.Machine
end

section
/-! PROOFS. The bit cursor: the statements O6 to O13. -/

namespace Sys2Proof.Machine

open Sys2Proof

/-- Settles O6: the two laws of `REFILL`, whose precondition a cursor just configured meets. -/
theorem refillAndPrimeLoadWord : Obligations.RefillAndPrimeLoadWord := by
  intro s bytes hcnt
  have hload (hw : s.nextWord bytes) : exec .refill s = .next (s.withCur (s.cur.withWord (leNat bytes))) :=
    runMeaning_ok (refill_ok hcnt hw)
  have hprime (h0 : s.cur.cnt = 0) (hpos : s.cur.pos = s.cur.base) : exec .prime s = exec .refill s := by
    have : prime s = refill s := by rw [prime, getCur_bind, ensure_bind_pos ⟨h0, hpos⟩]
    exact congrArg outcomeOf this
  refine ⟨hload, fun hf => runMeaning_raise (refill_underrun hcnt hf), hprime, fun h0 hpos hsr hw => ?first⟩
  case first =>
    rw [hprime h0 hpos, hload hw]
    cases ho : s.cur.order with
    | lsb => simp only [Cursor.withWord, ho, h0, hpos, hsr, Nat.zero_or, Nat.zero_add, Nat.shiftLeft_zero]
    | msb => simp only [Cursor.withWord, ho, h0, hpos, hsr, Nat.zero_or, Nat.zero_add, Nat.sub_zero, Nat.shiftLeft_eq]

/-- Settles O7, by the laws of `READ_BIT` with and without a refill. -/
theorem readBitUnderBothPolicies : Obligations.ReadBitUnderBothPolicies := by
  intro s bytes
  have hok {b : Bool} {t : State} (h : readBit s = .ok b t) : exec .readBit s = .next (t.withRes b.toNat) :=
    runMeaning_setRes h
  have hunder (h : (s.cur.policy = .onDemand ∧ s.cur.cnt = 0) ∨ (s.cur.policy = .onExhaust ∧ s.cur.cnt = 1))
      (hf : s.cur.fin < s.cur.pos + s.cur.width.bytes) :
      exec .readBit s = .next (s.errorEntry .bitstreamUnderrun) := by
    obtain ⟨c, hc⟩ := readBit_underrun h hf
    rw [← s.errorEntry_withCur c]
    exact runMeaning_bind_raise hc
  refine ⟨fun hp => ⟨fun h1 => ?_, fun h0 hw => ?_, fun h0 => hunder (.inl ⟨hp, h0⟩)⟩,
    fun hp => ⟨fun h2 => ?_, fun h1 hw => ?_, fun h1 => hunder (.inr ⟨hp, h1⟩)⟩⟩
  · rw [hok (readBit_pending (.inl ⟨hp, h1⟩)), Cursor.nextBit_toNat]
  · rw [hok (readBit_onDemand_refill hp h0 hw), Cursor.nextBit_toNat]
  · rw [hok (readBit_pending (.inr ⟨hp, h2⟩)), Cursor.nextBit_toNat]
  · rw [hok (readBit_onExhaust_refill hp h1 hw), Cursor.nextBit_toNat]

/-- Settles O8: the field of the next control bits, or the loop that runs into a missing word. -/
theorem readBitsLsbFirst : Obligations.ReadBitsLsbFirst := by
  intro s n hn
  refine ⟨fun h => runMeaning_setRes (readBits_ctl hn h), fun ⟨_, hw, hp⟩ hcnt hf => ?_⟩
  exact exec_readBits_underrun (by rw [hw]; exact hn) (.inl ⟨hp, hcnt⟩) (by rw [hw]; exact hf)

/-- Settles O11, by the laws of `PEEK_BITS` with and without a refill. -/
theorem peekBitsKeepsBits : Obligations.PeekBitsKeepsBits := by
  intro s n bytes ho hp hn
  exact ⟨fun h => runMeaning_setRes (peekBits_pending ho hp hn h),
    fun h hw => runMeaning_setRes (peekBits_refill ho hp hn h hw),
    fun h hf => runMeaning_bind_raise (peekBits_error ho hp hn h (refill_underrun (h.trans_le hn) hf))⟩

/-- Settles O12, by the law of `SKIP_BITS`. -/
theorem skipDropsAndRealignKeeps : Obligations.SkipDropsAndRealignKeeps :=
  fun _ _ => ⟨fun h hsr => runMeaning_ok (skipBits_ok h hsr), rfl⟩

/-- Settles O10: the read takes the bits that the peek has seen, a word that the peek loads being the one that the
read would load; and a word that is missing stops both. -/
theorem readBitsIsPeekThenSkip : Obligations.ReadBitsIsPeekThenSkip := by
  intro s t n ⟨ho, hw, hp⟩ hclean hn hbusy hpeek
  have hn : n ≤ s.cur.width.bits := by rw [hw]; exact hn
  rcases peekBits_cases ho hp hclean hn with ⟨c, hcnt, hc, hpeek', hread⟩ | ⟨hcnt, hf⟩ | ⟨f, u, hfault⟩
  · have hpeeked : exec (.peekBits n) s = .next ((s.withCur c).withRes (c.sr % 2 ^ n)) := runMeaning_setRes hpeek'
    have hr : exec (.readBits n) s = .next ((s.withCur (c.dropped n)).withRes (c.sr % 2 ^ n)) :=
      runMeaning_setRes hread
    cases hpeeked.symm.trans hpeek
    refine ⟨fun _ => ?_, fun hne => absurd hbusy hne⟩
    rw [hr]
    exact runMeaning_ok (skipBits_ok (s := (s.withCur c).withRes _) hcnt hc.sr_lt)
  · have hpeeked : exec (.peekBits n) s = .next (s.errorEntry .bitstreamUnderrun) :=
      runMeaning_bind_raise (peekBits_error ho hp hn hcnt (refill_underrun (hcnt.trans_le hn) hf))
    cases hpeeked.symm.trans hpeek
    exact ⟨nofun, fun _ => exec_readBits_underrun hn (.inl ⟨hp, hcnt⟩) hf⟩
  · have hpeeked : exec (.peekBits n) s = .fault f := runMeaning_bind_fault hfault
    cases hpeeked.symm.trans hpeek

/-- Settles O13, by the law of a byte-aligned field; the register that takes the field is as wide as the field. -/
theorem byteAlignedReads : Obligations.ByteAlignedReads := by
  intro s b0 b1 b2
  refine ⟨fun h => runMeaning_setRes (readByte_ok h), fun h => ?u16, fun h => ?u24,
    fun hf => runMeaning_bind_raise (readByte_underrun hf),
    fun hf => runMeaning_bind_raise (Eng.bind_error (readField_underrun hf)),
    fun hf => runMeaning_bind_raise (Eng.bind_error (readField_underrun hf))⟩
  case u16 =>
    have hrun : exec .readU16 s = .next _ := runMeaning_setRes (readU16_ok h)
    rw [hrun, toNat_u16]
    simp only [leNat, Nat.mul_zero, Nat.add_zero]
  case u24 =>
    have hrun : exec .readU24 s = .next _ := runMeaning_setRes (readU24_ok h)
    rw [hrun, toNat_u24]
    simp only [leNat, Nat.mul_zero, Nat.add_zero]
    congr 2
    ring

/-- Settles O9: the top of the register, or the list of the control bits to come, across a refill word by the
policy. -/
theorem readBitsMsbFirst : Obligations.ReadBitsMsbFirst := by
  intro s n
  refine ⟨fun ho hsr hn hcnt => ?pending, fun hn h => runMeaning_setRes (readBits_cwc hn h),
    fun hn hok hloads hf => ?underrun⟩
  case pending =>
    have hp : s.cur.noRefillFor n := by
      unfold Cursor.noRefillFor
      cases s.cur.policy
      · exact .inl ⟨rfl, hcnt.le⟩
      · exact .inr ⟨rfl, hcnt⟩
    exact runMeaning_setRes (readBits_msb ho hn hp hsr)
  case underrun =>
    obtain ⟨-, hw, -, hone⟩ := hok
    exact exec_readBits_underrun (by rw [hw]; exact hn) (Cursor.refillWithin_of_loadsFor hone hloads)
      (by rw [hw]; exact hf)

end Sys2Proof.Machine
end

section
/-! SUPPORT. The canonical assignment in closed form (R162 to R165): the codes of one length are the numbers from
`firstCode` up to `codesEnd`, a table is the list of its levels, and lengths have a table exactly where every level
ends within its length, which the last level decides. -/

namespace Sys2Proof.Machine

open Sys2Proof

/-! ## Mirrored codes (R164) -/

theorem revBits_lt (n x : Nat) : revBits n x < 2 ^ n := by
  induction n generalizing x with
  | zero => exact Nat.one_pos
  | succ n ih =>
    have hlow : revBits n (x / 2) < 2 ^ (n + 1) := (ih _).trans (Nat.pow_lt_pow_right Nat.one_lt_two n.lt_succ_self)
    have htop : (x % 2) <<< n < 2 ^ (n + 1) := by
      rw [Nat.shiftLeft_eq, pow_succ']
      exact Nat.mul_lt_mul_of_pos_right (Nat.mod_lt _ Nat.two_pos) (Nat.two_pow_pos n)
    exact Nat.or_lt_two_pow htop hlow

theorem testBit_revBits {n j : Nat} (h : j < n) (x : Nat) : (revBits n x).testBit j = x.testBit (n - 1 - j) := by
  induction n generalizing x with
  | zero => exact absurd h (Nat.not_lt_zero j)
  | succ n ih =>
    rw [revBits, Nat.testBit_or, Nat.testBit_shiftLeft]
    rcases Nat.lt_succ_iff_lt_or_eq.1 h with hj | rfl
    · have hpos : n + 1 - 1 - j = n - 1 - j + 1 := by omega
      rw [decide_eq_false (Nat.not_le.2 hj), Bool.false_and, Bool.false_or, ih hj, hpos, Nat.testBit_succ]
    · simp [Nat.testBit_lt_two_pow (revBits_lt j (x / 2)), Nat.testBit_zero]

/-- A mirrored code that has another one in its low bits: the code itself has the other one on top. -/
theorem div_eq_of_revBits_mod {m n x y : Nat} (hmn : m ≤ n) (hx : x < 2 ^ n) (hy : y < 2 ^ m)
    (h : revBits n x % 2 ^ m = revBits m y) : x / 2 ^ (n - m) = y := by
  have hdiv : x / 2 ^ (n - m) < 2 ^ m := by
    rwa [Nat.div_lt_iff_lt_mul (Nat.two_pow_pos _), ← pow_add, Nat.add_sub_cancel' hmn]
  refine Nat.eq_of_testBit_eq fun k => ?_
  rcases Nat.lt_or_ge k m with hk | hk
  · have hj : m - 1 - k < m := by omega
    have hbit := congrArg (fun v => v.testBit (m - 1 - k)) h
    have hxk : n - 1 - (m - 1 - k) = k + (n - m) := by omega
    have hyk : m - 1 - (m - 1 - k) = k := by omega
    simp only [Nat.testBit_mod_two_pow, hj, decide_true, Bool.true_and] at hbit
    rw [testBit_revBits (hj.trans_le hmn), testBit_revBits hj, hxk, hyk] at hbit
    rw [Nat.testBit_div_two_pow, hbit]
  · have hle := Nat.pow_le_pow_right Nat.two_pos hk
    rw [Nat.testBit_lt_two_pow (hdiv.trans_le hle), Nat.testBit_lt_two_pow (hy.trans_le hle)]

/-! ## The codes of a length (R163) -/

/-- The number behind the last code of length `l`. -/
def codesEnd (lens : List Nat) (l : Nat) : Nat := firstCode lens l + lens.count l

theorem firstCode_one (lens : List Nat) : firstCode lens 1 = 0 := rfl

theorem firstCode_succ (lens : List Nat) {l : Nat} (h : 1 ≤ l) : firstCode lens (l + 1) = 2 * codesEnd lens l := by
  rw [firstCode, if_neg (by omega), codesEnd]

theorem firstCode_le_codesEnd (lens : List Nat) (l : Nat) : firstCode lens l ≤ codesEnd lens l := Nat.le_add_right _ _

/-- Longer codes start no earlier than where the shorter ones end, at their own length. -/
theorem codesEnd_mul_le_firstCode (lens : List Nat) {l m : Nat} (hl : 1 ≤ l) (h : l < m) :
    codesEnd lens l * 2 ^ (m - l) ≤ firstCode lens m := by
  induction m, h using Nat.le_induction with
  | base => rw [firstCode_succ lens hl, show l.succ - l = 1 by omega, pow_one, Nat.mul_comm]
  | succ m h ih =>
    have hm : m + 1 - l = m - l + 1 := by omega
    rw [firstCode_succ lens (by omega), hm, pow_succ, ← Nat.mul_assoc, Nat.mul_comm]
    exact Nat.mul_le_mul_left 2 (ih.trans (firstCode_le_codesEnd lens m))

theorem canonicalCode_lt_codesEnd {lens : List Nat} {i l : Nat} (h : lens[i]? = some l) :
    canonicalCode lens i l < codesEnd lens l := by
  obtain ⟨hi, rfl⟩ := List.getElem?_eq_some_iff.1 h
  have hsplit := List.take_append_drop i lens
  rw [List.drop_eq_getElem_cons hi] at hsplit
  have hcount := congrArg (List.count lens[i]) hsplit
  rw [List.count_append, List.count_cons_self] at hcount
  simp only [canonicalCode, codesEnd]
  omega

/-- Codes of one length rise with the value. -/
theorem canonicalCode_lt {lens : List Nat} {i j l : Nat} (h : lens[i]? = some l) (hij : i < j) :
    canonicalCode lens i l < canonicalCode lens j l := by
  obtain ⟨hi, rfl⟩ := List.getElem?_eq_some_iff.1 h
  have hsub := (List.take_sublist_take_left (l := lens) (Nat.succ_le_of_lt hij)).count_le lens[i]
  rw [List.take_succ_eq_append_getElem hi, List.count_append, List.count_singleton_self] at hsub
  exact Nat.add_lt_add_left hsub _

/-- The order of the leaves: shorter codes first, equal lengths by value (R163). -/
def HuffLeaf.before (a b : HuffLeaf) : Prop := a.len < b.len ∨ a.len = b.len ∧ a.value < b.value

/-- A code is behind every code of an earlier leaf, and behind all its continuations. -/
theorem canonicalCode_div_lt {lens : List Nat} {a b : HuffLeaf} (h : lens[a.value]? = some a.len) (h1 : 1 ≤ a.len)
    (hab : a.before b) :
    canonicalCode lens a.value a.len < canonicalCode lens b.value b.len / 2 ^ (b.len - a.len) := by
  rcases hab with hlt | ⟨heq, hlt⟩
  · rw [Nat.lt_iff_add_one_le, Nat.le_div_iff_mul_le (Nat.two_pow_pos _)]
    calc (canonicalCode lens a.value a.len + 1) * 2 ^ (b.len - a.len)
        ≤ codesEnd lens a.len * 2 ^ (b.len - a.len) := Nat.mul_le_mul_right _ (canonicalCode_lt_codesEnd h)
      _ ≤ firstCode lens b.len := codesEnd_mul_le_firstCode lens h1 hlt
      _ ≤ canonicalCode lens b.value b.len := Nat.le_add_right _ _
  · rw [← heq, Nat.sub_self, pow_zero, Nat.div_one]
    exact canonicalCode_lt h hlt

/-! ## The levels of a table -/

/-- The leaf of value `i` at length `l`. -/
def canonicalLeaf (lens : List Nat) (l i : Nat) : HuffLeaf := ⟨revBits l (canonicalCode lens i l), l, i⟩

/-- The values from `i` on, `n` of them, that have length `l`. -/
def valuesOfLen (lens : List Nat) (l i n : Nat) : List Nat :=
  (List.range' i n).filter fun j => lens[j]? = some l

theorem valuesOfLen_succ (lens : List Nat) (l i n : Nat) : valuesOfLen lens l i (n + 1) =
    if lens[i]? = some l then i :: valuesOfLen lens l (i + 1) n else valuesOfLen lens l (i + 1) n := by
  simp only [valuesOfLen, List.range'_succ, List.filter_cons, decide_eq_true_eq]

/-- The leaves of length `l`. -/
def levelLeaves (lens : List Nat) (l : Nat) : List HuffLeaf :=
  (valuesOfLen lens l 0 lens.length).map (canonicalLeaf lens l)

theorem mem_levelLeaves {lens : List Nat} {l : Nat} {leaf : HuffLeaf} :
    leaf ∈ levelLeaves lens l ↔ ∃ i, lens[i]? = some l ∧ canonicalLeaf lens l i = leaf := by
  simp only [levelLeaves, valuesOfLen, List.mem_map, List.mem_filter, List.mem_range'_1, decide_eq_true_eq]
  refine exists_congr fun i => and_congr_left' (and_iff_right_of_imp fun h => ?_)
  exact ⟨i.zero_le, by simpa using (List.getElem?_eq_some_iff.1 h).1⟩

/-- One level of the assignment (R163, R165), from any value on: it fails exactly where the codes run out. -/
theorem assignLevel_eq (l : Nat) (pre suf : List Nat)
    (h : firstCode (pre ++ suf) l + pre.count l ≤ 2 ^ l) :
    assignLevel l suf pre.length (firstCode (pre ++ suf) l + pre.count l) =
      if codesEnd (pre ++ suf) l ≤ 2 ^ l then
        some (codesEnd (pre ++ suf) l,
          (valuesOfLen (pre ++ suf) l pre.length suf.length).map (canonicalLeaf (pre ++ suf) l))
      else none := by
  induction suf generalizing pre with
  | nil =>
    rw [assignLevel, if_pos (by rwa [List.append_nil] at h ⊢), List.append_nil]
    rfl
  | cons x suf ih =>
    have hsplit : pre ++ x :: suf = pre ++ [x] ++ suf := List.append_cons pre x suf
    have hx : (pre ++ x :: suf)[pre.length]? = some x := by simp
    have ih := ih (pre ++ [x])
    rw [← hsplit, List.length_append, List.length_singleton, List.count_append] at ih
    by_cases hxl : x = l
    · subst hxl
      rw [List.count_singleton_self, ← Nat.add_assoc] at ih
      have hcode : canonicalCode (pre ++ x :: suf) pre.length x =
          firstCode (pre ++ x :: suf) x + pre.count x := by
        rw [canonicalCode, List.take_left]
      rw [assignLevel, if_pos rfl]
      by_cases hfull : 2 ^ x ≤ firstCode (pre ++ x :: suf) x + pre.count x
      · have hend : ¬ codesEnd (pre ++ x :: suf) x ≤ 2 ^ x := by
          have := canonicalCode_lt_codesEnd hx
          omega
        rw [if_pos hfull, if_neg hend]
      · rw [if_neg hfull, ih (by omega), List.length_cons, valuesOfLen_succ, if_pos hx]
        by_cases hend : codesEnd (pre ++ x :: suf) x ≤ 2 ^ x
        · simp only [if_pos hend, Option.bind_eq_bind, Option.bind_some, List.map_cons, canonicalLeaf, hcode]
        · simp only [if_neg hend, Option.bind_eq_bind, Option.bind_none]
    · have hne : [x].count l = 0 := by simp [hxl]
      rw [hne, Nat.add_zero] at ih
      have hxi : (pre ++ x :: suf)[pre.length]? ≠ some l := by simp [hxl]
      rw [assignLevel, if_neg hxl, ih h, List.length_cons, valuesOfLen_succ, if_neg hxi]

/-- One level of the assignment, over all values. -/
theorem assignLevel_firstCode {lens : List Nat} {l : Nat} (h : firstCode lens l ≤ 2 ^ l) :
    assignLevel l lens 0 (firstCode lens l) =
      if codesEnd lens l ≤ 2 ^ l then some (codesEnd lens l, levelLeaves lens l) else none :=
  assignLevel_eq l [] lens h

/-- The assignment from level `l` on: it succeeds exactly where every level ends within its length. -/
theorem assignLevels_eq_some {lens : List Nat} {n l : Nat} {leaves : List HuffLeaf} (hl : 1 ≤ l)
    (h : firstCode lens l ≤ 2 ^ l) :
    assignLevels lens n l (firstCode lens l) = some leaves ↔
      (∀ k ∈ List.range' l n, codesEnd lens k ≤ 2 ^ k) ∧ leaves = (List.range' l n).flatMap (levelLeaves lens) := by
  induction n generalizing l leaves with
  | zero => simp [assignLevels, eq_comm]
  | succ n ih =>
    rw [assignLevels, assignLevel_firstCode h, List.range'_succ, List.forall_mem_cons, List.flatMap_cons]
    by_cases hend : codesEnd lens l ≤ 2 ^ l
    · have hnext : codesEnd lens l * 2 = firstCode lens (l + 1) := by rw [firstCode_succ lens hl, Nat.mul_comm]
      have hle : firstCode lens (l + 1) ≤ 2 ^ (l + 1) := by
        rw [← hnext, pow_succ]
        exact Nat.mul_le_mul_right 2 hend
      rw [if_pos hend]
      dsimp only [Option.bind_eq_bind, Option.bind_some]
      simp only [hnext, Option.bind_eq_some_iff, ih (Nat.le_add_left 1 l) hle, Option.some.injEq, hend, true_and]
      exact ⟨fun ⟨_, ⟨hk, hr⟩, he⟩ => ⟨hk, he ▸ hr ▸ rfl⟩, fun ⟨hk, he⟩ => ⟨_, ⟨hk, rfl⟩, he.symm⟩⟩
    · simp [hend]

/-- Which lengths have a table, and which one (R163, R165). -/
theorem canonicalTable_eq_some {lens : List Nat} {leaves : List HuffLeaf} :
    canonicalTable lens = some leaves ↔
      (∀ l, 1 ≤ l → l ≤ 15 → codesEnd lens l ≤ 2 ^ l) ∧
        leaves = (List.range' 1 15).flatMap (levelLeaves lens) := by
  have h := assignLevels_eq_some (lens := lens) (n := 15) (leaves := leaves) le_rfl (Nat.zero_le _)
  rw [firstCode_one] at h
  rw [canonicalTable, h]
  simp only [List.mem_range'_1, and_imp, Nat.lt_succ_iff]

/-- The leaves of a table: one for each value with a length from 1 to 15. -/
theorem mem_canonicalTable {lens : List Nat} {leaves : List HuffLeaf} (h : canonicalTable lens = some leaves)
    {leaf : HuffLeaf} : leaf ∈ leaves ↔ (lens[leaf.value]? = some leaf.len ∧ 1 ≤ leaf.len ∧ leaf.len ≤ 15) ∧
      leaf.code = revBits leaf.len (canonicalCode lens leaf.value leaf.len) := by
  rw [(canonicalTable_eq_some.1 h).2, List.mem_flatMap]
  simp only [List.mem_range'_1, Nat.lt_succ_iff, mem_levelLeaves]
  constructor
  · rintro ⟨l, ⟨h1, h15⟩, i, hi, rfl⟩
    exact ⟨⟨hi, h1, h15⟩, rfl⟩
  · rintro ⟨⟨hi, h1, h15⟩, hcode⟩
    exact ⟨leaf.len, ⟨h1, h15⟩, leaf.value, hi, by rw [canonicalLeaf, ← hcode]⟩

/-- The codes of a table fit their lengths (R165). -/
theorem canonicalCode_lt_two_pow {lens : List Nat} {leaves : List HuffLeaf} (h : canonicalTable lens = some leaves)
    {leaf : HuffLeaf} (hl : leaf ∈ leaves) : canonicalCode lens leaf.value leaf.len < 2 ^ leaf.len := by
  obtain ⟨⟨hi, h1, h15⟩, -⟩ := (mem_canonicalTable h).1 hl
  exact (canonicalCode_lt_codesEnd hi).trans_le ((canonicalTable_eq_some.1 h).1 _ h1 h15)

/-- The leaves of a table stand in order (R163). -/
theorem canonicalTable_pairwise_before {lens : List Nat} {leaves : List HuffLeaf}
    (h : canonicalTable lens = some leaves) : leaves.Pairwise HuffLeaf.before := by
  rw [(canonicalTable_eq_some.1 h).2, List.pairwise_flatMap]
  constructor
  · intro l _
    rw [levelLeaves, List.pairwise_map]
    exact ((List.pairwise_lt_range' (step := 1)).filter _).imp fun hij => .inr ⟨rfl, hij⟩
  · refine (List.pairwise_lt_range' (step := 1)).imp fun hlm a ha b hb => .inl ?_
    obtain ⟨i, -, rfl⟩ := mem_levelLeaves.1 ha
    obtain ⟨j, -, rfl⟩ := mem_levelLeaves.1 hb
    exact hlm

/-! ## The Kraft sum (R165) -/

/-- The Kraft sum of the lengths from 1 to `top`, in codes of length `top`. -/
def kraftSum (lens : List Nat) (top : Nat) : Nat :=
  ((lens.filter fun l => 1 ≤ l && l ≤ top).map fun l => 2 ^ (top - l)).sum

/-- A longer length doubles what there was and adds a code for each of its values. -/
theorem kraftSum_succ (lens : List Nat) (top : Nat) :
    kraftSum lens (top + 1) = 2 * kraftSum lens top + lens.count (top + 1) := by
  unfold kraftSum
  induction lens with
  | nil => rfl
  | cons x lens ih =>
    rw [List.count_cons, List.filter_cons, List.filter_cons]
    rcases Nat.lt_trichotomy x (top + 1) with hx | rfl | hx
    · have hpow : 2 ^ (top + 1 - x) = 2 * 2 ^ (top - x) := by rw [← pow_succ']; congr 1; omega
      have hle : x ≤ top := by omega
      have hne : ¬ x = top + 1 := by omega
      by_cases h0 : 1 ≤ x
      · simp [h0, hx.le, hle, hpow, hne, ih]
        ring
      · simp [h0, hne, ih]
    · simp [ih]
      ring
    · have hn1 : ¬ x ≤ top + 1 := by omega
      have hn2 : ¬ x ≤ top := by omega
      have hne : ¬ x = top + 1 := by omega
      simp [hn1, hn2, hne, ih]

/-- The end of the codes of a length is the Kraft sum up to it. -/
theorem codesEnd_eq_kraftSum (lens : List Nat) {l : Nat} (hl : 1 ≤ l) : codesEnd lens l = kraftSum lens l := by
  induction l, hl using Nat.le_induction with
  | base =>
    have h0 : kraftSum lens 0 = 0 := by simp [kraftSum, Nat.one_le_iff_ne_zero]
    rw [kraftSum_succ, h0, codesEnd, firstCode_one]
  | succ l hl ih => rw [kraftSum_succ, ← ih, ← firstCode_succ lens hl, codesEnd]

/-- If the codes of the longest length fit, so do those of every shorter one. -/
theorem codesEnd_le_of_le {lens : List Nat} {l m : Nat} (hl : 1 ≤ l) (hlm : l ≤ m) (h : codesEnd lens m ≤ 2 ^ m) :
    codesEnd lens l ≤ 2 ^ l := by
  rcases Nat.eq_or_lt_of_le hlm with rfl | hlt
  · exact h
  · refine Nat.le_of_mul_le_mul_right ?_ (Nat.two_pow_pos (m - l))
    calc codesEnd lens l * 2 ^ (m - l) ≤ firstCode lens m := codesEnd_mul_le_firstCode lens hl hlt
      _ ≤ codesEnd lens m := firstCode_le_codesEnd lens m
      _ ≤ 2 ^ m := h
      _ = 2 ^ l * 2 ^ (m - l) := by rw [← pow_add, Nat.add_sub_cancel' hlm]

/-- Lengths have a table exactly where their Kraft sum is at most 1 (R111, R165, R168). -/
theorem exists_canonicalTable_iff {lens : List Nat} :
    (∃ leaves, canonicalTable lens = some leaves) ↔ kraftSum lens 15 ≤ 2 ^ 15 := by
  simp only [canonicalTable_eq_some, exists_and_left, exists_eq, and_true]
  rw [← codesEnd_eq_kraftSum lens (by omega)]
  exact ⟨fun h => h 15 (by omega) le_rfl, fun h l h1 h15 => codesEnd_le_of_le h1 h15 h⟩

end Sys2Proof.Machine
end

section
/-! PROOFS. Canonical tables: the statements O19, O20 and O21. -/

namespace Sys2Proof.Machine

open Sys2Proof

/-- Settles O19: in list order each canonical code is behind all continuations of the codes before it, so it does
not begin with one of them; mirroring turns a beginning into low bits. -/
theorem canonicalTablePrefixFree : Obligations.CanonicalTablePrefixFree := by
  intro lens leaves h
  refine (canonicalTable_pairwise_before h).imp_of_mem fun {a b} ha hb hab => ?_
  have hle : a.len ≤ b.len := hab.elim le_of_lt fun hab => hab.1.le
  obtain ⟨⟨hi, h1, -⟩, hcodeA⟩ := (mem_canonicalTable h).1 ha
  obtain ⟨-, hcodeB⟩ := (mem_canonicalTable h).1 hb
  refine ⟨hle, fun hlow => ?_⟩
  rw [hcodeA, hcodeB] at hlow
  have hdiv := div_eq_of_revBits_mod hle (canonicalCode_lt_two_pow h hb) (canonicalCode_lt_two_pow h ha) hlow
  exact (canonicalCode_div_lt hi h1 hab).ne' hdiv

/-- Settles O21: lengths have a table exactly where the Kraft sum is at most 1. -/
theorem tableRejectedIffKraftAboveOne : Obligations.TableRejectedIffKraftAboveOne := by
  intro lens
  rw [Option.eq_none_iff_forall_ne_some, ← not_exists, exists_canonicalTable_iff, Nat.not_le]
  rfl

/-- Settles O20, by the levels of the table; a value stands once, since the order of the leaves separates equal
lengths, and its length is the one in the list. -/
theorem canonicalTableLeaves : Obligations.CanonicalTableLeaves := by
  intro lens leaves h
  have hmem {leaf : HuffLeaf} := mem_canonicalTable h (leaf := leaf)
  have horder := canonicalTable_pairwise_before h
  refine ⟨?nodup, fun i l => ?values, horder, fun leaf hl => ?codes⟩
  case nodup =>
    rw [List.Nodup, List.pairwise_map]
    refine horder.imp_of_mem fun {a b} ha hb hab hv => ?_
    obtain ⟨⟨hia, -, -⟩, -⟩ := hmem.1 ha
    obtain ⟨⟨hib, -, -⟩, -⟩ := hmem.1 hb
    have hlen : b.len = a.len := Option.some.inj (hib.symm.trans (hv ▸ hia))
    rcases hab with hlt | ⟨-, hlt⟩
    · exact hlt.ne' hlen
    · exact hlt.ne hv
  case values =>
    constructor
    · rintro ⟨leaf, hl, rfl, rfl⟩
      exact (hmem.1 hl).1
    · intro hil
      exact ⟨canonicalLeaf lens l i, hmem.2 ⟨hil, rfl⟩, rfl, rfl⟩
  case codes =>
    obtain ⟨-, hcode⟩ := hmem.1 hl
    rw [hcode]
    exact ⟨revBits_lt _ _, canonicalCode_lt_two_pow h hl, fun j hj => testBit_revBits hj _⟩

end Sys2Proof.Machine
end

section
/-! SUPPORT. Table loads and decoded numbers of the RNC cursor (R160 to R167), against the control bits of the stream.
The scan of a table peeks, and a peek may load a word that nothing consumes; no control field changes by that, so
one fact about such a load serves every leaf that the scan passes. -/

namespace Sys2Proof.Machine

open Sys2Proof

/-! ## The length fields (R162) -/

/-- The code lengths are consecutive fields of 4 control bits. -/
theorem readLengths_ctl {n : Nat} {s : State} (h : s.ctlReady (4 * n)) :
    readLengths n s = .ok ((List.range n).map fun i => s.ctlField (4 * i) 4) (s.withCur (s.ctlSkip (4 * n))) := by
  induction n generalizing s with
  | zero =>
    rw [Nat.mul_zero, s.ctlSkip_zero]
    rfl
  | succ n ih =>
    have hbits : 4 * (n + 1) = 4 + 4 * n := by ring
    rw [hbits] at h ⊢
    rw [readLengths, Eng.bind_ok (readBits_ctl (by decide) (h.mono (Nat.le_add_right 4 _))), Eng.bind_ok (ih h.skip),
      State.withCur_withCur, State.ctlSkip_skip, List.range_succ_eq_map, List.map_cons, List.map_map]
    have hfields : (List.range n).map (fun i => (s.withCur (s.ctlSkip 4)).ctlField (4 * i) 4) =
        (List.range n).map ((fun i => s.ctlField (4 * i) 4) ∘ Nat.succ) :=
      List.map_congr_left fun i _ => by
        rw [State.ctlField_skip, Function.comp_apply, Nat.mul_succ, Nat.add_comm]
    rw [hfields]
    rfl

/-! ## Words loaded ahead -/

/-- A word loaded ahead: the control bits before the cursor stay the same. -/
theorem State.ctlBuffer_loaded (s : State) (q r : Nat) :
    (s.withCur (s.ctlLoaded q)).ctlBuffer r = s.ctlBuffer (q + r) := (s.ctlBuffer_add q r).symm

theorem State.wordsFor_loaded (s : State) (q n : Nat) :
    (s.ctlLoaded q).wordsFor n = s.cur.wordsFor n - q := by
  simp only [Cursor.wordsFor, State.ctlLoaded]
  omega

theorem State.ctlField_loaded (s : State) (q o n : Nat) :
    (s.withCur (s.ctlLoaded q)).ctlField o n = s.ctlField o n := by
  have hq : s.cur.wordsFor (o + n) ≤ q + (s.cur.wordsFor (o + n) - q) := by omega
  rw [State.ctlField, State.withCur_cur, State.wordsFor_loaded, State.ctlBuffer_loaded, State.ctlField_eq hq]

theorem State.ctlLoaded_loaded (s : State) (q r : Nat) :
    (s.withCur (s.ctlLoaded q)).ctlLoaded r = s.ctlLoaded (q + r) := by
  have hpos : s.cur.pos + 2 * q + 2 * r = s.cur.pos + 2 * (q + r) := by ring
  have hcnt : s.cur.cnt + 16 * q + 16 * r = s.cur.cnt + 16 * (q + r) := by ring
  rw [State.ctlLoaded, State.ctlBuffer_loaded, State.withCur_cur]
  simp only [State.ctlLoaded, hpos, hcnt]

/-- Loading no more words than a field needs changes nothing about the cursor behind the field. -/
theorem State.ctlSkip_loaded {s : State} (h : s.cur.isRnc) {q n : Nat} (hq : q ≤ s.cur.wordsFor n) :
    (s.withCur (s.ctlLoaded q)).ctlSkip n = s.ctlSkip n := by
  have hload : (s.withCur (s.ctlLoaded q)).cur.isRnc := h
  rw [← State.ctlLoaded_dropped hload, ← State.ctlLoaded_dropped h, State.ctlLoaded_loaded, State.withCur_cur,
    State.wordsFor_loaded, Nat.add_sub_cancel' hq]

/-- A word loaded ahead, for a field of at most one word, leaves the cursor in order. -/
theorem State.ctlReady.loaded {s : State} {n q : Nat} (h : s.ctlReady n) (hn : n ≤ 16) (hq : q ≤ s.cur.wordsFor n) :
    (s.withCur (s.ctlLoaded q)).ctlReady n := by
  obtain ⟨hrnc, hclean, hpos, hfin, hloaded⟩ := h
  obtain ⟨hcnt, hsr⟩ := hrnc.clean_iff.1 hclean
  have hload : (s.ctlLoaded q).isRnc := hrnc
  refine ⟨hload, hload.clean_iff.2 ⟨?cnt, State.ctlBuffer_lt hsr q⟩, ?pos, hfin, hloaded⟩
  case cnt =>
    change s.cur.cnt + 16 * q ≤ 31
    simp only [Cursor.wordsFor] at hq
    omega
  case pos =>
    rw [State.withCur_cur, State.wordsFor_loaded]
    change s.cur.pos + 2 * q + 2 * (s.cur.wordsFor n - q) ≤ s.cur.fin
    omega

/-- `PEEK_BITS` of the RNC cursor (R137): the field of the next control bits, its words loaded. -/
theorem peekBits_ctl {n : Nat} {s : State} (hn : n ≤ 16) (h : s.ctlReady n) :
    peekBits n s = .ok (s.ctlField 0 n) (s.withCur (s.ctlLoaded (s.cur.wordsFor n))) := by
  obtain ⟨hrnc, hclean, hpos, hfin, hloaded⟩ := h
  have hsr := (hrnc.clean_iff.1 hclean).2
  have ⟨ho, hw, hp⟩ := hrnc
  have hfield : s.ctlField 0 n = (s.ctlLoaded (s.cur.wordsFor n)).sr % 2 ^ n := by
    rw [State.ctlField, pow_zero, Nat.div_one, Nat.zero_add]
    rfl
  rw [hfield]
  have hwidth : n ≤ s.cur.width.bits := by rw [hw]; exact hn
  rcases Nat.lt_or_ge s.cur.cnt n with hcnt | hcnt
  · have hwords : s.cur.wordsFor n = 1 := by
      unfold Cursor.wordsFor
      omega
    rw [hwords] at hpos ⊢
    have hnext : s.nextWord (s.bytesAt s.cur.pos 2) := by
      rw [State.nextWord, hw]
      exact ⟨State.bytesAt_length _ _ _, hpos, hloaded.inHas (by omega)⟩
    rw [peekBits_refill ho hp hwidth hcnt hnext, State.ctlLoaded_one hrnc hsr]
  · have hwords : s.cur.wordsFor n = 0 := by
      unfold Cursor.wordsFor
      omega
    rw [hwords, State.ctlLoaded_zero]
    exact peekBits_pending ho hp hwidth hcnt

/-! ## The scan of a table (R166) -/

/-- A leaf whose code does not come next is passed. -/
theorem scanLeaves_pass {leaf : HuffLeaf} {rest : List HuffLeaf} {s : State} (hn : leaf.len ≤ 16)
    (h : s.ctlReady leaf.len) (hne : s.ctlField 0 leaf.len ≠ leaf.code) :
    scanLeaves (leaf :: rest) s = scanLeaves rest (s.withCur (s.ctlLoaded (s.cur.wordsFor leaf.len))) := by
  rw [scanLeaves, Eng.bind_ok (peekBits_ctl hn h), if_neg hne]

/-- Leaves whose codes do not come next are passed; what has been loaded for them is needed for `n` bits, too. -/
theorem scanLeaves_passAll {n : Nat} (hn : n ≤ 16) {before rest : List HuffLeaf} {s : State} (h : s.ctlReady n)
    (hb : ∀ l ∈ before, l.len ≤ n ∧ s.ctlField 0 l.len ≠ l.code) :
    ∃ q ≤ s.cur.wordsFor n, scanLeaves (before ++ rest) s = scanLeaves rest (s.withCur (s.ctlLoaded q)) := by
  induction before generalizing s with
  | nil => exact ⟨0, Nat.zero_le _, rfl⟩
  | cons l before ih =>
    obtain ⟨⟨hlen, hne⟩, hb⟩ := List.forall_mem_cons.1 hb
    have hq := s.cur.wordsFor_mono hlen
    obtain ⟨r, hr, hscan⟩ := ih (h.loaded hn hq) fun m hm => by
      rw [State.ctlField_loaded]
      exact hb m hm
    rw [State.withCur_cur, State.wordsFor_loaded] at hr
    refine ⟨s.cur.wordsFor l.len + r, by omega, ?_⟩
    rw [List.cons_append, scanLeaves_pass (hlen.trans hn) (h.mono hlen) hne, hscan, State.withCur_withCur,
      State.ctlLoaded_loaded]

/-- The leaf whose code comes next is taken: its bits are consumed. -/
theorem scanLeaves_take {leaf : HuffLeaf} {rest : List HuffLeaf} {s : State} (hn : leaf.len ≤ 16)
    (h : s.ctlReady leaf.len) (heq : s.ctlField 0 leaf.len = leaf.code) :
    scanLeaves (leaf :: rest) s = .ok leaf.value (s.withCur (s.ctlSkip leaf.len)) := by
  have hload := (h.loaded hn le_rfl).2.1
  have hskip := skipBits_ok (s := s.withCur (s.ctlLoaded (s.cur.wordsFor leaf.len))) (s.cur.le_wordsFor leaf.len)
    hload.sr_lt
  rw [State.withCur_withCur, State.withCur_cur, State.ctlLoaded_dropped h.1] at hskip
  rw [scanLeaves, Eng.bind_ok (peekBits_ctl hn h), if_pos heq, Eng.bind_ok hskip]
  rfl

/-- `huf_symbol` (R166): the value of the leaf that the next control bits select. -/
theorem hufSymbol_selects {t : TableId} {leaf : HuffLeaf} {s : State} (hs : s.selects (s.work.ht.get t) leaf)
    (h : s.ctlReady leaf.len) : hufSymbol t s = .ok leaf.value (s.withCur (s.ctlSkip leaf.len)) := by
  obtain ⟨hlen, hcode, before, after, hleaves, hbefore⟩ := hs
  have hn : leaf.len ≤ 16 := by omega
  obtain ⟨q, hq, hscan⟩ := scanLeaves_passAll hn (rest := leaf :: after) h hbefore
  rw [hufSymbol, Eng.get_bind, hleaves, hscan,
    scanLeaves_take hn (h.loaded hn hq) ((s.ctlField_loaded q 0 _).trans hcode), State.withCur_withCur,
    State.ctlSkip_loaded h.1 hq]

/-- `huf_symbol` where no code of the table comes next (R166). -/
theorem hufSymbol_noMatch {t : TableId} {s : State} (h : s.ctlReady 15)
    (hne : ∀ l ∈ s.work.ht.get t, l.len ≤ 15 ∧ s.ctlField 0 l.len ≠ l.code) :
    ∃ c, hufSymbol t s = .error (.raise .hufDecodeError) (s.withCur c) := by
  obtain ⟨q, -, hscan⟩ := scanLeaves_passAll (by decide) (rest := []) h hne
  rw [List.append_nil] at hscan
  exact ⟨_, by rw [hufSymbol, Eng.get_bind, hscan, scanLeaves, raise_apply]⟩

/-! ## Numbers (R167) -/

/-- `huf_value` of a leaf value up to 17: the number that the code and its extension bits stand for. -/
theorem hufValue_selects {t : TableId} {leaf : HuffLeaf} {s : State} (hs : s.selects (s.work.ht.get t) leaf)
    (hv : leaf.value ≤ 17) (h : s.ctlReady leaf.bits) :
    hufValue t s = .ok (s.hufNumber leaf) (s.withCur (s.ctlSkip leaf.bits)) := by
  unfold HuffLeaf.bits at h ⊢
  rw [hufValue, Eng.bind_ok (hufSymbol_selects hs (h.mono (Nat.le_add_right _ _))), State.hufNumber]
  rcases Nat.lt_or_ge leaf.value 2 with h2 | h2
  · have hno : leaf.value - 1 = 0 := by omega
    rw [if_pos h2, if_pos h2, hno]
    rfl
  · have hext : gammaBits leaf.value ≤ 16 := by
      unfold gammaBits
      omega
    rw [if_neg (by omega), if_neg (by omega), require_bind_pos hext, Eng.bind_ok (readBits_ctl hext h.skip),
      State.ctlField_skip, Nat.add_zero, State.withCur_withCur, State.ctlSkip_skip, Eng.pure_apply,
      gammaValue_of_pos (by omega) (s.ctlField_lt _ _)]
    rfl

/-- `huf_value` that cannot decode a number (R166, R167); the state it raises in differs from the first one in the
cursor alone. -/
theorem hufValue_undecodable {t : TableId} {s : State} (h : s.undecodable (s.work.ht.get t)) :
    ∃ c, hufValue t s = .error (.raise .hufDecodeError) (s.withCur c) := by
  rcases h with hempty | ⟨hready, hne⟩ | ⟨leaf, hs, hready, hbig⟩
  · refine ⟨s.cur, Eng.bind_error ?_⟩
    rw [hufSymbol, Eng.get_bind, hempty]
    rfl
  · exact (hufSymbol_noMatch hready hne).imp fun _ => Eng.bind_error
  · have hext : ¬ gammaBits leaf.value ≤ 16 := by
      unfold gammaBits
      omega
    refine ⟨s.ctlSkip leaf.len, ?_⟩
    rw [hufValue, Eng.bind_ok (hufSymbol_selects hs hready), if_neg (by omega), require_bind_neg hext]

/-- `RNC.MATCH` after its distance has been decoded (R190). -/
def State.atDistance (s : State) (dl : HuffLeaf) : State :=
  { s with work := { s.work with cur := s.ctlSkip dl.bits, rncD := s.hufNumber dl + 1 } }

/-- The error entry leaves no trace of the distance (R50, R324). -/
theorem State.errorEntry_atDistance (s : State) (dl : HuffLeaf) (k : ErrKind) :
    (s.atDistance dl).errorEntry k = s.errorEntry k := rfl

/-- `RNC.MATCH` decodes its distance first (R190). -/
theorem rncMatch_distance {dl : HuffLeaf} {s : State} (hs : s.selects s.work.ht.dist dl) (hv : dl.value ≤ 17)
    (h : s.ctlReady dl.bits) : rncMatch s = (hufValue .len >>= fun l =>
      modifyWork (fun w => { w with rncL := l + 2 }) >>= fun _ => lzCopy (s.hufNumber dl + 1) (l + 2))
        (s.atDistance dl) := by
  rw [rncMatch, Eng.bind_ok (hufValue_selects (t := .dist) hs hv h), modifyWork_bind]
  rfl

end Sys2Proof.Machine
end

section
/-! PROOFS. The RNC tables in a run, and the checksum: the statements O17, O18 and O27. -/

namespace Sys2Proof.Machine

open Sys2Proof

/-- Settles O18: the count, then the lengths as consecutive fields behind it, then the table. -/
theorem huftabLoadsTable : Obligations.HuftabLoadsTable := by
  intro s t lens hlens h
  have hn : lens.length = s.ctlField 0 5 := by rw [hlens, List.length_map, List.length_range]
  have hcount := readBits_ctl (n := 5) (by decide) (h.mono (Nat.le_add_right 5 _))
  refine ⟨fun h0 => ?kept, fun hne => ?loaded⟩
  case kept =>
    refine runMeaning_ok ?_
    rw [huftab, Eng.bind_ok hcount, if_pos h0]
    rfl
  case loaded =>
    have hread := readLengths_ctl h.skip
    have hfields : (List.range lens.length).map (fun i => (s.withCur (s.ctlSkip 5)).ctlField (4 * i) 4) = lens := by
      rw [hn, hlens]
      exact List.map_congr_left fun i _ => s.ctlField_skip 5 (4 * i) 4
    rw [hfields, State.withCur_withCur, State.ctlSkip_skip, hn] at hread
    rw [hn]
    constructor
    · intro leaves htable
      refine runMeaning_ok ?_
      rw [huftab, Eng.bind_ok hcount, if_neg hne, Eng.bind_ok hread, htable]
      rfl
    · intro htable
      rw [← s.errorEntry_withCur (s.ctlSkip (5 + 4 * s.ctlField 0 5))]
      refine runMeaning_raise ?_
      rw [huftab, Eng.bind_ok hcount, if_neg hne, Eng.bind_ok hread, htable]
      rfl

/-- Settles O27: a number that cannot be decoded ends either opcode, before the distance, or after it. -/
theorem hufDecodeErrors : Obligations.HufDecodeErrors := by
  intro s
  refine ⟨fun h => ?raw, fun h => ?dist, fun dl hs hv hready h => ?len⟩
  case raw =>
    obtain ⟨c, hc⟩ := hufValue_undecodable (t := .raw) h
    rw [← s.errorEntry_withCur c]
    exact runMeaning_bind_raise hc
  case dist =>
    obtain ⟨c, hc⟩ := hufValue_undecodable (t := .dist) h
    rw [← s.errorEntry_withCur c]
    exact runMeaning_bind_raise hc
  case len =>
    obtain ⟨c, hc⟩ := hufValue_undecodable (t := .len) (s := s.atDistance dl) h
    rw [← s.errorEntry_atDistance dl, ← (s.atDistance dl).errorEntry_withCur c]
    refine runMeaning_raise ?_
    rw [rncMatch_distance hs hv hready, Eng.bind_error hc]

/-- Settles O17: the low byte of a value is its remainder modulo 256. -/
theorem crc16UpdatesChecksum : Obligations.Crc16UpdatesChecksum := by
  intro s b
  have hindex (x : Word16) : ((x.setWidth 8).toFin : Nat) = x.toNat % 256 := BitVec.toNat_setWidth 8 x
  change runMeaning (crcByte b) s = _
  refine runMeaning_ok ?_
  simp only [crcByte, Eng.modify_apply, crcUpdate, Fin.getElem_fin, hindex]

end Sys2Proof.Machine
end

section
/-! SUPPORT. Checksums over bytes that can be read (R170, R172), and the end of an RNC stream (R191 to R193): all that
a checksum changes is the register `CRC`, of which neither the end of a command nor its error entry leaves a trace. -/

namespace Sys2Proof.Machine

open Sys2Proof

/-! ## Checksums -/

/-- The state with another value in the register `CRC` (R39). -/
def State.withCrc (s : State) (c : Word16) : State := { s with work := { s.work with crc := c } }

theorem State.errorEntry_withCrc (s : State) (c : Word16) (k : ErrKind) :
    (s.withCrc c).errorEntry k = s.errorEntry k := rfl

theorem State.complete_withCrc (s : State) (c : Word16) : (s.withCrc c).complete = s.complete := rfl

/-- A memory read, as the checksum uses it, finds the bytes of a list from address `a` on. -/
def State.finds (s : State) (rd : Nat → Eng Byte) (a : Nat) (bytes : List Byte) : Prop :=
  ∀ k (hk : k < bytes.length) (c : Word16), rd (a + k) (s.withCrc c) = .ok bytes[k] (s.withCrc c)

/-- The updates over a list of bytes fold the checksum over it (R172). -/
theorem crcLoop_ok {rd : Nat → Eng Byte} {s : State} {bytes : List Byte} {a : Nat} (c : Word16)
    (h : s.finds rd a bytes) : crcLoop rd bytes.length a (s.withCrc c) =
      .ok () (s.withCrc (bytes.foldl (crcUpdate s.cfg.rncCrcTable) c)) := by
  induction bytes generalizing a c with
  | nil => rfl
  | cons b bs ih =>
    have hhead : rd a (s.withCrc c) = .ok b (s.withCrc c) := h 0 (Nat.zero_lt_succ _) c
    have htail : s.finds rd (a + 1) bs := fun k hk c => by
      rw [Nat.add_right_comm]
      exact h (k + 1) (Nat.succ_lt_succ hk) c
    rw [List.length_cons, crcLoop, Eng.bind_ok hhead]
    exact ih (crcUpdate s.cfg.rncCrcTable c b) htail

/-- `crc16` (R172) answers the checksum of the bytes it reads. -/
theorem crc16_ok {rd : Nat → Eng Byte} {s : State} {bytes : List Byte} {a : Nat} (h : s.finds rd a bytes) :
    crc16 rd a bytes.length s = .ok (s.checksum bytes) (s.withCrc (s.checksum bytes)) :=
  Eng.bind_ok (crcLoop_ok s.cfg.rncCrcInit h)

/-- Each of the bytes that `IN` has at an address can be read. -/
theorem State.inHas.read {s : State} {a k : Nat} {bytes : List Byte} (h : s.inHas a bytes) (hk : k < bytes.length) :
    a + k < s.inLen ∧ s.inMem.read (a + k) = some bytes[k] := by
  induction bytes generalizing a k with
  | nil => exact absurd hk (Nat.not_lt_zero k)
  | cons b bs ih =>
    obtain ⟨hlt, hb, hbs⟩ := h
    cases k with
    | zero => exact ⟨hlt, hb⟩
    | succ k =>
      rw [← Nat.add_assoc, Nat.add_right_comm]
      exact ih hbs (Nat.lt_of_succ_lt_succ hk)

/-- Bytes that are in `IN` lie below `IN_LEN`. -/
theorem State.inHas.add_length_le {s : State} {a : Nat} {bytes : List Byte} (h : s.inHas a bytes) (ha : a ≤ s.inLen) :
    a + bytes.length ≤ s.inLen := by
  rcases bytes.length.eq_zero_or_pos with h0 | hpos
  · omega
  · have := (h.read (k := bytes.length - 1) (by omega)).1
    omega

theorem State.inHas.finds {s : State} {a : Nat} {bytes : List Byte} (h : s.inHas a bytes) : s.finds inByte a bytes :=
  fun _ hk _ => inByte_eq_ok.2 ⟨(h.read hk).1, (h.read hk).2, rfl⟩

@[simp] theorem State.outBytes_length (s : State) : s.outBytes.length = s.outLen := by simp [State.outBytes]

theorem State.outFilled.finds {s : State} (h : s.outFilled) : s.finds outByte 0 s.outBytes := by
  intro k hk c
  have hlt : k < s.outLen := s.outBytes_length ▸ hk
  obtain ⟨b, hb⟩ := Option.isSome_iff_exists.1 (h k hlt)
  have hbyte : s.outBytes[k] = b := by simp [State.outBytes, hb]
  rw [hbyte, Nat.zero_add]
  exact outByte_eq_ok.2 ⟨hlt, hb, rfl⟩

/-! ## The end of an RNC stream -/

section Finish

variable {s : State}

/-- An output that is not of the declared length (R191). -/
theorem rncFinish_size (h : s.outLen ≠ s.work.declLen.toNat) :
    rncFinish s = .error (.raise .fileSizeMismatch) s := by
  rw [rncFinish, Eng.get_bind, require_bind_neg h]

/-- At the declared length the checksum of the output decides (R192). -/
theorem rncFinish_checksum (h : s.outLen = s.work.declLen.toNat) (hf : s.outFilled) :
    rncFinish s = (require (s.checksum s.outBytes = s.work.unpackedCrc) .unpackedCrcError >>= fun _ => completeCommand)
      (s.withCrc (s.checksum s.outBytes)) := by
  have hcrc := crc16_ok hf.finds
  rw [State.outBytes_length] at hcrc
  rw [rncFinish, Eng.get_bind, require_bind_pos h, ← h, Eng.bind_ok hcrc]

/-- The declared output with the checksum of the header completes the command (R193). -/
theorem rncFinish_ok (h : s.outLen = s.work.declLen.toNat) (hf : s.outFilled)
    (hc : s.checksum s.outBytes = s.work.unpackedCrc) : rncFinish s = .ok () s.complete := by
  rw [rncFinish_checksum h hf, require_bind_pos hc, completeCommand_apply, State.complete_withCrc]

/-- The declared output with another checksum does not (R192). -/
theorem rncFinish_badCrc (h : s.outLen = s.work.declLen.toNat) (hf : s.outFilled)
    (hc : s.checksum s.outBytes ≠ s.work.unpackedCrc) :
    rncFinish s = .error (.raise .unpackedCrcError) (s.withCrc (s.checksum s.outBytes)) := by
  rw [rncFinish_checksum h hf, require_bind_neg hc]

/-- Below the declared length another chunk follows (R186). -/
theorem rncChunkTest_more (h : s.outLen < s.work.declLen.toNat) :
    rncChunkTest s = .ok () { s with phase := .stream (.rncTab .raw) } := by
  rw [rncChunkTest, Eng.get_bind, if_pos h, setPhase_apply]

/-- From the declared length on the stream ends (R186, R191). -/
theorem rncChunkTest_end (h : s.work.declLen.toNat ≤ s.outLen) : rncChunkTest s = rncFinish s := by
  rw [rncChunkTest, Eng.get_bind, if_neg (Nat.not_lt.2 h)]

/-- The chunk loop of the whole command does nothing from the declared length on (R186). -/
theorem rncChunks_end (bound fuel : Nat) (h : s.work.declLen.toNat ≤ s.outLen) :
    rncChunks bound (fuel + 1) s = .ok () s := by
  rw [rncChunks, Eng.get_bind, if_neg (Nat.not_lt.2 h), Eng.pure_apply]

end Finish

/-! ## What follows an opcode (R199, R223, R272) -/

section Advance

variable {s : State}

/-- `RNC.PRIME`, and `RNC.RAW` where it has brought the count to 0, are followed by the test between chunks. -/
theorem advance_chunkTest {i : Instr} (hi : i = .rncPrime ∨ i = .rncRaw ∧ s.work.chcnt = 0#16) :
    advance i s = rncChunkTest s := by
  rcases hi with rfl | ⟨rfl, h0⟩
  · rfl
  · rw [advance, Eng.get_bind, if_pos h0]

/-- `RNC.RAW` is followed by a match while the count is not 0. -/
theorem advance_rncRaw_match (h : s.work.chcnt ≠ 0#16) :
    advance .rncRaw s = .ok () { s with phase := .stream .rncMatch } := by
  rw [advance, Eng.get_bind, if_neg h, setPhase_apply]

theorem cwcTest_full (h : s.outLen = s.work.declLen.toNat) : cwcTest s = .ok () s.complete := by
  rw [cwcTest, Eng.get_bind, if_pos h, completeCommand_apply]

theorem cwcTest_more (h : s.outLen ≠ s.work.declLen.toNat) : cwcTest s = .ok () s := by
  rw [cwcTest, Eng.get_bind, if_neg h, Eng.pure_apply]

theorem hufTest_full (h : s.work.declLen.toNat ≤ s.outLen) : hufTest s = .ok () s.complete := by
  rw [hufTest, Eng.get_bind, if_neg (Nat.not_lt.2 h), completeCommand_apply]

theorem hufTest_more (h : s.outLen < s.work.declLen.toNat) : hufTest s = .ok () s := by
  rw [hufTest, Eng.get_bind, if_pos h, Eng.pure_apply]

end Advance

end Sys2Proof.Machine
end

section
/-! SUPPORT. The RNC opcodes `RNC.PRIME`, `RNC.RAW` and `RNC.MATCH` (R185, R188 to R190) after their control bits: the
two discarded bits, the run of literal bytes, the copy without zero history. -/

namespace Sys2Proof.Machine

open Sys2Proof

/-- Working registers do not matter to what else is the same. -/
theorem State.sameButOutWork.of_work {s t : State} {w : Work} (h : State.sameButOutWork { s with work := w } t) :
    s.sameButOutWork t := by
  have hrest := congrArg (fun v : State => { v with work := s.work }) h
  exact hrest

/-! ## The first word -/

/-- The cursor after `RNC.PRIME` has loaded the first word, of the given value, and discarded two bits (R185). -/
def Cursor.rncPrimed (c : Cursor) (w : Nat) : Cursor := { c with pos := c.base + 2, sr := w / 4, cnt := 14 }

section Prime

variable {s : State}

/-- `PRIME` on a cursor just configured is a refill (R132). -/
theorem prime_eq_refill (hcnt : s.cur.cnt = 0) (hpos : s.cur.pos = s.cur.base) : prime s = refill s := by
  rw [prime, getCur_bind, ensure_bind_pos ⟨hcnt, hpos⟩]

/-- The first word in an empty register, two of its bits consumed. -/
theorem Cursor.withWord_dropped_two {c : Cursor} (hrnc : c.isRnc) (hcnt : c.cnt = 0) (hsr : c.sr = 0)
    (hpos : c.pos = c.base) (w : Nat) : (c.withWord w).dropped 2 = c.rncPrimed w := by
  obtain ⟨ho, hw, -⟩ := hrnc
  simp only [Cursor.withWord, Cursor.dropped, Cursor.rncPrimed, ho, hw, hcnt, hsr, hpos, Nat.zero_or, Nat.shiftLeft_zero]
  rfl

/-- `RNC.PRIME` with a first word in the range: two of its bits are discarded, whatever their values (R185). -/
theorem rncPrime_ok {b0 b1 : Byte} (hrnc : s.cur.isRnc) (hcnt : s.cur.cnt = 0) (hsr : s.cur.sr = 0)
    (hpos : s.cur.pos = s.cur.base) (hb : s.nextBytes [b0, b1]) :
    rncPrime s = .ok () (s.withCur (s.cur.rncPrimed (leNat [b0, b1]))) := by
  have ⟨ho, hw, hp⟩ := hrnc
  have hword : leNat [b0, b1] < 2 ^ 16 := (leNat_lt [b0, b1]).trans_eq (by norm_num)
  have hnext : s.nextWord [b0, b1] := by
    rw [State.nextWord, hw]
    exact ⟨rfl, hb⟩
  have hrefill : prime s = .ok () (s.withCur (s.cur.withWord (leNat [b0, b1]))) := by
    rw [prime_eq_refill hcnt hpos, refill_ok (by rw [hcnt]; exact RefillWidth.bits_pos _) hnext]
  have hread := readBits_lsb (s := s.withCur (s.cur.withWord (leNat [b0, b1]))) (n := 2) ho ?width ?pending ?fits
  · rw [rncPrime, Eng.bind_ok hrefill, Eng.discard_apply, hread, State.withCur_withCur, State.withCur_cur,
      Cursor.withWord_dropped_two hrnc hcnt hsr hpos]
  all_goals simp only [State.withCur_cur, Cursor.withWord, Cursor.noRefillFor, ho, hw, hp, hcnt, hsr, RefillWidth.bits,
    Nat.zero_or, Nat.shiftLeft_zero]
  case width => decide
  case pending => decide
  case fits => omega

/-- `RNC.PRIME` without a first word in the range (R143, R185). -/
theorem rncPrime_underrun (hrnc : s.cur.isRnc) (hcnt : s.cur.cnt = 0) (hpos : s.cur.pos = s.cur.base)
    (hf : s.cur.fin < s.cur.base + 2) : rncPrime s = .error (.raise .bitstreamUnderrun) s := by
  have ⟨_, hw, _⟩ := hrnc
  have hbytes : s.cur.width.bytes = 2 := congrArg RefillWidth.bytes hw
  have hrefill : prime s = .error (.raise .bitstreamUnderrun) s := by
    rw [prime_eq_refill hcnt hpos, refill_underrun (by rw [hcnt]; exact RefillWidth.bits_pos _) (by rwa [hbytes, hpos])]
  rw [rncPrime, Eng.bind_error hrefill]

end Prime

/-! ## Literal runs -/

/-- One literal byte (R188). -/
theorem literalByte_ok {s : State} {b : Byte} (hb : s.nextBytes [b]) (hr : s.roomFor 1) :
    literalByte s = .ok () ((s.withCur { s.cur with pos := s.cur.pos + 1 }).push b) := by
  rw [literalByte, Eng.bind_ok (readByte_ok hb)]
  exact emit_eq_ok.2 ⟨hr.1, hr.2, rfl⟩

/-- A run of literal bytes appends them and moves the byte position past them (R188). -/
theorem repeatEng_literalByte_ok {bytes : List Byte} {s : State} (hb : s.nextBytes bytes) (hr : s.roomFor bytes.length) :
    repeatEng bytes.length literalByte s =
      .ok () ((s.withCur { s.cur with pos := s.cur.pos + bytes.length }).pushAll bytes) := by
  induction bytes generalizing s with
  | nil => rfl
  | cons b bs ih =>
    obtain ⟨hfin, hlt, hbyte, hbs⟩ := hb
    obtain ⟨hdecl, hcap⟩ := hr
    rw [List.length_cons] at hfin hdecl hcap
    have hfirst := literalByte_ok (s := s) (b := b) ⟨by rw [List.length_singleton]; omega, hlt, hbyte, trivial⟩
      ⟨by omega, by omega⟩
    have hnext : ((s.withCur { s.cur with pos := s.cur.pos + 1 }).push b).nextBytes bs := by
      refine ⟨?_, (State.inHas_push _ b _ bs).2 ((State.inHas_withCur s _ _ bs).2 hbs)⟩
      change s.cur.pos + 1 + bs.length ≤ s.cur.fin
      omega
    have hroom : ((s.withCur { s.cur with pos := s.cur.pos + 1 }).push b).roomFor bs.length := by
      constructor
      · change s.outLen + 1 + bs.length ≤ s.work.declLen.toNat
        omega
      · change s.outLen + 1 + bs.length ≤ s.cfg.outCap
        omega
    have hend : s.cur.pos + 1 + bs.length = s.cur.pos + (bs.length + 1) := by omega
    rw [List.length_cons, repeatEng_succ, Eng.bind_ok hfirst, ih hnext hroom, ← hend, ← State.push_pushAll]
    rfl

/-- `RNC.RAW` after its run length has been decoded (R188). -/
def State.atRun (s : State) (leaf : HuffLeaf) : State :=
  { s with work := { s.work with cur := s.ctlSkip leaf.bits, rncN := s.hufNumber leaf } }

/-- `RNC.RAW` decodes its run length, then reads and appends as many bytes, then counts the tuple (R188, R189). -/
theorem rncRaw_run {leaf : HuffLeaf} {s : State} (hs : s.selects s.work.ht.raw leaf) (hv : leaf.value ≤ 17)
    (h : s.ctlReady leaf.bits) : rncRaw s = (repeatEng (s.hufNumber leaf) literalByte >>= fun _ =>
      modifyWork fun w => { w with chcnt := w.chcnt - 1#16 }) (s.atRun leaf) := by
  rw [rncRaw, Eng.bind_ok (hufValue_selects (t := .raw) hs hv h), modifyWork_bind]
  rfl

/-! ## Matches -/

/-- `RNC.MATCH` after its length, too, has been decoded (R190). -/
def State.atLength (s : State) (ll : HuffLeaf) : State :=
  { s with work := { s.work with cur := s.ctlSkip ll.bits, rncL := s.hufNumber ll + 2 } }

/-- The error entry leaves no trace of the length (R50, R324). -/
theorem State.errorEntry_atLength (s : State) (ll : HuffLeaf) (k : ErrKind) :
    (s.atLength ll).errorEntry k = s.errorEntry k := rfl

/-- `RNC.MATCH` decodes its distance, then its length, then copies (R190). -/
theorem rncMatch_copy {dl ll : HuffLeaf} {s : State} (hd : s.selects s.work.ht.dist dl) (hdv : dl.value ≤ 17)
    (hdr : s.ctlReady dl.bits) (hl : (s.atDistance dl).selects s.work.ht.len ll) (hlv : ll.value ≤ 17)
    (hlr : (s.atDistance dl).ctlReady ll.bits) :
    rncMatch s = lzCopy (s.hufNumber dl + 1) ((s.atDistance dl).hufNumber ll + 2) ((s.atDistance dl).atLength ll) := by
  rw [rncMatch_distance hd hdv hdr, Eng.bind_ok (hufValue_selects (t := .len) hl hlv hlr), modifyWork_bind]
  rfl

end Sys2Proof.Machine
end

section
/-! SUPPORT. The RNC header (R181 to R183) as its five fields: which checks `RNC_DECODE` makes on them, in which order. -/

namespace Sys2Proof.Machine

open Sys2Proof

/-! ## Big-endian fields -/

theorem toNat_u32 (b0 b1 b2 b3 : Byte) : (b3 ++ b2 ++ b1 ++ b0).toNat = leNat [b0, b1, b2, b3] := by
  rw [BitVec.toNat_append, ← Nat.shiftLeft_add_eq_or_of_lt b0.isLt, toNat_u24, Nat.shiftLeft_eq]
  simp only [leNat]
  ring

section Fields

variable {s : State} {a : Nat} {b3 b2 b1 b0 : Byte}

theorem inBe_word32 (h : s.inHas a [b3, b2, b1, b0]) : inBe a 4 0 s = .ok (b3 ++ b2 ++ b1 ++ b0).toNat s := by
  have hread := inBe_ok h (acc := 0)
  rw [Nat.zero_mul, Nat.zero_add] at hread
  rw [toNat_u32]
  exact hread

theorem inBe_word16 (h : s.inHas a [b1, b0]) : inBe a 2 0 s = .ok (b1 ++ b0).toNat s := by
  have hread := inBe_ok h (acc := 0)
  rw [Nat.zero_mul, Nat.zero_add] at hread
  rw [toNat_u16]
  exact hread

end Fields

/-! ## The header -/

/-- The header fields of an RNC file (R181): whether its magic is right, its two lengths, its two checksums. -/
structure RncFields where
  magic : Bool
  unpacked : Word32
  packed : Word32
  unpackedCrc : Word16
  packedCrc : Word16

/-- `IN` holds a header, of which each field reads as given. -/
structure State.HasRncFields (s : State) (f : RncFields) : Prop where
  length : 18 ≤ s.inLen
  magic : inMatches 0 rncMagic s = .ok f.magic s
  unpacked : inBe 4 4 0 s = .ok f.unpacked.toNat s
  packed : inBe 8 4 0 s = .ok f.packed.toNat s
  unpackedCrc : inBe 12 2 0 s = .ok f.unpackedCrc.toNat s
  packedCrc : inBe 14 2 0 s = .ok f.packedCrc.toNat s

/-- The header whose first 16 bytes are given (R181). -/
theorem State.hasRncFields_of_inHas {s : State} {m0 m1 m2 m3 u3 u2 u1 u0 p3 p2 p1 p0 c3 c2 c1 c0 : Byte}
    (hlen : 18 ≤ s.inLen)
    (h : s.inHas 0 ([m0, m1, m2, m3] ++ [u3, u2, u1, u0] ++ [p3, p2, p1, p0] ++ [c3, c2] ++ [c1, c0])) :
    s.HasRncFields ⟨[m0, m1, m2, m3] == rncMagic, u3 ++ u2 ++ u1 ++ u0, p3 ++ p2 ++ p1 ++ p0, c3 ++ c2, c1 ++ c0⟩ := by
  obtain ⟨h, hpc⟩ := (s.inHas_append 0 _ _).1 h
  obtain ⟨h, huc⟩ := (s.inHas_append 0 _ _).1 h
  obtain ⟨h, hp⟩ := (s.inHas_append 0 _ _).1 h
  obtain ⟨hm, hu⟩ := (s.inHas_append 0 _ _).1 h
  exact ⟨hlen, inMatches_ok hm rfl, inBe_word32 hu, inBe_word32 hp, inBe_word16 huc, inBe_word16 hpc⟩

/-- The registers that the header fields go to (R37, R38). -/
def State.withHeader (s : State) (f : RncFields) : State :=
  { s with work := { s.work with
      declLen := f.unpacked, packedLen := f.packed, unpackedCrc := f.unpackedCrc, packedCrc := f.packedCrc } }

theorem State.errorEntry_withHeader (s : State) (f : RncFields) (k : ErrKind) :
    (s.withHeader f).errorEntry k = s.errorEntry k := rfl

@[simp] theorem State.inHas_withHeader (s : State) (f : RncFields) (a : Nat) (bytes : List Byte) :
    (s.withHeader f).inHas a bytes ↔ s.inHas a bytes :=
  State.inHas_congr (s := s) (t := s.withHeader f) rfl rfl a bytes

@[simp] theorem State.inHas_begin (s : State) (c : Command) (a : Nat) (bytes : List Byte) :
    (s.begin c).inHas a bytes ↔ s.inHas a bytes :=
  State.inHas_congr (s := s) (t := s.begin c) rfl rfl a bytes

section Header

variable {s : State} {f : RncFields}

/-- An input too short for a header (R181). -/
theorem rncHeader_short (h : s.inLen < 18) : rncHeader s = .error (.raise .headerInvalid) s := by
  rw [rncHeader, Eng.get_bind, require_bind_neg (Nat.not_le.2 h)]

/-- A wrong magic, before anything else of the header is looked at (R181). -/
theorem rncHeader_badMagic (h : s.HasRncFields f) (hm : f.magic = false) :
    rncHeader s = .error (.raise .fileIsNotRnc) s := by
  rw [rncHeader, Eng.get_bind, require_bind_pos h.length, Eng.bind_ok h.magic, require_bind_neg (by simp [hm])]

/-- With the right magic the fields are latched, then the lengths are checked, then the packed checksum (R182, R183). -/
theorem rncHeader_latched (h : s.HasRncFields f) (hm : f.magic = true) :
    rncHeader s = (do
      require (18 + f.packed.toNat ≤ s.inLen) .headerInvalid
      require (f.unpacked.toNat ≤ s.cfg.outCap) .headerInvalid
      let crc ← crc16 inByte 18 f.packed.toNat
      require (crc = f.packedCrc) .packedCrcError : Eng Unit) (s.withHeader f) := by
  rw [rncHeader, Eng.get_bind, require_bind_pos h.length, Eng.bind_ok h.magic, require_bind_pos hm, Eng.bind_ok h.unpacked,
    Eng.bind_ok h.packed, Eng.bind_ok h.unpackedCrc, Eng.bind_ok h.packedCrc, modifyWork_bind, BitVec.ofNat_toNat,
    BitVec.ofNat_toNat, BitVec.ofNat_toNat, BitVec.ofNat_toNat]
  simp only [BitVec.setWidth_eq]
  rfl

/-- A packed length beyond the input, or an unpacked length beyond the capacity (R182). -/
theorem rncHeader_badLength (h : s.HasRncFields f) (hm : f.magic = true)
    (hbad : s.inLen < 18 + f.packed.toNat ∨ s.cfg.outCap < f.unpacked.toNat) :
    rncHeader s = .error (.raise .headerInvalid) (s.withHeader f) := by
  rw [rncHeader_latched h hm]
  by_cases hp : 18 + f.packed.toNat ≤ s.inLen
  · rw [require_bind_pos hp, require_bind_neg (by omega)]
  · rw [require_bind_neg hp]

/-- With lengths in order the checksum of the body decides (R183). -/
theorem rncHeader_checksum {body : List Byte} (h : s.HasRncFields f) (hm : f.magic = true)
    (hcap : f.unpacked.toNat ≤ s.cfg.outCap) (hlen : body.length = f.packed.toNat) (hbody : s.inHas 18 body) :
    rncHeader s = require (s.checksum body = f.packedCrc) .packedCrcError
      ((s.withHeader f).withCrc (s.checksum body)) := by
  have hin := hbody.add_length_le h.length
  have hfinds := ((s.inHas_withHeader f 18 body).2 hbody).finds
  rw [rncHeader_latched h hm, ← hlen, require_bind_pos hin, require_bind_pos hcap, Eng.bind_ok (crc16_ok hfinds)]
  rfl

section Body

variable {body : List Byte} (h : s.HasRncFields f) (hm : f.magic = true) (hcap : f.unpacked.toNat ≤ s.cfg.outCap)
  (hlen : body.length = f.packed.toNat) (hbody : s.inHas 18 body)

include h hm hcap hlen hbody

/-- A body with the packed checksum of the header: the header is accepted (R183). -/
theorem rncHeader_ok (hc : s.checksum body = f.packedCrc) :
    rncHeader s = .ok () ((s.withHeader f).withCrc (s.checksum body)) := by
  rw [rncHeader_checksum h hm hcap hlen hbody, require_apply, if_pos hc]

/-- A body with another checksum (R183). -/
theorem rncHeader_badCrc (hc : s.checksum body ≠ f.packedCrc) :
    rncHeader s = .error (.raise .packedCrcError) ((s.withHeader f).withCrc (s.checksum body)) := by
  rw [rncHeader_checksum h hm hcap hlen hbody, require_apply, if_neg hc]

end Body

end Header

/-! ## Whole files -/

/-- A header step that raises ends the whole command (R324). -/
theorem exec_rncDecode_header_raise {s t : State} {k : ErrKind} (hb : s.status ≠ .busy)
    (h : rncHeader (s.begin .rncDecode) = .error (.raise k) t)
    (ht : t.errorEntry k = (s.begin .rncDecode).errorEntry k) :
    exec .rncDecode s = .next ((s.begin .rncDecode).errorEntry k) := by
  have hexec : exec .rncDecode s = _ := exec_toInstr_of_not_busy (c := .rncDecode) hb
  rw [hexec, ← ht]
  exact runMeaning_bind_raise h

/-- The state after the initialisation of `RNC_DECODE` (R184). -/
def State.rncStarted (s : State) : State :=
  { s with work := { s.work with
      ht := ⟨[], [], []⟩, cur := Cursor.config 18 (18 + s.work.packedLen.toNat) .lsb .w16 .onDemand } }

@[simp] theorem rncStart_apply (s : State) : rncStart s = .ok () s.rncStarted := rfl

/-- The state after `RNC.PRIME` of `RNC_DECODE`, for a first word of the given value (R185). -/
def State.rncPrimed (s : State) (w : Nat) : State := s.rncStarted.withCur (s.rncStarted.cur.rncPrimed w)

/-- After a header that declares no output, `RNC_DECODE` reads the first word and goes to its end (R184 to R186). -/
theorem rncDecode_of_noOutput {s t : State} {b0 b1 : Byte} (hhead : rncHeader s = .ok () t)
    (hdecl : t.work.declLen.toNat ≤ t.outLen) (hp : 2 ≤ t.work.packedLen.toNat) (hb : t.inHas 18 [b0, b1]) :
    rncDecode s = rncFinish (t.rncPrimed (leNat [b0, b1])) := by
  have hnext : t.rncStarted.nextBytes [b0, b1] :=
    ⟨Nat.add_le_add_left hp 18, (State.inHas_congr (s := t) (t := t.rncStarted) rfl rfl 18 _).2 hb⟩
  have hprime := rncPrime_ok (s := t.rncStarted) ⟨rfl, rfl, rfl⟩ rfl rfl rfl hnext
  rw [rncDecode, Eng.bind_ok hhead, Eng.bind_ok (rncStart_apply t), Eng.bind_ok hprime, Eng.get_bind, bitBound]
  exact Eng.bind_ok (rncChunks_end _ _ hdecl)

end Sys2Proof.Machine
end

section
/-! SUPPORT. A step of the machine by what comes next (R291, R351): the host's action, or the opcode at the place where
the busy engine stands. -/

namespace Sys2Proof.Machine

open Sys2Proof

/-- A host action other than a poll happens at once. -/
theorem step_hostAct {s : State} {a : HostAction} {rest : List HostAction} (hp : s.pending = a :: rest) (ha : a ≠ .poll) :
    step s = hostAct a { s with pending := rest } := by
  rw [step, machineStep, hp]
  exact if_neg fun h => ha h.1

/-- A value that names a command runs as that command (R291). -/
theorem hostAct_writeCmd {n : Nat} {k : Command} (s : State) (h : Command.ofCode n = some k) :
    hostAct (.writeCmd n) s = exec k.toInstr s := by
  rw [hostAct, h]

/-- The byte that is written to `CMD` decodes to the command whose number it is (R102, R291). -/
theorem ofCode_of_decode {c : CwcCtx} {n : Nat} {i : Instr} {rest : Parcel} (hn : n < 256)
    (h : decode c .cmd ⟨[], [BitVec.ofNat 8 n]⟩ = .ok (i, rest)) :
    ∃ k : Command, Command.ofCode n = some k ∧ i = k.toInstr := by
  obtain ⟨k, rfl, hp⟩ := parseCommand_eq_ok.1 h
  have hbyte : BitVec.ofNat 8 n = BitVec.ofNat 8 k.code := (List.cons.inj (congrArg Parcel.bytes hp)).1
  have hcode : k.code < 256 := by cases k <;> decide
  refine ⟨k, Command.ofCode_eq_some.2 ?_, rfl⟩
  simpa [Nat.mod_eq_of_lt hn, Nat.mod_eq_of_lt hcode] using congrArg BitVec.toNat hbyte

/-- The busy engine in a stream, with no host action to come, takes one opcode step. -/
theorem step_stream {s : State} {slot : Slot} (hb : s.status = .busy) (hp : s.pending = [])
    (hs : s.phase = .stream slot) : step s = opcodeStep slot s := by
  rw [step, machineStep, hp]
  simp only [if_pos hb, engineStep, hs]

/-- An opcode step executes what was fetched, then goes on in the grammar. -/
theorem opcodeStep_of_fetch {s u : State} {slot : Slot} {i : Instr} (h : fetch slot s = .ok i u) :
    opcodeStep slot s = afterOpcode i (exec i u) := by
  rw [opcodeStep, h]

/-- Where the place alone says the opcode, the fetch answers it. -/
theorem fetch_of_opcode {slot : Slot} {i : Instr} (h : slot.opcode = some i) : fetch slot = pure i := by
  cases slot <;> cases h <;> rfl

/-- At a place other than that of a CWC opcode, the decoder answers the opcode of the place (R199, R386). -/
theorem opcode_of_decode {c : CwcCtx} {slot : Slot} {i : Instr} {p rest : Parcel} (hne : slot ≠ .cwcOp)
    (h : decode c (.stream slot) p = .ok (i, rest)) : slot.opcode = some i := by
  obtain ⟨q, hq, -⟩ := decode_eq_ok.1 h
  cases hq with
  | slot ho => exact ho
  | cwc w => exact absurd rfl hne

end Sys2Proof.Machine
end

section
/-! PROOFS. The RNC stream, its header, and the order of the opcodes: the statements O23, O25, O26, O39, O40, O49 and
O51. -/

namespace Sys2Proof.Machine

open Sys2Proof

/-- Settles O25: the run length is a number of the table `RAW`, and the run appends the bytes that it reads. -/
theorem rncRawAppendsRun : Obligations.RncRawAppendsRun := by
  intro s leaf hs hv hready hfin hroom
  have hlen := s.bytesAt_length (s.ctlSkip leaf.bits).pos (s.hufNumber leaf)
  have ⟨_, _, _, hrange, hloaded⟩ := hready
  have hin := hloaded.inHas (hfin.trans hrange)
  generalize s.bytesAt (s.ctlSkip leaf.bits).pos (s.hufNumber leaf) = bytes at hlen hin
  have hnext : (s.atRun leaf).nextBytes bytes :=
    ⟨hlen ▸ hfin, (State.inHas_congr (s := s) (t := s.atRun leaf) rfl rfl _ bytes).2 hin⟩
  have hrun := repeatEng_literalByte_ok hnext (hlen ▸ hroom)
  have happ := (s.pushAll_appended bytes).congr fun k hk => (List.getElem?_eq_getElem hk).trans (hin.read hk).2.symm
  have hraw := rncRaw_run hs hv hready
  rw [hlen] at hrun happ
  rw [Eng.bind_ok hrun, modifyWork_apply] at hraw
  exact ⟨_, runMeaning_ok hraw, rfl, rfl, happ⟩

/-- Settles O26: the distance is checked against the output, since `RNC_DECODE` has no zero history; a legal copy is
periodic. -/
theorem rncMatchCopies : Obligations.RncMatchCopies := by
  rintro s dl ll _ _ _ hcmd hd hdv hdr rfl hl hlv hlr rfl rfl
  have hcopy := rncMatch_copy hd hdv hdr hl hlv hlr
  have hmax : ((s.atDistance dl).atLength ll).maxDistance = s.outLen :=
    State.maxDistance_of_not_cwc (s := (s.atDistance dl).atLength ll) fun hcwc => nomatch hcmd.symm.trans hcwc
  refine ⟨fun hfar => ?overrun, fun hnear hf hr => ?copied⟩
  case overrun =>
    rw [← s.errorEntry_atDistance dl, ← (s.atDistance dl).errorEntry_atLength ll]
    exact runMeaning_raise (hcopy.trans (lzCopy_of_overrun (Nat.le_add_left 1 _) (hmax.trans_lt hfar)))
  case copied =>
    obtain ⟨t, hrun, hsame, hwork, happ⟩ := exec_lzCopy_ok (s := (s.atDistance dl).atLength ll) (Nat.le_add_left 1 _)
      (hnear.trans hmax.ge) hf hr
    exact ⟨t, (congrArg outcomeOf hcopy).trans hrun, hsame.of_work.of_work, hwork,
      happ.periodic (Nat.le_add_left 1 _) hnear⟩

/-- Settles O39: the header is accepted and declares no output, so that the checksum of no bytes, the initial value, is
compared with the header's. -/
theorem rncEmptyFile : Obligations.RncEmptyFile := by
  intro s u1 u0 p1 p0 x y b0 b1 hb hin hcrc
  have hfile : (s.begin .rncDecode).inHas 0 ([0x52#8, 0x4E#8, 0x43#8, 0x01#8] ++ [0#8, 0#8, 0#8, 0#8] ++
      [0#8, 0#8, 0#8, 2#8] ++ [u1, u0] ++ [p1, p0] ++ [x, y] ++ [b0, b1]) := (s.inHas_begin .rncDecode 0 _).2 hin
  have hlen : 20 ≤ (s.begin .rncDecode).inLen := hfile.add_length_le (Nat.zero_le _)
  obtain ⟨hstart, hbody⟩ := (State.inHas_append _ 0 _ _).1 hfile
  have hf := State.hasRncFields_of_inHas (by omega) ((State.inHas_append _ 0 _ _).1 hstart).1
  have hpacked : (0#8 ++ 0#8 ++ 0#8 ++ 2#8 : Word32).toNat = 2 := by decide
  have hhead := rncHeader_ok (body := [b0, b1]) hf rfl (Nat.zero_le _) hpacked.symm hbody hcrc.symm
  have hend := rncDecode_of_noOutput hhead (Nat.le_refl 0) hpacked.ge hbody
  have hexec : exec .rncDecode s = _ := exec_toInstr_of_not_busy (c := .rncDecode) hb
  rw [hexec]
  refine ⟨fun hcrc => ?done, fun hcrc => ?error⟩
  case done => exact runMeaning_ok (hend.trans (rncFinish_ok rfl nofun hcrc.symm))
  case error => exact (runMeaning_raise (hend.trans (rncFinish_badCrc rfl nofun (Ne.symm hcrc)))).trans rfl

/-- Settles O23: a refill, then a read of two pending bits. -/
theorem rncPrimeDiscardsTwoBits : Obligations.RncPrimeDiscardsTwoBits := by
  intro s b0 b1 hrnc hcnt hsr hpos
  refine ⟨fun hb => runMeaning_ok ?_, fun hf => runMeaning_raise (rncPrime_underrun hrnc hcnt hpos hf)⟩
  exact rncPrime_ok hrnc hcnt hsr hpos hb

/-- Settles O40: each clause is a law of the header step. -/
theorem rncHeaderChecks : Obligations.RncHeaderChecks := by
  intro s m0 m1 m2 m3 u3 u2 u1 u0 p3 p2 p1 p0 c3 c2 c1 c0 body hb
  refine ⟨fun h => exec_rncDecode_header_raise hb (rncHeader_short h) rfl, fun hlen h => ?_⟩
  have hf := State.hasRncFields_of_inHas (s := s.begin .rncDecode) hlen ((s.inHas_begin .rncDecode 0 _).2 h)
  refine ⟨fun hm => ?magic, fun hm => ⟨fun hbad => ?length, fun hcap hbody hin hcrc => ?checksum⟩⟩
  case magic => exact exec_rncDecode_header_raise hb (rncHeader_badMagic hf (beq_eq_false_iff_ne.2 hm)) rfl
  case length =>
    exact exec_rncDecode_header_raise hb (rncHeader_badLength hf (beq_iff_eq.2 hm) hbad)
      (State.errorEntry_withHeader _ _ _)
  case checksum =>
    exact exec_rncDecode_header_raise hb (rncHeader_badCrc hf (beq_iff_eq.2 hm) hcap hbody
      ((s.inHas_begin .rncDecode 18 _).2 hin) hcrc.symm) (State.errorEntry_withCrc _ _ _)

/-- Settles O49: each clause by what comes next: the host's write of `CMD`, the fetched opcode, the opcode of the place. -/
theorem stepRunsDecodedInstruction : Obligations.StepRunsDecodedInstruction := by
  refine ⟨?command, ?opcode, ?place⟩
  case command =>
    intro s c n rest i hp hn h
    obtain ⟨k, hk, rfl⟩ := ofCode_of_decode hn h
    rw [step_hostAct hp nofun, hostAct_writeCmd _ hk]
  case opcode =>
    intro s u slot i hb hp hs hf
    have hstep := (step_stream hb hp hs).trans (opcodeStep_of_fetch hf)
    refine ⟨fun t ht hdone => ?_, fun t ht hbusy => ?_⟩
    · rw [hstep, ht, afterOpcode, if_neg hdone]
    · rw [hstep, ht, afterOpcode, if_pos hbusy]
  case place =>
    intro s c slot i p rest hne h
    rw [fetch_of_opcode (opcode_of_decode hne h), Eng.pure_apply]

/-- Settles O51: the tests of CWC and of the tree decoder, the fixed successors, and the test between chunks, behind which
an RNC stream ends. -/
theorem grammarOrder : Obligations.GrammarOrder := by
  intro s
  refine ⟨fun hfull => ⟨fun op => ?_, runMeaning_ok (hufTest_full hfull.ge)⟩,
    fun hmore => ⟨fun op => ?_, runMeaning_ok (hufTest_more hmore)⟩,
    rfl, rfl, rfl, rfl, rfl, fun hcnt => runMeaning_ok (advance_rncRaw_match hcnt), fun i hi => ?_⟩
  · rw [advance_cwcOp, runMeaning_ok (cwcTest_full hfull)]
  · rw [advance_cwcOp, runMeaning_ok (cwcTest_more hmore.ne)]
  · have htest := advance_chunkTest hi
    have hend (h : s.work.declLen.toNat ≤ s.outLen) := htest.trans (rncChunkTest_end h)
    refine ⟨fun hmore => runMeaning_ok (htest.trans (rncChunkTest_more hmore)),
      fun hfull hf => ⟨fun hc => ?_, fun hc => ?_⟩, fun hover => ?_⟩
    · exact runMeaning_ok ((hend hfull.ge).trans (rncFinish_ok hfull hf hc))
    · rw [← s.errorEntry_withCrc]
      exact runMeaning_raise ((hend hfull.ge).trans (rncFinish_badCrc hfull hf hc))
    · exact runMeaning_raise ((hend hover.le).trans (rncFinish_size hover.ne'))

end Sys2Proof.Machine
end

section
/-! SUPPORT. The CWC opcodes behind their selection (R225 to R235): a byte read at the byte position goes through the
register `b` to the output, once, as often as a run says, or byte by byte in a string; a copy goes through the register
`D`. Of none of these registers the error entry leaves a trace. -/

namespace Sys2Proof.Machine

open Sys2Proof

/-! ## Bytes at the byte position -/

theorem State.nextBytes_congr {s t : State} (hm : t.inMem = s.inMem) (hl : t.inLen = s.inLen) (hc : t.cur = s.cur)
    (bytes : List Byte) : t.nextBytes bytes ↔ s.nextBytes bytes := by
  simp only [State.nextBytes, hc, State.inHas_congr hm hl]

/-- Where the pending bits stand does not matter to the bytes at the byte position. -/
theorem State.nextBytes_withCur {s : State} {c : Cursor} {bytes : List Byte} (h : s.nextBytes bytes)
    (hpos : c.pos = s.cur.pos) (hfin : c.fin = s.cur.fin) : (s.withCur c).nextBytes bytes := by
  simp only [State.nextBytes, State.withCur_cur, State.inHas_withCur, hpos, hfin]
  exact h

/-- Bytes that follow at the byte position: the first of them, and behind these the others. -/
theorem State.nextBytes_append {s : State} {xs ys : List Byte} (h : s.nextBytes (xs ++ ys)) :
    s.nextBytes xs ∧ (s.withCur { s.cur with pos := s.cur.pos + xs.length }).nextBytes ys := by
  obtain ⟨hfin, hhas⟩ := h
  obtain ⟨hxs, hys⟩ := (s.inHas_append _ xs ys).1 hhas
  rw [List.length_append] at hfin
  refine ⟨⟨by omega, hxs⟩, ?_, (State.inHas_withCur s _ _ ys).2 hys⟩
  change s.cur.pos + xs.length + ys.length ≤ s.cur.fin
  omega

/-- The bytes have been read at the byte position, one by one through the register `b` (R44). -/
def State.tookBytes (s : State) (bytes : List Byte) : State :=
  { s with work := { s.work with
      cur := { s.cur with pos := s.cur.pos + bytes.length }, cwcB := bytes.getLast?.getD s.work.cwcB } }

theorem State.errorEntry_tookBytes (s : State) (bytes : List Byte) (k : ErrKind) :
    (s.tookBytes bytes).errorEntry k = s.errorEntry k := rfl

theorem State.tookBytes_cons (s : State) (b : Byte) (bs : List Byte) :
    (s.tookBytes [b]).tookBytes bs = s.tookBytes (b :: bs) := by
  have hpos : s.cur.pos + 1 + bs.length = s.cur.pos + (b :: bs).length := by
    rw [List.length_cons]
    omega
  have hlast : (b :: bs).getLast?.getD s.work.cwcB = bs.getLast?.getD b := by
    rw [List.getLast?_cons, Option.getD_some]
  unfold State.tookBytes
  rw [hlast, ← hpos]
  rfl

theorem State.nextBytes_tookBytes {s : State} {xs ys : List Byte} (h : s.nextBytes (xs ++ ys)) :
    (s.tookBytes xs).nextBytes ys :=
  (State.nextBytes_congr (t := s.tookBytes xs) (s := s.withCur _) rfl rfl rfl ys).2 (State.nextBytes_append h).2

/-! ## Literals -/

/-- `emit` with room for the byte (R71). -/
theorem emit_ok {b : Byte} {s : State} (hdecl : s.outLen < s.work.declLen.toNat) (hcap : s.outLen < s.cfg.outCap) :
    emit b s = .ok () (s.push b) := emit_eq_ok.2 ⟨hdecl, hcap, rfl⟩

section Literal

variable {s : State} {b : Byte}

/-- A literal is read, then appended (R225). -/
theorem cwcLiteral_read (h : s.nextBytes [b]) : cwcLiteral s = emit b (s.tookBytes [b]) := by
  rw [cwcLiteral, Eng.bind_ok (readByte_ok h), modifyWork_bind]
  rfl

theorem cwcLiteral_ok (h : s.nextBytes [b]) (hr : s.roomFor 1) : cwcLiteral s = .ok () ((s.tookBytes [b]).push b) := by
  rw [cwcLiteral_read h]
  exact emit_ok hr.1 hr.2

theorem cwcLiteral_full (h : s.nextBytes [b]) (hf : s.work.declLen.toNat ≤ s.outLen) :
    cwcLiteral s = .error (.raise .fileSizeMismatch) (s.tookBytes [b]) := by
  rw [cwcLiteral_read h]
  exact emit_full hf

/-- The read comes before the room (R225). -/
theorem cwcLiteral_underrun (h : s.cur.fin < s.cur.pos + 1) : cwcLiteral s = .error (.raise .bitstreamUnderrun) s :=
  Eng.bind_error (readByte_underrun h)

end Literal

/-- A string of literals is read and appended byte by byte (R231). -/
theorem repeatEng_cwcLiteral_ok {bytes : List Byte} {s : State} (hb : s.nextBytes bytes) (hr : s.roomFor bytes.length) :
    repeatEng bytes.length cwcLiteral s = .ok () ((s.tookBytes bytes).pushAll bytes) := by
  induction bytes generalizing s with
  | nil => rfl
  | cons b bs ih =>
    have hsplit : s.nextBytes ([b] ++ bs) := hb
    obtain ⟨hdecl, hcap⟩ := hr
    rw [List.length_cons] at hdecl hcap
    have hfirst := cwcLiteral_ok (State.nextBytes_append hsplit).1 ⟨by omega, by omega⟩
    have hnext : ((s.tookBytes [b]).push b).nextBytes bs :=
      (State.nextBytes_congr (t := (s.tookBytes [b]).push b) (s := s.tookBytes [b]) rfl rfl rfl bs).2
        (State.nextBytes_tookBytes hsplit)
    have hroom : ((s.tookBytes [b]).push b).roomFor bs.length := by
      constructor
      · change s.outLen + 1 + bs.length ≤ s.work.declLen.toNat
        omega
      · change s.outLen + 1 + bs.length ≤ s.cfg.outCap
        omega
    rw [List.length_cons, repeatEng_succ, Eng.bind_ok hfirst, ih hnext hroom, ← State.push_pushAll,
      ← s.tookBytes_cons b bs]
    rfl

/-! ## Literal strings -/

/-- The count byte of a string has been read into the register `c` (R231). -/
def State.tookCount (s : State) (c : Byte) : State :=
  { s with work := { s.work with cur := { s.cur with pos := s.cur.pos + 1 }, cwcC := c } }

/-- A count byte, then as many literals (R231). -/
theorem cwcLitstr_read {s : State} {c : Byte} (h : s.nextBytes [c]) :
    cwcLitstr s = repeatEng c.toNat cwcLiteral (s.tookCount c) := by
  rw [cwcLitstr, Eng.bind_ok (readByte_ok h), modifyWork_bind]
  rfl

theorem cwcLitstr_ok {s : State} {c : Byte} {bytes : List Byte} (hlen : bytes.length = c.toNat)
    (hb : s.nextBytes (c :: bytes)) (hr : s.roomFor c.toNat) :
    cwcLitstr s = .ok () (((s.tookCount c).tookBytes bytes).pushAll bytes) := by
  obtain ⟨hcount, hbytes⟩ := State.nextBytes_append (xs := [c]) hb
  have hnext : (s.tookCount c).nextBytes bytes :=
    (State.nextBytes_congr (t := s.tookCount c) (s := s.withCur _) rfl rfl rfl bytes).2 hbytes
  rw [cwcLitstr_read hcount, ← hlen]
  exact repeatEng_cwcLiteral_ok hnext (by rwa [hlen])

theorem cwcLitstr_underrun {s : State} (h : s.cur.fin < s.cur.pos + 1) :
    cwcLitstr s = .error (.raise .bitstreamUnderrun) s :=
  Eng.bind_error (readByte_underrun h)

/-! ## Runs -/

/-- With room for all of them the copies of the byte are appended (R233). -/
theorem emitRun_ok {n : Nat} {b : Byte} {s : State} (h : s.roomFor n) :
    emitRun n b s = .ok () (s.pushAll (List.replicate n b)) := by
  induction n generalizing s with
  | zero => rfl
  | succ n ih =>
    obtain ⟨hdecl, hcap⟩ := h
    have hroom : (s.push b).roomFor n := by
      constructor
      · rw [State.push_outLen, State.push_work]
        omega
      · rw [State.push_outLen, State.push_cfg]
        omega
    rw [emitRun, repeatEng_succ, Eng.bind_ok (emit_ok (by omega) (by omega)), ← emitRun, ih hroom,
      State.push_pushAll, List.replicate_succ]

/-- Without room for all of them some are appended, then the run raises (R71, R233). -/
theorem emitRun_full {n : Nat} {b : Byte} {s : State} (hle : s.outLen ≤ s.work.declLen.toNat)
    (hcap : s.work.declLen.toNat ≤ s.cfg.outCap) (hfull : s.work.declLen.toNat < s.outLen + n) :
    ∃ bs, emitRun n b s = .error (.raise .fileSizeMismatch) (s.pushAll bs) := by
  induction n generalizing s with
  | zero => omega
  | succ n ih =>
    rw [emitRun, repeatEng_succ]
    by_cases hroom : s.outLen < s.work.declLen.toNat
    · have hfull' : (s.push b).work.declLen.toNat < (s.push b).outLen + n := by
        rw [State.push_work, State.push_outLen]
        omega
      obtain ⟨bs, hrun⟩ := ih (s := s.push b) hroom hcap hfull'
      rw [State.push_pushAll] at hrun
      rw [Eng.bind_ok (emit_ok hroom (by omega))]
      exact ⟨b :: bs, hrun⟩
    · exact ⟨[], Eng.bind_error (emit_full (Nat.not_lt.1 hroom))⟩

theorem State.pushAll_replicate_appended (s : State) (n : Nat) (b : Byte) :
    s.appended (s.pushAll (List.replicate n b)) n fun _ => some b := by
  have h := s.pushAll_appended (List.replicate n b)
  rw [List.length_replicate] at h
  exact h.congr fun k hk => by rw [List.getElem?_replicate, if_pos hk]

/-- A run reads its fill byte, then appends it (R233). -/
theorem cwcRun_read {len : Nat} {fill : Byte} {s : State} (h : s.nextBytes [fill]) :
    cwcRun len s = emitRun (len + 1) fill (s.tookBytes [fill]) := by
  rw [cwcRun, Eng.bind_ok (readByte_ok h), modifyWork_bind]
  rfl

theorem cwcRun_underrun {len : Nat} {s : State} (h : s.cur.fin < s.cur.pos + 1) :
    cwcRun len s = .error (.raise .bitstreamUnderrun) s :=
  Eng.bind_error (readByte_underrun h)

/-- The three run forms have one meaning (R226 to R228, R233). -/
theorem exec_cwcRun {i : Instr} {len : Nat} (h : i = .cwcShortRun len ∨ i = .cwcMedRun len ∨ i = .cwcLongRun len)
    (s : State) : exec i s = runMeaning (cwcRun len) s := by
  rcases h with rfl | rfl | rfl <;> rfl

/-! ## The terminator -/

/-- The terminator at the declared length completes the command (R229). -/
theorem cwcTerm_ok {s : State} (h : s.outLen = s.work.declLen.toNat) : cwcTerm s = .ok () s.complete := by
  rw [cwcTerm, Eng.get_bind, require_bind_pos h, completeCommand_apply]

/-- The terminator at any other length (R229). -/
theorem cwcTerm_size {s : State} (h : s.outLen ≠ s.work.declLen.toNat) :
    cwcTerm s = .error (.raise .fileSizeMismatch) s := by
  rw [cwcTerm, Eng.get_bind, require_bind_neg h]

/-! ## Copies -/

/-- The distance of a copy is in the register `D` (R234). -/
def State.atCopy (s : State) (dist : Nat) : State := { s with work := { s.work with cwcD := dist } }

theorem State.errorEntry_atCopy (s : State) (dist : Nat) (k : ErrKind) :
    (s.atCopy dist).errorEntry k = s.errorEntry k := rfl

/-- A copy computes its distance, then is a copy of the output (R233, R234). -/
theorem cwcCopy_of_pos {len pos : Nat} (s : State) (h : 1 ≤ pos) :
    cwcCopy len pos s = lzCopy (cwcDistance len pos) len (s.atCopy (cwcDistance len pos)) := by
  rw [cwcCopy, ensure_bind_pos h, modifyWork_bind]
  rfl

/-- The three copy forms have one meaning (R226 to R228, R233). -/
theorem exec_cwcCopy {i : Instr} {len pos : Nat}
    (h : i = .cwcShortCopy len pos ∨ i = .cwcMedCopy len pos ∨ i = .cwcLongCopy len pos) (s : State) :
    exec i s = runMeaning (cwcCopy len pos) s := by
  rcases h with rfl | rfl | rfl <;> rfl

/-- A copy that is no longer than its distance reads only what was in the output before it. -/
theorem State.appended.of_behind {s t : State} {dist len : Nat} (hlen : len ≤ dist)
    (h : s.appended t len fun k => t.outMem.behind dist (s.outLen + k)) :
    s.appended t len fun k => s.outMem.behind dist (s.outLen + k) := by
  have ⟨_, _, hold⟩ := h
  refine h.congr fun k hk => ?_
  unfold Mem.behind
  split
  · rfl
  · exact hold _ (.inl (by omega))

end Sys2Proof.Machine
end

section
/-! PROOFS. The CWC opcodes behind their selection: the statements O28 to O32. -/

namespace Sys2Proof.Machine

open Sys2Proof

/-- Settles O29: the three forms have one meaning, which reads the fill byte before it asks for room. -/
theorem cwcRunAppendsFill : Obligations.CwcRunAppendsFill := by
  intro s len fill i hi
  rw [exec_cwcRun hi]
  refine ⟨fun hb hr => ?room, fun hf => runMeaning_raise (cwcRun_underrun hf), fun hb hle hcap hfull => ?full⟩
  case room =>
    exact ⟨_, runMeaning_ok ((cwcRun_read hb).trans (emitRun_ok (s := s.tookBytes [fill]) hr)), rfl, rfl,
      (s.tookBytes [fill]).pushAll_replicate_appended (len + 1) fill⟩
  case full =>
    obtain ⟨bs, hrun⟩ := emitRun_full (s := s.tookBytes [fill]) (b := fill) hle hcap hfull
    rw [← s.errorEntry_tookBytes [fill], ← (s.tookBytes [fill]).errorEntry_pushAll bs]
    exact runMeaning_raise ((cwcRun_read hb).trans hrun)

/-- Settles O30: `CWC_DECODE` has the zero history, and the distance is at least the length. -/
theorem cwcCopyAppends : Obligations.CwcCopyAppends := by
  intro s len pos d i hi hcmd hpos hlen hd
  obtain rfl : d = cwcDistance len pos := hd
  have hdist : len ≤ cwcDistance len pos := Nat.le_add_left _ _
  have hcopy := cwcCopy_of_pos (len := len) s hpos
  have hmax := State.maxDistance_of_cwc (s := s.atCopy (cwcDistance len pos)) hcmd
  rw [exec_cwcCopy hi]
  refine ⟨fun hfar => ?overrun, fun hnear hf hr => ?copied⟩
  case overrun =>
    rw [← s.errorEntry_atCopy (cwcDistance len pos)]
    exact runMeaning_raise (hcopy.trans (lzCopy_of_overrun (by omega) (hmax.trans_lt hfar)))
  case copied =>
    obtain ⟨t, hrun, hsame, hwork, happ⟩ := exec_lzCopy_ok (s := s.atCopy (cwcDistance len pos)) (len := len)
      (by omega) (hnear.trans hmax.ge) hf hr
    exact ⟨t, (congrArg outcomeOf hcopy).trans hrun, hsame.of_work, hwork, happ.of_behind hdist⟩

/-- Settles O32: the count byte, then as many literals. -/
theorem cwcLitstrAppendsString : Obligations.CwcLitstrAppendsString := by
  intro s c bytes hlen
  refine ⟨fun hb hr => ?_, fun hf => runMeaning_raise (cwcLitstr_underrun hf)⟩
  have happ := ((s.tookCount c).tookBytes bytes).pushAll_appended bytes
  have hrun := cwcLitstr_ok hlen hb hr
  rw [hlen] at happ
  refine ⟨_, runMeaning_ok hrun, rfl, ?_, happ⟩
  rw [← hlen]
  rfl

/-- Settles O28: the byte is read, then there is room for it or not. -/
theorem cwcLitAppendsByte : Obligations.CwcLitAppendsByte := by
  intro s b
  refine ⟨fun hb hr => ?_, fun hf => runMeaning_raise (cwcLiteral_underrun hf), fun hb hf => ?_⟩
  · exact ⟨_, runMeaning_ok (cwcLiteral_ok hb hr), rfl, rfl, (s.tookBytes [b]).pushAll_replicate_appended 1 b⟩
  · rw [← s.errorEntry_tookBytes [b]]
    exact runMeaning_raise (cwcLiteral_full hb hf)

/-- Settles O31: the terminator is a test of the length, and a no-op has no operations. -/
theorem cwcTermAndNops : Obligations.CwcTermAndNops := by
  intro s
  exact ⟨⟨rfl, rfl⟩, fun h => runMeaning_ok (cwcTerm_ok h), fun h => runMeaning_raise (cwcTerm_size h)⟩

end Sys2Proof.Machine
end

section
/-! SUPPORT. The fetch of a CWC opcode against the words of the wire (R101, R224): a fetch is a check of the control bits
of a word, one by one, and then a read of its fields. What the check of some bits does is said once for each of the three
ways in which bits come: all pending, across refill words, and into a word that is missing (R135). -/

namespace Sys2Proof.Machine

open Sys2Proof

/-! ## Checks of control bits -/

/-- Read control bits one by one; they are the given ones, or the model stops. -/
def expectBits : List Bool → Eng Unit
  | [] => pure ()
  | b :: bits => do
    let x ← readBit
    ensure (x = b) .precondition
    expectBits bits

/-- An operation that is no fault where it starts: it succeeds or raises. -/
def FaultFree {α : Type} (x : Eng α) (s : State) : Prop := ∀ f t, x s ≠ .error (.fault f) t

theorem FaultFree.of_ok {α : Type} {x : Eng α} {s t : State} {a : α} (h : x s = .ok a t) : FaultFree x s :=
  fun _ _ hf => nomatch h.symm.trans hf

theorem FaultFree.of_raise {α : Type} {x : Eng α} {s t : State} {k : ErrKind} (h : x s = .error (.raise k) t) :
    FaultFree x s :=
  fun _ _ hf => nomatch h.symm.trans hf

/-- What goes on from equal answers answers the same. -/
theorem Eng.bind_congr_apply {α β : Type} {x y : Eng α} {s t : State} (f : α → Eng β) (h : x s = y t) :
    (x >>= f) s = (y >>= f) t := by
  rw [Eng.bind_apply, Eng.bind_apply, h]

theorem expectBits_cons_of_read {b : Bool} {bits : List Bool} {s t : State} (h : readBit s = .ok b t) :
    expectBits (b :: bits) s = expectBits bits t := by
  rw [expectBits, Eng.bind_ok h, ensure_bind_pos rfl]

/-- To read a bit that has been checked is to go on as its value says. -/
theorem readBit_bind_of_expectBits {α : Type} {b : Bool} {bits : List Bool} {s : State} {f : Bool → Eng α}
    {k : Eng α}
    (hs : FaultFree (expectBits (b :: bits)) s)
    (hf : ∀ c, SameProfile s.cur c → FaultFree (expectBits bits) (s.withCur c) →
      f b (s.withCur c) = (expectBits bits >>= fun _ => k) (s.withCur c)) :
    (readBit >>= f) s = (expectBits (b :: bits) >>= fun _ => k) s := by
  cases hread : readBit s with
  | error e t =>
    have hstop : expectBits (b :: bits) s = .error e t := Eng.bind_error hread
    rw [Eng.bind_error hread, Eng.bind_error hstop]
  | ok x t =>
    by_cases hx : x = b
    · subst hx
      have hrest := expectBits_cons_of_read (bits := bits) hread
      obtain ⟨c, rfl, hprofile, -⟩ := (readBit_moves hread).1
      rw [Eng.bind_ok hread, Eng.bind_congr_apply _ hrest]
      exact hf c hprofile fun e t he => hs e t (hrest.trans he)
    · have hstop : expectBits (b :: bits) s = .error (.fault .precondition) t := by
        rw [expectBits, Eng.bind_ok hread]
        exact Eng.bind_error (by rw [ensure_apply, if_neg hx])
      exact absurd hstop (hs _ _)

/-- The loop of `READ_BITS` over bits that have been checked: their number below what was read before (R136). -/
theorem readBitsFrom_of_expectBits {bits : List Bool} {i v : Nat} {s : State} (hs : FaultFree (expectBits bits) s) :
    readBitsFrom .msb bits.length i v s =
      (expectBits bits >>= fun _ => pure (v * 2 ^ bits.length + msbNat bits)) s := by
  induction bits generalizing i v s with
  | nil =>
    rw [List.length_nil, pow_zero, Nat.mul_one]
    rfl
  | cons b bits ih =>
    have hval : (2 * v + b.toNat) * 2 ^ bits.length + msbNat bits =
        v * 2 ^ (b :: bits).length + msbNat (b :: bits) := by
      rw [msbNat_cons, List.length_cons, pow_succ]
      ring
    refine readBit_bind_of_expectBits hs fun c _ hrest => ?_
    rw [addBit_msb, ih hrest, hval]

/-- `READ_BITS` of bits that have been checked: their number (R136). -/
theorem readBits_of_expectBits {bits : List Bool} {s : State} (ho : s.cur.order = .msb)
    (hn : bits.length ≤ s.cur.width.bits) (hs : FaultFree (expectBits bits) s) :
    readBits bits.length s = (expectBits bits >>= fun _ => pure (msbNat bits)) s := by
  rw [readBits_eq hn, ho, readBitsFrom_of_expectBits hs, Nat.zero_mul, Nat.zero_add]

/-! ## How control bits come -/

/-- The register after its top bit has been consumed still holds the bits below it (R33). -/
theorem Cursor.bitsMsbFirst_dropped_one {c : Cursor} (ho : c.order = .msb) (hw : c.width = .w32) {n : Nat}
    (hn : n + 1 ≤ 64) : bitsMsbFirst (n + 1) (c.sr / 2 ^ (64 - (n + 1))) =
      c.nextBit :: bitsMsbFirst n ((c.dropped 1).sr / 2 ^ (64 - n)) := by
  have htop : (c.sr / 2 ^ (64 - (n + 1))).testBit n = c.nextBit := by
    simp only [Cursor.nextBit, ho, hw]
    rw [Nat.testBit_div_two_pow]
    congr 1
    change n + (64 - (n + 1)) = 63
    omega
  have hsr : (c.dropped 1).sr = c.sr * 2 ^ 1 % 2 ^ 64 := by
    simp only [Cursor.dropped, ho, hw]
    rfl
  rw [bitsMsbFirst, htop, hsr]
  congr 1
  refine bitsMsbFirst_congr fun i hi => ?_
  have hbit : i + (64 - n) - 1 = i + (64 - (n + 1)) := by omega
  rw [Nat.testBit_div_two_pow, Nat.testBit_div_two_pow, Nat.testBit_mod_two_pow, Nat.testBit_mul_two_pow]
  simp only [hbit]
  rw [decide_eq_true (by omega), decide_eq_true (by omega), Bool.true_and, Bool.true_and]

/-- More pending bits than are consumed need no refill, under either policy (R135). -/
theorem Cursor.noRefillFor_of_lt {c : Cursor} {n : Nat} (h : n < c.cnt) : c.noRefillFor n := by
  unfold Cursor.noRefillFor
  cases c.policy with
  | onDemand => exact .inl ⟨rfl, h.le⟩
  | onExhaust => exact .inr ⟨rfl, h⟩

/-- Pending bits that are the top of the register, no refill being due before they end (R135). -/
theorem expectBits_pending {n : Nat} {bits rest : List Bool} {s : State} (ho : s.cur.order = .msb)
    (hw : s.cur.width = .w32) (hn : n ≤ 64) (hsr : s.cur.sr < 2 ^ (2 * s.cur.width.bits)) (h : s.cur.noRefillFor n)
    (hbits : bits ++ rest = bitsMsbFirst n (s.cur.sr / 2 ^ (64 - n))) :
    expectBits bits s = .ok () (s.withCur (s.cur.dropped bits.length)) := by
  induction bits generalizing n s with
  | nil =>
    rw [List.length_nil, Cursor.dropped_zero hsr]
    rfl
  | cons b bits ih =>
    cases n with
    | zero => nomatch hbits
    | succ n =>
      rw [Cursor.bitsMsbFirst_dropped_one ho hw hn, List.cons_append] at hbits
      obtain ⟨rfl, hrest⟩ := List.cons.inj hbits
      have htail := ih (s := s.withCur (s.cur.dropped 1)) ho hw (by omega) (Cursor.dropped_sr_lt hsr 1) h.rest hrest
      rw [expectBits_cons_of_read (readBit_pending h.first), htail, State.withCur_withCur, State.withCur_cur,
        Cursor.dropped_add, Nat.add_comm 1, List.length_cons]

/-- The control bits before the cursor, across the words that they need (R135). -/
theorem expectBits_cwcCtl {n : Nat} {s : State} (h : s.cwcReady n) :
    expectBits (s.cwcCtl n) s = .ok () (s.withCur (s.cwcSkip n)) := by
  induction n generalizing s with
  | zero =>
    rw [State.cwcSkip_zero h.1, State.cwcCtl, List.take_zero]
    rfl
  | succ n ih =>
    rw [Nat.add_comm n 1] at h ⊢
    obtain ⟨b, hread, hb⟩ := readBit_cwc h.mono
    rw [State.cwcCtl_add, hb, List.singleton_append, expectBits_cons_of_read hread, ih h.skip, State.withCur_withCur,
      State.cwcSkip_skip]

/-- A cursor in order stays in order where a bit is consumed that needs no refill (R35). -/
theorem Cursor.cwcOk.dropped_one {c : Cursor} (h : c.cwcOk) (hp : c.noRefillFor 1) : (c.dropped 1).cwcOk := by
  obtain ⟨ho, hw, hclean, -⟩ := h
  have hcnt : (c.dropped 1).cnt = c.cnt - 1 := rfl
  rcases hp with ⟨hpol, h1⟩ | ⟨-, h1⟩
  · exact ⟨ho, hw, Cursor.clean_dropped_one hclean h1, fun he => nomatch hpol.symm.trans he⟩
  · exact ⟨ho, hw, Cursor.clean_dropped_one hclean h1.le, fun _ => by omega⟩

/-- Bits that begin with all pending ones run into a word that does not lie in the range (R135, R143). -/
theorem expectBits_underrun {bits : List Bool} {s : State} (hok : s.cur.cwcOk) (hbits : s.cur.pendingBits <+: bits)
    (h : s.cur.refillWithin bits.length) (hf : s.cur.fin < s.cur.pos + 4) :
    ∃ c, expectBits bits s = .error (.raise .bitstreamUnderrun) (s.withCur c) := by
  have hfin : s.cur.fin < s.cur.pos + s.cur.width.bytes := by
    obtain ⟨-, hw, -⟩ := hok
    rwa [hw]
  induction bits generalizing s with
  | nil => rcases h with ⟨-, h⟩ | ⟨-, h1, h⟩ <;> simp only [List.length_nil] at h <;> omega
  | cons b bits ih =>
    rcases h.cases with h0 | h0 | ⟨h1, hrest⟩
    · exact (readBit_underrun (.inl h0) hfin).imp fun _ => Eng.bind_error
    · exact (readBit_underrun (.inr h0) hfin).imp fun _ => Eng.bind_error
    · obtain ⟨x, pending, hcons⟩ := List.exists_cons_of_length_pos (l := s.cur.pendingBits)
        (by rw [Cursor.pendingBits_length]; exact h1.elim And.right (Nat.le_of_lt ·.2))
      obtain ⟨hnext, hdropped⟩ := hok.pending_cons hcons
      rw [hcons, List.cons_prefix_cons] at hbits
      obtain ⟨rfl, hbits⟩ := hbits
      have hread := readBit_pending h1
      rw [hnext] at hread
      have hpending : (s.cur.dropped 1).pendingBits <+: bits := by rwa [hdropped, Cursor.pendingBits_holding]
      rw [expectBits_cons_of_read hread]
      exact ih (s := s.withCur (s.cur.dropped 1)) (hok.dropped_one h1) hpending hrest hf hfin

/-! ## Fields -/

/-- Where the fields of a word have been read: `L`, `P` and `w` beside the cursor are all that may have changed (R44). -/
def State.sameButSelection (s u : State) : Prop :=
  { u with work := { u.work with cur := s.cur, cwcL := s.work.cwcL, cwcP := s.work.cwcP, cwcW := s.work.cwcW } } = s

theorem State.sameButSelection.of_withCur {s u : State} {c : Cursor} (h : (s.withCur c).sameButSelection u) :
    s.sameButSelection u := by
  have hcur := congrArg (State.withCur · s.cur) h
  exact hcur

/-- The end of a command leaves no trace of its last selection (R50). -/
theorem State.sameButSelection.complete {s u : State} (h : s.sameButSelection u) : u.complete = s.complete := by
  have hend := congrArg State.complete h
  exact hend

/-- `READ_U16` into the register `w`, from the bytes of the field (R227). -/
theorem cwcReadU16_ok {w : BitVec 16} {s : State} (h : s.nextBytes (bytesLe 2 w.toNat)) :
    cwcReadU16 s = .ok w { s with work := { s.work with
      cur := { s.cur with pos := s.cur.pos + 2 }, cwcW := w.setWidth 24 } } := by
  have hw : BitVec.ofNat 8 (w.toNat / 256) ++ BitVec.ofNat 8 w.toNat = w :=
    BitVec.eq_of_toNat_eq ((toNat_u16 _ _).trans ((leNat_bytesLe 2 _).trans (Nat.mod_eq_of_lt w.isLt)))
  rw [cwcReadU16, Eng.bind_ok (readU16_ok h), hw, modifyWork_bind]
  rfl

/-- `READ_U24` into the register `w`, from the bytes of the field (R228). -/
theorem cwcReadU24_ok {w : BitVec 24} {s : State} (h : s.nextBytes (bytesLe 3 w.toNat)) :
    cwcReadU24 s = .ok w { s with work := { s.work with cur := { s.cur with pos := s.cur.pos + 3 }, cwcW := w } } := by
  have hw : BitVec.ofNat 8 (w.toNat / 256 / 256) ++ BitVec.ofNat 8 (w.toNat / 256) ++ BitVec.ofNat 8 w.toNat = w :=
    BitVec.eq_of_toNat_eq ((toNat_u24 _ _ _).trans ((leNat_bytesLe 3 _).trans (Nat.mod_eq_of_lt w.isLt)))
  rw [cwcReadU24, Eng.bind_ok (readU24_ok h), hw, modifyWork_bind]
  rfl

/-- The rest of a selection behind the control bits of a word: its fields are read and latched (R226 to R228). -/
def cwcField (c : CwcCtx) : CwcWord → Eng CwcOp
  | .lit => pure .lit
  | .short f _ => do
    let p ← readByte
    cursorReader.latch (cwcShortLen f.toNat) p.toNat
    pure (cwcShort (cwcShortLen f.toNat) p.toNat)
  | .med _ => do
    let w ← cwcReadU16
    cursorReader.latch (cwcMedLen w) (cwcMedPos w)
    pure (cwcMed (cwcMedLen w) (cwcMedPos w))
  | .long _ => do
    let w ← cwcReadU24
    cursorReader.latch (cwcLongLen c.bits w) (cwcLongPos c.bits w)
    pure (cwcLong c.base (cwcLongLen c.bits w) (cwcLongPos c.bits w))

/-- With the field bytes of a word at the byte position the read answers its opcode and moves past them. -/
theorem cwcField_ok (c : CwcCtx) {w : CwcWord} {s : State} (h : s.nextBytes w.parcel.bytes) :
    ∃ u, cwcField c w s = .ok (w.op c) u ∧ u.cur = { s.cur with pos := s.cur.pos + w.parcel.bytes.length } ∧
      s.sameButSelection u := by
  cases w with
  | lit => exact ⟨s, rfl, rfl, rfl⟩
  | short f pos => exact ⟨_, (Eng.bind_ok (readByte_ok h)).trans rfl, rfl, rfl⟩
  | med w => exact ⟨_, (Eng.bind_ok (cwcReadU16_ok h)).trans rfl, rfl, rfl⟩
  | long w => exact ⟨_, (Eng.bind_ok (cwcReadU24_ok h)).trans rfl, rfl, rfl⟩

/-- Without all its field bytes in the range the read raises, and nothing of them is consumed (R143). -/
theorem cwcField_underrun (c : CwcCtx) {w : CwcWord} {s : State} (hpos : 0 < w.parcel.bytes.length)
    (hf : s.cur.fin < s.cur.pos + w.parcel.bytes.length) : cwcField c w s = .error (.raise .bitstreamUnderrun) s := by
  cases w with
  | lit => exact absurd hpos (Nat.lt_irrefl 0)
  | short f pos => exact Eng.bind_error (readByte_underrun hf)
  | med w => exact Eng.bind_error (Eng.bind_error (Eng.bind_error (readField_underrun hf)))
  | long w => exact Eng.bind_error (Eng.bind_error (Eng.bind_error (readField_underrun hf)))

/-! ## Words -/

/-- The two length bits of a `SHORT` (R226). -/
theorem readShortLen_of_expectBits {f : BitVec 2} {s : State} (ho : s.cur.order = .msb)
    (hs : FaultFree (expectBits (bitsMsbFirst 2 f.toNat)) s) :
    readBits 2 s = (expectBits (bitsMsbFirst 2 f.toNat) >>= fun _ => pure f.toNat) s := by
  have hwidth : 2 ≤ s.cur.width.bits := by cases s.cur.width <;> decide
  have hread := readBits_of_expectBits ho (by rwa [bitsMsbFirst_length]) hs
  rwa [bitsMsbFirst_length, msbNat_bitsMsbFirst, Nat.mod_eq_of_lt f.isLt] at hread

/-- A fetch that finds the control bits of a word is the check of these bits, then the read of the fields (R224). -/
theorem cwcFetch_of_expectBits (w : CwcWord) {s : State} (ho : s.cur.order = .msb)
    (hs : FaultFree (expectBits w.parcel.ctl) s) :
    cwcFetch s = (expectBits w.parcel.ctl >>= fun _ => cwcField s.cwcCtx w) s := by
  rw [cwcFetch, Eng.get_bind]
  cases w with
  | lit => exact readBit_bind_of_expectBits hs fun _ _ _ => rfl
  | short f pos =>
    refine readBit_bind_of_expectBits hs fun c hc hs => readBit_bind_of_expectBits hs fun d hd hs => ?_
    have hread := readShortLen_of_expectBits (s := (s.withCur c).withCur d) ((hc.trans hd).order.trans ho) hs
    exact (Eng.bind_congr_apply _ hread).trans (congrFun (bind_assoc _ _ _) _)
  | med w =>
    exact readBit_bind_of_expectBits hs fun _ _ hs => readBit_bind_of_expectBits hs fun _ _ hs =>
      readBit_bind_of_expectBits hs fun _ _ _ => rfl
  | long w =>
    exact readBit_bind_of_expectBits hs fun _ _ hs => readBit_bind_of_expectBits hs fun _ _ hs =>
      readBit_bind_of_expectBits hs fun _ _ _ => rfl

section Word

variable {w : CwcWord} {s : State} {c : Cursor}

/-- A word that has come whole: the fetch answers its opcode. -/
theorem cwcFetch_word (ho : s.cur.order = .msb) (hctl : expectBits w.parcel.ctl s = .ok () (s.withCur c))
    (hb : (s.withCur c).nextBytes w.parcel.bytes) :
    ∃ u, cwcFetch s = .ok (w.op s.cwcCtx) u ∧ u.cur = { c with pos := c.pos + w.parcel.bytes.length } ∧
      s.sameButSelection u := by
  obtain ⟨u, hfield, hcur, hsame⟩ := cwcField_ok s.cwcCtx hb
  refine ⟨u, ?_, hcur, hsame.of_withCur⟩
  rw [cwcFetch_of_expectBits w ho (.of_ok hctl), Eng.bind_ok hctl, hfield]

theorem fetch_word (ho : s.cur.order = .msb) (hctl : expectBits w.parcel.ctl s = .ok () (s.withCur c))
    (hb : (s.withCur c).nextBytes w.parcel.bytes) :
    ∃ u, fetch .cwcOp s = .ok (w.op s.cwcCtx).toInstr u ∧ u.cur = { c with pos := c.pos + w.parcel.bytes.length } ∧
      s.sameButSelection u := by
  obtain ⟨u, hfetch, hcur, hsame⟩ := cwcFetch_word ho hctl hb
  exact ⟨u, by rw [fetch, Eng.map_apply, hfetch], hcur, hsame⟩

/-- A selection that raises ends the command, and nothing shows where the cursor stood (R50, R324). -/
theorem opcodeStep_of_cwcFetch_raise {k : ErrKind} (h : cwcFetch s = .error (.raise k) (s.withCur c)) :
    opcodeStep .cwcOp s = .next (s.errorEntry k) := by
  rw [opcodeStep, fetch, Eng.map_apply, h, ← s.errorEntry_withCur c]

/-- A word whose control bits have come, but not all of its fields. -/
theorem opcodeStep_field_underrun (ho : s.cur.order = .msb)
    (hctl : expectBits w.parcel.ctl s = .ok () (s.withCur c)) (hpos : 0 < w.parcel.bytes.length)
    (hf : c.fin < c.pos + w.parcel.bytes.length) :
    opcodeStep .cwcOp s = .next (s.errorEntry .bitstreamUnderrun) := by
  refine opcodeStep_of_cwcFetch_raise (c := c) ?_
  rw [cwcFetch_of_expectBits w ho (.of_ok hctl), Eng.bind_ok hctl]
  exact cwcField_underrun s.cwcCtx hpos hf

/-- A word whose control bits run into a missing refill word. -/
theorem opcodeStep_ctl_underrun (ho : s.cur.order = .msb)
    (hctl : ∃ c, expectBits w.parcel.ctl s = .error (.raise .bitstreamUnderrun) (s.withCur c)) :
    opcodeStep .cwcOp s = .next (s.errorEntry .bitstreamUnderrun) := by
  obtain ⟨c, hctl⟩ := hctl
  refine opcodeStep_of_cwcFetch_raise (c := c) ?_
  rw [cwcFetch_of_expectBits w ho (.of_raise hctl), Eng.bind_error hctl]

end Word

/-- Bits begin with the control bits of a word, whose fields may be 0, or they are too few and begin those of one. -/
theorem exists_cwcWord (bits : List Bool) :
    (∃ (w : CwcWord) (rest : Parcel), ⟨bits, [0#8, 0#8, 0#8]⟩ = w.parcel.append rest) ∨
      ∃ w : CwcWord, bits <+: w.parcel.ctl ∧ bits.length < w.parcel.ctl.length := by
  match bits with
  | [] => exact .inr ⟨.lit, List.nil_prefix, Nat.one_pos⟩
  | true :: rest => exact .inl ⟨.lit, ⟨rest, _⟩, rfl⟩
  | [false] => exact .inr ⟨.long 0#24, ⟨_, rfl⟩, by decide⟩
  | [false, true] => exact .inr ⟨.short 0#2 0#8, ⟨_, rfl⟩, by decide⟩
  | [false, true, true] => exact .inr ⟨.short 2#2 0#8, ⟨_, rfl⟩, by decide⟩
  | [false, true, false] => exact .inr ⟨.short 0#2 0#8, ⟨_, rfl⟩, by decide⟩
  | false :: true :: x :: y :: rest =>
    have hbits := bitsMsbFirst_msbNat [x, y]
    refine .inl ⟨.short (BitVec.ofNatLT (msbNat [x, y]) (msbNat_lt [x, y])) 0#8, ⟨rest, [0#8, 0#8]⟩, ?_⟩
    exact congrArg (fun l => Parcel.mk (false :: true :: (l ++ rest)) [0#8, 0#8, 0#8]) hbits.symm
  | [false, false] => exact .inr ⟨.long 0#24, ⟨_, rfl⟩, by decide⟩
  | false :: false :: true :: rest => exact .inl ⟨.med 0#16, ⟨rest, [0#8]⟩, rfl⟩
  | false :: false :: false :: rest => exact .inl ⟨.long 0#24, ⟨rest, []⟩, rfl⟩

/-- What the decoder answers at the place of a CWC opcode is what a word selects. -/
theorem cwcWord_of_decode {c : CwcCtx} {p rest : Parcel} {i : Instr}
    (h : decode c (.stream .cwcOp) p = .ok (i, rest)) :
    ∃ w : CwcWord, i = (w.op c).toInstr ∧ p = w.parcel.append rest := by
  obtain ⟨q, hq, rfl⟩ := decode_eq_ok.1 h
  cases hq with
  | slot ho => nomatch ho
  | cwc w => exact ⟨w, rfl, rfl⟩

/-- A decoder that answers nothing on the pending bits, or under `on_exhaust` nothing but an opcode that takes the last
of them, waits for a word, whatever the opcode will be. -/
theorem exists_cwcWord_refill {cur : Cursor} {ctx : CwcCtx} (hone : cur.policy = .onExhaust → 1 ≤ cur.cnt)
    (h : ∀ i rest, decode ctx (.stream .cwcOp) ⟨cur.pendingBits, [0#8, 0#8, 0#8]⟩ = .ok (i, rest) →
      cur.policy = .onExhaust ∧ rest.ctl = []) :
    ∃ w : CwcWord, cur.pendingBits <+: w.parcel.ctl ∧ cur.refillWithin w.parcel.ctl.length := by
  have hcnt := cur.pendingBits_length
  rcases exists_cwcWord cur.pendingBits with ⟨w, rest, hw⟩ | ⟨w, hpre, hlt⟩
  · obtain ⟨hp, hrest⟩ := h _ rest (decode_eq_ok.2 ⟨_, .cwc w, hw⟩)
    have hall : cur.pendingBits = w.parcel.ctl ++ rest.ctl := congrArg Parcel.ctl hw
    rw [hrest, List.append_nil] at hall
    refine ⟨w, ?_, .inr ⟨hp, hone hp, ?_⟩⟩
    · rw [hall]
    · rw [← hall, hcnt]
  · rw [hcnt] at hlt
    refine ⟨w, hpre, ?_⟩
    cases hp : cur.policy with
    | onDemand => exact .inl ⟨hp, hlt⟩
    | onExhaust => exact .inr ⟨hp, hone hp, hlt.le⟩

end Sys2Proof.Machine
end

section
/-! SUPPORT. The CWC header (R221) as its four fields, the start of the stream (R222), and the file that is only the
terminator (R239). -/

namespace Sys2Proof.Machine

open Sys2Proof

/-! ## The header -/

theorem inLe_word32 {s : State} {a : Nat} {b0 b1 b2 b3 : Byte} (h : s.inHas a [b0, b1, b2, b3]) :
    inLe a 4 s = .ok (b3 ++ b2 ++ b1 ++ b0).toNat s := by
  rw [toNat_u32]
  exact inLe_ok h

/-- The header fields of a CWC file (R221): whether its magic is right, its `bits`, its two lengths. -/
structure CwcFields where
  magic : Bool
  bits : Byte
  expanded : Word32
  payload : Word32

/-- `IN` holds a header, of which each field reads as given. -/
structure State.HasCwcFields (s : State) (f : CwcFields) : Prop where
  length : 12 ≤ s.inLen
  magic : inMatches 0 cwcMagic s = .ok f.magic s
  bits : inByte 3 s = .ok f.bits s
  expanded : inLe 4 4 s = .ok f.expanded.toNat s
  payload : inLe 8 4 s = .ok f.payload.toNat s

/-- The header whose 12 bytes are given (R221). -/
theorem State.hasCwcFields_of_inHas {s : State} {m0 m1 m2 bits e0 e1 e2 e3 p0 p1 p2 p3 : Byte}
    (h : s.inHas 0 ([m0, m1, m2] ++ [bits] ++ [e0, e1, e2, e3] ++ [p0, p1, p2, p3])) :
    s.HasCwcFields ⟨[m0, m1, m2] == cwcMagic, bits, e3 ++ e2 ++ e1 ++ e0, p3 ++ p2 ++ p1 ++ p0⟩ := by
  have hlen := h.add_length_le (Nat.zero_le _)
  obtain ⟨h, hp⟩ := (s.inHas_append 0 _ _).1 h
  obtain ⟨h, he⟩ := (s.inHas_append 0 _ _).1 h
  obtain ⟨hm, hbit, hbits, -⟩ := (s.inHas_append 0 _ _).1 h
  exact ⟨hlen, inMatches_ok hm rfl, inByte_eq_ok.2 ⟨hbit, hbits, rfl⟩, inLe_word32 he, inLe_word32 hp⟩

/-- The registers that the header fields go to (R37, R43). -/
def State.withCwcHeader (s : State) (f : CwcFields) : State :=
  { s with work := { s.work with cwcBits := f.bits, declLen := f.expanded, payLen := f.payload } }

theorem State.errorEntry_withCwcHeader (s : State) (f : CwcFields) (k : ErrKind) :
    (s.withCwcHeader f).errorEntry k = s.errorEntry k := rfl

theorem State.complete_withCwcHeader (s : State) (f : CwcFields) : (s.withCwcHeader f).complete = s.complete := rfl

@[simp] theorem State.inHas_withCwcHeader (s : State) (f : CwcFields) (a : Nat) (bytes : List Byte) :
    (s.withCwcHeader f).inHas a bytes ↔ s.inHas a bytes :=
  State.inHas_congr (s := s) (t := s.withCwcHeader f) rfl rfl a bytes

/-- The checks on the fields of a CWC header behind its magic (R221). -/
structure CwcFields.Accepted (f : CwcFields) (s : State) : Prop where
  payload : 12 + f.payload.toNat ≤ s.inLen
  bits : f.bits.toNat ≤ 24
  expanded : f.expanded.toNat ≤ s.cfg.outCap

section Header

variable {s : State} {f : CwcFields}

/-- An input too short for a header (R221). -/
theorem cwcHeader_short (h : s.inLen < 12) : cwcHeader s = .error (.raise .headerInvalid) s := by
  rw [cwcHeader, Eng.get_bind, require_bind_neg (Nat.not_le.2 h)]

/-- A wrong magic, before anything else of the header is looked at (R221). -/
theorem cwcHeader_badMagic (h : s.HasCwcFields f) (hm : f.magic = false) :
    cwcHeader s = .error (.raise .headerInvalid) s := by
  rw [cwcHeader, Eng.get_bind, require_bind_pos h.length, Eng.bind_ok h.magic, require_bind_neg (by simp [hm])]

/-- With the right magic the fields are latched, then checked (R221). -/
theorem cwcHeader_latched (h : s.HasCwcFields f) (hm : f.magic = true) :
    cwcHeader s = (do
      require (12 + f.payload.toNat ≤ s.inLen) .headerInvalid
      require (f.bits.toNat ≤ 24) .headerInvalid
      require (f.expanded.toNat ≤ s.cfg.outCap) .headerInvalid : Eng Unit) (s.withCwcHeader f) := by
  rw [cwcHeader, Eng.get_bind, require_bind_pos h.length, Eng.bind_ok h.magic, require_bind_pos hm, Eng.bind_ok h.bits,
    Eng.bind_ok h.expanded, Eng.bind_ok h.payload, modifyWork_bind, BitVec.ofNat_toNat, BitVec.ofNat_toNat]
  simp only [BitVec.setWidth_eq]
  rfl

/-- A field that fails its check (R221). -/
theorem cwcHeader_badField (h : s.HasCwcFields f) (hm : f.magic = true) (hbad : ¬ f.Accepted s) :
    cwcHeader s = .error (.raise .headerInvalid) (s.withCwcHeader f) := by
  rw [cwcHeader_latched h hm]
  by_cases hp : 12 + f.payload.toNat ≤ s.inLen
  · rw [require_bind_pos hp]
    by_cases hb : f.bits.toNat ≤ 24
    · rw [require_bind_pos hb, require_apply, if_neg fun he => hbad ⟨hp, hb, he⟩]
    · rw [require_bind_neg hb]
  · rw [require_bind_neg hp]

/-- A header that passes all checks (R221). -/
theorem cwcHeader_ok (h : s.HasCwcFields f) (hm : f.magic = true) (ha : f.Accepted s) :
    cwcHeader s = .ok () (s.withCwcHeader f) := by
  rw [cwcHeader_latched h hm, require_bind_pos ha.payload, require_bind_pos ha.bits, require_apply,
    if_pos ha.expanded]

end Header

/-! ## The start of the stream -/

section Start

variable {s : State}

/-- The state with the cursor configured over the payload (R222). -/
def State.cwcStarted (s : State) : State :=
  s.withCur (Cursor.config 12 (12 + s.work.payLen.toNat) .msb .w32 s.cfg.cwcRefillPolicy)

theorem State.errorEntry_cwcStarted (s : State) (k : ErrKind) : s.cwcStarted.errorEntry k = s.errorEntry k := rfl

/-- The start is the refill of the cursor just configured (R132, R222). -/
theorem cwcStart_eq_refill : cwcStart s = refill s.cwcStarted := prime_eq_refill (s := s.cwcStarted) rfl rfl

/-- A payload without a first word (R222). -/
theorem cwcStart_underrun (h : s.work.payLen.toNat < 4) :
    cwcStart s = .error (.raise .bitstreamUnderrun) s.cwcStarted := by
  rw [cwcStart_eq_refill]
  exact refill_underrun (Nat.zero_lt_succ 31) (Nat.add_lt_add_left h 12)

/-- The state after the start, with the first word, of the given value, pending (R222). -/
def State.cwcPrimed (s : State) (w : Nat) : State := s.cwcStarted.withCur (s.cwcStarted.cur.withWord w)

theorem State.complete_cwcPrimed (s : State) (w : Nat) : (s.cwcPrimed w).complete = s.complete := rfl

theorem cwcStart_ok {b0 b1 b2 b3 : Byte} (hp : 4 ≤ s.work.payLen.toNat) (hb : s.inHas 12 [b0, b1, b2, b3]) :
    cwcStart s = .ok () (s.cwcPrimed (leNat [b0, b1, b2, b3])) := by
  rw [cwcStart_eq_refill]
  exact refill_ok (Nat.zero_lt_succ 31) ⟨rfl, Nat.add_le_add_left hp 12, (State.inHas_withCur s _ 12 _).2 hb⟩

end Start

/-! ## Whole files -/

/-- A command whose operations raise, in a state that the error entry does not tell from its start (R324). -/
theorem exec_cwcDecode_raise {s t : State} {k : ErrKind} (hb : s.status ≠ .busy)
    (h : cwcDecode (s.begin .cwcDecode) = .error (.raise k) t)
    (ht : t.errorEntry k = (s.begin .cwcDecode).errorEntry k) :
    exec .cwcDecode s = .next ((s.begin .cwcDecode).errorEntry k) := by
  have hexec : exec .cwcDecode s = _ := exec_toInstr_of_not_busy (c := .cwcDecode) hb
  rw [hexec, ← ht]
  exact runMeaning_raise h

/-- A stream whose first opcode ends the command (R223). -/
theorem cwcLoop_of_end {n : Nat} {op : CwcOp} {s t u : State} (hf : cwcFetch s = .ok op t)
    (hm : cwcOpMeaning op t = .ok () u) (hu : u.status ≠ .busy) : cwcLoop (n + 1) s = .ok () u := by
  have hstep : cwcStep s = .ok () u := by
    rw [cwcStep, Eng.bind_ok hf, Eng.bind_ok hm, Eng.get_bind, if_neg hu, Eng.pure_apply]
  rw [cwcLoop_succ, Eng.bind_ok hstep, Eng.get_bind, if_neg hu, Eng.pure_apply]

/-- A `LONG` of zeros is the terminator wherever the special codes begin at 2, whatever `CWC_BITS` (R228, R229). -/
theorem CwcWord.op_long_zero {c : CwcCtx} (h : c.base = 2) : (CwcWord.long 0#24).op c = .longTerm := by
  have hlen : cwcLongLen c.bits 0#24 = 2 := by simp [cwcLongLen]
  have hpos : cwcLongPos c.bits 0#24 = 0 := by simp [cwcLongPos]
  rw [CwcWord.op, hlen, hpos, h]
  rfl

/-- A first word and three field bytes of zeros are fetched as the terminator (R239). -/
theorem cwcFetch_zeros {s : State} (hbase : s.cfg.cwcSpecialBase = 2) (hp : 7 ≤ s.work.payLen.toNat)
    (hb : s.inHas 16 [0#8, 0#8, 0#8]) :
    ∃ u, cwcFetch (s.cwcPrimed 0) = .ok .longTerm u ∧ (s.cwcPrimed 0).sameButSelection u := by
  have hcnt : (s.cwcPrimed 0).cur.cnt = 32 := rfl
  have hsr : (s.cwcPrimed 0).cur.sr = 0 := by
    change 0 ||| 0 <<< 32 = 0
    rfl
  have hctl := expectBits_pending (n := 3) (s := s.cwcPrimed 0) (bits := (CwcWord.long 0#24).parcel.ctl) (rest := []) rfl rfl
    (by decide) (hsr.trans_lt (Nat.two_pow_pos _)) (Cursor.noRefillFor_of_lt (by omega))
    (by rw [hsr]; decide)
  have hfield : (s.cwcPrimed 0).nextBytes (CwcWord.long 0#24).parcel.bytes :=
    ⟨Nat.add_le_add_left hp 12, (State.inHas_congr (s := s) (t := s.cwcPrimed 0) rfl rfl 16 _).2 hb⟩
  obtain ⟨u, hfetch, -, hsame⟩ := cwcFetch_word rfl hctl (State.nextBytes_withCur hfield rfl rfl)
  rw [CwcWord.op_long_zero (c := (s.cwcPrimed 0).cwcCtx) hbase] at hfetch
  exact ⟨u, hfetch, hsame⟩

/-- After a header that declares no output a payload of seven zero bytes completes the command (R239). -/
theorem cwcDecode_of_zeros {s t : State} (hhead : cwcHeader s = .ok () t) (hbase : t.cfg.cwcSpecialBase = 2)
    (hdecl : t.outLen = t.work.declLen.toNat) (hp : 7 ≤ t.work.payLen.toNat)
    (hb : t.inHas 12 (List.replicate 7 0#8)) : cwcDecode s = .ok () t.complete := by
  obtain ⟨hword, hfield⟩ := (t.inHas_append 12 (List.replicate 4 0#8) (List.replicate 3 0#8)).1 hb
  obtain ⟨u, hfetch, hsame⟩ := cwcFetch_zeros hbase hp hfield
  have hend := hsame.complete
  have hsize : u.outLen = u.work.declLen.toNat := by
    have hlen := congrArg State.outLen hsame
    have hreg := congrArg (fun v : State => v.work.declLen.toNat) hsame
    exact hlen.trans (hdecl.trans hreg.symm)
  have hdone : u.complete.status ≠ .busy := nofun
  rw [cwcDecode, Eng.bind_ok hhead, Eng.bind_ok (cwcStart_ok (by omega) hword), Eng.get_bind, bitBound,
    ← t.complete_cwcPrimed 0, ← hend]
  exact cwcLoop_of_end hfetch (cwcTerm_ok hsize) hdone

end Sys2Proof.Machine
end

section
/-! PROOFS. The CWC header, the fetch of a CWC opcode, and the file that is only the terminator: the statements O38, O41
and O50. -/

namespace Sys2Proof.Machine

open Sys2Proof

/-- Settles O50: what the decoder reads is a word, and the fetch checks the control bits of this word, then reads its
fields. -/
theorem fetchAgreesWithDecode : Obligations.FetchAgreesWithDecode := by
  refine ⟨?pending, ?ready, ?dry⟩
  case pending =>
    intro s b0 b1 b2 i p rest ho hw hsr hcnt hb hp hdecode
    obtain ⟨w, rfl, hword⟩ := cwcWord_of_decode hdecode
    have hparcel := hp.symm.trans hword
    have hctl : w.parcel.ctl ++ rest.ctl = _ := (congrArg Parcel.ctl hparcel).symm
    have hbytes : [b0, b1, b2] = w.parcel.bytes ++ rest.bytes := congrArg Parcel.bytes hparcel
    have hctlLen : 4 - rest.ctl.length = w.parcel.ctl.length := by
      have := congrArg List.length hctl
      rw [List.length_append, bitsMsbFirst_length] at this
      omega
    have hbytesLen : 3 - rest.bytes.length = w.parcel.bytes.length := by
      have := congrArg List.length hbytes
      rw [List.length_append] at this
      exact Nat.sub_eq_of_eq_add this
    have hexpect := expectBits_pending (n := 4) ho hw (by decide) (by rwa [hw]) (Cursor.noRefillFor_of_lt hcnt) hctl
    rw [hbytes] at hb
    rw [hctlLen, hbytesLen]
    exact fetch_word ho hexpect (State.nextBytes_withCur (State.nextBytes_append hb).1 rfl rfl)
  case ready =>
    intro s k i bytes hready hdecode
    obtain ⟨w, rfl, hword⟩ := cwcWord_of_decode hdecode
    have hctl : s.cwcCtl k = w.parcel.ctl := (congrArg Parcel.ctl hword).trans (List.append_nil _)
    obtain rfl : bytes = w.parcel.bytes := (congrArg Parcel.bytes hword).trans (List.append_nil _)
    have ⟨⟨ho, _⟩, hfin, _⟩ := hready
    have hexpect := expectBits_cwcCtl hready
    rw [hctl] at hexpect
    refine ⟨fun hb => fetch_word ho hexpect hb, fun hf => opcodeStep_field_underrun ho hexpect ?_ hf⟩
    have hpos : (s.cwcSkip k).pos = s.cur.pos + 4 * s.cur.loadsFor k := rfl
    omega
  case dry =>
    intro s hok hf h
    have ⟨ho, _, _, hone⟩ := hok
    obtain ⟨w, hpre, hrefill⟩ := exists_cwcWord_refill hone h
    exact opcodeStep_ctl_underrun ho (expectBits_underrun hok hpre hrefill hf)

/-- Settles O38: the header is accepted and declares no output, and the first opcode is the terminator. -/
theorem cwcTerminatorOnlyFile : Obligations.CwcTerminatorOnlyFile := by
  intro s bits hb hbits hbase hin
  have hfile : (s.begin .cwcDecode).inHas 0 ([0x43#8, 0x57#8, 0x43#8] ++ [bits] ++ [0#8, 0#8, 0#8, 0#8] ++
      [7#8, 0#8, 0#8, 0#8] ++ List.replicate 7 0#8) := (s.inHas_begin .cwcDecode 0 _).2 hin
  have hlen : 19 ≤ (s.begin .cwcDecode).inLen := hfile.add_length_le (Nat.zero_le _)
  obtain ⟨hhead, hbody⟩ := (State.inHas_append _ 0 _ _).1 hfile
  have hpayload : (0#8 ++ 0#8 ++ 0#8 ++ 7#8 : Word32).toNat = 7 := by decide
  have hok := cwcHeader_ok (State.hasCwcFields_of_inHas hhead) rfl ⟨by rwa [hpayload], hbits, Nat.zero_le _⟩
  have hexec : exec .cwcDecode s = _ := exec_toInstr_of_not_busy (c := .cwcDecode) hb
  rw [hexec, ← State.complete_withCwcHeader]
  exact runMeaning_ok (cwcDecode_of_zeros hok hbase rfl hpayload.ge ((State.inHas_withCwcHeader _ _ 12 _).2 hbody))

/-- Settles O41: each clause is a law of the header step, or of the start behind it. -/
theorem cwcHeaderChecks : Obligations.CwcHeaderChecks := by
  intro s m0 m1 m2 bits e0 e1 e2 e3 p0 p1 p2 p3 hb
  refine ⟨fun h => exec_cwcDecode_raise hb (Eng.bind_error (cwcHeader_short h)) rfl, fun h => ?_⟩
  have hf := State.hasCwcFields_of_inHas (s := s.begin .cwcDecode) ((s.inHas_begin .cwcDecode 0 _).2 h)
  simp only [← toNat_u32]
  refine ⟨fun hbad => ?invalid, fun hm hp hbits he hshort => ?short⟩
  case invalid =>
    by_cases hm : [m0, m1, m2] = cwcMagic
    · refine exec_cwcDecode_raise hb (Eng.bind_error (cwcHeader_badField hf (beq_iff_eq.2 hm) ?_))
        (State.errorEntry_withCwcHeader _ _ _)
      rintro ⟨hp, hbits, he⟩
      rcases hbad with hbad | hbad | hbad | hbad
      · exact hbad hm
      · exact Nat.not_le.2 hbad hp
      · exact Nat.not_le.2 hbad hbits
      · exact Nat.not_le.2 hbad he
    · exact exec_cwcDecode_raise hb (Eng.bind_error (cwcHeader_badMagic hf (beq_eq_false_iff_ne.2 hm))) rfl
  case short =>
    have hok := cwcHeader_ok hf (beq_iff_eq.2 hm) ⟨hp, hbits, he⟩
    exact exec_cwcDecode_raise hb ((Eng.bind_ok hok).trans (Eng.bind_error (cwcStart_underrun hshort)))
      ((State.errorEntry_cwcStarted _ _).trans (State.errorEntry_withCwcHeader _ _ _))

end Sys2Proof.Machine
end

section
/-! SUPPORT. Trees that the records of a table spell (R106, R266). A tree with `n` records has `n + 1` leaves, so a proper
tree has 255 records; a table has no more, so the tree holds every record, and a proper tree at another
record would be a smaller part of it. -/

namespace Sys2Proof.Machine

open Sys2Proof

/-- Few enough numbers below `n` are all of them exactly if there are `n`, none of them twice. -/
theorem toFinset_eq_range_iff {n : Nat} {l : List Nat} (hlt : ∀ x ∈ l, x < n) (hlen : l.length ≤ n) :
    l.toFinset = Finset.range n ↔ l.Nodup ∧ l.length = n := by
  constructor
  · intro h
    have hcard : l.toFinset.card = n := h ▸ Finset.card_range n
    have hln : l.length = n := Nat.le_antisymm hlen (hcard ▸ List.toFinset_card_le l)
    exact ⟨Multiset.toFinset_card_eq_card_iff_nodup.1 (hcard.trans hln.symm), hln⟩
  · rintro ⟨hnd, hln⟩
    refine Finset.eq_of_subset_of_card_le (fun x hx => Finset.mem_range.2 (hlt x (List.mem_toFinset.1 hx))) ?_
    rw [Finset.card_range, List.toFinset_card_of_nodup hnd, hln]

theorem HufTree.leaves_length (tree : HufTree) : tree.leaves.length = tree.nodes.length + 1 := by
  induction tree with
  | leaf v => rfl
  | node i l r ihl ihr =>
    simp only [HufTree.leaves, HufTree.nodes, List.length_append, List.length_cons, ihl, ihr]
    omega

section Spelled

variable {table : Nat → Option NodeRec}

/-- The record at the root of a tree gives its halves, and the halves are spelled too (R106). -/
theorem HufTree.spelled.halves {i : Nat} {l r : HufTree} {e : NodeRec} (h : (HufTree.node i l r).spelled table)
    (he : table i = some e) : l.isHalf e.lv e.lt ∧ r.isHalf e.rv e.rt ∧ l.spelled table ∧ r.spelled table := by
  obtain ⟨e', he', h⟩ := h
  cases he.symm.trans he'
  exact h

theorem HufTree.spelled.isSome_of_mem {tree : HufTree} (h : tree.spelled table) {i : Nat} (hi : i ∈ tree.nodes) :
    (table i).isSome = true := by
  induction tree with
  | leaf v => cases hi
  | node j l r ihl ihr =>
    obtain ⟨e, he, -, -, hl, hr⟩ := h
    rcases List.mem_cons.1 hi with rfl | hi
    · rw [he]
      rfl
    · exact (List.mem_append.1 hi).elim (ihl hl) (ihr hr)

/-- A half of a record spells one tree only. -/
theorem HufTree.spelled.unique_of_isHalf {a b : HufTree} {v f : Byte} (ha : a.spelled table) (hb : b.spelled table)
    (hav : a.isHalf v f) (hbv : b.isHalf v f) : a = b := by
  induction a generalizing b v f with
  | leaf x =>
    obtain ⟨rfl, rfl⟩ := hav
    cases b with
    | leaf y => exact congrArg HufTree.leaf hbv.2
    | node => exact absurd hbv.1 (by decide)
  | node i l r ihl ihr =>
    obtain ⟨rfl, rfl⟩ := hav
    cases b with
    | leaf y => exact absurd hbv.1 (by decide)
    | node j l' r' =>
      obtain ⟨-, rfl⟩ := hbv
      obtain ⟨e, he, hl, hr, hls, hrs⟩ := ha
      obtain ⟨hl', hr', hls', hrs'⟩ := hb.halves he
      rw [ihl hls hls' hl hl', ihr hrs hrs' hr hr']

/-- A record spells one tree only. -/
theorem HufTree.spelled.unique {i : Nat} {l r l' r' : HufTree} (h : (HufTree.node i l r).spelled table)
    (h' : (HufTree.node i l' r').spelled table) : HufTree.node i l r = .node i l' r' := by
  obtain ⟨e, he, hl, hr, hls, hrs⟩ := h
  obtain ⟨hl', hr', hls', hrs'⟩ := h'.halves he
  rw [hls.unique_of_isHalf hls' hl hl', hrs.unique_of_isHalf hrs' hr hr']

/-- Each record of a tree is the root of a spelled part of it, which is smaller unless it is the whole tree. -/
theorem HufTree.spelled.exists_part {tree : HufTree} (h : tree.spelled table) {i : Nat} (hi : i ∈ tree.nodes) :
    ∃ l r, (HufTree.node i l r).spelled table ∧
      (tree = .node i l r ∨ (HufTree.node i l r).nodes.length < tree.nodes.length) := by
  induction tree with
  | leaf v => cases hi
  | node j a b iha ihb =>
    have inside {c : HufTree} (hc : c.nodes.length < (HufTree.node j a b).nodes.length)
        (hpart : ∃ l r, (HufTree.node i l r).spelled table ∧
          (c = .node i l r ∨ (HufTree.node i l r).nodes.length < c.nodes.length)) :
        ∃ l r, (HufTree.node i l r).spelled table ∧ (HufTree.node j a b = .node i l r ∨
          (HufTree.node i l r).nodes.length < (HufTree.node j a b).nodes.length) := by
      obtain ⟨l, r, hs, rfl | hlt⟩ := hpart
      · exact ⟨l, r, hs, .inr hc⟩
      · exact ⟨l, r, hs, .inr (hlt.trans hc)⟩
    have hlen : (HufTree.node j a b).nodes.length = a.nodes.length + b.nodes.length + 1 := by
      rw [HufTree.nodes, List.length_cons, List.length_append]
    rcases List.mem_cons.1 hi with rfl | hi
    · exact ⟨a, b, h, .inl rfl⟩
    · obtain ⟨e, -, -, -, ha, hb⟩ := h
      rcases List.mem_append.1 hi with hi | hi
      · exact inside (by omega) (iha ha hi)
      · exact inside (by omega) (ihb hb hi)

/-- A proper tree has 255 records. -/
theorem ProperTreeAt.nodes_length {r : Nat} {tree : HufTree} (h : ProperTreeAt table r tree) : tree.nodes.length = 255 := by
  obtain ⟨left, right, -, -, -, -, hlen⟩ := h
  have := tree.leaves_length
  omega

/-- At most one record of a table is the root of a proper tree (R266 (b)). -/
theorem ProperTreeAt.root_unique (htable : ∀ i, (table i).isSome = true → i < 255) {r r' : Nat} {tree tree' : HufTree}
    (h : ProperTreeAt table r tree) (h' : ProperTreeAt table r' tree') : r = r' := by
  have hlen := h.nodes_length
  have hlen' := h'.nodes_length
  obtain ⟨a, b, rfl, hs, hnd, -⟩ := h
  obtain ⟨a', b', rfl, hs', -⟩ := h'
  have hall : (HufTree.node r a b).nodes.toFinset = Finset.range 255 :=
    (toFinset_eq_range_iff (fun i hi => htable i (hs.isSome_of_mem hi)) hlen.le).2 ⟨hnd, hlen⟩
  have hr' : r' < 255 := htable r' (hs'.isSome_of_mem List.mem_cons_self)
  have hmem : r' ∈ (HufTree.node r a b).nodes := List.mem_toFinset.1 (hall ▸ Finset.mem_range.2 hr')
  obtain ⟨l, x, hpart, hwhole | hlt⟩ := hs.exists_part hmem
  · cases hwhole
    rfl
  · rw [hpart.unique hs', hlen, hlen'] at hlt
    exact absurd hlt (Nat.lt_irrefl _)

end Spelled

end Sys2Proof.Machine
end

section
/-! SUPPORT. The copy of the table into `NODE` (R261, R262): record by record, the dictionary memory comes to hold the
table of `IN`, the records beyond it marked absent. -/

namespace Sys2Proof.Machine

open Sys2Proof

/-- The state with another dictionary memory. -/
def State.withNodes (s : State) (m : Mem) (p : BitVec 255) : State := { s with nodeMem := m, nodePresent := p }

/-- Record `i` of `NODE` is the given one, or marked absent (R262). -/
def State.HoldsRecord (s : State) (i : Nat) (o : Option NodeRec) : Prop :=
  s.nodePresent.getLsbD i = o.isSome ∧ ∀ e, o = some e → s.nodeAt i = some e

/-- `NODE` holds a table. -/
def State.Holds (s : State) (table : Nat → Option NodeRec) : Prop := ∀ i, s.HoldsRecord i (table i)

theorem State.Holds.isSome_lt {s : State} {table : Nat → Option NodeRec} (h : s.Holds table) {i : Nat}
    (hi : (table i).isSome = true) : i < 255 :=
  BitVec.lt_of_getLsbD ((h i).1.trans hi)

theorem State.Holds.onlyWork {s t : State} {table : Nat → Option NodeRec} (h : s.Holds table) (ho : OnlyWork s t) :
    t.Holds table := by
  obtain ⟨w, rfl⟩ := ho
  exact h

/-- A record that has been written is read back. -/
theorem State.nodeAt_writeList_same (s : State) (m : Mem) (p : BitVec 255) (i : Nat) (e : NodeRec) :
    (s.withNodes (m.writeList (4 * i) [e.lv, e.lt, e.rv, e.rt]) p).nodeAt i = some e := by
  have hread {k : Nat} (hk : k < 4) := Mem.read_writeList_same m (4 * i) [e.lv, e.lt, e.rv, e.rt] (k := k) hk
  have h0 := hread (k := 0) (by decide)
  rw [Nat.add_zero] at h0
  simp only [State.nodeAt, State.withNodes, h0, hread (k := 1) (by decide), hread (k := 2) (by decide),
    hread (k := 3) (by decide)]
  rfl

/-- A write of one record leaves the others alone. -/
theorem State.nodeAt_writeList_other (s : State) (m : Mem) (p q : BitVec 255) {i j : Nat} (e : NodeRec) (h : j ≠ i) :
    (s.withNodes (m.writeList (4 * i) [e.lv, e.lt, e.rv, e.rt]) p).nodeAt j = (s.withNodes m q).nodeAt j := by
  have hread {k : Nat} (hk : k < 4) :
      (m.writeList (4 * i) [e.lv, e.lt, e.rv, e.rt]).read (4 * j + k) = m.read (4 * j + k) := by
    refine Mem.read_writeList_other _ _ _ ?_
    rw [show [e.lv, e.lt, e.rv, e.rt].length = 4 from rfl]
    omega
  have h0 := hread (k := 0) (by decide)
  rw [Nat.add_zero] at h0
  simp only [State.nodeAt, State.withNodes, h0, hread (k := 1) (by decide), hread (k := 2) (by decide),
    hread (k := 3) (by decide)]

/-- Under the host contract the records of the table below `nn` are there (R261, R352). -/
theorem State.loaded.exists_tableAt {s : State} (h : s.loaded) {i : Nat} (hi : i < s.nodeCount) :
    ∃ e, s.tableAt i = some e := by
  have hread (k : Fin 4) : ∃ b, s.inMem.read (4 * i + k.val) = some b := by
    refine Option.isSome_iff_exists.1 (h _ ?_)
    have := k.isLt
    unfold State.nodeCount at hi
    omega
  obtain ⟨lv, h1⟩ := hread s.cfg.hufNodeLayout.lv
  obtain ⟨lt, h2⟩ := hread s.cfg.hufNodeLayout.lt
  obtain ⟨rv, h3⟩ := hread s.cfg.hufNodeLayout.rv
  obtain ⟨rt, h4⟩ := hread s.cfg.hufNodeLayout.rt
  exact ⟨⟨lv, lt, rv, rt⟩, by simp [State.tableAt, hi, h1, h2, h3, h4]⟩

theorem State.tableAt_of_ge {s : State} {i : Nat} (h : s.nodeCount ≤ i) : s.tableAt i = none := if_neg (Nat.not_lt.2 h)

theorem State.nodeCount_le (s : State) : s.nodeCount ≤ 255 := Nat.min_le_right _ _

/-- A record of the table is read from `IN`, nothing changed (R106, R262). -/
theorem inNode_ok {s : State} {i : Nat} {e : NodeRec} (h : s.tableAt i = some e) : inNode i s = .ok e s := by
  unfold State.tableAt at h
  split at h
  · rename_i hi
    simp only [Option.bind_eq_bind, Option.bind_eq_some_iff, Option.some.injEq] at h
    obtain ⟨lv, h1, lt, h2, rv, h3, rt, h4, rfl⟩ := h
    have hin {k : Fin 4} {b : Byte} (hb : s.inMem.read (4 * i + k.val) = some b) : inByte (4 * i + k.val) s = .ok b s := by
      refine inByte_eq_ok.2 ⟨?_, hb, rfl⟩
      have := k.isLt
      unfold State.nodeCount at hi
      omega
    rw [inNode, Eng.get_bind, Eng.bind_ok (hin h1), Eng.bind_ok (hin h2), Eng.bind_ok (hin h3), Eng.bind_ok (hin h4),
      Eng.pure_apply]
  · cases h

section Copy

variable {s : State}

/-- One record of the copy (R262): the record becomes that of the table, the others keep what they hold. -/
theorem hufCopy_record (hl : s.loaded) {i : Nat} (hi : i < 255) (m : Mem) (p : BitVec 255) :
    ∃ m' p', (if i < s.nodeCount then inNode i >>= nodeWrite i else nodeAbsent i) (s.withNodes m p) =
        .ok () (s.withNodes m' p') ∧
      (s.withNodes m' p').HoldsRecord i (s.tableAt i) ∧
      ∀ j < 255, j ≠ i → ∀ o, (s.withNodes m p).HoldsRecord j o → (s.withNodes m' p').HoldsRecord j o := by
  have present (b : Bool) {j : Nat} (hj : j < 255) : (setPresent p i b).getLsbD j = if j = i then b else p.getLsbD j :=
    getLsbD_setPresent p b hj
  by_cases hc : i < s.nodeCount
  · obtain ⟨e, he⟩ := hl.exists_tableAt hc
    have hin : inNode i (s.withNodes m p) = .ok e (s.withNodes m p) := inNode_ok (s := s.withNodes m p) he
    refine ⟨m.writeList (4 * i) [e.lv, e.lt, e.rv, e.rt], setPresent p i true, ?run, ⟨?same, ?record⟩, ?other⟩
    case run =>
      rw [if_pos hc, Eng.bind_ok hin]
      rfl
    case same => exact (present true hi).trans (by rw [if_pos rfl, he, Option.isSome_some])
    case record =>
      intro e' he'
      cases he.symm.trans he'
      exact s.nodeAt_writeList_same m _ i e
    case other =>
      rintro j hj hne o ⟨hp, ho⟩
      exact ⟨((present true hj).trans (if_neg hne)).trans hp,
        fun e' he' => (s.nodeAt_writeList_other m _ p e hne).trans (ho e' he')⟩
  · have hnone : s.tableAt i = none := State.tableAt_of_ge (Nat.not_lt.1 hc)
    refine ⟨m, setPresent p i false, by rw [if_neg hc]; rfl, ⟨?same, ?record⟩, ?other⟩
    case same => exact (present false hi).trans (by rw [if_pos rfl, hnone, Option.isSome_none])
    case record =>
      intro e' he'
      cases hnone.symm.trans he'
    case other =>
      rintro j hj hne o ⟨hp, ho⟩
      exact ⟨((present false hj).trans (if_neg hne)).trans hp, ho⟩

/-- The copy from record `i` on, the records before it already held. -/
theorem hufCopy_from (hl : s.loaded) : ∀ {n i : Nat} {m : Mem} {p : BitVec 255}, i + n = 255 →
    (∀ j < i, (s.withNodes m p).HoldsRecord j (s.tableAt j)) →
    ∃ m' p', hufCopy s.nodeCount n i (s.withNodes m p) = .ok () (s.withNodes m' p') ∧
      ∀ j < 255, (s.withNodes m' p').HoldsRecord j (s.tableAt j)
  | 0, i, m, p, hi, h => ⟨m, p, rfl, fun j hj => h j (by omega)⟩
  | n + 1, i, m, p, hi, h => by
    obtain ⟨m₁, p₁, hrun, hsame, hother⟩ := hufCopy_record hl (i := i) (by omega) m p
    have hnext (j : Nat) (hj : j < i + 1) : (s.withNodes m₁ p₁).HoldsRecord j (s.tableAt j) := by
      rcases Nat.lt_succ_iff_lt_or_eq.1 hj with hj | rfl
      · exact hother j (by omega) (by omega) _ (h j hj)
      · exact hsame
    obtain ⟨m', p', hrest, hall⟩ := hufCopy_from hl (n := n) (i := i + 1) (by omega) hnext
    exact ⟨m', p', by rw [hufCopy_succ, Eng.bind_ok hrun, hrest], hall⟩

/-- After the copy `NODE` holds the table of `IN` (R262). -/
theorem hufCopy_ok (hl : s.loaded) :
    ∃ m p, hufCopy s.nodeCount 255 0 s = .ok () (s.withNodes m p) ∧ (s.withNodes m p).Holds s.tableAt := by
  obtain ⟨m, p, hrun, hall⟩ := hufCopy_from hl (n := 255) (i := 0) (m := s.nodeMem) (p := s.nodePresent) rfl
    fun _ h => absurd h (Nat.not_lt_zero _)
  refine ⟨m, p, hrun, fun i => ?_⟩
  by_cases hi : i < 255
  · exact hall i hi
  · have hnone : s.tableAt i = none := State.tableAt_of_ge (s.nodeCount_le.trans (Nat.not_lt.1 hi))
    rw [hnone]
    exact ⟨BitVec.getLsbD_of_ge _ _ (Nat.not_lt.1 hi), nofun⟩

end Copy

end Sys2Proof.Machine
end

section
/-! SUPPORT. The root search against trees (R263 to R265): the walk of a record succeeds exactly where the record spells a
tree of records not entered before, none twice, and it collects the tree's records and leaf values; with all
256 values collected the tree is proper. So the search finds the root of a proper tree, or raises. -/

namespace Sys2Proof.Machine

open Sys2Proof

variable {table : Nat → Option NodeRec}

/-! ## Trees that can be entered -/

/-- A spelled tree with no record twice and none of the records `old`. -/
def HufTree.EnterableFrom (table : Nat → Option NodeRec) (old : Finset Nat) (tree : HufTree) : Prop :=
  tree.spelled table ∧ tree.nodes.Nodup ∧ ∀ j ∈ tree.nodes, j ∉ old

theorem HufTree.enterableFrom_leaf (old : Finset Nat) (v : Byte) : (HufTree.leaf v).EnterableFrom table old :=
  ⟨trivial, List.nodup_nil, nofun⟩

/-- A tree is entered by its record, then its left half, then its right half (R263). -/
theorem HufTree.enterableFrom_node {old : Finset Nat} {i : Nat} {l r : HufTree} :
    (HufTree.node i l r).EnterableFrom table old ↔ ∃ e, table i = some e ∧ i ∉ old ∧
      (l.isHalf e.lv e.lt ∧ l.EnterableFrom table (insert i old)) ∧
      (r.isHalf e.rv e.rt ∧ r.EnterableFrom table (insert i old ∪ l.nodes.toFinset)) := by
  simp only [HufTree.EnterableFrom, HufTree.spelled, HufTree.nodes, List.nodup_cons, List.nodup_append', List.mem_cons,
    List.mem_append, forall_eq_or_imp, Finset.mem_union, Finset.mem_insert, List.mem_toFinset, not_or, List.Disjoint]
  constructor
  · rintro ⟨⟨e, he, hl, hr, hls, hrs⟩, ⟨hi, hln, hrn, hdisj⟩, hnew, hold⟩
    exact ⟨e, he, hnew, ⟨hl, hls, hln, fun j hj => ⟨fun h => hi.1 (h ▸ hj), hold j (.inl hj)⟩⟩,
      hr, hrs, hrn, fun j hj => ⟨⟨fun h => hi.2 (h ▸ hj), hold j (.inr hj)⟩, fun h => hdisj h hj⟩⟩
  · rintro ⟨e, he, hnew, ⟨hl, hls, hln, hlo⟩, hr, hrs, hrn, hro⟩
    exact ⟨⟨e, he, hl, hr, hls, hrs⟩,
      ⟨⟨fun h => (hlo i h).1 rfl, fun h => (hro i h).1.1 rfl⟩, hln, hrn, fun j hj h => (hro j h).2 hj⟩,
      hnew, fun j hj => hj.elim (fun h => (hlo j h).2) (fun h => (hro j h).1.2)⟩

/-- In a table of 255 records, a tree that is entered afresh has all leaf values exactly if it is proper (R266). -/
theorem HufTree.EnterableFrom.proper_iff (htable : ∀ i, (table i).isSome = true → i < 255) {i : Nat} {l r : HufTree}
    (h : (HufTree.node i l r).EnterableFrom table ∅) :
    ((HufTree.node i l r).leaves.map BitVec.toNat).toFinset = Finset.range 256 ↔
      ProperTreeAt table i (.node i l r) := by
  obtain ⟨hs, hnd, -⟩ := h
  have hnodes : (HufTree.node i l r).nodes.length ≤ 255 := by
    have hsub : (HufTree.node i l r).nodes ⊆ List.range 255 :=
      fun j hj => List.mem_range.2 (htable j (hs.isSome_of_mem hj))
    simpa using (List.subperm_of_subset hnd hsub).length_le
  have hlen : ((HufTree.node i l r).leaves.map BitVec.toNat).length ≤ 256 := by
    rw [List.length_map, HufTree.leaves_length]
    omega
  have hlt : ∀ x ∈ (HufTree.node i l r).leaves.map BitVec.toNat, x < 256 := by
    intro x hx
    obtain ⟨v, -, rfl⟩ := List.mem_map.1 hx
    exact v.isLt
  rw [toFinset_eq_range_iff hlt hlen, List.length_map, List.nodup_map_iff fun _ _ => BitVec.eq_of_toNat_eq]
  constructor
  · rintro ⟨hleaves, hcount⟩
    exact ⟨l, r, rfl, hs, hnd, hleaves, hcount⟩
  · rintro ⟨_, _, -, -, -, hleaves, hcount⟩
    exact ⟨hleaves, hcount⟩

/-! ## The walk -/

/-- What walking a tree collects: its records and its leaf values, in working registers alone. -/
structure Collected (tree : HufTree) (s t : State) : Prop where
  only : OnlyWork s t
  visited : bitSet t.work.visited = bitSet s.work.visited ∪ tree.nodes.toFinset
  leaves : bitSet t.work.leaves = bitSet s.work.leaves ∪ (tree.leaves.map BitVec.toNat).toFinset

/-- A record has been entered (R263). -/
def State.entered (s : State) (i : Nat) : State :=
  { s with work := { s.work with visited := s.work.visited ||| BitVec.twoPow 255 i } }

theorem State.visited_entered (s : State) {i : Nat} (hi : i < 255) :
    bitSet (s.entered i).work.visited = insert i (bitSet s.work.visited) := bitSet_or_twoPow _ hi

theorem OnlyWork.entered (s : State) (i : Nat) : OnlyWork s (s.entered i) := ⟨_, rfl⟩

theorem addLeaf_collected (v : Byte) (s : State) :
    ∃ t, (addLeaf v >>= fun _ => pure true : Eng Bool) s = .ok true t ∧ Collected (.leaf v) s t := by
  refine ⟨_, rfl, ⟨_, rfl⟩, (Finset.union_empty _).symm, ?_⟩
  exact (bitSet_or_twoPow _ v.isLt).trans (Finset.insert_eq _ _ |>.trans (Finset.union_comm _ _))

/-- A record entered and both its halves walked. -/
theorem Collected.node {s u t : State} {i : Nat} {l r : HufTree} (hi : i < 255) (hl : Collected l (s.entered i) u)
    (hr : Collected r u t) : Collected (.node i l r) s t where
  only := (OnlyWork.entered s i).trans (hl.only.trans hr.only)
  visited := by
    rw [hr.visited, hl.visited, s.visited_entered hi, HufTree.nodes, List.toFinset_cons, List.toFinset_append]
    ext j
    simp only [Finset.mem_union, Finset.mem_insert]
    tauto
  leaves := by
    rw [hr.leaves, hl.leaves, HufTree.leaves, List.map_append, List.toFinset_append, Finset.union_assoc]
    rfl

/-- The walk of both halves of a record, the right one only behind a left one that succeeds (R263). -/
def walkHalves (depth : Nat) (e : NodeRec) : Eng Bool := do
  let left ← walkHalf depth e.lv e.lt
  if left then walkHalf depth e.rv e.rt else pure false

/-- The walk of a record that is there and has not been entered (R263). -/
theorem walk_entered {s : State} {depth i : Nat} {e : NodeRec} (h : s.HoldsRecord i (some e))
    (hnew : i ∉ bitSet s.work.visited) : walk (depth + 1) i s = walkHalves depth e (s.entered i) := by
  obtain ⟨hp, he⟩ := h
  have hi : i < 255 := BitVec.lt_of_getLsbD hp
  have hread : nodeRead i (s.entered i) = .ok e (s.entered i) := nodeRead_eq_ok.2 ⟨hi, he e rfl, rfl⟩
  have hthere : ¬ (254 < i ∨ s.nodePresent.getLsbD i = false) := by
    rw [hp]
    rintro (h | h)
    · omega
    · cases h
  rw [walk_succ, Eng.get_bind, if_neg hthere, if_neg (fun h => hnew (mem_bitSet.2 h))]
  exact Eng.bind_ok hread

/-- The walk of a record that is absent (R263). -/
theorem walk_absent {s : State} {depth i : Nat} (h : s.HoldsRecord i none) : walk (depth + 1) i s = .ok false s := by
  rw [walk_succ, Eng.get_bind, if_pos (.inr h.1), Eng.pure_apply]

/-- The walk of a record that has been entered before (R263). -/
theorem walk_again {s : State} {depth i : Nat} (h : i ∈ bitSet s.work.visited) : walk (depth + 1) i s = .ok false s := by
  rw [walk_succ, Eng.get_bind]
  split
  · rfl
  · rw [if_pos (mem_bitSet.1 h), Eng.pure_apply]

/-- An operation of the walk answers, and where it answers yes it has collected a tree of the given kind. -/
def Explores (table : Nat → Option NodeRec) (kind : HufTree → Prop) (x : Eng Bool) : Prop :=
  ∀ s : State, s.Holds table → ∃ b t, x s = .ok b t ∧ OnlyWork s t ∧
    (b = true → ∃ tree, kind tree ∧ tree.EnterableFrom table (bitSet s.work.visited) ∧ Collected tree s t)

theorem Explores.no {kind : HufTree → Prop} : Explores table kind (pure false) :=
  fun s _ => ⟨false, s, rfl, OnlyWork.refl s, nofun⟩

theorem Explores.half {depth : Nat} (ih : ∀ i, Explores table (fun tree => ∃ l r, tree = .node i l r) (walk depth i))
    (v f : Byte) : Explores table (fun tree => tree.isHalf v f) (walkHalf depth v f) := by
  unfold walkHalf
  split
  · intro s _
    obtain ⟨t, hrun, hc⟩ := addLeaf_collected v s
    exact ⟨true, t, hrun, hc.only, fun _ => ⟨.leaf v, ⟨‹_›, rfl⟩, HufTree.enterableFrom_leaf _ v, hc⟩⟩
  · split
    · intro s hs
      obtain ⟨b, t, hrun, ho, hb⟩ := ih v.toNat s hs
      refine ⟨b, t, hrun, ho, fun h => ?_⟩
      obtain ⟨_, ⟨l, r, rfl⟩, hc⟩ := hb h
      exact ⟨.node v.toNat l r, ⟨‹_›, rfl⟩, hc⟩
    · exact .no

/-- The walk answers, and a yes means a tree at the record (R263), by the depth. -/
theorem Explores.walk : ∀ depth i, Explores table (fun tree => ∃ l r, tree = .node i l r) (walk depth i)
  | 0, _ => .no
  | depth + 1, i => by
    intro s hs
    have half := Explores.half (table := table) (Explores.walk depth)
    by_cases hold : i ∈ bitSet s.work.visited
    · exact ⟨false, s, walk_again hold, OnlyWork.refl s, nofun⟩
    cases he : table i with
    | none => exact ⟨false, s, walk_absent (he ▸ hs i), OnlyWork.refl s, nofun⟩
    | some e =>
      have hi : i < 255 := hs.isSome_lt (he ▸ rfl)
      have hent := OnlyWork.entered s i
      rw [walk_entered (he ▸ hs i) hold]
      obtain ⟨left, u, hleft, hou, hl⟩ := half e.lv e.lt _ (hs.onlyWork hent)
      rw [walkHalves, Eng.bind_ok hleft]
      cases left with
      | false => exact ⟨false, u, rfl, hent.trans hou, nofun⟩
      | true =>
        obtain ⟨l, hlhalf, hlent, hlc⟩ := hl rfl
        obtain ⟨b, t, hright, hot, hr⟩ := half e.rv e.rt u (hs.onlyWork (hent.trans hou))
        refine ⟨b, t, hright, hent.trans (hou.trans hot), fun hb => ?_⟩
        obtain ⟨r, hrhalf, hrent, hrc⟩ := hr hb
        rw [hlc.visited, s.visited_entered hi] at hrent
        rw [s.visited_entered hi] at hlent
        exact ⟨_, ⟨l, r, rfl⟩, HufTree.enterableFrom_node.2 ⟨e, he, hold, ⟨hlhalf, hlent⟩, hrhalf, hrent⟩,
          hlc.node hi hrc⟩

/-- The walk of a half goes through its tree, if the depth allows for all records. -/
theorem walkHalf_collects : ∀ {tree : HufTree} {depth : Nat} {v f : Byte} {s : State}, s.Holds table →
    tree.isHalf v f → tree.EnterableFrom table (bitSet s.work.visited) → tree.nodes.length ≤ depth →
    ∃ t, walkHalf depth v f s = .ok true t ∧ Collected tree s t
  | .leaf v, depth, _, _, s, _, ⟨rfl, rfl⟩, _, _ => addLeaf_collected v s
  | .node _ l r, 0, _, _, _, _, _, _, hd => absurd hd (Nat.not_succ_le_zero _)
  | .node _ l r, depth + 1, v, _, s, hs, ⟨rfl, rfl⟩, hent, hd => by
    obtain ⟨e, he, hnew, ⟨hl, hlent⟩, hr, hrent⟩ := HufTree.enterableFrom_node.1 hent
    have hi : v.toNat < 255 := hs.isSome_lt (he ▸ rfl)
    have hsv : (s.entered v.toNat).Holds table := hs.onlyWork (OnlyWork.entered s _)
    rw [HufTree.nodes, List.length_cons, List.length_append] at hd
    rw [← s.visited_entered hi] at hlent hrent
    obtain ⟨u, hleft, hlc⟩ := walkHalf_collects (depth := depth) hsv hl hlent (by omega)
    rw [← hlc.visited] at hrent
    obtain ⟨t, hright, hrc⟩ := walkHalf_collects (depth := depth) (hsv.onlyWork hlc.only) hr hrent (by omega)
    refine ⟨t, ?_, hlc.node hi hrc⟩
    rw [walkHalf, if_neg (by decide), if_pos rfl, walk_entered (he ▸ hs _) hnew, walkHalves, Eng.bind_ok hleft]
    exact hright

theorem toNat_ofNat_record {r : Nat} (hr : r < 255) : (BitVec.ofNat 8 r).toNat = r := by
  rw [BitVec.toNat_ofNat]
  omega

/-- The walk of a record goes through its tree. -/
theorem walk_collects {i depth : Nat} {l r : HufTree} {s : State} (hs : s.Holds table)
    (hent : (HufTree.node i l r).EnterableFrom table (bitSet s.work.visited))
    (hd : (HufTree.node i l r).nodes.length ≤ depth) :
    ∃ t, walk depth i s = .ok true t ∧ Collected (.node i l r) s t := by
  have hi : i < 255 := hs.isSome_lt (hent.1.isSome_of_mem List.mem_cons_self)
  have hnat := toNat_ofNat_record hi
  obtain ⟨t, hrun, hc⟩ := walkHalf_collects (tree := .node i l r) (v := BitVec.ofNat 8 i) hs ⟨rfl, hnat⟩ hent hd
  rw [walkHalf, if_neg (by decide), if_pos rfl, hnat] at hrun
  exact ⟨t, hrun, hc⟩

/-! ## The search -/

theorem eq_allOnes_iff_bitSet {w : Nat} {v : BitVec w} : v = BitVec.allOnes w ↔ bitSet v = Finset.range w := by
  refine ⟨fun h => h ▸ bitSet_allOnes w, fun h => BitVec.eq_of_getLsbD_eq fun i hi => ?_⟩
  rw [mem_bitSet.1 (h ▸ Finset.mem_range.2 hi), BitVec.getLsbD_allOnes, decide_eq_true hi]

/-- The walk of a candidate starts with both sets empty (R263). -/
def State.searching (s : State) (r : Nat) : State :=
  { s with work := { s.work with cand := BitVec.ofNat 8 r, visited := 0#255, leaves := 0#256 } }

theorem State.visited_searching (s : State) (r : Nat) : bitSet (s.searching r).work.visited = ∅ := bitSet_zero 255

/-- All leaf values have been collected exactly if the tree has them all. -/
theorem Collected.leaves_eq_allOnes_iff {s t : State} {r : Nat} {tree : HufTree} (h : Collected tree (s.searching r) t) :
    t.work.leaves = BitVec.allOnes 256 ↔ (tree.leaves.map BitVec.toNat).toFinset = Finset.range 256 := by
  have hempty : bitSet (s.searching r).work.leaves = ∅ := bitSet_zero 256
  rw [eq_allOnes_iff_bitSet, h.leaves, hempty, Finset.empty_union]

/-- A candidate is valid exactly if it is the root of a proper tree (R263, R266). -/
theorem candidateValid_iff {s : State} (hs : s.Holds table) (r : Nat) :
    ∃ b t, candidateValid r s = .ok b t ∧ OnlyWork s t ∧ (b = true ↔ ∃ tree, ProperTreeAt table r tree) := by
  have htable (i : Nat) : (table i).isSome = true → i < 255 := hs.isSome_lt
  have hstart : OnlyWork s (s.searching r) := ⟨_, rfl⟩
  obtain ⟨ok, t, hwalk, ho, hok⟩ := Explores.walk 256 r _ (hs.onlyWork hstart)
  rw [s.visited_searching] at hok
  refine ⟨ok && t.work.leaves == BitVec.allOnes 256, t, Eng.bind_ok hwalk, hstart.trans ho, ?_⟩
  rw [Bool.and_eq_true, beq_iff_eq]
  constructor
  · rintro ⟨hyes, hall⟩
    obtain ⟨_, ⟨l, x, rfl⟩, hent, hc⟩ := hok hyes
    exact ⟨_, (hent.proper_iff htable).1 (hc.leaves_eq_allOnes_iff.1 hall)⟩
  · rintro ⟨_, hproper⟩
    have hlen := hproper.nodes_length
    have ⟨l, x, htree, hspelled, hnodup, _⟩ := hproper
    subst htree
    have hent : (HufTree.node r l x).EnterableFrom table ∅ := ⟨hspelled, hnodup, fun _ _ => Finset.notMem_empty _⟩
    obtain ⟨t', hwalk', hc⟩ := walk_collects (hs.onlyWork hstart) (s.visited_searching r ▸ hent)
      (hlen.le.trans (Nat.le_succ 255))
    cases hwalk.symm.trans hwalk'
    exact ⟨rfl, hc.leaves_eq_allOnes_iff.2 ((hent.proper_iff htable).2 hproper)⟩

/-- The root search (R265) ends with a candidate that is the root of a proper tree, or raises if there is none. -/
theorem hufSearch_finds : ∀ {rs : List Nat} {s : State}, s.Holds table →
    (∃ r ∈ rs, (∃ tree, ProperTreeAt table r tree) ∧
      hufSearch rs s = .ok () (State.complete { s with hroot := BitVec.ofNat 8 r, hvalid := true })) ∨
    ((∀ r ∈ rs, ∀ tree, ¬ ProperTreeAt table r tree) ∧
      ∃ t, OnlyWork s t ∧ hufSearch rs s = .error (.raise .incompleteDictionary) t)
  | [], s, _ => .inr ⟨nofun, s, OnlyWork.refl s, rfl⟩
  | r :: rs, s, hs => by
    obtain ⟨b, t, hrun, ho, hb⟩ := candidateValid_iff hs r
    rw [hufSearch, Eng.bind_ok hrun]
    have hst := hs.onlyWork ho
    obtain ⟨w, rfl⟩ := ho
    cases b with
    | true => exact .inl ⟨r, List.mem_cons_self, hb.1 rfl, rfl⟩
    | false =>
      rcases hufSearch_finds (rs := rs) hst with ⟨x, hx, hproper, hfound⟩ | ⟨hnone, t, ho, hraise⟩
      · exact .inl ⟨x, List.mem_cons_of_mem _ hx, hproper, hfound⟩
      · have hr (tree : HufTree) (h : ProperTreeAt table r tree) : False := nomatch hb.2 ⟨tree, h⟩
        exact .inr ⟨List.forall_mem_cons.2 ⟨hr, hnone⟩, t, OnlyWork.trans ⟨w, rfl⟩ ho, hraise⟩

theorem mem_candidates {r : Nat} : r ∈ candidates ↔ r < 255 := by
  simp only [candidates, List.mem_cons, List.mem_range]
  omega

/-! ## The command -/

/-- A proper tree's root is a record. -/
theorem ProperTreeAt.isSome {r : Nat} {tree : HufTree} (h : ProperTreeAt table r tree) : (table r).isSome = true := by
  obtain ⟨left, right, rfl, hs, -⟩ := h
  exact hs.isSome_of_mem List.mem_cons_self

/-- How `HUF_LOAD` ends on a loaded input (R262 to R265): with the root of a proper tree, `NODE` holding the table, or
without a dictionary. -/
inductive LoadEnds (s : State) : Host.Outcome State Fault Refusal → Prop
  | found (r : Nat) (tree : HufTree) (m : Mem) (p : BitVec 255) (hr : r < 255) (hproper : ProperTreeAt s.tableAt r tree)
    (hholds : (s.withNodes m p).Holds s.tableAt) :
    LoadEnds s (.next (State.complete { s.withNodes m p with hroot := BitVec.ofNat 8 r, hvalid := true }))
  | missing (t : State) (hnone : ∀ r tree, ¬ ProperTreeAt s.tableAt r tree) (hvalid : t.hvalid = false) :
    LoadEnds s (.next (t.errorEntry .incompleteDictionary))

theorem runMeaning_hufLoad_ends {s : State} (hl : s.loaded) : LoadEnds s (runMeaning hufLoad s) := by
  obtain ⟨m, p, hcopy, hholds⟩ := hufCopy_ok (s := { s with hvalid := false }) hl
  have hrun : hufLoad s = hufSearch candidates (State.withNodes { s with hvalid := false } m p) := Eng.bind_ok hcopy
  rcases hufSearch_finds (rs := candidates) hholds with
    ⟨r, hr, ⟨tree, hproper⟩, hfound⟩ | ⟨hnone, t, ⟨w, rfl⟩, hraise⟩
  · rw [runMeaning_ok (hrun.trans hfound)]
    exact .found r tree m p (mem_candidates.1 hr) hproper hholds
  · rw [runMeaning_raise (hrun.trans hraise)]
    exact .missing _ (fun r tree h => hnone r (mem_candidates.2 (hholds.isSome_lt h.isSome)) tree h) rfl

theorem exec_hufLoad_ends {s : State} (hb : s.status ≠ .busy) (hl : s.loaded) :
    LoadEnds (s.begin .hufLoad) (exec .hufLoad s) := by
  have hexec : exec .hufLoad s = _ := exec_toInstr_of_not_busy (c := .hufLoad) hb
  rw [hexec]
  exact runMeaning_hufLoad_ends hl

end Sys2Proof.Machine
end

section
/-! PROOFS. The dictionary load: the statements O34 and O35. -/

namespace Sys2Proof.Machine

open Sys2Proof

/-- A dictionary that `HUF_LOAD` leaves valid can be walked (R266 (c)). -/
theorem walkable_of_exec_hufLoad {s t : State} (hb : s.status ≠ .busy) (h : exec .hufLoad s = .next t)
    (hv : t.hvalid = true) : t.walkable := by
  have hexec : exec .hufLoad s = _ := exec_toInstr_of_not_busy (c := .hufLoad) hb
  rcases runMeaning_eq_next.1 (hexec.symm.trans h) with hok | ⟨k, u, hraise, rfl⟩
  · obtain ⟨v, -, hw, rfl⟩ := hufLoad_eq_ok hok
    exact State.walkable_congr rfl rfl hw
  · obtain ⟨⟨⟨m, p, r, w, rfl⟩, -⟩, -⟩ := hufLoad_raises hraise
    cases hv

/-- Settles O35: the search accepts exactly the roots of proper trees, of which there is at most one. -/
theorem hufLoadFindsTheRoot : Obligations.HufLoadFindsTheRoot := by
  intro s hb hl
  have hwalkable (t : State) := walkable_of_exec_hufLoad (t := t) hb
  have hends := exec_hufLoad_ends hb hl
  generalize exec .hufLoad s = o at hends hwalkable
  cases hends with
  | found r tree m p hr hproper hholds =>
    refine ⟨_, rfl, fun r' tree' hproper' => ⟨rfl, rfl, ?_⟩, hwalkable _ rfl,
      fun hnone => absurd hproper (hnone r tree)⟩
    have hroot : r = r' := hproper.root_unique (fun _ => hholds.isSome_lt) hproper'
    exact (toNat_ofNat_record hr).trans hroot
  | missing t hnone hvalid =>
    exact ⟨_, rfl, fun r tree hproper => absurd hproper (hnone r tree), hwalkable _ rfl, fun _ => ⟨rfl, rfl, hvalid⟩⟩

/-- Settles O34: the search finds the only root, and an input of 1020 bytes has every record. -/
theorem hufLoadAtConventionalRoot : Obligations.HufLoadAtConventionalRoot := by
  intro s tree hb hl hlen hproper
  have hends := exec_hufLoad_ends hb hl
  generalize exec .hufLoad s = o at hends
  cases hends with
  | found r tree' m p hr hproper' hholds =>
    have hroot : r = 254 := hproper'.root_unique (fun _ => hholds.isSome_lt) hproper
    subst hroot
    refine ⟨_, rfl, rfl, rfl, rfl, rfl, rfl, fun i hi => ?_⟩
    have hcount : i < s.nodeCount := by
      unfold State.nodeCount
      omega
    obtain ⟨e, he⟩ := hl.exists_tableAt hcount
    exact ((hholds i).2 e he).trans he.symm
  | missing t hnone hvalid => exact absurd hproper (hnone 254 tree)

end Sys2Proof.Machine
end

section
/-! SUPPORT. The chunk (R267 to R272): where the tree decoder stands is a bit of `IN` and a record, and an edge moves it on
by one bit; a path is walked edge by edge, and the symbols of a chunk path by path. -/

namespace Sys2Proof.Machine

open Sys2Proof

/-! ## What depends on `IN` and the dictionary alone -/

theorem State.bitsAt_congr {s t : State} (hm : t.inMem = s.inMem) (hl : t.inLen = s.inLen) (k : Nat) (bits : List Bool) :
    t.bitsAt k bits ↔ s.bitsAt k bits := by
  induction bits generalizing k with
  | nil => rfl
  | cons b bits ih => simp only [State.bitsAt, hm, hl, ih]

theorem State.bitsAt_append {s : State} {k : Nat} {xs ys : List Bool} :
    s.bitsAt k (xs ++ ys) ↔ s.bitsAt k xs ∧ s.bitsAt (k + xs.length) ys := by
  induction xs generalizing k with
  | nil => simp [State.bitsAt]
  | cons x xs ih =>
    simp only [List.cons_append, State.bitsAt, ih, List.length_cons, and_assoc]
    rw [show k + (xs.length + 1) = k + 1 + xs.length by omega]

/-- Bits that are in `IN` lie below its end. -/
theorem State.bitsAt.add_length_le {s : State} {k : Nat} {bits : List Bool} (h : s.bitsAt k bits) (hne : bits ≠ []) :
    k + bits.length ≤ 8 * s.inLen := by
  induction bits generalizing k with
  | nil => exact absurd rfl hne
  | cons b bits ih =>
    obtain ⟨hk, -, hrest⟩ := h
    rw [List.length_cons]
    cases bits with
    | nil =>
      rw [List.length_nil]
      omega
    | cons c bits =>
      have := ih hrest (List.cons_ne_nil c bits)
      omega

/-- A path of two edges or more: an inner edge, then a path from the record that it names. -/
theorem State.pathTo_cons_cons {s : State} {i : Nat} {b c : Bool} {bits : List Bool} {v : Byte} :
    s.pathTo i (b :: c :: bits) v ↔ ∃ r, s.nodeAt i = some r ∧ (if b then r.rt else r.lt) ≠ 0#8 ∧
      s.pathTo (if b then r.rv else r.lv).toNat (c :: bits) v := Iff.rfl

theorem State.pathTo_congr {s t : State} (hm : t.nodeMem = s.nodeMem) : ∀ (i : Nat) (bits : List Bool) (v : Byte),
    t.pathTo i bits v ↔ s.pathTo i bits v
  | _, [], _ => Iff.rfl
  | i, [b], v => by simp only [State.pathTo, State.nodeAt, hm]
  | i, b :: c :: bits, v => by
    simp only [State.pathTo_cons_cons, State.pathTo_congr hm _ (c :: bits) v]
    simp only [State.nodeAt, hm]

theorem State.spells_congr {s t : State} (hm : t.nodeMem = s.nodeMem) (hr : t.hroot = s.hroot)
    (syms : List (List Bool × Byte)) : t.spells syms ↔ s.spells syms := by
  induction syms with
  | nil => rfl
  | cons sym syms ih =>
    obtain ⟨bits, v⟩ := sym
    simp only [State.spells, hr, ih, State.pathTo_congr hm]

theorem State.pathTo.ne_nil {s : State} {i : Nat} {bits : List Bool} {v : Byte} (h : s.pathTo i bits v) : bits ≠ [] := by
  rintro rfl
  exact h

/-- Each symbol takes a bit at least. -/
theorem State.spells.length_le {s : State} {syms : List (List Bool × Byte)} (h : s.spells syms) :
    syms.length ≤ (syms.map Prod.fst).flatten.length := by
  induction syms with
  | nil => exact Nat.le_refl _
  | cons sym syms ih =>
    obtain ⟨bits, v⟩ := sym
    obtain ⟨hpath, hrest⟩ := h
    have := ih hrest
    have := List.length_pos_iff.2 hpath.ne_nil
    simp only [List.length_cons, List.map_cons, List.flatten_cons, List.length_append]
    omega

/-! ## The position -/

/-- The state with the tree decoder at bit `k` of `IN` and on record `n` (R45). -/
def State.standing (s : State) (k : Nat) (n : Byte) : State :=
  { s with work := { s.work with hbyte := k / 8, hbit := Fin.ofNat 8 k, hnode := n } }

theorem State.hufBit_standing (s : State) (k : Nat) (n : Byte) : (s.standing k n).hufBit = k := Nat.div_add_mod k 8

theorem State.hufBit_div (s : State) : s.hufBit / 8 = s.work.hbyte := by
  have := s.work.hbit.isLt
  unfold State.hufBit
  omega

theorem State.ofNat_hufBit (s : State) : Fin.ofNat 8 s.hufBit = s.work.hbit := by
  ext
  have := s.work.hbit.isLt
  simp only [Fin.ofNat, State.hufBit]
  omega

/-- Every state stands somewhere. -/
theorem State.standing_self (s : State) : s.standing s.hufBit s.work.hnode = s := by
  rw [State.standing, s.hufBit_div, s.ofNat_hufBit]

/-- The bit is read and the position moves past it (R270). -/
theorem nextBit_standing {s : State} {k : Nat} {b : Bool} {bits : List Bool} (n : Byte) (h : s.bitsAt k (b :: bits)) :
    nextBit (s.standing k n) = .ok b (s.standing (k + 1) n) := by
  obtain ⟨hk, ⟨v, hv, rfl⟩, -⟩ := h
  have hin : inByte (k / 8) (s.standing k n) = .ok v (s.standing k n) := inByte_eq_ok.2 ⟨hk, hv, rfl⟩
  have hbit : Fin.ofNat 8 k + 1 = Fin.ofNat 8 (k + 1) := by
    ext
    simp only [Fin.ofNat, Fin.val_add]
    omega
  have hbyte : (if Fin.ofNat 8 k = 7 then k / 8 + 1 else k / 8) = (k + 1) / 8 := by
    have hseven : Fin.ofNat 8 k = 7 ↔ k % 8 = 7 := by
      rw [Fin.ext_iff]
      rfl
    split <;> omega
  rw [nextBit, Eng.get_bind, State.standing.eq_def s (k + 1), ← hbit, ← hbyte]
  exact (require_bind_pos hk _ _ _).trans (Eng.bind_ok hin)

/-- With no byte left there is no bit (R270). -/
theorem nextBit_underrun {s : State} (h : s.inLen ≤ s.work.hbyte) : nextBit s = .error (.raise .bitstreamUnderrun) s := by
  rw [nextBit, Eng.get_bind, require_bind_neg (Nat.not_lt.2 h)]

/-! ## Edges and paths -/

section Path

variable {s : State} {k : Nat} {n : Byte} {r : NodeRec} {b : Bool} {bits : List Bool} {v : Byte}

/-- An edge to a leaf (R271): the leaf's value is appended, and the walk stands on the root again. -/
theorem hufEdge_leaf (hvalid : s.hvalid = true) (hn : n.toNat < 255) (hr : s.nodeAt n.toNat = some r)
    (hb : s.bitsAt k (b :: bits)) (hflag : (if b then r.rt else r.lt) = 0#8) (hroom : s.roomFor 1) :
    hufEdge (s.standing k n) =
      .ok true ((s.push (if b then r.rv else r.lv)).standing (k + 1) s.hroot) := by
  have hread : dictRead n.toNat (s.standing (k + 1) n) = .ok r (s.standing (k + 1) n) :=
    dictRead_eq_ok.2 ⟨hvalid, hn, hr, rfl⟩
  have hemit (v : Byte) : emit v (s.standing (k + 1) n) = .ok () ((s.standing (k + 1) n).push v) :=
    emit_ok hroom.1 hroom.2
  rw [hufEdge, Eng.bind_ok (nextBit_standing n hb), Eng.get_bind]
  refine (Eng.bind_ok hread).trans ?_
  rw [if_pos hflag]
  exact Eng.bind_ok (hemit _)

/-- An edge to a record (R271): the walk stands on it. -/
theorem hufEdge_inner (hvalid : s.hvalid = true) (hn : n.toNat < 255) (hr : s.nodeAt n.toNat = some r)
    (hb : s.bitsAt k (b :: bits)) (hflag : (if b then r.rt else r.lt) ≠ 0#8) :
    hufEdge (s.standing k n) = .ok false (s.standing (k + 1) (if b then r.rv else r.lv)) := by
  have hread : dictRead n.toNat (s.standing (k + 1) n) = .ok r (s.standing (k + 1) n) :=
    dictRead_eq_ok.2 ⟨hvalid, hn, hr, rfl⟩
  rw [hufEdge, Eng.bind_ok (nextBit_standing n hb), Eng.get_bind]
  refine (Eng.bind_ok hread).trans ?_
  rw [if_neg hflag]
  rfl

/-- A half that is no leaf names a record (R266 (c)). -/
def State.namesRecords (s : State) : Prop :=
  ∀ i < 255, ∀ e, s.nodeAt i = some e → (e.lt ≠ 0#8 → e.lv.toNat < 255) ∧ (e.rt ≠ 0#8 → e.rv.toNat < 255)

theorem State.namesRecords.half (h : s.namesRecords) {i : Nat} (hi : i < 255) (hr : s.nodeAt i = some r)
    (hflag : (if b then r.rt else r.lt) ≠ 0#8) : (if b then r.rv else r.lv).toNat < 255 := by
  obtain ⟨hleft, hright⟩ := h i hi r hr
  cases b with
  | false => exact hleft hflag
  | true => exact hright hflag

/-- A path, edge by edge (R271): its leaf's value is appended behind it. -/
theorem hufPath_of_pathTo (hvalid : s.hvalid = true) (hnames : s.namesRecords) (hroom : s.roomFor 1) :
    ∀ {bits : List Bool} {fuel k : Nat} {n : Byte}, n.toNat < 255 → s.pathTo n.toNat bits v → s.bitsAt k bits →
      bits.length ≤ fuel → hufPath fuel (s.standing k n) = .ok () ((s.push v).standing (k + bits.length) s.hroot)
  | [], _, _, _, _, hpath, _, _ => hpath.elim
  | _ :: _, 0, _, _, _, _, _, hfuel => absurd hfuel (Nat.not_succ_le_zero _)
  | [b], fuel + 1, k, n, hn, ⟨r, hr, hflag, hv⟩, hb, _ => by
    rw [hufPath, Eng.bind_ok (hufEdge_leaf hvalid hn hr hb hflag hroom), hv, if_pos rfl]
    rfl
  | b :: c :: bits, fuel + 1, k, n, hn, hpath, hb, hfuel => by
    obtain ⟨r, hr, hflag, hrest⟩ := State.pathTo_cons_cons.1 hpath
    have ih := hufPath_of_pathTo hvalid hnames hroom (hnames.half hn hr hflag) hrest hb.2.2 (Nat.le_of_succ_le_succ hfuel)
    rw [hufPath, Eng.bind_ok (hufEdge_inner hvalid hn hr hb hflag), if_neg (by decide), ih, List.length_cons (a := b),
      Nat.add_right_comm, Nat.add_assoc]

/-- `HUF.SYM` on the bits of a path (R271). -/
theorem hufSym_of_pathTo (hvalid : s.hvalid = true) (hnames : s.namesRecords) (hroom : s.roomFor 1) (hn : n.toNat < 255)
    (hpath : s.pathTo n.toNat bits v) (hb : s.bitsAt k bits) :
    hufSym (s.standing k n) = .ok () ((s.push v).standing (k + bits.length) s.hroot) := by
  have hfuel := hb.add_length_le hpath.ne_nil
  rw [hufSym, Eng.get_bind]
  exact hufPath_of_pathTo hvalid hnames hroom hn hpath hb (by change _ ≤ 8 * s.inLen + 1; omega)

/-- `HUF.SYM` begins with an edge. -/
theorem hufSym_of_hufEdge_error {e : Stop} {t : State} (h : hufEdge s = .error e t) : hufSym s = .error e t := by
  rw [hufSym, Eng.get_bind, hufPath, Eng.bind_error h]

/-- An edge without a dictionary (R48). -/
theorem hufEdge_noDictionary {t : State} (h : nextBit s = .ok b t) (hvalid : t.hvalid = false) :
    hufEdge s = .error (.fault .noDictionary) t := by
  have hread (i : Nat) : dictRead i t = .error (.fault .noDictionary) t := by
    rw [dictRead, Eng.get_bind]
    refine Eng.bind_error ?_
    rw [ensure_apply, if_neg (by rw [hvalid]; decide)]
  rw [hufEdge, Eng.bind_ok h, Eng.get_bind]
  exact Eng.bind_error (hread _)

end Path

/-! ## The loop -/

theorem State.walkable.namesRecords {s : State} (h : s.walkable) : s.namesRecords := by
  intro i hi e he
  obtain ⟨e', he', hnames⟩ := h.2 i hi
  cases he.symm.trans he'
  exact hnames

theorem State.push_walkable {s : State} (h : s.walkable) (b : Byte) : (s.push b).walkable :=
  State.walkable_congr rfl rfl h

/-- The loop over the symbols of a chunk (R271), of which as many are left as the declared count still asks for. -/
theorem hufSymbols_of_spells : ∀ {syms : List (List Bool × Byte)} {fuel k : Nat} {s : State}, s.hvalid = true →
    s.walkable → s.spells syms → s.bitsAt k (syms.map Prod.fst).flatten →
    s.work.declLen.toNat = s.outLen + syms.length → s.work.declLen.toNat ≤ s.cfg.outCap → syms.length < fuel →
    hufSymbols fuel (s.standing k s.hroot) = .ok () (s.pushAll (syms.map Prod.snd)).complete
  | _, 0, _, _, _, _, _, _, _, _, hfuel => absurd hfuel (Nat.not_lt_zero _)
  | [], fuel + 1, k, s, _, _, _, _, hdecl, _, _ => by
    have hdone : ¬ s.outLen < s.work.declLen.toNat := Nat.not_lt.2 hdecl.le
    rw [hufSymbols, Eng.get_bind]
    exact congrFun (if_neg hdone) _
  | (bits, v) :: syms, fuel + 1, k, s, hvalid, hw, ⟨hpath, hspells⟩, hb, hdecl, hcap, hfuel => by
    rw [List.length_cons] at hdecl hfuel
    obtain ⟨hbits, hrest⟩ := State.bitsAt_append.1 hb
    have hmore : s.outLen < s.work.declLen.toNat := by omega
    have hsym := hufSym_of_pathTo hvalid hw.namesRecords ⟨by omega, by omega⟩ hw.1 hpath hbits
    have hloop := hufSymbols_of_spells (s := s.push v) (fuel := fuel) (k := k + bits.length) hvalid (s.push_walkable hw v)
      ((State.spells_congr (s := s) (t := s.push v) rfl rfl syms).2 hspells)
      ((State.bitsAt_congr (s := s) (t := s.push v) rfl rfl _ _).2 hrest)
      (by rw [State.push_work, State.push_outLen]; omega) hcap (by omega)
    rw [hufSymbols, Eng.get_bind, List.map_cons, ← State.push_pushAll, ← hloop]
    exact (congrFun (if_pos hmore) _).trans (Eng.bind_ok hsym)

/-! ## The header (R268, R269) -/

section Header

variable {s : State} {b0 b1 b2 b3 : Byte}

theorem hufStart_noDictionary (h : s.hvalid = false) : hufStart s = .error (.raise .incompleteDictionary) s := by
  rw [hufStart, Eng.get_bind, require_bind_neg (by rw [h]; decide)]

theorem hufStart_short (h : s.hvalid = true) (hlen : s.inLen < 4) : hufStart s = .error (.raise .bitstreamUnderrun) s := by
  rw [hufStart, Eng.get_bind, require_bind_pos h, require_bind_neg (Nat.not_le.2 hlen)]

/-- The state with a declared length (R37). -/
def State.declaring (s : State) (n : Nat) : State := { s with work := { s.work with declLen := BitVec.ofNat 32 n } }

/-- The checks on a declared count, and the start of the walk (R269). -/
def hufStartCount (s : State) (n : Nat) : Eng Unit :=
  if n = 0 then completeCommand
  else do
    require (n ≤ s.cfg.outCap) .headerInvalid
    require (n ≤ 8 * (s.inLen - 4)) .bitstreamUnderrun
    modify fun s => { s with work := { s.work with hbyte := 4, hbit := 0, hnode := s.hroot } }

/-- A count that has been read is declared, then checked (R269). -/
theorem hufStart_count (h : s.hvalid = true) (hin : s.inHas 0 [b0, b1, b2, b3]) :
    hufStart s = hufStartCount s (leNat [b0, b1, b2, b3]) (s.declaring (leNat [b0, b1, b2, b3])) := by
  have hlen : 4 ≤ s.inLen := hin.add_length_le (Nat.zero_le _)
  have hread : inLe 0 4 s = .ok (leNat [b0, b1, b2, b3]) s := inLe_ok hin
  rw [hufStart, Eng.get_bind, require_bind_pos h, require_bind_pos hlen, Eng.bind_ok hread]
  rfl

theorem hufStartCount_zero (s u : State) : hufStartCount s 0 u = .ok () u.complete := rfl

theorem hufStartCount_tooLong {s u : State} {n : Nat} (h : s.cfg.outCap < n) :
    hufStartCount s n u = .error (.raise .headerInvalid) u := by
  rw [hufStartCount, if_neg (by omega), require_bind_neg (by omega)]

theorem hufStartCount_underrun {s u : State} {n : Nat} (hcap : n ≤ s.cfg.outCap) (h : 8 * (s.inLen - 4) < n) :
    hufStartCount s n u = .error (.raise .bitstreamUnderrun) u := by
  rw [hufStartCount, if_neg (by omega), require_bind_pos hcap, require_bind_neg (by omega)]

/-- An accepted count leaves the decoder behind the count, on the root. -/
theorem hufStartCount_ok {s u : State} {n : Nat} (hn : n ≠ 0) (hcap : n ≤ s.cfg.outCap) (h : n ≤ 8 * (s.inLen - 4)) :
    hufStartCount s n u = .ok () (u.standing 32 u.hroot) := by
  rw [hufStartCount, if_neg hn, require_bind_pos hcap, require_bind_pos h]
  rfl

/-- A header that ends the command ends the chunk. -/
theorem hufChunk_of_ended {t : State} (h : hufStart s = .ok () t) (ht : t.status ≠ .busy) : hufChunk s = .ok () t := by
  rw [hufChunk, Eng.bind_ok h, Eng.get_bind, if_neg ht, Eng.pure_apply]

/-- A header that is accepted goes on with the symbols. -/
theorem hufChunk_of_started {t : State} (h : hufStart s = .ok () t) (ht : t.status = .busy) :
    hufChunk s = hufSymbols (8 * t.inLen + 1) t := by
  rw [hufChunk, Eng.bind_ok h, Eng.get_bind, if_pos ht]

/-- A chunk whose header raises, in a state that the error entry does not tell from its start (R324). -/
theorem exec_hufChunk_raise {t : State} {k : ErrKind} (hb : s.status ≠ .busy)
    (h : hufStart (s.begin .hufChunk) = .error (.raise k) t)
    (ht : t.errorEntry k = (s.begin .hufChunk).errorEntry k) :
    exec .hufChunk s = .next ((s.begin .hufChunk).errorEntry k) := by
  have hexec : exec .hufChunk s = _ := exec_toInstr_of_not_busy (c := .hufChunk) hb
  rw [hexec, ← ht]
  exact runMeaning_bind_raise h

/-- A chunk that succeeds. -/
theorem exec_hufChunk_ok {t : State} (hb : s.status ≠ .busy) (h : hufChunk (s.begin .hufChunk) = .ok () t) :
    exec .hufChunk s = .next t := by
  have hexec : exec .hufChunk s = _ := exec_toInstr_of_not_busy (c := .hufChunk) hb
  rw [hexec]
  exact runMeaning_ok h

/-- A chunk of no symbols is complete behind its count (R269). -/
theorem hufChunk_empty (hvalid : s.hvalid = true) (hin : s.inHas 0 [b0, b1, b2, b3]) (hn : leNat [b0, b1, b2, b3] = 0) :
    hufChunk s = .ok () s.complete := by
  have hstart := hufStart_count hvalid hin
  rw [hn, hufStartCount_zero] at hstart
  exact hufChunk_of_ended hstart nofun

/-- A chunk whose bits spell its symbols appends their values (R271, R272). -/
theorem hufChunk_of_spells {syms : List (List Bool × Byte)} (hb : s.status = .busy) (hout : s.outLen = 0)
    (hvalid : s.hvalid = true) (hw : s.walkable) (hin : s.inHas 0 [b0, b1, b2, b3])
    (hlen : syms.length = leNat [b0, b1, b2, b3]) (hcap : syms.length ≤ s.cfg.outCap) (hspells : s.spells syms)
    (hbits : s.bitsAt 32 (syms.map Prod.fst).flatten) :
    hufChunk s = .ok () (s.pushAll (syms.map Prod.snd)).complete := by
  by_cases hpos : syms.length = 0
  · obtain rfl := List.eq_nil_of_length_eq_zero hpos
    exact hufChunk_empty hvalid hin hlen.symm
  have hcount := hspells.length_le
  have hend := hbits.add_length_le (List.ne_nil_of_length_pos (by omega))
  have hdecl : (s.declaring syms.length).work.declLen.toNat = syms.length := by
    rw [hlen]
    exact toNat_ofNat_leNat (bytes := [b0, b1, b2, b3]) rfl
  have hstart := hufStart_count hvalid hin
  rw [← hlen, hufStartCount_ok hpos hcap (by omega)] at hstart
  rw [hufChunk_of_started hstart hb]
  exact hufSymbols_of_spells (s := s.declaring syms.length) hvalid (State.walkable_congr rfl rfl hw)
    ((State.spells_congr (s := s) (t := s.declaring syms.length) rfl rfl syms).2 hspells)
    ((State.bitsAt_congr (s := s) (t := s.declaring syms.length) rfl rfl _ _).2 hbits)
    (by rw [hdecl, show (s.declaring syms.length).outLen = 0 from hout, Nat.zero_add])
    (hdecl.trans_le hcap) (by change _ < 8 * s.inLen + 1; omega)

end Header

end Sys2Proof.Machine
end

section
/-! PROOFS. The chunk and its symbols: the statements O33, O36 and O37. -/

namespace Sys2Proof.Machine

open Sys2Proof

/-- Settles O37: the loop walks one path a symbol, and begins with an empty `OUT`. -/
theorem hufChunkDecodesSymbols : Obligations.HufChunkDecodesSymbols := by
  intro s b0 b1 b2 b3 syms hb hvalid hw hin hlen hcap hspells hbits
  have hrun := hufChunk_of_spells (s := s.begin .hufChunk) rfl rfl hvalid (State.walkable_congr rfl rfl hw)
    ((s.inHas_begin .hufChunk 0 _).2 hin) hlen hcap
    ((State.spells_congr (s := s) (t := s.begin .hufChunk) rfl rfl syms).2 hspells)
    ((State.bitsAt_congr (s := s) (t := s.begin .hufChunk) rfl rfl _ _).2 hbits)
  obtain ⟨houtLen, hnew, hold⟩ := (s.begin .hufChunk).pushAll_appended (syms.map Prod.snd)
  rw [State.begin_outLen, Nat.zero_add] at houtLen hold
  refine ⟨_, exec_hufChunk_ok hb hrun, rfl, rfl, houtLen.trans (List.length_map _), fun k => ?_, rfl, rfl,
    hvalid, rfl, rfl⟩
  by_cases hk : k < (syms.map Prod.snd).length
  · have := hnew k hk
    rwa [State.begin_outLen, Nat.zero_add] at this
  · rw [List.getElem?_eq_none (Nat.not_lt.1 hk)]
    exact hold k (.inr (Nat.not_lt.1 hk))

/-- Settles O33: the first edge underruns or faults, or the path is walked from where the decoder stands. -/
theorem hufSymFollowsPath : Obligations.HufSymFollowsPath := by
  refine ⟨fun s h => ?underrun, fun s v hlt hv hvalid => ?noDictionary,
    fun s bits v hn hvalid hpath hb hroom hnames => ?path⟩
  case underrun => exact runMeaning_raise (hufSym_of_hufEdge_error (Eng.bind_error (nextBit_underrun h)))
  case noDictionary =>
    have hbit : s.bitsAt s.hufBit [v.getLsbD (s.hufBit % 8)] :=
      ⟨s.hufBit_div.symm ▸ hlt, ⟨v, s.hufBit_div.symm ▸ hv, rfl⟩, trivial⟩
    have hnext := nextBit_standing s.work.hnode hbit
    rw [s.standing_self] at hnext
    exact runMeaning_fault (hufSym_of_hufEdge_error (hufEdge_noDictionary hnext hvalid))
  case path =>
    have hrun := hufSym_of_pathTo hvalid (fun i _ e he => hnames i e he) hroom hn hpath hb
    rw [s.standing_self] at hrun
    exact ⟨_, runMeaning_ok hrun, rfl, State.hufBit_standing _ _ _, rfl,
      (s.pushAll_appended [v]).congr fun k hk => by rw [Nat.lt_one_iff.1 hk]; rfl⟩

/-- Settles O36: each clause is a law of the header step. -/
theorem hufChunkValidation : Obligations.HufChunkValidation := by
  intro s b0 b1 b2 b3 hb
  refine ⟨fun hvalid => exec_hufChunk_raise hb (hufStart_noDictionary hvalid) rfl,
    fun hvalid hlen => exec_hufChunk_raise hb (hufStart_short hvalid hlen) rfl, fun hvalid hin => ?_⟩
  have hin' := (s.inHas_begin .hufChunk 0 _).2 hin
  have hstart := hufStart_count (s := s.begin .hufChunk) hvalid hin'
  exact ⟨fun hn => exec_hufChunk_ok hb (hufChunk_empty hvalid hin' hn),
    fun hcap => exec_hufChunk_raise hb (hstart.trans (hufStartCount_tooLong hcap)) rfl,
    fun hcap hbits => exec_hufChunk_raise hb (hstart.trans (hufStartCount_underrun hcap hbits)) rfl⟩

end Sys2Proof.Machine
end

section
/-! PROOFS. What the host may do, and what a command leaves alone: the statements O43, O55 and O56. -/

namespace Sys2Proof.Machine

open Sys2Proof

/-- A command of a decoder leaves the outside alone but for `CMD` (R293). -/
theorem exec_toInstr_outside {c : Command} (hc : c ≠ .hufLoad) {s t : State} (hb : s.status ≠ .busy)
    (h : exec c.toInstr s = .next t) : Outside (s.begin c) t := by
  rw [exec_toInstr_of_not_busy hb] at h
  exact (Frames.commandBody hc).runMeaning h

/-- Every command keeps the input (R293). -/
theorem exec_toInstr_inputKept {c : Command} {s t : State} (hb : s.status ≠ .busy) (h : exec c.toInstr s = .next t) :
    InputKept (s.begin c) t := by
  by_cases hc : c = .hufLoad
  · subst hc
    rw [exec_toInstr_of_not_busy hb] at h
    exact hufLoad_inputKept h
  · exact (exec_toInstr_outside hc hb h).inputKept

/-- Settles O43: a busy engine ignores the command; another one starts it, and what runs then keeps the input and, but
for `HUF_LOAD`, the dictionary. -/
theorem commandsPreserve : Obligations.CommandsPreserve := by
  intro s t c h
  by_cases hb : s.status = .busy
  · rw [exec_toInstr_of_busy hb] at h
    cases h
    exact ⟨rfl, rfl, rfl, rfl, fun _ => ⟨rfl, rfl, rfl, rfl⟩⟩
  · obtain ⟨hin, hlen, hcfg, hpend⟩ := exec_toInstr_inputKept hb h
    refine ⟨hin, hlen, hcfg, hpend, fun hc => ?_⟩
    have ho := exec_toInstr_outside hc hb h
    exact ⟨ho.nodeMem, ho.nodePresent, ho.hroot, ho.hvalid⟩

/-- A value that is no command's number names none (R296). -/
theorem Command.ofCode_eq_none {n : Nat} (h : n ≠ 1 ∧ n ≠ 2 ∧ n ≠ 3 ∧ n ≠ 4) : Command.ofCode n = none := by
  obtain ⟨h1, h2, h3, h4⟩ := h
  rw [Command.ofCode, if_neg h1, if_neg h2, if_neg h3, if_neg h4]

/-- A write to `CMD` that names no command, or that meets a busy engine, changes nothing (R296, R297). -/
theorem hostAct_ignored {n : Nat} {s : State} (h : Command.ofCode n = none ∨ s.status = .busy) :
    hostAct (.writeCmd n) s = .next s ∧ hostAct (.startCmd n) s = .next s := by
  simp only [hostAct]
  cases hk : Command.ofCode n with
  | none => exact ⟨rfl, rfl⟩
  | some k =>
    have hb := h.resolve_left (hk ▸ nofun)
    exact ⟨exec_toInstr_of_busy hb, congrArg Host.Outcome.next (if_pos hb)⟩

/-- Settles O55: the host's action is used up, and is then one that changes nothing. -/
theorem illegalUseOfCmd : Obligations.IllegalUseOfCmd := by
  intro s n rest hp h
  obtain ⟨hwrite, hstart⟩ := hostAct_ignored (s := { s with pending := rest }) (h.imp_left Command.ofCode_eq_none)
  rcases hp with hp | hp
  · exact (step_hostAct hp nofun).trans hwrite
  · exact (step_hostAct hp nofun).trans hstart

/-- The host writes a byte of `IN` on an engine that is not busy (R290). -/
theorem hostAct_writeIn {s : State} {a : Nat} (b : Byte) (hb : s.status ≠ .busy) (ha : a < s.cfg.inCap) :
    hostAct (.writeIn a b) s = .next { s with inMem := s.inMem.write a b } := by
  rw [hostAct, if_neg hb, if_pos ha]

/-- The host writes `IN_LEN` on an engine that is not busy (R290). -/
theorem hostAct_writeInLen {s : State} {n : Nat} (hb : s.status ≠ .busy) (hn : n ≤ s.cfg.inCap) :
    hostAct (.writeInLen n) s = .next { s with inLen := n } := by
  rw [hostAct, if_neg hb, if_pos hn]

/-- Neither may be written while the engine is busy (R298). -/
theorem hostAct_of_busy {s : State} (a n : Nat) (b : Byte) (hb : s.status = .busy) :
    hostAct (.writeIn a b) s = .fault .hostContract ∧ hostAct (.writeInLen n) s = .fault .hostContract := by
  simp only [hostAct, if_pos hb, and_self]

/-- Settles O56, clause by clause; the bytes of `IN` are those of one write to a memory. -/
theorem hostLoadsInput : Obligations.HostLoadsInput := by
  intro s rest a n b
  refine ⟨fun hb hp ha => ?byte, fun hb hp hn => ?length, fun hb hp => ?busy⟩
  case byte =>
    have hact := hostAct_writeIn (s := { s with pending := rest }) b hb ha
    exact ⟨_, (step_hostAct hp nofun).trans hact, rfl, Mem.read_write_same _ _ _, fun x hx => Mem.read_write_other _ b hx⟩
  case length => exact (step_hostAct hp nofun).trans (hostAct_writeInLen (s := { s with pending := rest }) hb hn)
  case busy =>
    obtain ⟨hin, hlen⟩ := hostAct_of_busy (s := { s with pending := rest }) a n b hb
    rcases hp with hp | hp
    · exact (step_hostAct hp nofun).trans hin
    · exact (step_hostAct hp nofun).trans hlen

end Sys2Proof.Machine
end

section
/-! SUPPORT. One sequence of engine operations, run from two states: which relation of the states it keeps, and that the
runs answer the same. A relation is given by what it lets the operations read alike (`SameInput`, `SameCursor`,
`SameOutput`) and by which writes keep it; each operation is treated once, for every such relation. -/

namespace Sys2Proof.Machine

open Sys2Proof

variable {α β : Type} {D P Q R : State → State → Prop}

/-- Two results of a sequence compare: the same value and states in `Q`; the same error kind and error entries in `D`
(R324), the relation of ended commands; or the same fault. -/
inductive Alike (D Q : State → State → Prop) : EStateM.Result Stop State α → EStateM.Result Stop State α → Prop
  | ok (a : α) {s t : State} (h : Q s t) : Alike D Q (.ok a s) (.ok a t)
  | raise (k : ErrKind) {s t : State} (h : D (s.errorEntry k) (t.errorEntry k)) :
      Alike D Q (.error (.raise k) s) (.error (.raise k) t)
  | fault (f : Fault) (s t : State) : Alike D Q (.error (.fault f) s) (.error (.fault f) t)

/-- From states in `P` the sequence has results that compare, with `Q` between the states where it succeeds. -/
def Parallel (D P Q : State → State → Prop) (x : Eng α) : Prop := ∀ s t, P s t → Alike D Q (x s) (x t)

/-- States in the relation have error entries in `D`. -/
def Stops (D R : State → State → Prop) : Prop := ∀ {s t}, R s t → ∀ k, D (s.errorEntry k) (t.errorEntry k)

/-- A write of working registers keeps the relation. -/
def Writes (R : State → State → Prop) (f : Work → Work) : Prop :=
  ∀ s t, R s t → R { s with work := f s.work } { t with work := f t.work }

/-! ## Sequences -/

theorem Parallel.pure (a : α) : Parallel D R R (pure a : Eng α) := fun _ _ h => .ok a h

theorem Parallel.raise (hs : Stops D R) (k : ErrKind) : Parallel D R Q (raise k : Eng α) := fun _ _ h => .raise k (hs h k)

theorem Parallel.stuck (f : Fault) : Parallel D R Q (stuck f : Eng α) := fun s t _ => .fault f s t

theorem Parallel.mono {x : Eng α} {P' Q' : State → State → Prop} (hx : Parallel D P Q x)
    (hP : ∀ {s t}, P' s t → P s t) (hQ : ∀ {s t}, Q s t → Q' s t) : Parallel D P' Q' x := by
  intro s t h
  have hr := hx s t (hP h)
  generalize x s = r at hr
  generalize x t = r' at hr
  cases hr with
  | ok a h => exact .ok a (hQ h)
  | raise k h => exact .raise k h
  | fault f s t => exact .fault f s t

theorem Parallel.bind {x : Eng α} {f : α → Eng β} (hx : Parallel D P Q x) (hf : ∀ a, Parallel D Q R (f a)) :
    Parallel D P R (x >>= f) := by
  intro s t h
  have hr := hx s t h
  rw [Eng.bind_apply, Eng.bind_apply]
  generalize x s = r at hr
  generalize x t = r' at hr
  cases hr with
  | ok a h => exact hf a _ _ h
  | raise k h => exact .raise k h
  | fault f s t => exact .fault f s t

/-- A sequence that reads the state goes on alike if what it reads is alike. -/
theorem Parallel.get {f : State → Eng α} (hf : ∀ s t, P s t → f s = f t) (h : ∀ s, Parallel D P Q (f s)) :
    Parallel D P Q (MonadState.get >>= f) := by
  intro s t hst
  rw [Eng.get_bind, Eng.get_bind, hf s t hst]
  exact h t s t hst

theorem Parallel.modify {f : State → State} (hf : ∀ {s t}, P s t → Q (f s) (f t)) :
    Parallel D P Q (modify f : Eng PUnit) := fun _ _ h => .ok _ (hf h)

theorem Parallel.modifyWork {f : Work → Work} (hf : Writes R f) : Parallel D R R (modifyWork f) :=
  .modify fun h => hf _ _ h

theorem Parallel.ite {c : Prop} [Decidable c] {x y : Eng α} (hx : Parallel D P Q x) (hy : Parallel D P Q y) :
    Parallel D P Q (if c then x else y) := by
  split
  · exact hx
  · exact hy

theorem Parallel.require (hs : Stops D R) (c : Prop) [Decidable c] (k : ErrKind) : Parallel D R R (require c k) :=
  .ite (.pure _) (.raise hs k)

theorem Parallel.ensure (c : Prop) [Decidable c] (f : Fault) : Parallel D R R (ensure c f) := .ite (.pure _) (.stuck f)

theorem Parallel.orStuck (o : Option α) (f : Fault) : Parallel D R R (orStuck o f) := by
  cases o with
  | none => exact .stuck f
  | some a => exact .pure a

theorem Parallel.discard {x : Eng α} (hx : Parallel D P Q x) : Parallel D P Q (discard x : Eng PUnit) := by
  intro s t h
  have hr := hx s t h
  rw [Eng.discard_apply, Eng.discard_apply]
  generalize x s = r at hr
  generalize x t = r' at hr
  cases hr with
  | ok a h => exact .ok _ h
  | raise k h => exact .raise k h
  | fault f s t => exact .fault f s t

theorem Parallel.repeatEng {x : Eng Unit} (hx : Parallel D R R x) : ∀ n, Parallel D R R (repeatEng n x)
  | 0 => .pure _
  | n + 1 => .bind hx fun _ => .repeatEng hx n

/-! ## `IN` -/

/-- The relation lets the bytes of `IN` below `IN_LEN` be read alike. -/
structure SameInput (R : State → State → Prop) : Prop where
  cfg : ∀ {s t}, R s t → s.cfg = t.cfg
  inLen : ∀ {s t}, R s t → s.inLen = t.inLen
  inRead : ∀ {s t}, R s t → ∀ a < s.inLen, s.inMem.read a = t.inMem.read a

theorem inByte_of_lt {a : Nat} {s : State} (h : a < s.inLen) :
    inByte a s = (Machine.orStuck (s.inMem.read a) .unwrittenByte : Eng Byte) s := by
  rw [inByte, Eng.get_bind, ensure_bind_pos h]

theorem inByte_of_ge {a : Nat} {s : State} (h : ¬ a < s.inLen) : inByte a s = .error (.fault .noSuchAddress) s := by
  rw [inByte, Eng.get_bind]
  exact Eng.bind_error (by rw [ensure_apply, if_neg h])

theorem Parallel.inByte (hR : SameInput R) (a : Nat) : Parallel D R R (inByte a) := by
  intro s t h
  by_cases ha : a < s.inLen
  · rw [inByte_of_lt ha, inByte_of_lt (hR.inLen h ▸ ha), hR.inRead h a ha]
    exact Parallel.orStuck _ _ s t h
  · rw [inByte_of_ge ha, inByte_of_ge (hR.inLen h ▸ ha)]
    exact .fault _ s t

theorem Parallel.inLe (hR : SameInput R) : ∀ n a, Parallel D R R (inLe a n)
  | 0, _ => .pure _
  | n + 1, a => .bind (.inByte hR a) fun _ => .bind (.inLe hR n (a + 1)) fun _ => .pure _

theorem Parallel.inBe (hR : SameInput R) : ∀ n a acc, Parallel D R R (inBe a n acc)
  | 0, _, _ => .pure _
  | n + 1, a, _ => .bind (.inByte hR a) fun _ => .inBe hR n (a + 1) _

theorem Parallel.inMatches (hR : SameInput R) : ∀ bs a, Parallel D R R (inMatches a bs)
  | [], _ => .pure _
  | _ :: bs, a => .bind (.inByte hR a) fun _ => .bind (.inMatches hR bs (a + 1)) fun _ => .pure _

/-! ## The cursor -/

/-- The relation lets the cursor be read alike and moved alike. -/
structure SameCursor (D R : State → State → Prop) : Prop extends SameInput R where
  stops : Stops D R
  cur : ∀ {s t}, R s t → s.cur = t.cur
  withCur : ∀ {s t}, R s t → ∀ c, R (s.withCur c) (t.withCur c)

section Cursor

variable (hR : SameCursor D R)
include hR

theorem Parallel.getCur : Parallel D R R getCur := by
  intro s t h
  rw [getCur_apply, getCur_apply, hR.cur h]
  exact .ok _ h

theorem Parallel.setCur (c : Cursor) : Parallel D R R (setCur c) := fun _ _ h => .ok _ (hR.withCur h c)

theorem Parallel.refill : Parallel D R R refill :=
  .bind (.getCur hR) fun _ => .bind (.ensure _ _) fun _ => .bind (.require hR.stops _ _) fun _ =>
    .bind (.inLe hR.toSameInput _ _) fun _ => .setCur hR _

theorem Parallel.prime : Parallel D R R prime :=
  .bind (.getCur hR) fun _ => .bind (.ensure _ _) fun _ => .refill hR

theorem Parallel.take : Parallel D R R take :=
  .bind (.getCur hR) fun _ => .bind (.ensure _ _) fun _ => .bind (.setCur hR _) fun _ => .pure _

theorem Parallel.readBit : Parallel D R R readBit := by
  refine .bind (.getCur hR) fun c => ?_
  cases c.policy with
  | onDemand => exact .ite (.bind (.refill hR) fun _ => .take hR) (.take hR)
  | onExhaust =>
    exact .bind (.take hR) fun _ => .bind (.getCur hR) fun _ => .ite (.bind (.refill hR) fun _ => .pure _) (.pure _)

theorem Parallel.readBitsFrom (o : BitOrder) : ∀ n i v, Parallel D R R (readBitsFrom o n i v)
  | 0, _, _ => .pure _
  | n + 1, i, _ => .bind (.readBit hR) fun _ => .readBitsFrom o n (i + 1) _

theorem Parallel.readBits (n : Nat) : Parallel D R R (readBits n) :=
  .bind (.getCur hR) fun _ => .bind (.ensure _ _) fun _ => .readBitsFrom hR _ _ _ _

theorem Parallel.peekBits (n : Nat) : Parallel D R R (peekBits n) :=
  .bind (.getCur hR) fun _ => .bind (.ensure _ _) fun _ =>
    .ite (.bind (.refill hR) fun _ => .bind (.getCur hR) fun _ => .pure _) (.bind (.getCur hR) fun _ => .pure _)

theorem Parallel.skipBits (n : Nat) : Parallel D R R (skipBits n) :=
  .bind (.getCur hR) fun _ => .bind (.ensure _ _) fun _ => .repeatEng (.discard (.take hR)) n

theorem Parallel.readField (n : Nat) : Parallel D R R (readField n) :=
  .bind (.getCur hR) fun _ => .bind (.require hR.stops _ _) fun _ => .bind (.inLe hR.toSameInput _ _) fun _ =>
    .bind (.setCur hR _) fun _ => .pure _

theorem Parallel.readByte : Parallel D R R readByte := .bind (.readField hR 1) fun _ => .pure _

theorem Parallel.readU16 : Parallel D R R readU16 := .bind (.readField hR 2) fun _ => .pure _

theorem Parallel.readU24 : Parallel D R R readU24 := .bind (.readField hR 3) fun _ => .pure _

end Cursor

/-! ## `OUT` and the checksum -/

/-- The relation lets `OUT` be read alike and appended to alike. -/
structure SameOutput (D R : State → State → Prop) : Prop where
  stops : Stops D R
  cfg : ∀ {s t}, R s t → s.cfg = t.cfg
  cmd : ∀ {s t}, R s t → s.cmd = t.cmd
  outLen : ∀ {s t}, R s t → s.outLen = t.outLen
  outMem : ∀ {s t}, R s t → s.outMem = t.outMem
  declLen : ∀ {s t}, R s t → s.work.declLen = t.work.declLen
  push : ∀ {s t}, R s t → ∀ b, R (s.push b) (t.push b)

/-- Beyond the capacity there is no byte of `OUT` (R69). -/
theorem outAppend_of_full {b : Byte} {s : State} (h : ¬ s.outLen < s.cfg.outCap) :
    outAppend b s = .error (.fault .noSuchAddress) s := by
  rw [outAppend, Eng.get_bind]
  exact Eng.bind_error (by rw [ensure_apply, if_neg h])

theorem SameOutput.maxDistance (hR : SameOutput D R) {s t : State} (h : R s t) : s.maxDistance = t.maxDistance := by
  rw [State.maxDistance, State.maxDistance, State.zeroHistory, State.zeroHistory, hR.outLen h, hR.cmd h, hR.cfg h]

section Output

variable (hR : SameOutput D R)
include hR

theorem Parallel.outByte (a : Nat) : Parallel D R R (outByte a) :=
  .get (fun _ _ h => by rw [hR.outLen h, hR.outMem h]) fun _ => .bind (.ensure _ _) fun _ => .orStuck _ _

theorem Parallel.outAppend (b : Byte) : Parallel D R R (outAppend b) := by
  intro s t h
  have hroom : s.outLen < s.cfg.outCap ↔ t.outLen < t.cfg.outCap := by rw [hR.outLen h, hR.cfg h]
  by_cases hs : s.outLen < s.cfg.outCap
  · rw [outAppend_eq_ok (u := ()).2 ⟨hs, rfl⟩, outAppend_eq_ok (u := ()).2 ⟨hroom.1 hs, rfl⟩]
    exact .ok () (hR.push h b)
  · rw [outAppend_of_full hs, outAppend_of_full (hs ∘ hroom.2)]
    exact .fault _ s t

theorem Parallel.emit (b : Byte) : Parallel D R R (emit b) :=
  .get (fun _ _ h => by rw [hR.outLen h, hR.declLen h]) fun _ => .bind (.require hR.stops _ _) fun _ => .outAppend hR b

theorem Parallel.lzSource (d : Nat) : Parallel D R R (lzSource d) :=
  .get (fun _ _ h => by rw [hR.outLen h]) fun _ => .ite (.pure _) (.outByte hR _)

theorem Parallel.lzCopy (d l : Nat) : Parallel D R R (lzCopy d l) :=
  .bind (.ensure _ _) fun _ =>
    .get (fun _ _ h => by rw [hR.maxDistance h]) fun _ =>
    .bind (.require hR.stops _ _) fun _ => .repeatEng (.bind (.lzSource hR d) fun _ => .emit hR _) l

end Output

/-- The relation, and the same value in the register `CRC`. -/
def WithCrc (R : State → State → Prop) (s t : State) : Prop := R s t ∧ s.work.crc = t.work.crc

/-- The register `CRC` is written alike. -/
def WritesCrc (R : State → State → Prop) : Prop := ∀ {s t}, R s t → ∀ c, R (s.withCrc c) (t.withCrc c)

/-- A checksum (R172) begins by writing the register `CRC`, so the relation need not let it be read. -/
theorem Parallel.crc16 (hcfg : ∀ {s t}, R s t → s.cfg = t.cfg) (hc : WritesCrc R) {rd : Nat → Eng Byte}
    (hrd : ∀ a, Parallel D (WithCrc R) (WithCrc R) (rd a)) (a n : Nat) : Parallel D R R (crc16 rd a n) := by
  have hwrite {s t : State} {c c' : Word16} (h : R s t) (he : c = c') : WithCrc R (s.withCrc c) (t.withCrc c') :=
    ⟨he ▸ hc h c, he⟩
  have hbyte (b : Byte) : Parallel D (WithCrc R) (WithCrc R) (crcByte b) :=
    .modify fun ⟨h, he⟩ => hwrite h (by rw [hcfg h, he])
  have hloop : ∀ n a, Parallel D (WithCrc R) (WithCrc R) (crcLoop rd n a) := by
    intro n
    induction n with
    | zero => exact fun _ => .pure _
    | succ n ih => exact fun a => .bind (hrd a) fun b => .bind (hbyte b) fun _ => ih (a + 1)
  refine .bind (.modify fun h => hwrite h (by rw [hcfg h])) fun _ => .bind (hloop n a) fun _ => ?_
  exact .get (fun _ _ h => by rw [h.2]) fun _ => .mono (.pure _) id fun h => h.1

theorem SameInput.withCrc (hR : SameInput R) : SameInput (WithCrc R) :=
  ⟨fun h => hR.cfg h.1, fun h => hR.inLen h.1, fun h => hR.inRead h.1⟩

theorem SameOutput.withCrc (hR : SameOutput D R) : SameOutput D (WithCrc R) :=
  ⟨fun h => hR.stops h.1, fun h => hR.cfg h.1, fun h => hR.cmd h.1, fun h => hR.outLen h.1, fun h => hR.outMem h.1,
    fun h => hR.declLen h.1, fun h b => ⟨hR.push h.1 b, h.2⟩⟩

/-! ## The end of a command -/

/-- A command runs on, or has ended: an opcode that may end its command leaves one of the two (R223, R269). -/
def Going (D R : State → State → Prop) (s t : State) : Prop :=
  R s t ∨ D s t ∧ s.status ≠ .busy ∧ t.status ≠ .busy

/-- In states of the relation a command runs, and is completed alike. -/
structure Running (D R : State → State → Prop) : Prop where
  busy : ∀ {s t}, R s t → s.status = .busy ∧ t.status = .busy
  done : ∀ {s t}, R s t → D s.complete t.complete

theorem Parallel.completeCommand (hR : Running D R) : Parallel D R D completeCommand := .modify fun h => hR.done h

/-- A completion where the command might have run on. -/
theorem Parallel.complete_going (hP : Running D P) : Parallel D P (Going D R) Machine.completeCommand :=
  .modify fun h => .inr ⟨hP.done h, nofun, nofun⟩

/-- What is left to do only while the command runs. -/
theorem Parallel.whileBusy (hR : Running D R) {f : State → Eng Unit} (hf : ∀ s t, R s t → f s = f t)
    (h : ∀ s, Parallel D R Q (f s)) (hQ : ∀ {s t}, D s t → s.status ≠ .busy → t.status ≠ .busy → Q s t) :
    Parallel D (Going D R) Q (MonadState.get >>= fun s => if s.status = .busy then f s else Pure.pure ()) := by
  rintro s t (hst | ⟨hd, hs, ht⟩)
  · obtain ⟨hs, ht⟩ := hR.busy hst
    rw [Eng.get_bind, Eng.get_bind, if_pos hs, if_pos ht, hf s t hst]
    exact h t s t hst
  · rw [Eng.get_bind, Eng.get_bind, if_neg hs, if_neg ht]
    exact .ok _ (hQ hd hs ht)

end Sys2Proof.Machine
end

section
/-! SUPPORT. The decoders, run from two states in a relation (`Parallel`): for each decoder, the relations of its header
and its stream, by what they let it read alike, and its operations up to the whole command. -/

namespace Sys2Proof.Machine

open Sys2Proof

variable {D P Q R T : State → State → Prop}

/-! ## RNC -/

/-- A relation of states before the first tuple of a chunk (R184 to R187). -/
structure RncStream (D R : State → State → Prop) : Prop extends SameCursor D R, SameOutput D R, Running D R where
  packedLen : ∀ {s t}, R s t → s.work.packedLen = t.work.packedLen
  unpackedCrc : ∀ {s t}, R s t → s.work.unpackedCrc = t.work.unpackedCrc
  tables : ∀ {s t}, R s t → s.work.ht = t.work.ht
  setTable : ∀ tab leaves, Writes R fun w => { w with ht := w.ht.set tab leaves }
  writesCrc : WritesCrc R

/-- A relation of states in the tuples of a chunk (R188 to R190). -/
structure RncTuples (D T : State → State → Prop) : Prop extends RncStream D T where
  count : ∀ {s t}, T s t → s.work.chcnt = t.work.chcnt
  countDown : Writes T fun w => { w with chcnt := w.chcnt - 1#16 }
  setRun : ∀ n, Writes T fun w => { w with rncN := n }
  setDistance : ∀ d, Writes T fun w => { w with rncD := d }
  setLength : ∀ l, Writes T fun w => { w with rncL := l }

/-- The relations of an RNC command: `P` before its header, `Q` once the header fields are registers, `R` in the stream
and `T` in the tuples of a chunk. -/
structure RncStages (D P Q R T : State → State → Prop) : Prop where
  input : SameInput P
  stops : Stops D P
  declare : ∀ n p u c {s t}, P s t →
    Q { s with work := { s.work with declLen := n, packedLen := p, unpackedCrc := u, packedCrc := c } }
      { t with work := { t.work with declLen := n, packedLen := p, unpackedCrc := u, packedCrc := c } }
  declaredInput : SameInput Q
  declaredStops : Stops D Q
  declaredCrc : WritesCrc Q
  declaredPackedLen : ∀ {s t}, Q s t → s.work.packedLen = t.work.packedLen
  start : ∀ c {s t}, Q s t → R { s with work := { s.work with ht := ⟨[], [], []⟩, cur := c } }
    { t with work := { t.work with ht := ⟨[], [], []⟩, cur := c } }
  stream : RncStream D R
  chunk : ∀ k {s t}, R s t → T { s with work := { s.work with chcnt := k } } { t with work := { t.work with chcnt := k } }
  tuples : RncTuples D T
  chunkEnd : ∀ {s t}, T s t → R s t

theorem Parallel.readLengths (hR : SameCursor D R) : ∀ n, Parallel D R R (readLengths n)
  | 0 => .pure _
  | n + 1 => .bind (.readBits hR 4) fun _ => .bind (.readLengths hR n) fun _ => .pure _

theorem Parallel.huftab (hR : RncStream D R) (tab : TableId) : Parallel D R R (huftab tab) := by
  refine .bind (.readBits hR.toSameCursor 5) fun n => .ite (.pure _) ?_
  refine .bind (.readLengths hR.toSameCursor n) fun lens => ?_
  cases canonicalTable lens with
  | none => exact .raise hR.stops _
  | some leaves => exact .modifyWork (hR.setTable tab leaves)

theorem Parallel.scanLeaves (hR : SameCursor D R) : ∀ leaves, Parallel D R R (scanLeaves leaves)
  | [] => .raise hR.stops _
  | leaf :: rest => .bind (.peekBits hR leaf.len) fun _ =>
      .ite (.bind (.skipBits hR leaf.len) fun _ => .pure _) (.scanLeaves hR rest)

theorem Parallel.hufValue (hR : RncStream D R) (tab : TableId) : Parallel D R R (hufValue tab) :=
  have hsymbol : Parallel D R R (hufSymbol tab) :=
    .get (fun _ _ h => by rw [hR.tables h]) fun _ => .scanLeaves hR.toSameCursor _
  .bind hsymbol fun _ => .ite (.pure _) <| .bind (.require hR.stops _ _) fun _ =>
    .bind (.readBits hR.toSameCursor _) fun _ => .pure _

theorem Parallel.rncPrime (hR : SameCursor D R) : Parallel D R R rncPrime :=
  .bind (.prime hR) fun _ => .discard (.readBits hR 2)

theorem Parallel.rncChcnt (hR : SameCursor D R)
    (hc : ∀ k {s t}, R s t → T { s with work := { s.work with chcnt := k } } { t with work := { t.work with chcnt := k } }) :
    Parallel D R T rncChcnt :=
  .bind (.readBits hR 16) fun _ => .modify fun h => hc _ h

theorem Parallel.rncRaw (hT : RncTuples D T) : Parallel D T T rncRaw :=
  .bind (.hufValue hT.toRncStream _) fun n => .bind (.modifyWork (hT.setRun n)) fun _ =>
    .bind (.repeatEng (.bind (.readByte hT.toSameCursor) fun _ => .emit hT.toSameOutput _) n) fun _ =>
    .bind (.pure _) fun _ => .modifyWork hT.countDown

theorem Parallel.rncMatch (hT : RncTuples D T) : Parallel D T T rncMatch :=
  .bind (.hufValue hT.toRncStream _) fun _ => .bind (.modifyWork (hT.setDistance _)) fun _ =>
    .bind (.hufValue hT.toRncStream _) fun _ => .bind (.modifyWork (hT.setLength _)) fun _ => .lzCopy hT.toSameOutput _ _

theorem Parallel.rncTuples (hT : RncTuples D T) : ∀ n, Parallel D T T (rncTuples n)
  | 0 => .stuck _
  | n + 1 => .bind (.rncRaw hT) fun _ => .get (fun _ _ h => by rw [hT.count h]) fun _ =>
      .ite (.pure _) (.bind (.rncMatch hT) fun _ => .rncTuples hT n)

theorem Parallel.rncFinish (hR : RncStream D R) : Parallel D R D rncFinish :=
  .get (fun _ _ h => by rw [hR.outLen h, hR.declLen h, hR.unpackedCrc h]) fun _ =>
    .bind (.require hR.stops _ _) fun _ =>
    .bind (.crc16 hR.toSameInput.cfg hR.writesCrc (.outByte hR.toSameOutput.withCrc) _ _) fun _ =>
    .bind (.require hR.stops _ _) fun _ => .completeCommand hR.toRunning

section Rnc

variable (h : RncStages D P Q R T)
include h

theorem Parallel.rncHeader : Parallel D P Q rncHeader :=
  .get (fun _ _ hst => by rw [h.input.inLen hst, h.input.cfg hst]) fun _ =>
    .bind (.require h.stops _ _) fun _ =>
    .bind (.inMatches h.input _ _) fun _ => .bind (.require h.stops _ _) fun _ =>
    .bind (.inBe h.input _ _ _) fun _ => .bind (.inBe h.input _ _ _) fun _ =>
    .bind (.inBe h.input _ _ _) fun _ => .bind (.inBe h.input _ _ _) fun _ =>
    .bind (.modify fun hst => h.declare _ _ _ _ hst) fun _ => .bind (.require h.declaredStops _ _) fun _ =>
    .bind (.require h.declaredStops _ _) fun _ =>
    .bind (.crc16 h.declaredInput.cfg h.declaredCrc (.inByte h.declaredInput.withCrc) _ _) fun _ =>
    .require h.declaredStops _ _

theorem Parallel.rncStart : Parallel D Q R rncStart := by
  intro s t hst
  have start {c c' : Cursor} (he : c = c') : R { s with work := { s.work with ht := ⟨[], [], []⟩, cur := c } }
      { t with work := { t.work with ht := ⟨[], [], []⟩, cur := c' } } := he ▸ h.start c hst
  exact .ok () (start (by rw [h.declaredPackedLen hst]))

theorem Parallel.rncChunks (b : Nat) : ∀ n, Parallel D R R (rncChunks b n)
  | 0 => .stuck _
  | n + 1 =>
    have htab := Parallel.huftab h.stream
    have hchunk : Parallel D R R (rncChunk b) :=
      .bind (htab _) fun _ => .bind (htab _) fun _ => .bind (htab _) fun _ =>
        .bind (.rncChcnt h.stream.toSameCursor h.chunk) fun _ => .mono (.rncTuples h.tuples b) id h.chunkEnd
    .get (fun _ _ hst => by rw [h.stream.outLen hst, h.stream.declLen hst]) fun _ =>
      .ite (.bind hchunk fun _ => .rncChunks b n) (.pure _)

theorem Parallel.rncDecode : Parallel D P D rncDecode :=
  .bind (.rncHeader h) fun _ => .bind (.rncStart h) fun _ => .bind (.rncPrime h.stream.toSameCursor) fun _ =>
    .get (fun _ _ hst => by rw [h.stream.packedLen hst]) fun _ =>
    .bind (.rncChunks h _ _) fun _ => .rncFinish h.stream

end Rnc

/-! ## CWC -/

/-- A relation of states in the stream of CWC (R223). -/
structure CwcStream (D R : State → State → Prop) : Prop extends SameCursor D R, SameOutput D R, Running D R where
  payLen : ∀ {s t}, R s t → s.work.payLen = t.work.payLen
  bits : ∀ {s t}, R s t → s.work.cwcBits = t.work.cwcBits
  setField : ∀ v, Writes R fun w => { w with cwcW := v }
  latch : ∀ len pos, Writes R fun w => { w with cwcL := len, cwcP := pos }
  setByte : ∀ b, Writes R fun w => { w with cwcB := b }
  setCount : ∀ c, Writes R fun w => { w with cwcC := c }
  setDistance : ∀ d, Writes R fun w => { w with cwcD := d }

/-- The relations of a CWC command: `P` before its header, `Q` once the header fields are registers, `R` in the stream. -/
structure CwcStages (D P Q R : State → State → Prop) : Prop where
  input : SameInput P
  stops : Stops D P
  declare : ∀ b n p {s t}, P s t → Q { s with work := { s.work with cwcBits := b, declLen := n, payLen := p } }
    { t with work := { t.work with cwcBits := b, declLen := n, payLen := p } }
  declaredCfg : ∀ {s t}, Q s t → s.cfg = t.cfg
  declaredStops : Stops D Q
  declaredPayLen : ∀ {s t}, Q s t → s.work.payLen = t.work.payLen
  start : ∀ c {s t}, Q s t → R (s.withCur c) (t.withCur c)
  stream : CwcStream D R

section Stream

variable (hR : CwcStream D R)
include hR

theorem Parallel.cwcFetch : Parallel D R R cwcFetch := by
  have hl len pos : Parallel D R R (cursorReader.latch len pos) := .modifyWork (hR.latch len pos)
  have hb : Parallel D R R cursorReader.bit := .readBit hR.toSameCursor
  refine .get (fun _ _ h => by rw [State.cwcCtx, State.cwcCtx, hR.bits h, hR.toSameInput.cfg h]) fun _ => ?_
  refine .bind hb fun _ => .ite (.pure _) <| .bind hb fun _ => .ite ?short <| .bind hb fun _ => .ite ?med ?long
  case short =>
    exact .bind (.readBits hR.toSameCursor _) fun _ => .bind (.readByte hR.toSameCursor) fun _ =>
      .bind (hl _ _) fun _ => .pure _
  case med =>
    exact .bind (.bind (.readU16 hR.toSameCursor) fun _ => .bind (.modifyWork (hR.setField _)) fun _ => .pure _) fun _ =>
      .bind (hl _ _) fun _ => .pure _
  case long =>
    exact .bind (.bind (.readU24 hR.toSameCursor) fun _ => .bind (.modifyWork (hR.setField _)) fun _ => .pure _) fun _ =>
      .bind (hl _ _) fun _ => .pure _

theorem Parallel.cwcLiteral : Parallel D R R cwcLiteral :=
  .bind (.readByte hR.toSameCursor) fun _ => .bind (.modifyWork (hR.setByte _)) fun _ => .emit hR.toSameOutput _

theorem Parallel.cwcRun (len : Nat) : Parallel D R R (cwcRun len) :=
  .bind (.readByte hR.toSameCursor) fun _ => .bind (.modifyWork (hR.setByte _)) fun _ =>
    .repeatEng (.emit hR.toSameOutput _) _

theorem Parallel.cwcCopy (len pos : Nat) : Parallel D R R (cwcCopy len pos) :=
  .bind (.ensure _ _) fun _ => .bind (.modifyWork (hR.setDistance _)) fun _ => .lzCopy hR.toSameOutput _ _

theorem Parallel.cwcLitstr : Parallel D R R cwcLitstr :=
  .bind (.readByte hR.toSameCursor) fun _ => .bind (.modifyWork (hR.setCount _)) fun _ => .repeatEng (.cwcLiteral hR) _

theorem Parallel.cwcTerm : Parallel D R (Going D R) cwcTerm :=
  .get (fun _ _ h => by rw [hR.outLen h, hR.declLen h]) fun _ => .bind (.require hR.stops _ _) fun _ =>
    .complete_going hR.toRunning

theorem Parallel.cwcOpMeaning (op : CwcOp) : Parallel D R (Going D R) (cwcOpMeaning op) := by
  have goes {x : Eng Unit} (hx : Parallel D R R x) : Parallel D R (Going D R) x := hx.mono id .inl
  cases op with
  | lit => exact goes (.cwcLiteral hR)
  | shortRun len => exact goes (.cwcRun hR len)
  | shortCopy len pos => exact goes (.cwcCopy hR len pos)
  | medRun len => exact goes (.cwcRun hR len)
  | medCopy len pos => exact goes (.cwcCopy hR len pos)
  | longCopy len pos => exact goes (.cwcCopy hR len pos)
  | longTerm => exact .cwcTerm hR
  | longNopSrc => exact goes (.pure _)
  | longNopDst => exact goes (.pure _)
  | longLitstr => exact goes (.cwcLitstr hR)
  | longRun len => exact goes (.cwcRun hR len)

theorem Parallel.cwcTest : Parallel D R (Going D R) cwcTest :=
  .get (fun _ _ h => by rw [hR.outLen h, hR.declLen h]) fun _ =>
    .ite (.complete_going hR.toRunning) (.mono (.pure _) id .inl)

theorem Parallel.cwcStep : Parallel D R (Going D R) cwcStep :=
  .bind (.cwcFetch hR) fun op => .bind (.cwcOpMeaning hR op) fun _ =>
    .whileBusy hR.toRunning (fun _ _ _ => rfl) (fun _ => .cwcTest hR) fun hd hs ht => .inr ⟨hd, hs, ht⟩

theorem Parallel.cwcLoop : ∀ n, Parallel D R D (cwcLoop n)
  | 0 => .stuck _
  | n + 1 => by
    rw [cwcLoop_succ]
    exact .bind (.cwcStep hR) fun _ =>
      .whileBusy hR.toRunning (fun _ _ _ => rfl) (fun _ => .cwcLoop n) fun hd _ _ => hd

end Stream

section Cwc

variable (h : CwcStages D P Q R)
include h

theorem Parallel.cwcHeader : Parallel D P Q cwcHeader :=
  .get (fun _ _ hst => by rw [h.input.inLen hst, h.input.cfg hst]) fun _ =>
    .bind (.require h.stops _ _) fun _ =>
    .bind (.inMatches h.input _ _) fun _ => .bind (.require h.stops _ _) fun _ =>
    .bind (.inByte h.input _) fun _ => .bind (.inLe h.input _ _) fun _ => .bind (.inLe h.input _ _) fun _ =>
    .bind (.modify fun hst => h.declare _ _ _ hst) fun _ => .bind (.require h.declaredStops _ _) fun _ =>
    .bind (.require h.declaredStops _ _) fun _ => .require h.declaredStops _ _

theorem Parallel.cwcStart : Parallel D Q R cwcStart :=
  .get (fun _ _ hst => by rw [h.declaredPayLen hst, h.declaredCfg hst]) fun _ =>
    .bind (.modify fun hst => h.start _ hst) fun _ => .prime h.stream.toSameCursor

theorem Parallel.cwcDecode : Parallel D P D cwcDecode :=
  .bind (.cwcHeader h) fun _ => .bind (.cwcStart h) fun _ =>
    .get (fun _ _ hst => by rw [h.stream.payLen hst]) fun _ => .cwcLoop h.stream _

end Cwc

/-! ## The chunk -/

/-- A relation of states in the symbols of a chunk (R270, R271). -/
structure ChunkStream (D R : State → State → Prop) : Prop extends SameInput R, SameOutput D R, Running D R where
  hvalid : ∀ {s t}, R s t → s.hvalid = t.hvalid
  hroot : ∀ {s t}, R s t → s.hroot = t.hroot
  nodeAt : ∀ {s t}, R s t → ∀ i < 255, s.nodeAt i = t.nodeAt i
  hbyte : ∀ {s t}, R s t → s.work.hbyte = t.work.hbyte
  hbit : ∀ {s t}, R s t → s.work.hbit = t.work.hbit
  hnode : ∀ {s t}, R s t → s.work.hnode = t.work.hnode
  advance : Writes R fun w => { w with hbit := w.hbit + 1, hbyte := if w.hbit = 7 then w.hbyte + 1 else w.hbyte }
  stand : ∀ n, Writes R fun w => { w with hnode := n }

/-- The relations of a chunk: `P` before its header, `Q` once the count is a register, `R` in the symbols. -/
structure ChunkStages (D P Q R : State → State → Prop) : Prop where
  input : SameInput P
  stops : Stops D P
  hvalid : ∀ {s t}, P s t → s.hvalid = t.hvalid
  declare : ∀ n {s t}, P s t → Q (s.declaring n) (t.declaring n)
  declaredStops : Stops D Q
  declaredRunning : Running D Q
  declaredRoot : ∀ {s t}, Q s t → s.hroot = t.hroot
  start : ∀ n {s t}, Q s t → R { s with work := { s.work with hbyte := 4, hbit := 0, hnode := n } }
    { t with work := { t.work with hbyte := 4, hbit := 0, hnode := n } }
  stream : ChunkStream D R

/-- A record index is read where its bytes have been written (R24, R48). -/
theorem nodeRead_of_lt {i : Nat} (h : i < 255) (s : State) :
    nodeRead i s = (Machine.orStuck (s.nodeAt i) .unwrittenByte : Eng NodeRec) s := by
  rw [nodeRead, Eng.get_bind, ensure_bind_pos h, State.nodeAt]
  cases s.nodeMem.read (4 * i) <;> [rfl; skip]
  cases s.nodeMem.read (4 * i + 1) <;> [rfl; skip]
  cases s.nodeMem.read (4 * i + 2) <;> [rfl; skip]
  cases s.nodeMem.read (4 * i + 3) <;> rfl

theorem nodeRead_of_ge {i : Nat} (h : ¬ i < 255) (s : State) : nodeRead i s = .error (.fault .noSuchAddress) s := by
  rw [nodeRead, Eng.get_bind]
  exact Eng.bind_error (by rw [ensure_apply, if_neg h])

theorem Parallel.nodeRead {i : Nat} (hn : ∀ {s t}, R s t → i < 255 → s.nodeAt i = t.nodeAt i) :
    Parallel D R R (nodeRead i) := by
  intro s t h
  by_cases hi : i < 255
  · rw [nodeRead_of_lt hi, nodeRead_of_lt hi, hn h hi]
    exact Parallel.orStuck _ _ s t h
  · rw [nodeRead_of_ge hi, nodeRead_of_ge hi]
    exact .fault _ s t

section Symbols

variable (hR : ChunkStream D R)
include hR

theorem Parallel.nextBit : Parallel D R R nextBit :=
  .get (fun _ _ h => by rw [hR.hbyte h, hR.hbit h, hR.inLen h]) fun _ =>
    .bind (.require hR.stops _ _) fun _ => .bind (.inByte hR.toSameInput _) fun _ =>
    .bind (.modifyWork hR.advance) fun _ => .pure _

theorem Parallel.dictRead (i : Nat) : Parallel D R R (dictRead i) :=
  .get (fun _ _ h => by rw [hR.hvalid h]) fun _ => .bind (.ensure _ _) fun _ => .nodeRead fun h => hR.nodeAt h i

theorem Parallel.hufEdge : Parallel D R R hufEdge := by
  have stand {s t : State} {m n : Byte} (h : R s t) (he : m = n) :
      R { s with work := { s.work with hnode := m } } { t with work := { t.work with hnode := n } } := he ▸ hR.stand m _ _ h
  refine .bind (.nextBit hR) fun b => .get (fun _ _ h => by rw [hR.hnode h]) fun _ => .bind (.dictRead hR _) fun r => ?_
  refine .ite (.bind (.emit hR.toSameOutput _) fun _ => .bind (.modify fun h => stand h (hR.hroot h)) fun _ => .pure _) ?_
  exact .bind (.modifyWork (hR.stand _)) fun _ => .pure _

theorem Parallel.hufPath : ∀ n, Parallel D R R (hufPath n)
  | 0 => .stuck _
  | n + 1 => .bind (.hufEdge hR) fun _ => .ite (.pure _) (.hufPath n)

theorem Parallel.hufSym : Parallel D R R hufSym := .get (fun _ _ h => by rw [hR.inLen h]) fun _ => .hufPath hR _

theorem Parallel.hufSymbols : ∀ n, Parallel D R D (hufSymbols n)
  | 0 => .stuck _
  | n + 1 => .get (fun _ _ h => by rw [hR.outLen h, hR.declLen h]) fun _ =>
      .ite (.bind (.hufSym hR) fun _ => .hufSymbols n) (.completeCommand hR.toRunning)

end Symbols

section Chunk

variable (h : ChunkStages D P Q R)
include h

theorem Parallel.hufStart : Parallel D P (Going D R) hufStart := by
  have start {s t : State} {m n : Byte} (hst : Q s t) (he : m = n) :
      Going D R { s with work := { s.work with hbyte := 4, hbit := 0, hnode := m } }
        { t with work := { t.work with hbyte := 4, hbit := 0, hnode := n } } := .inl (he ▸ h.start m hst)
  exact .get (fun _ _ hst => by rw [h.input.inLen hst, h.input.cfg hst, h.hvalid hst]) fun _ =>
    .bind (.require h.stops _ _) fun _ => .bind (.require h.stops _ _) fun _ => .bind (.inLe h.input _ _) fun n =>
    .bind (.modify fun hst => h.declare n hst) fun _ =>
    .ite (.complete_going h.declaredRunning)
      (.bind (.require h.declaredStops _ _) fun _ => .bind (.require h.declaredStops _ _) fun _ =>
        .modify fun hst => start hst (h.declaredRoot hst))

theorem Parallel.hufChunk : Parallel D P D hufChunk :=
  .bind (.hufStart h) fun _ => .whileBusy h.stream.toRunning (fun _ _ hst => by rw [h.stream.inLen hst])
    (fun _ => .hufSymbols h.stream _) fun hd _ _ => hd

end Chunk

end Sys2Proof.Machine
end

section
/-! SUPPORT. `HUF_LOAD`, run from two states in a relation (`Parallel`). The copy relates the records below its place, so
its relation depends on the place; the walk reads a record only where it is present (R262, R263). -/

namespace Sys2Proof.Machine

open Sys2Proof

variable {D P W : State → State → Prop} {C : Nat → State → State → Prop}

/-- The state with record `i` of `NODE` written and marked present (R262). -/
def State.withRecord (s : State) (i : Nat) (r : NodeRec) : State :=
  s.withNodes (s.nodeMem.writeList (4 * i) [r.lv, r.lt, r.rv, r.rt]) (setPresent s.nodePresent i true)

/-- The state with record `i` of `NODE` marked absent (R262). -/
def State.withoutRecord (s : State) (i : Nat) : State := s.withNodes s.nodeMem (setPresent s.nodePresent i false)

/-- A relation of states in the walk of a candidate (R263). -/
structure SameWalk (W : State → State → Prop) : Prop where
  present : ∀ {s t}, W s t → s.nodePresent = t.nodePresent
  nodeAt : ∀ {s t}, W s t → ∀ i, s.nodePresent.getLsbD i = true → s.nodeAt i = t.nodeAt i
  visited : ∀ {s t}, W s t → s.work.visited = t.work.visited
  leaves : ∀ {s t}, W s t → s.work.leaves = t.work.leaves
  enter : ∀ i {s t}, W s t → W (s.entered i) (t.entered i)
  collect : ∀ v, Writes W fun w => { w with leaves := w.leaves ||| BitVec.twoPow 256 v }

/-- The relations of a load: `P` when it starts, `C i` with the records below `i` copied, `W` in the walk of a
candidate; between candidates all records have been copied. -/
structure LoadStages (D P : State → State → Prop) (C : Nat → State → State → Prop) (W : State → State → Prop) : Prop where
  start : ∀ {s t}, P s t → C 0 { s with hvalid := false } { t with hvalid := false }
  input : ∀ i, SameInput (C i)
  write : ∀ {i}, i < 255 → ∀ r {s t}, C i s t → C (i + 1) (s.withRecord i r) (t.withRecord i r)
  absent : ∀ {i}, i < 255 → ∀ {s t}, C i s t → C (i + 1) (s.withoutRecord i) (t.withoutRecord i)
  stops : Stops D (C 255)
  candidate : ∀ r {s t}, C 255 s t → W (s.searching r) (t.searching r)
  walk : SameWalk W
  searched : ∀ {s t}, W s t → C 255 s t
  found : ∀ r {s t}, C 255 s t →
    D (State.complete { s with hroot := r, hvalid := true }) (State.complete { t with hroot := r, hvalid := true })

/-! ## The walk -/

/-- The relation, and record `i` is present. -/
def WithRecord (W : State → State → Prop) (i : Nat) (s t : State) : Prop := W s t ∧ s.nodePresent.getLsbD i = true

section Walk

variable (hW : SameWalk W)
include hW

/-- The walk of a half, if that of a record is known. -/
theorem Parallel.walkHalf {depth : Nat} (ih : ∀ i, Parallel D W W (walk depth i)) (v f : Byte) :
    Parallel D W W (walkHalf depth v f) :=
  .ite (.bind (.modifyWork (hW.collect v.toNat)) fun _ => .pure _) (.ite (ih _) (.pure _))

/-- The entry of a record that is present, and the walk of its halves. -/
theorem Parallel.enterRecord {depth : Nat} (ih : ∀ i, Parallel D W W (Machine.walk depth i)) (i : Nat) :
    Parallel D (WithRecord W i) W (do
      addVisited i
      let r ← Machine.nodeRead i
      let left ← Machine.walkHalf depth r.lv r.lt
      if left then Machine.walkHalf depth r.rv r.rt else Pure.pure false) :=
  have half := Parallel.walkHalf hW ih
  have hread : Parallel D (WithRecord W i) (WithRecord W i) (Machine.nodeRead i) :=
    .nodeRead fun h _ => hW.nodeAt h.1 i h.2
  .bind (.modify fun h => ⟨hW.enter i h.1, h.2⟩) fun _ => .bind hread fun r =>
    .bind (.mono (half r.lv r.lt) (fun h => h.1) id) fun _ => .ite (half r.rv r.rt) (.pure _)

theorem Parallel.walk : ∀ depth i, Parallel D W W (walk depth i)
  | 0, _ => .pure _
  | depth + 1, i => by
    intro s t h
    rw [walk_succ, Eng.get_bind, Eng.get_bind, ← hW.present h, ← hW.visited h]
    by_cases hthere : 254 < i ∨ s.nodePresent.getLsbD i = false
    · rw [if_pos hthere]
      exact .ok _ h
    · rw [if_neg hthere]
      have hp : s.nodePresent.getLsbD i = true := Bool.eq_true_of_not_eq_false fun hp => hthere (.inr hp)
      exact Parallel.ite (.mono (.pure _) (fun h => h.1) id) (.enterRecord hW (Parallel.walk depth) i) s t ⟨h, hp⟩

end Walk

/-! ## The command -/

section Load

variable (h : LoadStages D P C W)
include h

theorem Parallel.inNode (i j : Nat) : Parallel D (C i) (C i) (inNode j) :=
  have hin := Parallel.inByte (D := D) (h.input i)
  .get (fun _ _ hst => by rw [(h.input i).cfg hst]) fun _ => .bind (hin _) fun _ => .bind (hin _) fun _ =>
    .bind (hin _) fun _ => .bind (hin _) fun _ => .pure _

theorem Parallel.hufCopy (nn : Nat) : ∀ {n i : Nat}, i + n = 255 → Parallel D (C i) (C 255) (hufCopy nn n i)
  | 0, i, hi => by
    obtain rfl : i = 255 := hi
    exact .pure _
  | n + 1, i, hi => by
    rw [hufCopy_succ]
    have hlt : i < 255 := by omega
    exact .bind (.ite (.bind (.inNode h i i) fun r => .modify fun hst => h.write hlt r hst)
      (.modify fun hst => h.absent hlt hst)) fun _ => .hufCopy nn (n := n) (by omega)

theorem Parallel.candidateValid (r : Nat) : Parallel D (C 255) (C 255) (candidateValid r) :=
  .bind (.modify fun hst => h.candidate r hst) fun _ => .bind (.walk h.walk _ _) fun _ =>
    .get (fun _ _ hst => by rw [h.walk.leaves hst]) fun _ => .mono (.pure _) id h.searched

theorem Parallel.hufSearch : ∀ rs, Parallel D (C 255) D (hufSearch rs)
  | [] => .raise h.stops _
  | r :: rs => .bind (.candidateValid h r) fun _ =>
      .ite (.modify (f := fun s => State.complete { s with hroot := BitVec.ofNat 8 r, hvalid := true })
        fun hst => h.found _ hst) (.hufSearch rs)

theorem Parallel.hufLoad : Parallel D P D hufLoad :=
  .bind (.modify fun hst => h.start hst) fun _ =>
    .get (fun _ _ hst => by rw [State.nodeCount, State.nodeCount, (h.input 0).inLen hst]) fun _ =>
    .bind (.hufCopy h _ rfl) fun _ => .hufSearch h candidates

end Load

end Sys2Proof.Machine
end

section
/-! SUPPORT. A command opcode by opcode against the same command whole (R294, R295): up to its end the two runs differ in
the MODEL register `phase` alone, which no operation reads and which the end of a command overwrites. -/

namespace Sys2Proof.Machine

open Sys2Proof

variable {α : Type} {p : Phase} {s m : State} {o w : Host.Outcome State Fault Refusal}

/-! ## The two runs -/

/-- `m` is the running state `s` at the place `p`, with no host action to come. -/
structure Placed (p : Phase) (s m : State) : Prop where
  busy : s.status = .busy
  pending : s.pending = []
  place : m = { s with phase := p }

/-- What keeps `STATUS` and the host's actions, and commutes with the place, keeps the relation. -/
theorem Placed.map {s' m' : State} (h : Placed p s m) (hb : s'.status = s.status) (hp : s'.pending = s.pending)
    (hm : m = { s with phase := p } → m' = { s' with phase := p }) : Placed p s' m' :=
  ⟨hb.trans h.busy, hp.trans h.pending, hm h.place⟩

theorem Placed.at (h : Placed p s m) (q : Phase) : Placed q s { m with phase := q } :=
  h.place ▸ ⟨h.busy, h.pending, rfl⟩

theorem Placed.stops (p : Phase) : Stops Eq (Placed p) := fun h _ => h.place ▸ rfl

theorem Placed.running (p : Phase) : Running Eq (Placed p) :=
  ⟨fun h => ⟨h.busy, h.place ▸ h.busy⟩, fun h => h.place ▸ rfl⟩

theorem Placed.sameInput (p : Phase) : SameInput (Placed p) :=
  ⟨fun h => h.place ▸ rfl, fun h => h.place ▸ rfl, fun h _ _ => h.place ▸ rfl⟩

theorem Placed.work (h : Placed p s m) : s.work = m.work := h.place ▸ rfl

theorem Placed.setWork (h : Placed p s m) {v w : Work} (he : v = w) : Placed p { s with work := v } { m with work := w } :=
  h.map rfl rfl fun hm => by rw [hm, he]

theorem Placed.writes (p : Phase) (f : Work → Work) : Writes (Placed p) f := fun _ _ h => h.setWork (by rw [h.work])

theorem Placed.sameCursor (p : Phase) : SameCursor Eq (Placed p) :=
  ⟨Placed.sameInput p, Placed.stops p, fun h => h.place ▸ rfl, fun h _ => h.map rfl rfl fun hm => hm ▸ rfl⟩

theorem Placed.sameOutput (p : Phase) : SameOutput Eq (Placed p) :=
  ⟨Placed.stops p, (Placed.sameInput p).cfg, fun h => h.place ▸ rfl, fun h => h.place ▸ rfl, fun h => h.place ▸ rfl,
    fun h => congrArg Work.declLen h.work, fun h _ => h.map rfl rfl fun hm => hm ▸ rfl⟩

theorem Placed.rncStream (p : Phase) : RncStream Eq (Placed p) :=
  { Placed.sameCursor p, Placed.sameOutput p, Placed.running p with
    packedLen := fun h => congrArg Work.packedLen h.work
    unpackedCrc := fun h => congrArg Work.unpackedCrc h.work
    tables := fun h => congrArg Work.ht h.work
    setTable := fun _ _ => Placed.writes p _
    writesCrc := fun h _ => h.setWork (by rw [h.work]) }

theorem Placed.rncTuples (p : Phase) : RncTuples Eq (Placed p) where
  toRncStream := Placed.rncStream p
  count h := congrArg Work.chcnt h.work
  countDown := Placed.writes p _
  setRun _ := Placed.writes p _
  setDistance _ := Placed.writes p _
  setLength _ := Placed.writes p _

theorem Placed.rncStages (p : Phase) : RncStages Eq (Placed p) (Placed p) (Placed p) (Placed p) where
  input := Placed.sameInput p
  stops := Placed.stops p
  declare _ _ _ _ _ _ h := h.setWork (by rw [h.work])
  declaredInput := Placed.sameInput p
  declaredStops := Placed.stops p
  declaredCrc h _ := h.setWork (by rw [h.work])
  declaredPackedLen := (Placed.rncStream p).packedLen
  start _ _ _ h := h.setWork (by rw [h.work])
  stream := Placed.rncStream p
  chunk _ _ _ h := h.setWork (by rw [h.work])
  tuples := Placed.rncTuples p
  chunkEnd := id

theorem Placed.cwcStream (p : Phase) : CwcStream Eq (Placed p) :=
  { Placed.sameCursor p, Placed.sameOutput p, Placed.running p with
    payLen := fun h => congrArg Work.payLen h.work
    bits := fun h => congrArg Work.cwcBits h.work
    setField := fun _ => Placed.writes p _
    latch := fun _ _ => Placed.writes p _
    setByte := fun _ => Placed.writes p _
    setCount := fun _ => Placed.writes p _
    setDistance := fun _ => Placed.writes p _ }

theorem Placed.cwcStages (p : Phase) : CwcStages Eq (Placed p) (Placed p) (Placed p) where
  input := Placed.sameInput p
  stops := Placed.stops p
  declare _ _ _ _ _ h := h.setWork (by rw [h.work])
  declaredCfg := (Placed.sameInput p).cfg
  declaredStops := Placed.stops p
  declaredPayLen := (Placed.cwcStream p).payLen
  start c _ _ h := (Placed.sameCursor p).withCur h c
  stream := Placed.cwcStream p

theorem Placed.chunkStream (p : Phase) : ChunkStream Eq (Placed p) :=
  { Placed.sameInput p, Placed.sameOutput p, Placed.running p with
    hvalid := fun h => h.place ▸ rfl
    hroot := fun h => h.place ▸ rfl
    nodeAt := fun h _ _ => h.place ▸ rfl
    hbyte := fun h => congrArg Work.hbyte h.work
    hbit := fun h => congrArg Work.hbit h.work
    hnode := fun h => congrArg Work.hnode h.work
    advance := Placed.writes p _
    stand := fun _ => Placed.writes p _ }

theorem Placed.chunkStages (p : Phase) : ChunkStages Eq (Placed p) (Placed p) (Placed p) where
  input := Placed.sameInput p
  stops := Placed.stops p
  hvalid := (Placed.chunkStream p).hvalid
  declare _ _ _ h := h.setWork (by rw [h.work])
  declaredStops := Placed.stops p
  declaredRunning := Placed.running p
  declaredRoot := (Placed.chunkStream p).hroot
  start _ _ _ h := h.setWork (by rw [h.work])
  stream := Placed.chunkStream p

theorem Placed.loadStages (p : Phase) : LoadStages Eq (Placed p) (fun _ => Placed p) (Placed p) where
  start h := h.map rfl rfl fun hm => hm ▸ rfl
  input _ := Placed.sameInput p
  write _ _ _ _ h := h.map rfl rfl fun hm => hm ▸ rfl
  absent _ _ _ h := h.map rfl rfl fun hm => hm ▸ rfl
  stops := Placed.stops p
  candidate _ _ _ h := h.setWork (by rw [h.work])
  walk := {
    present := fun h => h.place ▸ rfl
    nodeAt := fun h _ _ => h.place ▸ rfl
    visited := fun h => congrArg Work.visited h.work
    leaves := fun h => congrArg Work.leaves h.work
    enter := fun _ _ _ h => h.setWork (by rw [h.work])
    collect := fun _ => Placed.writes p _ }
  searched := id
  found _ _ _ h := h.place ▸ rfl

/-! ## Steps -/

/-- From the outcome `o` of a step, further steps end in the state that `w` answers, if it answers one. -/
def Leads (o w : Host.Outcome State Fault Refusal) : Prop :=
  ∀ t, w = .next t → ∃ u k, o = .next u ∧ Host.Core.run Sys2Proof.core k u = .next t

theorem Leads.fault (f : Fault) : Leads o (.fault f) := fun _ h => nomatch h

/-- Nothing is left to do where both runs have the same outcome. -/
theorem Leads.same : Leads o o := fun t h => ⟨t, 0, h, rfl⟩

/-- A run that begins with a step. -/
theorem run_succ_of_step {u : State} (h : step m = .next u) (k : Nat) :
    Host.Core.run Sys2Proof.core (k + 1) m = Host.Core.run Sys2Proof.core k u := by
  have hcore : Sys2Proof.core.step m = .next u := h
  simp only [Host.Core.run, hcore]

/-- One step more. -/
theorem Leads.next (h : Leads (step m) w) : Leads (.next m) w := by
  intro t ht
  obtain ⟨u, k, hstep, hrun⟩ := h t ht
  exact ⟨m, k + 1, rfl, (run_succ_of_step hstep k).trans hrun⟩

/-- In a stream the next step is that of its place. -/
theorem Leads.stay {slot : Slot} (h : Placed (.stream slot) s m) (hl : Leads (runMeaning (streamStep slot) m) w) :
    Leads (.next m) w := by
  have hb := ((Placed.running _).busy h).2
  have hp : m.pending = [] := h.place ▸ h.pending
  have hph : m.phase = .stream slot := h.place ▸ rfl
  refine Leads.next ?_
  rwa [step_stream hb hp hph, opcodeStep_eq_streamStep hb]

/-- Where a step goes on at a place, the next step is that of the place. -/
theorem Leads.setPhase {slot : Slot} (h : Placed p s m)
    (hl : ∀ {n}, Placed (.stream slot) s n → Leads (runMeaning (streamStep slot) n) w) :
    Leads (runMeaning (setPhase (.stream slot)) m) w := Leads.stay (h.at _) (hl (h.at _))

/-- Two runs of one sequence that ends the command. -/
theorem Leads.of_parallel {x : Eng Unit} (hx : Parallel Eq (Placed p) Eq x) (h : Placed p s m) :
    Leads (runMeaning x m) (runMeaning x s) := by
  have hr := hx s m h
  unfold runMeaning
  generalize x s = r at hr
  generalize x m = r' at hr
  cases hr with
  | ok a he => exact he ▸ Leads.same
  | raise k he =>
    simp only [outcomeOf, he]
    exact Leads.same
  | fault f s m => exact Leads.fault f

/-- Two sequences that begin with the same operations, by what these answer in the whole command. -/
theorem Leads.bind_of_ok {x : Eng α} {f g : α → Eng Unit} {Q : State → State → Prop} (hx : Parallel Eq (Placed p) Q x)
    (h : Placed p s m)
    (hfg : ∀ a {v n}, x s = .ok a v → Q v n → Leads (runMeaning (f a) n) (runMeaning (g a) v)) :
    Leads (runMeaning (x >>= f) m) (runMeaning (x >>= g) s) := by
  have hr := hx s m h
  unfold runMeaning at hfg ⊢
  rw [Eng.bind_apply, Eng.bind_apply]
  generalize x s = r at hr hfg
  generalize x m = r' at hr
  cases hr with
  | ok a hq => exact hfg a rfl hq
  | raise k he =>
    simp only [outcomeOf, he]
    exact Leads.same
  | fault f s m => exact Leads.fault f

theorem Leads.bind {x : Eng α} {f g : α → Eng Unit} {Q : State → State → Prop} (hx : Parallel Eq (Placed p) Q x)
    (h : Placed p s m) (hfg : ∀ a {v n}, Q v n → Leads (runMeaning (f a) n) (runMeaning (g a) v)) :
    Leads (runMeaning (x >>= f) m) (runMeaning (x >>= g) s) := Leads.bind_of_ok hx h fun a _ _ _ => hfg a

/-! ## RNC -/

section Rnc

variable {rest : Eng Unit}

/-- The tuples of a chunk, if what follows them follows the test between chunks (R188 to R190). -/
theorem leads_rncTuples (hrest : ∀ {p v n}, Placed p v n → Leads (runMeaning rncChunkTest n) (runMeaning rest v)) :
    ∀ n {s m}, Placed (.stream .rncRaw) s m →
      Leads (runMeaning (streamStep .rncRaw) m) (runMeaning (rncTuples n >>= fun _ => rest) s)
  | 0, _, _, _ => Leads.fault _
  | n + 1, s, m, h => by
    rw [rncTuples, bind_assoc, streamStep]
    refine Leads.bind (.rncRaw (Placed.rncTuples _)) h fun _ v u hv => ?_
    unfold runMeaning
    rw [bind_assoc, Eng.get_bind, Eng.get_bind, (Placed.rncTuples _).count hv]
    by_cases h0 : u.work.chcnt = 0#16
    · rw [if_pos h0, if_pos h0, pure_bind]
      exact hrest hv
    · rw [if_neg h0, if_neg h0, bind_assoc]
      exact Leads.setPhase hv fun hv => Leads.bind (.rncMatch (Placed.rncTuples _)) hv fun _ _ _ hv =>
        Leads.setPhase hv fun hv => leads_rncTuples hrest n hv

/-- A chunk, if what follows it follows the test between chunks (R187). -/
theorem leads_rncChunk (b : Nat)
    (hrest : ∀ {p v n}, Placed p v n → Leads (runMeaning rncChunkTest n) (runMeaning rest v))
    (h : Placed (.stream (.rncTab .raw)) s m) :
    Leads (runMeaning (streamStep (.rncTab .raw)) m) (runMeaning (rncChunk b >>= fun _ => rest) s) := by
  have hs p := Placed.rncStages p
  simp only [rncChunk, bind_assoc]
  exact Leads.bind (.huftab (hs _).stream .raw) h fun _ _ _ h => Leads.setPhase h fun h =>
    Leads.bind (.huftab (hs _).stream .dist) h fun _ _ _ h => Leads.setPhase h fun h =>
    Leads.bind (.huftab (hs _).stream .len) h fun _ _ _ h => Leads.setPhase h fun h =>
    Leads.bind (.rncChcnt (Placed.sameCursor _) (hs _).chunk) h fun _ _ _ h => Leads.setPhase h fun h =>
    leads_rncTuples hrest b h

/-- The chunks and the end of the stream (R186, R191 to R193). -/
theorem leads_rncChunks (b : Nat) : ∀ n {p s m}, Placed p s m →
    Leads (runMeaning rncChunkTest m) (runMeaning (rncChunks b n >>= fun _ => rncFinish) s)
  | 0, _, _, _, _ => Leads.fault _
  | n + 1, p, s, m, h => by
    have hfull : s.outLen < s.work.declLen.toNat ↔ m.outLen < m.work.declLen.toNat := by
      rw [(Placed.sameOutput p).outLen h, (Placed.sameOutput p).declLen h]
    by_cases hmore : s.outLen < s.work.declLen.toNat
    · have hchunk : (rncChunks b (n + 1) >>= fun _ => rncFinish) s =
          (rncChunk b >>= fun _ => rncChunks b n >>= fun _ => rncFinish) s := by
        rw [rncChunks, bind_assoc, Eng.get_bind, if_pos hmore, bind_assoc]
      have htest : rncChunkTest m = setPhase (.stream (.rncTab .raw)) m := rncChunkTest_more (hfull.1 hmore)
      unfold runMeaning
      rw [hchunk, htest]
      exact Leads.setPhase h fun h => leads_rncChunk b (fun h => leads_rncChunks b n h) h
    · have hend := Nat.le_of_not_lt hmore
      have hwhole : (rncChunks b (n + 1) >>= fun _ => rncFinish) s = rncFinish s :=
        Eng.bind_ok (rncChunks_end b n hend)
      unfold runMeaning
      rw [hwhole, rncChunkTest_end (Nat.le_of_not_lt (hmore ∘ hfull.2))]
      exact Leads.of_parallel (.rncFinish (Placed.rncStream p)) h

theorem leads_rncDecode (h : Placed p s m) : Leads (runMeaning (headerStep (some .rncDecode)) m) (runMeaning rncDecode s) := by
  have hs p := Placed.rncStages p
  exact Leads.bind (.rncHeader (hs p)) h fun _ _ _ h => Leads.bind (.rncStart (hs p)) h fun _ _ _ h =>
    Leads.setPhase h fun h => Leads.bind (.rncPrime (Placed.sameCursor _)) h fun _ _ _ h => leads_rncChunks _ _ h

end Rnc

/-! ## CWC -/

theorem leads_cwcLoop : ∀ n {s m}, Placed (.stream .cwcOp) s m →
    Leads (runMeaning (streamStep .cwcOp) m) (runMeaning (cwcLoop n) s)
  | 0, _, _, _ => Leads.fault _
  | n + 1, s, m, h => by
    have hstep : runMeaning cwcStep m = runMeaning (cwcStep >>= pure) m := by rw [bind_pure]
    rw [cwcLoop_succ, streamStep, hstep]
    refine Leads.bind (.cwcStep (Placed.cwcStream _)) h fun _ v u hv => ?_
    rcases hv with hv | ⟨rfl, hv, -⟩
    · refine Leads.stay hv ?_
      unfold runMeaning
      rw [Eng.get_bind, if_pos hv.busy]
      exact leads_cwcLoop n hv
    · unfold runMeaning
      rw [Eng.get_bind, if_neg hv]
      exact Leads.same

theorem leads_cwcDecode (h : Placed p s m) : Leads (runMeaning (headerStep (some .cwcDecode)) m) (runMeaning cwcDecode s) := by
  have hs p := Placed.cwcStages p
  exact Leads.bind (.cwcHeader (hs p)) h fun _ _ _ h => Leads.bind (.cwcStart (hs p)) h fun _ _ _ h =>
    Leads.setPhase h fun h => leads_cwcLoop _ h

/-! ## The chunk -/

/-- A count that has been accepted is declared, is not 0, and nothing has been emitted (R269). -/
theorem hufStart_more {s t : State} {u : Unit} (h : hufStart s = .ok u t) (hb : t.status = .busy) (ho : s.outLen = 0) :
    t.outLen < t.work.declLen.toNat := by
  simp only [hufStart, Eng.get_bind, modifyWork_bind, require_bind_eq_ok, (Reads.inLe _ _).bind_eq_ok] at h
  obtain ⟨-, -, n, hn, h⟩ := h
  obtain ⟨-, rfl⟩ := inLe_eq_ok_bytesAt hn
  have hdecl := toNat_ofNat_leNat (s.bytesAt_length 0 4)
  split at h
  · cases h
    cases hb
  · simp only [require_bind_eq_ok] at h
    obtain ⟨-, -, h⟩ := h
    cases h
    change s.outLen < (BitVec.ofNat 32 (leNat (s.bytesAt 0 4))).toNat
    omega

/-- The symbols of a chunk: the loop tests the count before a symbol, the machine behind one (R271, R272). -/
theorem leads_hufSymbols : ∀ n {s m}, Placed (.stream .hufSym) s m → s.outLen < s.work.declLen.toNat →
    Leads (runMeaning (streamStep .hufSym) m) (runMeaning (hufSymbols n) s)
  | 0, _, _, _, _ => Leads.fault _
  | n + 1, s, m, h, hmore => by
    have hwhole : hufSymbols (n + 1) s = (hufSym >>= fun _ => hufSymbols n) s := by
      rw [hufSymbols, Eng.get_bind, if_pos hmore]
    unfold runMeaning
    rw [hwhole]
    refine Leads.bind (.hufSym (Placed.chunkStream _)) h fun _ v u hv => ?_
    have hfull : v.outLen < v.work.declLen.toNat ↔ u.outLen < u.work.declLen.toNat := by
      rw [(Placed.sameOutput _).outLen hv, (Placed.sameOutput _).declLen hv]
    by_cases hmore : v.outLen < v.work.declLen.toNat
    · rw [runMeaning_ok (hufTest_more (hfull.1 hmore))]
      exact Leads.stay hv (leads_hufSymbols n hv hmore)
    · cases n with
      | zero => exact Leads.fault _
      | succ n =>
        have hend : hufSymbols (n + 1) v = .ok () v.complete := by
          rw [hufSymbols, Eng.get_bind, if_neg hmore, completeCommand_apply]
        rw [runMeaning_ok (hufTest_full (Nat.le_of_not_lt (hmore ∘ hfull.2))), runMeaning_ok hend,
          (Placed.running _).done hv]
        exact Leads.same

theorem leads_hufChunk (h : Placed p s m) (ho : s.outLen = 0) :
    Leads (runMeaning (headerStep (some .hufChunk)) m) (runMeaning hufChunk s) := by
  refine Leads.bind_of_ok (.hufStart (Placed.chunkStages p)) h fun _ v n hrun hv => ?_
  unfold runMeaning
  rcases hv with hv | ⟨rfl, hdone, -⟩
  · rw [Eng.get_bind, Eng.get_bind, if_pos hv.busy, if_pos ((Placed.running p).busy hv).2]
    exact Leads.setPhase hv fun hv => leads_hufSymbols _ hv (hufStart_more hrun hv.busy ho)
  · rw [Eng.get_bind, Eng.get_bind, if_neg hdone, if_neg hdone]
    exact Leads.same

/-! ## The commands -/

/-- From the header step on, the machine ends where the whole command ends. -/
theorem leads_commandBody (c : Command) (h : Placed p s m) (ho : s.outLen = 0) :
    Leads (runMeaning (headerStep (some c)) m) (runMeaning (commandBody c) s) := by
  cases c with
  | rncDecode => exact leads_rncDecode h
  | cwcDecode => exact leads_cwcDecode h
  | hufLoad => exact Leads.of_parallel (.hufLoad (Placed.loadStages p)) h
  | hufChunk => exact leads_hufChunk h ho

/-- The first step of a command is its header step. -/
theorem step_startCommand {c : Command} (hb : s.status ≠ .busy) (hp : s.pending = []) :
    step (startCommand c s) = runMeaning (headerStep (some c)) (startCommand c s) := by
  have hs : startCommand c s = { s.begin c with phase := .header } := if_neg hb
  rw [hs, step, machineStep, show State.pending { s.begin c with phase := .header } = [] from hp]
  rfl

end Sys2Proof.Machine
end

section
/-! PROOFS. A command opcode by opcode: the statement O48. -/

namespace Sys2Proof.Machine

open Sys2Proof

/-- Settles O48: the start of the command and the command whole differ in the place alone, and so do the steps of the
machine and the operations of the command, up to the end. -/
theorem stepwiseEqualsWhole : Obligations.StepwiseEqualsWhole := by
  intro s t c hb hp h
  rw [exec_toInstr_of_not_busy hb] at h
  have hplaced : Placed .header (s.begin c) (startCommand c s) := ⟨rfl, hp, if_neg hb⟩
  have hlead := leads_commandBody c hplaced rfl
  rw [← step_startCommand hb hp] at hlead
  obtain ⟨u, k, hstep, hrun⟩ := hlead t h
  exact ⟨k + 1, (run_succ_of_step hstep k).trans hrun⟩

end Sys2Proof.Machine
end

section
/-! SUPPORT. What the outcome of a command depends on (R294): two states that agree on it, and on the working registers
that the command has written by then, stay so through every operation of the command. The other working registers,
`IN` from `IN_LEN` on, the dictionary outside a chunk and the MODEL registers may differ throughout. -/

namespace Sys2Proof.Machine

open Sys2Proof

variable {c : Command} {live : Work → Work} {n : Nat} {s t : State}

/-! ## States that agree -/

/-- What two ended commands agree on (R294): the result, and after `HUF_LOAD` the dictionary. -/
structure SameOutcome (c : Command) (s t : State) : Prop where
  status : s.status = t.status
  err : s.err = t.err
  outLen : s.outLen = t.outLen
  output : ∀ a < s.outLen, s.outMem.read a = t.outMem.read a
  dictionary : c = .hufLoad → s.hvalid = t.hvalid ∧ s.nodePresent = t.nodePresent ∧
    (s.hvalid = true → s.hroot = t.hroot) ∧ ∀ i < 255, s.nodePresent.getLsbD i = true → s.nodeAt i = t.nodeAt i

/-- Two states in which the command `c` runs agree on the input, the output, the dictionary if `c` reads one, and the
working registers that `live` keeps. -/
structure SameRun (c : Command) (live : Work → Work) (s t : State) : Prop where
  busy : s.status = .busy ∧ t.status = .busy
  cfg : s.cfg = t.cfg
  inLen : s.inLen = t.inLen
  inRead : ∀ a < s.inLen, s.inMem.read a = t.inMem.read a
  cmd : s.cmd = t.cmd
  outLen : s.outLen = t.outLen
  outMem : s.outMem = t.outMem
  dictionary : c = .hufChunk → s.hvalid = t.hvalid ∧ s.hroot = t.hroot ∧ ∀ i < 255, s.nodeAt i = t.nodeAt i
  work : live s.work = live t.work

/-- New values in working registers, on which the two states may agree more or less than before. -/
theorem SameRun.setWork {live' : Work → Work} (h : SameRun c live s t) {v w : Work} (hw : live' v = live' w) :
    SameRun c live' { s with work := v } { t with work := w } :=
  ⟨h.busy, h.cfg, h.inLen, h.inRead, h.cmd, h.outLen, h.outMem, h.dictionary, hw⟩

/-- A register that `live` keeps is read alike. -/
theorem SameRun.reads {α : Type} (h : SameRun c live s t) (f : Work → α) (hf : ∀ w, f (live w) = f w) :
    f s.work = f t.work := by rw [← hf, h.work, hf]

/-- A write of registers that `live` keeps. -/
theorem SameRun.writes_live {f : Work → Work} (hf : ∀ w, live (f w) = f (live w)) : Writes (SameRun c live) f :=
  fun _ _ h => h.setWork (by rw [hf, hf, h.work])

/-- A write of registers that `live` blanks. -/
theorem SameRun.writes_blank {f : Work → Work} (hf : ∀ w, live (f w) = live w) : Writes (SameRun c live) f :=
  fun _ _ h => h.setWork (by rw [hf, hf, h.work])

theorem SameRun.push (h : SameRun c live s t) (b : Byte) : SameRun c live (s.push b) (t.push b) where
  busy := h.busy
  cfg := h.cfg
  inLen := h.inLen
  inRead := h.inRead
  cmd := h.cmd
  outLen := congrArg (· + 1) h.outLen
  outMem := by rw [State.push_outMem, State.push_outMem, h.outMem, h.outLen]
  dictionary := h.dictionary
  work := h.work

theorem SameRun.sameInput (c : Command) (live : Work → Work) : SameInput (SameRun c live) :=
  ⟨SameRun.cfg, SameRun.inLen, SameRun.inRead⟩

/-- An error leaves no output, and a decoder does not answer for the dictionary (R324). -/
theorem SameRun.stops (hc : c ≠ .hufLoad) : Stops (SameOutcome c) (SameRun c live) :=
  fun _ _ => ⟨rfl, rfl, rfl, nofun, fun h => absurd h hc⟩

theorem SameRun.running (hc : c ≠ .hufLoad) : Running (SameOutcome c) (SameRun c live) :=
  ⟨SameRun.busy, fun h => ⟨rfl, rfl, h.outLen, fun _ _ => by rw [State.complete_outMem, State.complete_outMem, h.outMem],
    fun h => absurd h hc⟩⟩

theorem SameRun.sameOutput (hc : c ≠ .hufLoad) (hdecl : ∀ w, (live w).declLen = w.declLen) :
    SameOutput (SameOutcome c) (SameRun c live) :=
  ⟨SameRun.stops hc, SameRun.cfg, SameRun.cmd, SameRun.outLen, SameRun.outMem, fun h => h.reads Work.declLen hdecl,
    SameRun.push⟩

theorem SameRun.sameCursor (hc : c ≠ .hufLoad) (hcur : ∀ w, (live w).cur = w.cur)
    (hset : ∀ w c, live { w with cur := c } = { live w with cur := c }) :
    SameCursor (SameOutcome c) (SameRun c live) :=
  ⟨SameRun.sameInput c live, SameRun.stops hc, fun h => h.reads Work.cur hcur,
    fun h _ => SameRun.writes_live (fun w => hset w _) _ _ h⟩

/-! ## The working registers that a command has written

Each of these keeps some registers and blanks the others. -/

/-- None, before a header has been read. -/
def Work.blank (_ : Work) : Work := Work.reset

/-- The header fields of RNC that are read again (R181). -/
def Work.rncDeclared (w : Work) : Work :=
  { Work.reset with declLen := w.declLen, packedLen := w.packedLen, unpackedCrc := w.unpackedCrc }

/-- The header fields, the cursor and the tables of RNC (R184). -/
def Work.rncStream (w : Work) : Work := { w.rncDeclared with cur := w.cur, ht := w.ht }

/-- The same, and the count of tuples (R187). -/
def Work.rncTuples (w : Work) : Work := { w.rncStream with chcnt := w.chcnt }

/-- The header fields of CWC (R221). -/
def Work.cwcDeclared (w : Work) : Work :=
  { Work.reset with cwcBits := w.cwcBits, declLen := w.declLen, payLen := w.payLen }

/-- The header fields and the cursor of CWC (R222). -/
def Work.cwcStream (w : Work) : Work := { w.cwcDeclared with cur := w.cur }

/-- The count of a chunk (R269). -/
def Work.chunkDeclared (w : Work) : Work := { Work.reset with declLen := w.declLen }

/-- The count of a chunk and where the tree decoder stands (R45). -/
def Work.chunkStream (w : Work) : Work := { w.chunkDeclared with hbyte := w.hbyte, hbit := w.hbit, hnode := w.hnode }

/-- The two sets of the root search (R263). -/
def Work.walkSets (w : Work) : Work := { Work.reset with visited := w.visited, leaves := w.leaves }

/-! ## RNC -/

/-- In the stream of RNC, with or without the count of tuples. -/
theorem SameRun.rncStream (hkeep : ∀ w, (live w).rncStream = w.rncStream)
    (hcur : ∀ w c, live { w with cur := c } = { live w with cur := c })
    (htab : ∀ w tab leaves, live { w with ht := w.ht.set tab leaves } = { live w with ht := (live w).ht.set tab leaves })
    (hcrc : ∀ w c, live { w with crc := c } = live w) :
    RncStream (SameOutcome .rncDecode) (SameRun .rncDecode live) :=
  have keeps {α : Type} (f : Work → α) (hf : ∀ w, f w.rncStream = f w) (w : Work) : f (live w) = f w := by
    rw [← hf, hkeep, hf]
  { SameRun.sameCursor (c := .rncDecode) nofun (keeps Work.cur fun _ => rfl) hcur,
    SameRun.sameOutput (c := .rncDecode) nofun (keeps Work.declLen fun _ => rfl),
    SameRun.running (c := .rncDecode) nofun with
    packedLen := fun h => h.reads _ (keeps Work.packedLen fun _ => rfl)
    unpackedCrc := fun h => h.reads _ (keeps Work.unpackedCrc fun _ => rfl)
    tables := fun h => h.reads _ (keeps Work.ht fun _ => rfl)
    setTable := fun tab leaves => SameRun.writes_live fun w => htab w tab leaves
    writesCrc := fun h _ => SameRun.writes_blank (fun w => hcrc w _) _ _ h }

theorem SameRun.rncTuples : RncTuples (SameOutcome .rncDecode) (SameRun .rncDecode Work.rncTuples) where
  toRncStream := SameRun.rncStream (fun _ => rfl) (fun _ _ => rfl) (fun _ _ _ => rfl) fun _ _ => rfl
  count h := h.reads Work.chcnt fun _ => rfl
  countDown := SameRun.writes_live fun _ => rfl
  setRun _ := SameRun.writes_blank fun _ => rfl
  setDistance _ := SameRun.writes_blank fun _ => rfl
  setLength _ := SameRun.writes_blank fun _ => rfl

theorem SameRun.rncStages : RncStages (SameOutcome .rncDecode) (SameRun .rncDecode Work.blank)
    (SameRun .rncDecode Work.rncDeclared) (SameRun .rncDecode Work.rncStream) (SameRun .rncDecode Work.rncTuples) where
  input := SameRun.sameInput _ _
  stops := SameRun.stops (c := .rncDecode) nofun
  declare _ _ _ _ _ _ h := h.setWork rfl
  declaredInput := SameRun.sameInput _ _
  declaredStops := SameRun.stops (c := .rncDecode) nofun
  declaredCrc h _ := h.setWork h.work
  declaredPackedLen h := h.reads Work.packedLen fun _ => rfl
  start c _ _ h := h.setWork (congrArg (fun w => { w with ht := ⟨[], [], []⟩, cur := c }) h.work)
  stream := SameRun.rncStream (fun _ => rfl) (fun _ _ => rfl) (fun _ _ _ => rfl) fun _ _ => rfl
  chunk k _ _ h := h.setWork (congrArg (fun w => { w with chcnt := k }) h.work)
  tuples := SameRun.rncTuples
  chunkEnd h :=
    have he := congrArg Work.rncStream h.work
    h.setWork he

/-! ## CWC -/

theorem SameRun.cwcStream : CwcStream (SameOutcome .cwcDecode) (SameRun .cwcDecode Work.cwcStream) :=
  { SameRun.sameCursor (c := .cwcDecode) (live := Work.cwcStream) nofun (fun _ => rfl) (fun _ _ => rfl),
    SameRun.sameOutput (c := .cwcDecode) (live := Work.cwcStream) nofun (fun _ => rfl),
    SameRun.running (c := .cwcDecode) nofun with
    payLen := fun h => h.reads Work.payLen fun _ => rfl
    bits := fun h => h.reads Work.cwcBits fun _ => rfl
    setField := fun _ => SameRun.writes_blank fun _ => rfl
    latch := fun _ _ => SameRun.writes_blank fun _ => rfl
    setByte := fun _ => SameRun.writes_blank fun _ => rfl
    setCount := fun _ => SameRun.writes_blank fun _ => rfl
    setDistance := fun _ => SameRun.writes_blank fun _ => rfl }

theorem SameRun.cwcStages : CwcStages (SameOutcome .cwcDecode) (SameRun .cwcDecode Work.blank)
    (SameRun .cwcDecode Work.cwcDeclared) (SameRun .cwcDecode Work.cwcStream) where
  input := SameRun.sameInput _ _
  stops := SameRun.stops (c := .cwcDecode) nofun
  declare _ _ _ _ _ h := h.setWork rfl
  declaredCfg := SameRun.cfg
  declaredStops := SameRun.stops (c := .cwcDecode) nofun
  declaredPayLen h := h.reads Work.payLen fun _ => rfl
  start c _ _ h := h.setWork (congrArg (fun w => { w with cur := c }) h.work)
  stream := SameRun.cwcStream

/-! ## The chunk -/

theorem SameRun.chunkStream : ChunkStream (SameOutcome .hufChunk) (SameRun .hufChunk Work.chunkStream) :=
  { SameRun.sameInput .hufChunk Work.chunkStream,
    SameRun.sameOutput (c := .hufChunk) (live := Work.chunkStream) nofun (fun _ => rfl),
    SameRun.running (c := .hufChunk) nofun with
    hvalid := fun h => (h.dictionary rfl).1
    hroot := fun h => (h.dictionary rfl).2.1
    nodeAt := fun h => (h.dictionary rfl).2.2
    hbyte := fun h => h.reads Work.hbyte fun _ => rfl
    hbit := fun h => h.reads Work.hbit fun _ => rfl
    hnode := fun h => h.reads Work.hnode fun _ => rfl
    advance := SameRun.writes_live fun _ => rfl
    stand := fun _ => SameRun.writes_live fun _ => rfl }

theorem SameRun.chunkStages : ChunkStages (SameOutcome .hufChunk) (SameRun .hufChunk Work.blank)
    (SameRun .hufChunk Work.chunkDeclared) (SameRun .hufChunk Work.chunkStream) where
  input := SameRun.sameInput _ _
  stops := SameRun.stops (c := .hufChunk) nofun
  hvalid h := (h.dictionary rfl).1
  declare _ _ _ h := h.setWork rfl
  declaredStops := SameRun.stops (c := .hufChunk) nofun
  declaredRunning := SameRun.running nofun
  declaredRoot h := (h.dictionary rfl).2.1
  start n _ _ h := h.setWork (congrArg (fun w => { w with hbyte := 4, hbit := 0, hnode := n }) h.work)
  stream := SameRun.chunkStream

/-! ## The load -/

/-- A record that has been copied is read back, the others are kept (R262). -/
theorem State.nodeAt_withRecord (s : State) (i j : Nat) (r : NodeRec) :
    (s.withRecord i r).nodeAt j = if j = i then some r else s.nodeAt j := by
  split
  · subst j
    exact s.nodeAt_writeList_same _ _ i r
  · exact s.nodeAt_writeList_other _ _ s.nodePresent r ‹_›

/-- In `HUF_LOAD` the two states also agree on the records below `n`, which have been copied, and on `HVALID`, which is
0 until the end (R262). -/
structure SameLoad (n : Nat) (live : Work → Work) (s t : State) : Prop extends SameRun .hufLoad live s t where
  invalid : s.hvalid = false ∧ t.hvalid = false
  present : ∀ i < n, s.nodePresent.getLsbD i = t.nodePresent.getLsbD i
  nodeAt : ∀ i < n, s.nodePresent.getLsbD i = true → s.nodeAt i = t.nodeAt i

theorem SameLoad.setWork {live' : Work → Work} (h : SameLoad n live s t) {v w : Work} (hw : live' v = live' w) :
    SameLoad n live' { s with work := v } { t with work := w } :=
  ⟨h.toSameRun.setWork hw, h.invalid, h.present, h.nodeAt⟩

theorem SameLoad.nodePresent_eq (h : SameLoad 255 live s t) : s.nodePresent = t.nodePresent :=
  BitVec.eq_of_getLsbD_eq h.present

/-- Another dictionary memory, of which one record more has been copied. -/
theorem SameLoad.withNodes (h : SameLoad n live s t) {ms mt : Mem} {ps pt : BitVec 255}
    (hp : ∀ i < n + 1, ps.getLsbD i = pt.getLsbD i)
    (hn : ∀ i < n + 1, ps.getLsbD i = true → (s.withNodes ms ps).nodeAt i = (t.withNodes mt pt).nodeAt i) :
    SameLoad (n + 1) live (s.withNodes ms ps) (t.withNodes mt pt) where
  toSameRun := ⟨h.busy, h.cfg, h.inLen, h.inRead, h.cmd, h.outLen, h.outMem, nofun, h.work⟩
  invalid := h.invalid
  present := hp
  nodeAt := hn

/-- The presence bit of one record more is set alike. -/
theorem SameLoad.setPresent (h : SameLoad n live s t) (hn : n < 255) (b : Bool) {i : Nat} (hi : i < n + 1) :
    (setPresent s.nodePresent n b).getLsbD i = (Machine.setPresent t.nodePresent n b).getLsbD i := by
  rw [getLsbD_setPresent _ _ (by omega), getLsbD_setPresent _ _ (by omega)]
  split
  · rfl
  · exact h.present i (by omega)

theorem SameLoad.withRecord (h : SameLoad n live s t) (hn : n < 255) (r : NodeRec) :
    SameLoad (n + 1) live (s.withRecord n r) (t.withRecord n r) := by
  refine h.withNodes (fun i hi => h.setPresent hn true hi) fun i hi hp => ?_
  have hs := s.nodeAt_withRecord n i r
  have ht := t.nodeAt_withRecord n i r
  refine hs.trans (Eq.trans ?_ ht.symm)
  split
  · rfl
  · rw [getLsbD_setPresent _ _ (by omega), if_neg ‹_›] at hp
    exact h.nodeAt i (by omega) hp

theorem SameLoad.withoutRecord (h : SameLoad n live s t) (hn : n < 255) :
    SameLoad (n + 1) live (s.withoutRecord n) (t.withoutRecord n) := by
  refine h.withNodes (fun i hi => h.setPresent hn false hi) fun i hi hp => ?_
  rw [getLsbD_setPresent _ _ (by omega)] at hp
  split at hp
  · cases hp
  · exact h.nodeAt i (by omega) hp

theorem SameLoad.walk : SameWalk (SameLoad 255 Work.walkSets) where
  present := SameLoad.nodePresent_eq
  nodeAt h i hp := h.nodeAt i (BitVec.lt_of_getLsbD hp) hp
  visited h := h.reads Work.visited fun _ => rfl
  leaves h := h.reads Work.leaves fun _ => rfl
  enter i _ _ h := h.setWork (congrArg (fun w => { w with visited := w.visited ||| BitVec.twoPow 255 i }) h.work)
  collect v _ _ h := h.setWork (congrArg (fun w => { w with leaves := w.leaves ||| BitVec.twoPow 256 v }) h.work)

theorem SameLoad.loadStages : LoadStages (SameOutcome .hufLoad) (SameRun .hufLoad Work.blank)
    (fun i => SameLoad i Work.blank) (SameLoad 255 Work.walkSets) where
  start h := ⟨⟨h.busy, h.cfg, h.inLen, h.inRead, h.cmd, h.outLen, h.outMem, nofun, h.work⟩, ⟨rfl, rfl⟩, nofun, nofun⟩
  input _ := ⟨fun h => h.cfg, fun h => h.inLen, fun h => h.inRead⟩
  write hi r _ _ h := h.withRecord hi r
  absent hi _ _ h := h.withoutRecord hi
  stops h _ := ⟨rfl, rfl, rfl, nofun, fun _ => ⟨h.invalid.1.trans h.invalid.2.symm, h.nodePresent_eq,
    fun hv => absurd (h.invalid.1.symm.trans hv) nofun, h.nodeAt⟩⟩
  candidate _ _ _ h := h.setWork rfl
  walk := SameLoad.walk
  searched h := h.setWork rfl
  found _ _ _ h := ⟨rfl, rfl, h.outLen, fun a _ => congrArg (Mem.read · a) h.outMem,
    fun _ => ⟨rfl, h.nodePresent_eq, fun _ => rfl, h.nodeAt⟩⟩

/-! ## The commands -/

/-- A meaning that answers a next state on one side answers one on the other. -/
theorem Parallel.runMeaning {D P : State → State → Prop} {x : Eng Unit} (hx : Parallel D P D x) {u : State} (h : P s t)
    (hrun : runMeaning x s = .next u) : ∃ v, Machine.runMeaning x t = .next v ∧ D u v := by
  have hr := hx s t h
  unfold Machine.runMeaning at hrun ⊢
  generalize x s = r at hr hrun
  generalize x t = r' at hr
  cases hr with
  | ok a hd =>
    cases hrun
    exact ⟨_, rfl, hd⟩
  | raise k hd =>
    cases hrun
    exact ⟨_, rfl, hd⟩
  | fault f s t => cases hrun

theorem Parallel.commandBody (c : Command) :
    Parallel (SameOutcome c) (SameRun c Work.blank) (SameOutcome c) (commandBody c) := by
  cases c with
  | rncDecode => exact .rncDecode SameRun.rncStages
  | cwcDecode => exact .cwcDecode SameRun.cwcStages
  | hufLoad => exact .hufLoad SameLoad.loadStages
  | hufChunk => exact .hufChunk SameRun.chunkStages

end Sys2Proof.Machine
end

section
/-! PROOFS. What the outcome of a command depends on: the statement O46. -/

namespace Sys2Proof.Machine

open Sys2Proof

/-- Settles O46: where the command starts, the two states agree on all that it reads before it has written it, and so
their runs are alike. -/
theorem commandsArePure : Obligations.CommandsArePure := by
  intro s₁ s₂ t₁ c hb₁ hb₂ hcfg hlen hin hdict h
  rw [exec_toInstr_of_not_busy hb₁] at h
  rw [exec_toInstr_of_not_busy hb₂]
  have hstart : SameRun c Work.blank (s₁.begin c) (s₂.begin c) :=
    ⟨⟨rfl, rfl⟩, hcfg, hlen, hin, rfl, rfl, rfl, hdict, rfl⟩
  obtain ⟨t₂, hrun, hsame⟩ := (Parallel.commandBody c).runMeaning hstart h
  exact ⟨t₂, hrun, hsame.status, hsame.err, hsame.outLen, hsame.output, hsame.dictionary⟩

end Sys2Proof.Machine
end

section
/-! SUPPORT. The error kinds of the commands (R321): the table by command, and that the operations of a command raise no
other kind. A chunk has no `FileSizeMismatch` in its row, though its leaves are emitted: a symbol is decoded only where
the declared length has not been produced, and an edge to a record emits nothing. -/

namespace Sys2Proof.Machine

open Sys2Proof

variable {K : ErrKind → Prop}

/-- The rows of the table of R321, read by command. -/
def errorKinds : Command → List ErrKind
  | .rncDecode => [.headerInvalid, .fileIsNotRnc, .packedCrcError, .unpackedCrcError, .bitstreamUnderrun,
      .hufDecodeError, .outputOverrun, .fileSizeMismatch]
  | .cwcDecode => [.headerInvalid, .bitstreamUnderrun, .outputOverrun, .fileSizeMismatch]
  | .hufLoad => [.incompleteDictionary]
  | .hufChunk => [.headerInvalid, .bitstreamUnderrun, .incompleteDictionary]

/-! ## CWC -/

/-- Every CWC opcode, the terminator among them (R225 to R232). -/
theorem Raises.cwcOpMeaning_kinds (hu : K .bitstreamUnderrun) (ho : K .outputOverrun) (hf : K .fileSizeMismatch)
    (op : CwcOp) : Raises K (Machine.cwcOpMeaning op) := by
  by_cases hop : op = .longTerm
  · subst hop
    exact .cwcTerm hf
  · exact (Decoding.cwcOpMeaning hu ho hf op hop).raises

/-- The loop of CWC (R223). -/
theorem Raises.cwcLoop_kinds (hu : K .bitstreamUnderrun) (ho : K .outputOverrun) (hf : K .fileSizeMismatch) :
    ∀ n, Raises K (Machine.cwcLoop n)
  | 0 => .stuck _
  | n + 1 => .bind (Decoding.cwcFetch hu).raises fun op => .bind (.cwcOpMeaning_kinds hu ho hf op) fun _ =>
      .bind .get fun _ => .ite (.bind .cwcTest fun _ => .bind .get fun _ =>
        .ite (.cwcLoop_kinds hu ho hf n) (.pure _)) (.pure _)

/-! ## The symbols of a chunk -/

theorem Raises.outAppend (b : Byte) : Raises K (outAppend b) :=
  .bind .get fun _ => .bind (.ensure _ _) fun _ => .set _

/-- With a byte still to come, `emit` has room for it (R71). -/
theorem emit_ne_raise {s t : State} {b : Byte} {k : ErrKind} (hs : ¬ s.Full) : emit b s ≠ .error (.raise k) t := by
  intro h
  rw [emit, Eng.get_bind, require_bind_pos (Nat.not_le.1 hs)] at h
  exact Raises.outAppend (K := fun _ => False) b _ _ _ h

/-- A bit read moves the tree decoder's position alone (R270). -/
theorem nextBit_full {s t : State} {b : Bool} (h : nextBit s = .ok b t) : t.Full ↔ s.Full := by
  obtain ⟨ht, -, hdecl, -⟩ := nextBit_eq_ok h
  rw [State.Full, State.Full, hdecl, ht]

/-- An edge where a byte is still to come (R271): its leaf has room, so only its bit can be missing. -/
theorem hufEdge_raises {s t : State} {k : ErrKind} (hs : ¬ s.Full) (h : hufEdge s = .error (.raise k) t) :
    k = .bitstreamUnderrun := by
  rcases Eng.bind_eq_error.1 h with hbit | ⟨b, u, hbit, hedge⟩
  · exact Raises.nextBit (K := (· = .bitstreamUnderrun)) rfl _ _ _ hbit
  rw [Eng.get_bind] at hedge
  rcases Eng.bind_eq_error.1 hedge with hread | ⟨r, v, hread, hhalf⟩
  · exact (Raises.dictRead (K := fun _ => False) _ _ _ _ hread).elim
  obtain ⟨-, -, -, rfl⟩ := dictRead_eq_ok.1 hread
  by_cases hleaf : (if b then r.rt else r.lt) = 0#8
  · rw [if_pos hleaf] at hhalf
    rcases Eng.bind_eq_error.1 hhalf with hemit | ⟨_, w, -, hroot⟩
    · exact absurd hemit (emit_ne_raise (mt (nextBit_full hbit).1 hs))
    · cases hroot
  · rw [if_neg hleaf] at hhalf
    cases hhalf

/-- An edge to a record emits nothing (R271). -/
theorem hufEdge_inner_full {s t : State} (h : hufEdge s = .ok false t) : t.Full ↔ s.Full := by
  obtain ⟨b, u, hbit, hedge⟩ := Eng.bind_eq_ok.1 h
  rw [Eng.get_bind] at hedge
  obtain ⟨r, v, hread, hhalf⟩ := Eng.bind_eq_ok.1 hedge
  obtain ⟨-, -, -, rfl⟩ := dictRead_eq_ok.1 hread
  by_cases hleaf : (if b then r.rt else r.lt) = 0#8
  · rw [if_pos hleaf] at hhalf
    obtain ⟨_, w, -, hroot⟩ := Eng.bind_eq_ok.1 hhalf
    cases hroot
  · rw [if_neg hleaf] at hhalf
    cases hhalf
    exact show v.Full ↔ s.Full from nextBit_full hbit

/-- A path where a byte is still to come (R271). -/
theorem hufPath_raises {t : State} {k : ErrKind} : ∀ {n : Nat} {s : State}, ¬ s.Full →
    hufPath n s = .error (.raise k) t → k = .bitstreamUnderrun
  | 0, _, _, h => by cases h
  | n + 1, s, hs, h => by
    rcases Eng.bind_eq_error.1 h with hedge | ⟨leaf, u, hedge, hrest⟩
    · exact hufEdge_raises hs hedge
    · cases leaf with
      | true => cases hrest
      | false => exact hufPath_raises (mt (hufEdge_inner_full hedge).1 hs) hrest

/-- The loop over the symbols (R271), which tests for a byte still to come before each. -/
theorem Raises.hufSymbols_underrun (hu : K .bitstreamUnderrun) : ∀ n, Raises K (Machine.hufSymbols n)
  | 0 => .stuck _
  | n + 1 => fun s k t h => by
    rw [Machine.hufSymbols, Eng.get_bind] at h
    by_cases hmore : s.outLen < s.work.declLen.toNat
    · rw [if_pos hmore] at h
      rcases Eng.bind_eq_error.1 h with hsym | ⟨_, u, -, hrest⟩
      · rw [Machine.hufSym, Eng.get_bind] at hsym
        exact hufPath_raises (Nat.not_le.2 hmore) hsym ▸ hu
      · exact Raises.hufSymbols_underrun hu n u k t hrest
    · rw [if_neg hmore] at h
      cases h

/-! ## The commands -/

/-- A command raises only kinds of its row of R321. -/
theorem Raises.commandBody_errorKinds (c : Command) : Raises (· ∈ errorKinds c) (Machine.commandBody c) := by
  cases c with
  | rncDecode =>
    have hu : ErrKind.bitstreamUnderrun ∈ errorKinds .rncDecode := by decide
    have hf : ErrKind.fileSizeMismatch ∈ errorKinds .rncDecode := by decide
    exact .bind (.rncHeader (by decide) (by decide) (by decide)) fun _ => .bind .rncStart fun _ =>
      .bind (Decoding.rncPrime hu).raises fun _ => .bind .get fun _ =>
      .bind (Decoding.rncChunks hu (by decide) (by decide) hf _ _).raises fun _ => .rncFinish hf (by decide)
  | cwcDecode =>
    have hu : ErrKind.bitstreamUnderrun ∈ errorKinds .cwcDecode := by decide
    exact .bind (.cwcHeader (by decide)) fun _ => .bind (.cwcStart hu) fun _ => .bind .get fun _ =>
      .cwcLoop_kinds hu (by decide) (by decide) _
  | hufLoad => exact fun _ _ _ h => List.mem_singleton.2 (hufLoad_raises h).2
  | hufChunk =>
    have hu : ErrKind.bitstreamUnderrun ∈ errorKinds .hufChunk := by decide
    exact .bind (.hufStart (by decide) hu (by decide)) fun _ => .bind .get fun _ =>
      .ite (.hufSymbols_underrun hu _) (.pure _)

/-- A command that succeeds is `DONE` (R193, R242, R265, R272). -/
theorem commandBody_done {c : Command} {s t : State} (hb : s.status = .busy) (h : commandBody c s = .ok () t) :
    t.status = .done := by
  by_cases hc : c = .hufLoad
  · subst hc
    obtain ⟨v, -, -, rfl⟩ := hufLoad_eq_ok h
    rfl
  · obtain ⟨v, -, w, -, -, rfl⟩ := decoder_eq_ok hc hb h
    rfl

/-- A command that ends in an error has taken the error entry with a kind of its row of R321. -/
theorem exec_toInstr_error {c : Command} {s t : State} (hb : s.status ≠ .busy) (h : exec c.toInstr s = .next t)
    (he : t.status = .error) : t.err ∈ errorKinds c := by
  rw [exec_toInstr_of_not_busy hb] at h
  rcases runMeaning_eq_next.1 h with hok | ⟨k, u, hraise, rfl⟩
  · cases (commandBody_done rfl hok).symm.trans he
  · exact Raises.commandBody_errorKinds c _ _ _ hraise

end Sys2Proof.Machine
end

section
/-! PROOFS. The error kinds and the error entry: the statements O45 and O47. -/

namespace Sys2Proof.Machine

open Sys2Proof

/-- Settles O45: the kind is one of the command's row, and the host reads its number. -/
theorem errorKindsOfCommands : Obligations.ErrorKindsOfCommands := by
  intro s t c hb h he
  have hrow : (t.err, hostReadErr t) ∈ (errorKinds c).map fun k => (k, k.code) :=
    List.mem_map_of_mem (exec_toInstr_error hb h he)
  refine ⟨?rnc, ?cwc, ?load, ?chunk⟩
  case rnc =>
    rintro rfl
    exact hrow
  case cwc =>
    rintro rfl
    exact hrow
  case load =>
    rintro rfl
    exact List.mem_singleton.1 hrow
  case chunk =>
    rintro rfl
    exact hrow

/-- Settles O47: each register by its law of the error entry. -/
theorem errorEntryWrites : Obligations.ErrorEntryWrites := fun s k =>
  ⟨s.errorEntry_status k, s.errorEntry_err k, s.errorEntry_outLen k, s.errorEntry_phase k, s.errorEntry_inMem k,
    s.errorEntry_inLen k, s.errorEntry_nodeMem k, s.errorEntry_nodePresent k, s.errorEntry_hroot k,
    s.errorEntry_hvalid k, s.errorEntry_cmd k, s.errorEntry_cfg k, s.errorEntry_pending k⟩

end Sys2Proof.Machine
end

section
/-! SUPPORT. Sequences that do not fault (R361): how they are put together, and the reads, headers and ends of the
decoders on an input whose bytes have all been written (R352). -/

namespace Sys2Proof.Machine

open Sys2Proof

variable {α β : Type} {x : Eng α} {f : α → Eng β} {s : State}

/-! ## Sequences -/

theorem FaultFree.pure (a : α) : FaultFree (pure a : Eng α) s := .of_ok rfl

theorem FaultFree.raise (k : ErrKind) : FaultFree (raise k : Eng α) s := .of_raise rfl

theorem FaultFree.bind (hx : FaultFree x s) (hf : ∀ a t, x s = .ok a t → FaultFree (f a) t) :
    FaultFree (x >>= f) s := fun e u h => by
  rcases Eng.bind_eq_error.1 h with h | ⟨a, t, ha, h⟩
  · exact hx e u h
  · exact hf a t ha e u h

/-- A sequence that begins with a read goes on in the same state. -/
theorem FaultFree.read_bind (hr : Reads x) (hx : FaultFree x s) (hf : ∀ a, FaultFree (f a) s) :
    FaultFree (x >>= f) s :=
  hx.bind fun a _ h => hr _ _ _ h ▸ hf a

theorem FaultFree.get_bind {f : State → Eng β} (hf : FaultFree (f s) s) : FaultFree (get >>= f) s := hf

theorem FaultFree.modifyWork_bind {g : Work → Work} {f : Unit → Eng β}
    (hf : FaultFree (f ()) { s with work := g s.work }) : FaultFree (modifyWork g >>= f) s := hf

theorem FaultFree.ite {c : Prop} [Decidable c] {x y : Eng α} (hx : c → FaultFree x s) (hy : ¬ c → FaultFree y s) :
    FaultFree (if c then x else y) s := by
  split
  · exact hx ‹_›
  · exact hy ‹_›

/-- A check either raises or holds. -/
theorem FaultFree.require (c : Prop) [Decidable c] (k : ErrKind) : FaultFree (require c k) s :=
  .ite (fun _ => .pure ()) fun _ => .raise k

theorem FaultFree.require_bind {c : Prop} [Decidable c] {k : ErrKind} {f : Unit → Eng β} (hf : c → FaultFree (f ()) s) :
    FaultFree (Machine.require c k >>= f) s :=
  (FaultFree.require c k).bind fun _ _ h => by
    obtain ⟨hc, rfl⟩ := require_eq_ok.1 h
    exact hf hc

/-- A meaning that does not fault answers a next state. -/
theorem FaultFree.completes {x : Eng Unit} (h : FaultFree x s) : Completes (runMeaning x s) := by
  cases hx : x s with
  | ok a t => exact ⟨t, runMeaning_ok hx⟩
  | error e t =>
    cases e with
    | raise k => exact ⟨_, runMeaning_raise hx⟩
    | fault e => exact absurd hx (h e t)

/-! ## Reads of a loaded input -/

section Loaded

variable (hl : s.loaded) {a n : Nat}

include hl

theorem FaultFree.inByte (h : a < s.inLen) : FaultFree (inByte a) s := by
  obtain ⟨b, hb⟩ := Option.isSome_iff_exists.1 (hl a h)
  exact .of_ok (inByte_eq_ok.2 ⟨h, hb, rfl⟩)

theorem FaultFree.inLe (h : a + n ≤ s.inLen) : FaultFree (inLe a n) s := by
  have hok := inLe_ok (hl.inHas h)
  rw [State.bytesAt_length] at hok
  exact .of_ok hok

theorem FaultFree.inBe (h : a + n ≤ s.inLen) (acc : Nat) : FaultFree (inBe a n acc) s := by
  have hok := inBe_ok (acc := acc) (hl.inHas h)
  rw [State.bytesAt_length] at hok
  exact .of_ok hok

theorem FaultFree.inMatches {ref : List Byte} (h : a + ref.length ≤ s.inLen) : FaultFree (inMatches a ref) s :=
  .of_ok (inMatches_ok (hl.inHas h) (State.bytesAt_length ..).symm)

theorem FaultFree.crc16_inByte (h : a + n ≤ s.inLen) : FaultFree (crc16 Machine.inByte a n) s := by
  have hok := crc16_ok (hl.inHas h).finds
  rw [State.bytesAt_length] at hok
  exact .of_ok hok

/-- Working registers do not matter for the input. -/
theorem State.loaded.work (w : Work) : State.loaded { s with work := w } := hl

/-! ## Headers -/

/-- The RNC header (R181 to R183). -/
theorem FaultFree.rncHeader : FaultFree rncHeader s :=
  .get_bind <| .require_bind fun hlen =>
    .read_bind (.inMatches _ _) (.inMatches hl (hlen.trans' (by decide))) fun _ => .require_bind fun _ =>
    .read_bind (.inBe _ _) (.inBe hl (hlen.trans' (by decide)) 0) fun _ =>
    .read_bind (.inBe _ _) (.inBe hl (hlen.trans' (by decide)) 0) fun _ =>
    .read_bind (.inBe _ _) (.inBe hl (hlen.trans' (by decide)) 0) fun _ =>
    .read_bind (.inBe _ _) (.inBe hl (hlen.trans' (by decide)) 0) fun _ =>
    .modifyWork_bind <| .require_bind fun hbody => .require_bind fun _ =>
    .bind (.crc16_inByte (hl.work _) hbody) fun _ _ _ => .require _ _

/-- The CWC header (R221). -/
theorem FaultFree.cwcHeader : FaultFree cwcHeader s :=
  .get_bind <| .require_bind fun hlen =>
    .read_bind (.inMatches _ _) (.inMatches hl (hlen.trans' (by decide))) fun _ => .require_bind fun _ =>
    .read_bind (.inByte _) (.inByte hl (hlen.trans_lt' (by decide))) fun _ =>
    .read_bind (.inLe _ _) (.inLe hl (hlen.trans' (by decide))) fun _ =>
    .read_bind (.inLe _ _) (.inLe hl (hlen.trans' (by decide))) fun _ =>
    .modifyWork_bind <| .require_bind fun _ => .require_bind fun _ => .require _ _

/-- Validation and start of `HUF_CHUNK` (R268, R269). -/
theorem FaultFree.hufStart : FaultFree hufStart s :=
  .get_bind <| .require_bind fun _ => .require_bind fun hlen =>
    .read_bind (.inLe _ _) (.inLe hl (hlen.trans' (by decide))) fun _ => .modifyWork_bind <|
    .ite (fun _ => .of_ok rfl) fun _ => .require_bind fun _ => .require_bind fun _ => .of_ok rfl

end Loaded

/-! ## Ends -/

/-- The end of an RNC stream whose output has been written (R191 to R193). -/
theorem FaultFree.rncFinish (hf : s.outFilled) : FaultFree rncFinish s := by
  by_cases hlen : s.outLen = s.work.declLen.toNat
  · by_cases hcrc : s.checksum s.outBytes = s.work.unpackedCrc
    · exact .of_ok (rncFinish_ok hlen hf hcrc)
    · exact .of_raise (rncFinish_badCrc hlen hf hcrc)
  · exact .of_raise (rncFinish_size hlen)

theorem FaultFree.cwcTerm : FaultFree cwcTerm s := .get_bind <| .require_bind fun _ => .of_ok rfl

theorem FaultFree.cwcTest : FaultFree cwcTest s := .get_bind <| .ite (fun _ => .of_ok rfl) fun _ => .pure ()

end Sys2Proof.Machine
end

section
/-! SUPPORT. The control bits left as the measure of a stream (R361): no operation of a decoder faults in a stream that is
in order, each leaves it in order, and none gives back a bit; those that a loop makes its passes by take one. -/

namespace Sys2Proof.Machine

open Sys2Proof

variable {α β : Type} {c : Command} {k n : Nat} {x : Eng α} {f : α → Eng β} {s t : State} {a : α}

/-! ## The measure -/

/-- The control bits that a cursor can still deliver, if no byte-aligned field is read: the pending bits and those of
the bytes left in the range. -/
def Cursor.bitsLeft (c : Cursor) : Nat := c.cnt + 8 * (c.fin - c.pos)

/-- The bits of `IN` that the reader of a command has not consumed: the tree decoder has a reader of its own (R270). -/
def State.bitsLeft (c : Command) (s : State) : Nat :=
  if c = .hufChunk then 8 * s.inLen - s.hufBit else s.cur.bitsLeft

theorem State.bitsLeft_cursor (hc : c ≠ .hufChunk) (s : State) : s.bitsLeft c = s.cur.bitsLeft := if_neg hc

theorem State.bitsLeft_chunk (s : State) : s.bitsLeft .hufChunk = 8 * s.inLen - s.hufBit := if_pos rfl

theorem RefillWidth.bits_eq_bytes (w : RefillWidth) : w.bits = 8 * w.bytes := by cases w <;> rfl

/-- Consumed bits are gone. -/
theorem Cursor.bitsLeft_dropped {c : Cursor} (h : n ≤ c.cnt) : (c.dropped n).bitsLeft + n = c.bitsLeft := by
  change c.cnt - n + 8 * (c.fin - c.pos) + n = c.cnt + 8 * (c.fin - c.pos)
  omega

/-- A refill moves bits from the range to the register (R133). -/
theorem Cursor.bitsLeft_withWord {c : Cursor} (h : c.pos + c.width.bytes ≤ c.fin) (w : Nat) :
    (c.withWord w).bitsLeft = c.bitsLeft := by
  have hbits := c.width.bits_eq_bytes
  change c.cnt + c.width.bits + 8 * (c.fin - (c.pos + c.width.bytes)) = c.cnt + 8 * (c.fin - c.pos)
  omega

/-! ## A stream in order -/

/-- The leaves of the loaded tables have codes of 1 to 15 bits (R163). -/
def State.tablesOk (s : State) : Prop := ∀ tab, ∀ leaf ∈ s.work.ht.get tab, 1 ≤ leaf.len ∧ leaf.len ≤ 15

/-- The stream of a command is under way, its input loaded: output and reader are in order, and so are the tables of
RNC and the dictionary of a chunk. -/
structure State.Underway (c : Command) (s : State) : Prop where
  loaded : s.loaded
  output : s.OutputOk
  room : s.work.declLen.toNat ≤ s.cfg.outCap
  cursor : c ≠ .hufChunk → s.cursorOk
  rnc : c = .rncDecode → s.cur.isRnc ∧ s.tablesOk
  chunk : c = .hufChunk → s.hvalid = true ∧ s.onRecord

theorem State.OutputOk.filled (h : s.OutputOk) : s.outFilled := fun a ha => (h.exact a).2 ha

/-- The operations of a stream keep it under way. -/
theorem State.Underway.decodes (h : s.Underway c) (hd : Decodes s t) (ho : Outside s t) (ht : s.tablesOk → t.tablesOk) :
    t.Underway c where
  loaded a ha := by
    rw [ho.inMem]
    exact h.loaded a (ho.inLen ▸ ha)
  output := hd.output h.output
  room := by
    rw [hd.declLen, ho.cfg]
    exact h.room
  cursor hc := hd.cursor (h.cursor hc)
  rnc hc := ⟨hd.profile.isRnc (h.rnc hc).1, ht (h.rnc hc).2⟩
  chunk hc := ⟨ho.hvalid.trans (h.chunk hc).1, hd.record (h.chunk hc).2⟩

/-- New values in working registers, the tables still in order. -/
theorem State.Underway.work {w : Work} (h : s.Underway c) (hd : Decodes s { s with work := w })
    (ht : s.tablesOk → State.tablesOk { s with work := w }) : State.Underway c { s with work := w } :=
  h.decodes hd (OnlyWork.outside ⟨w, rfl⟩) ht

/-- An operation of the cursor that leaves a bit pending where `on_exhaust` asks for one (R35). -/
theorem State.Underway.moves (h : s.Underway c) (hm : MovesCursor s t)
    (hp : s.cur.policy = .onExhaust → 1 ≤ s.cur.cnt → 1 ≤ t.cur.cnt) : t.Underway c := by
  have hd := hm.decodes hp
  obtain ⟨d, rfl, -⟩ := hm
  exact h.work hd id

/-- The next refill word, if it lies in the range. -/
theorem State.Underway.nextWord (h : s.Underway c) (hc : c ≠ .hufChunk) (hf : s.cur.pos + s.cur.width.bytes ≤ s.cur.fin) :
    s.nextWord (s.bytesAt s.cur.pos s.cur.width.bytes) := by
  obtain ⟨-, -, hfin, -⟩ := h.cursor hc
  exact ⟨State.bytesAt_length .., hf, h.loaded.inHas (hf.trans hfin)⟩

/-! ## Sequences -/

/-- From the state the sequence does not fault; where it succeeds, the stream is under way and at least `k` bits have
been taken. -/
structure SpendsFrom (c : Command) (k : Nat) (x : Eng α) (s : State) : Prop where
  faultFree : FaultFree x s
  spends : ∀ {a t}, x s = .ok a t → t.Underway c ∧ t.bitsLeft c + k ≤ s.bitsLeft c

/-- Wherever the stream is under way the sequence takes at least `k` bits. -/
def Spends (c : Command) (k : Nat) (x : Eng α) : Prop := ∀ s, s.Underway c → SpendsFrom c k x s

theorem SpendsFrom.of_ok (h : x s = .ok a t) (ht : t.Underway c) (hk : t.bitsLeft c + k ≤ s.bitsLeft c) :
    SpendsFrom c k x s :=
  ⟨.of_ok h, fun h' => by
    cases h.symm.trans h'
    exact ⟨ht, hk⟩⟩

theorem SpendsFrom.of_raise {e : ErrKind} (h : x s = .error (.raise e) t) : SpendsFrom c k x s :=
  ⟨.of_raise h, fun h' => nomatch h.symm.trans h'⟩

theorem SpendsFrom.weaken (h : SpendsFrom c k x s) : SpendsFrom c 0 x s :=
  ⟨h.faultFree, fun h' => ⟨(h.spends h').1, Nat.le_of_add_right_le (h.spends h').2⟩⟩

/-- The first operation takes the bits. -/
theorem SpendsFrom.bind (hx : SpendsFrom c k x s)
    (hf : ∀ a t, x s = .ok a t → t.Underway c → t.bitsLeft c + k ≤ s.bitsLeft c → SpendsFrom c 0 (f a) t) :
    SpendsFrom c k (x >>= f) s := by
  refine ⟨hx.faultFree.bind fun a t h => ?_, fun {b u} h => ?_⟩
  · obtain ⟨ht, hle⟩ := hx.spends h
    exact (hf a t h ht hle).faultFree
  · obtain ⟨a, t, hxa, hfa⟩ := Eng.bind_eq_ok.1 h
    obtain ⟨ht, hle⟩ := hx.spends hxa
    obtain ⟨hu, hle'⟩ := (hf a t hxa ht hle).spends hfa
    exact ⟨hu, by omega⟩

/-- What follows the first operation takes the bits. -/
theorem SpendsFrom.andThen (hx : SpendsFrom c 0 x s)
    (hf : ∀ a t, x s = .ok a t → t.Underway c → t.bitsLeft c ≤ s.bitsLeft c → SpendsFrom c k (f a) t) :
    SpendsFrom c k (x >>= f) s := by
  refine ⟨hx.faultFree.bind fun a t h => ?_, fun {b u} h => ?_⟩
  · obtain ⟨ht, hle⟩ := hx.spends h
    exact (hf a t h ht hle).faultFree
  · obtain ⟨a, t, hxa, hfa⟩ := Eng.bind_eq_ok.1 h
    obtain ⟨ht, hle⟩ := hx.spends hxa
    obtain ⟨hu, hle'⟩ := (hf a t hxa ht hle).spends hfa
    exact ⟨hu, by omega⟩

theorem SpendsFrom.get_bind {f : State → Eng β} (hf : SpendsFrom c k (f s) s) : SpendsFrom c k (get >>= f) s :=
  ⟨hf.faultFree, hf.spends⟩

theorem SpendsFrom.ite {p : Prop} [Decidable p] {x y : Eng α} (hx : p → SpendsFrom c k x s)
    (hy : ¬ p → SpendsFrom c k y s) : SpendsFrom c k (if p then x else y) s := by
  split
  · exact hx ‹_›
  · exact hy ‹_›

theorem Spends.weaken (h : Spends c k x) : Spends c 0 x := fun s hs => (h s hs).weaken

theorem Spends.bind (hx : Spends c k x) (hf : ∀ a, Spends c 0 (f a)) : Spends c k (x >>= f) :=
  fun s hs => (hx s hs).bind fun a t _ ht _ => hf a t ht

theorem Spends.get_bind {f : State → Eng β} (hf : ∀ s, s.Underway c → Spends c k (f s)) : Spends c k (get >>= f) :=
  fun s hs => .get_bind (hf s hs s hs)

theorem Spends.pure (a : α) : Spends c 0 (pure a : Eng α) := fun _ hs => .of_ok rfl hs le_rfl

theorem Spends.raise (e : ErrKind) : Spends c k (raise e : Eng α) := fun _ _ => .of_raise rfl

theorem Spends.ite {p : Prop} [Decidable p] {x y : Eng α} (hx : Spends c k x) (hy : Spends c k y) :
    Spends c k (if p then x else y) := fun s hs => .ite (fun _ => hx s hs) fun _ => hy s hs

theorem Spends.require (p : Prop) [Decidable p] (e : ErrKind) : Spends c 0 (require p e) := .ite (.pure _) (.raise e)

theorem Spends.ensure {p : Prop} [Decidable p] (h : p) (e : Fault) : Spends c 0 (ensure p e) :=
  fun _ hs => .of_ok (a := ()) (ensure_eq_ok.2 ⟨h, rfl⟩) hs le_rfl

theorem Spends.repeatEng {x : Eng Unit} (hx : Spends c 0 x) : ∀ n, Spends c 0 (repeatEng n x)
  | 0 => .pure _
  | n + 1 => .bind hx fun _ => .repeatEng hx n

/-- Working registers that neither the reader nor the invariant speaks of. -/
theorem Spends.modifyWork {g : Work → Work} (hg : ∀ w, (g w).cur = w.cur ∧ (g w).declLen = w.declLen ∧
    (g w).hnode = w.hnode ∧ (g w).ht = w.ht ∧ (g w).hbyte = w.hbyte ∧ (g w).hbit = w.hbit) :
    Spends c 0 (modifyWork g) := fun s hs => by
  obtain ⟨hcur, hdecl, hnode, hht, hbyte, hbit⟩ := hg s.work
  refine .of_ok rfl (hs.work (.work hcur hdecl hnode) ?tables) ?left
  case tables =>
    unfold State.tablesOk
    rw [hht]
    exact id
  case left =>
    simp only [State.bitsLeft, State.cur, State.hufBit, hcur, hbyte, hbit, Nat.add_zero, le_rfl]

/-! ## The cursor -/

/-- `READ_BIT` (R135) takes a bit, or raises where the word that it needs does not lie in the range. -/
theorem Spends.readBit (hc : c ≠ .hufChunk) : Spends c 1 readBit := fun s hs => by
  have of_ok {b d} (h : Machine.readBit s = .ok b (s.withCur d)) (hd : d.bitsLeft + 1 ≤ s.cur.bitsLeft) :
      SpendsFrom c 1 Machine.readBit s := by
    obtain ⟨hm, hp⟩ := readBit_moves h
    refine .of_ok h (hs.moves hm fun he _ => hp he) ?_
    rwa [State.bitsLeft_cursor hc, State.bitsLeft_cursor hc]
  obtain ⟨-, -, -, -, hone⟩ := hs.cursor hc
  by_cases hpend : s.cur.noRefillFor 1
  · have hcnt : 1 ≤ s.cur.cnt := hpend.elim And.right fun h => Nat.le_of_lt h.2
    exact of_ok (readBit_pending hpend) (Cursor.bitsLeft_dropped hcnt).le
  have hneed : (s.cur.policy = .onDemand ∧ s.cur.cnt = 0) ∨ (s.cur.policy = .onExhaust ∧ s.cur.cnt = 1) := by
    unfold Cursor.noRefillFor at hpend
    cases hp : s.cur.policy with
    | onDemand => exact .inl ⟨rfl, by simp only [hp, true_and] at hpend; omega⟩
    | onExhaust =>
      have := hone hp
      exact .inr ⟨rfl, by simp only [hp, true_and] at hpend; omega⟩
  by_cases hf : s.cur.pos + s.cur.width.bytes ≤ s.cur.fin
  · have hword := hs.nextWord hc hf
    rcases hneed with ⟨hp, h0⟩ | ⟨hp, h1⟩
    · refine of_ok (readBit_onDemand_refill hp h0 hword) ?_
      have hcnt : 1 ≤ (s.cur.withWord (leNat (s.bytesAt s.cur.pos s.cur.width.bytes))).cnt :=
        s.cur.width.bits_pos.trans_le (Nat.le_add_left _ _)
      rw [Cursor.bitsLeft_dropped hcnt, Cursor.bitsLeft_withWord hf]
    · refine of_ok (readBit_onExhaust_refill hp h1 hword) ?_
      rw [Cursor.bitsLeft_withWord (c := s.cur.dropped 1) hf, Cursor.bitsLeft_dropped h1.ge]
  · obtain ⟨d, hraise⟩ := readBit_underrun hneed (Nat.not_le.1 hf)
    exact .of_raise hraise

theorem Spends.readBitsFrom (hc : c ≠ .hufChunk) (o : BitOrder) : ∀ n i v, Spends c 0 (readBitsFrom o n i v)
  | 0, _, _ => .pure _
  | n + 1, i, _ => (Spends.readBit hc).weaken.bind fun _ => .readBitsFrom hc o n (i + 1) _

/-- `READ_BITS` of no more bits than either width has (R136). -/
theorem Spends.readBits (hc : c ≠ .hufChunk) (hn : n ≤ 16) : Spends c 0 (readBits n) := fun s hs => by
  have hwidth : n ≤ s.cur.width.bits := hn.trans (by cases s.cur.width <;> decide)
  have hloop := Spends.readBitsFrom hc s.cur.order n 0 0 s hs
  have heq := readBits_eq hwidth
  exact ⟨fun e t h => hloop.faultFree e t (heq.symm.trans h), fun h => hloop.spends (heq.symm.trans h)⟩

/-- A byte-aligned field (R139 to R141) takes its bytes from what the control bits can come from. -/
theorem Spends.readField (hc : c ≠ .hufChunk) (n : Nat) : Spends c 0 (readField n) := fun s hs => by
  obtain ⟨-, -, hfin, -⟩ := hs.cursor hc
  by_cases hf : s.cur.pos + n ≤ s.cur.fin
  · have hlen := s.bytesAt_length s.cur.pos n
    have hbytes : s.nextBytes (s.bytesAt s.cur.pos n) := by
      rw [State.nextBytes, hlen]
      exact ⟨hf, hs.loaded.inHas (hf.trans hfin)⟩
    have hok := readField_ok hbytes
    rw [hlen] at hok
    obtain ⟨hm, hcnt⟩ := readField_moves hok
    refine .of_ok hok (hs.moves hm fun _ h1 => hcnt ▸ h1) ?_
    rw [State.bitsLeft_cursor hc, State.bitsLeft_cursor hc]
    change s.cur.cnt + 8 * (s.cur.fin - (s.cur.pos + n)) + 0 ≤ s.cur.cnt + 8 * (s.cur.fin - s.cur.pos)
    omega
  · exact .of_raise (readField_underrun (Nat.not_le.1 hf))

theorem Spends.readByte (hc : c ≠ .hufChunk) : Spends c 0 readByte := .bind (.readField hc 1) fun _ => .pure _

theorem Spends.readU16 (hc : c ≠ .hufChunk) : Spends c 0 readU16 := .bind (.readField hc 2) fun _ => .pure _

theorem Spends.readU24 (hc : c ≠ .hufChunk) : Spends c 0 readU24 := .bind (.readField hc 3) fun _ => .pure _

/-- `PEEK_BITS` (R137) consumes nothing. -/
theorem Spends.peekBits (hn : n ≤ 16) : Spends .rncDecode 0 (peekBits n) := fun s hs => by
  obtain ⟨⟨ho, hw, hp⟩, -⟩ := hs.rnc rfl
  have hwidth : n ≤ s.cur.width.bits := hw ▸ hn
  rcases Nat.lt_or_ge s.cur.cnt n with hcnt | hcnt
  · by_cases hf : s.cur.pos + s.cur.width.bytes ≤ s.cur.fin
    · have hok := peekBits_refill ho hp hwidth hcnt (hs.nextWord nofun hf)
      refine .of_ok hok (hs.moves (peekBits_moves hok).1 fun he => nomatch hp.symm.trans he) ?_
      exact (Cursor.bitsLeft_withWord hf _).le
    · exact .of_raise (peekBits_error ho hp hwidth hcnt (refill_underrun (hcnt.trans_le hwidth) (Nat.not_le.1 hf)))
  · exact .of_ok (peekBits_pending ho hp hwidth hcnt) hs le_rfl

/-- What has been peeked is pending. -/
theorem le_cnt_of_peekBits {v : Nat} (h : peekBits n s = .ok v t) : n ≤ t.cur.cnt := by
  simp only [peekBits, getCur_bind, Eng.bind_eq_ok, ensure_eq_ok] at h
  obtain ⟨_, w, ⟨⟨-, -, hn⟩, rfl⟩, h⟩ := h
  obtain ⟨u, -, hfull, hkeep, ht⟩ := refillIf_moves h
  cases ht
  by_cases hcnt : w.cur.cnt < n
  · exact hn.trans (hfull hcnt)
  · exact hkeep hcnt ▸ Nat.not_lt.1 hcnt

/-- `SKIP_BITS` of pending bits (R138), in the decoder that skips what it has peeked. -/
theorem SpendsFrom.skipBits (hs : s.Underway .rncDecode) (hn : n ≤ s.cur.cnt) (h1 : 1 ≤ n) :
    SpendsFrom .rncDecode 1 (skipBits n) s := by
  obtain ⟨⟨-, -, hp⟩, -⟩ := hs.rnc rfl
  obtain ⟨-, -, -, hclean, -⟩ := hs.cursor nofun
  have hok := skipBits_ok hn hclean.sr_lt
  refine .of_ok hok (hs.moves (skipBits_moves hok) fun he => nomatch hp.symm.trans he) ?_
  exact (Nat.add_le_add_left h1 _).trans (Cursor.bitsLeft_dropped hn).le

/-! ## Output -/

/-- `emit` (R71) appends a byte or raises: the declared length lies within the capacity. -/
theorem Spends.emit (b : Byte) : Spends c 0 (emit b) := fun s hs => by
  by_cases hfull : s.outLen < s.work.declLen.toNat
  · have hcap := hfull.trans_le hs.room
    exact .of_ok (emit_ok hfull hcap)
      (hs.decodes (.push hfull hcap) ⟨rfl, rfl, rfl, rfl, rfl, rfl, rfl, rfl, rfl⟩ id) le_rfl
  · exact .of_raise (emit_full (Nat.not_lt.1 hfull))

/-- A copy at a distance of at least 1 (R72) reads only what has been written. -/
theorem Spends.lzCopy {dist : Nat} (h1 : 1 ≤ dist) (len : Nat) : Spends c 0 (lzCopy dist len) := by
  have hsource : Spends c 0 (lzSource dist) := fun s hs => by
    obtain ⟨b, hok, -⟩ := lzSource_of_filled h1 hs.output.filled
    exact .of_ok hok hs le_rfl
  exact .bind (.ensure h1 _) fun _ => .get_bind fun _ _ => .bind (.require _ _) fun _ =>
    .repeatEng (.bind hsource fun _ => .emit _) len

end Sys2Proof.Machine
end

section
/-! SUPPORT. `RNC_DECODE` on a loaded input (R361): a tuple takes the code of its literal count, which is not empty, so
neither the loop over the tuples of a chunk nor the loop over the chunks reaches its bound. -/

namespace Sys2Proof.Machine

open Sys2Proof

variable {n : Nat} {s : State}

/-! ## The opcodes -/

theorem Spends.readLengths : ∀ n, Spends .rncDecode 0 (readLengths n)
  | 0 => .pure _
  | n + 1 => .bind (.readBits (by decide) (by decide)) fun _ => .bind (.readLengths n) fun _ => .pure _

/-- A table that has been built has codes of 1 to 15 bits (R163). -/
theorem Spends.setTable {lens : List Nat} {leaves : List HuffLeaf} (h : canonicalTable lens = some leaves)
    (tab : TableId) : Spends .rncDecode 0 (Machine.modifyWork fun w => { w with ht := w.ht.set tab leaves }) := fun s hs => by
  refine .of_ok rfl (hs.work (.work rfl rfl rfl) fun hold => ?_) le_rfl
  intro u leaf hleaf
  change leaf ∈ (s.work.ht.set tab leaves).get u at hleaf
  rw [HuffTables.get_set] at hleaf
  split at hleaf
  · obtain ⟨⟨-, hlen⟩, -⟩ := (mem_canonicalTable h).1 hleaf
    exact hlen
  · exact hold u leaf hleaf

theorem Spends.huftab (tab : TableId) : Spends .rncDecode 0 (huftab tab) := by
  refine .bind (.readBits (by decide) (by decide)) fun n => .ite (.pure _) (.bind (.readLengths n) fun lens => ?_)
  cases h : canonicalTable lens with
  | none => exact .raise _
  | some leaves => exact .setTable h tab

theorem Spends.rncChcnt : Spends .rncDecode 0 rncChcnt :=
  .bind (.readBits (by decide) (by decide)) fun _ => .modifyWork fun _ => ⟨rfl, rfl, rfl, rfl, rfl, rfl⟩

/-- A scan that finds a leaf takes its code, which is not empty (R166). -/
theorem Spends.scanLeaves : ∀ leaves : List HuffLeaf, (∀ leaf ∈ leaves, 1 ≤ leaf.len ∧ leaf.len ≤ 15) →
    Spends .rncDecode 1 (scanLeaves leaves)
  | [], _ => .raise _
  | leaf :: rest, h => fun s hs => by
    obtain ⟨⟨h1, h15⟩, hrest⟩ := List.forall_mem_cons.1 h
    refine (Spends.peekBits (h15.trans (by decide)) s hs).andThen fun v t hpeek ht _ => ?_
    split
    · exact (SpendsFrom.skipBits ht (le_cnt_of_peekBits hpeek) h1).bind fun _ u _ hu _ => .of_ok rfl hu le_rfl
    · exact Spends.scanLeaves rest hrest t ht

/-- A number takes the code of its leaf (R166, R167). -/
theorem Spends.hufValue (tab : TableId) : Spends .rncDecode 1 (hufValue tab) := by
  refine .bind (.get_bind fun s hs => .scanLeaves _ ((hs.rnc rfl).2 tab)) fun v => .ite (.pure _) fun t ht => ?_
  by_cases hv : gammaBits v ≤ 16
  · exact (Spends.require _ _ t ht).bind fun _ u _ hu _ =>
      (Spends.readBits (by decide) hv u hu).bind fun _ w _ hw _ => .of_ok rfl hw le_rfl
  · exact .of_raise (require_bind_neg hv _ _ _)

/-- A literal run takes the code of its count (R188). -/
theorem Spends.rncRaw : Spends .rncDecode 1 rncRaw :=
  .bind (.hufValue _) fun n => .bind (.modifyWork fun _ => ⟨rfl, rfl, rfl, rfl, rfl, rfl⟩) fun _ =>
    .bind (.repeatEng (.bind (.readByte (by decide)) fun _ => .emit _) n) fun _ =>
    .bind (.pure _) fun _ => .modifyWork fun _ => ⟨rfl, rfl, rfl, rfl, rfl, rfl⟩

theorem Spends.rncMatch : Spends .rncDecode 0 rncMatch :=
  .bind (Spends.hufValue _).weaken fun d => .bind (.modifyWork fun _ => ⟨rfl, rfl, rfl, rfl, rfl, rfl⟩) fun _ =>
    .bind (Spends.hufValue _).weaken fun _ => .bind (.modifyWork fun _ => ⟨rfl, rfl, rfl, rfl, rfl, rfl⟩) fun _ =>
    .lzCopy (Nat.le_add_left 1 d) _

/-! ## The loops -/

/-- The loop over the tuples of a chunk (R198). -/
theorem SpendsFrom.rncTuples : ∀ {n : Nat} {s : State}, s.Underway .rncDecode → s.bitsLeft .rncDecode < n →
    SpendsFrom .rncDecode 1 (rncTuples n) s
  | 0, _, _, hn => absurd hn (Nat.not_lt_zero _)
  | n + 1, s, hs, hn =>
    (Spends.rncRaw s hs).bind fun _ t _ ht hraw => .get_bind <| .ite (fun _ => .of_ok rfl ht le_rfl) fun _ =>
      (Spends.rncMatch t ht).bind fun _ u _ hu hmatch => (SpendsFrom.rncTuples hu (by omega)).weaken

/-- A chunk (R187 to R190): the tables, the count, the tuples. -/
theorem SpendsFrom.rncChunk (hs : s.Underway .rncDecode) (hn : s.bitsLeft .rncDecode < n) :
    SpendsFrom .rncDecode 1 (rncChunk n) s :=
  (Spends.huftab .raw s hs).andThen fun _ t _ ht hraw => (Spends.huftab .dist t ht).andThen fun _ u _ hu hdist =>
    (Spends.huftab .len u hu).andThen fun _ v _ hv hlen => (Spends.rncChcnt v hv).andThen fun _ w _ hw hcnt =>
    .rncTuples hw (by omega)

/-- The loop over the chunks (R186). -/
theorem SpendsFrom.rncChunks {b : Nat} : ∀ {n : Nat} {s : State}, s.Underway .rncDecode → s.bitsLeft .rncDecode < b →
    s.bitsLeft .rncDecode < n → SpendsFrom .rncDecode 0 (rncChunks b n) s
  | 0, _, _, _, hn => absurd hn (Nat.not_lt_zero _)
  | n + 1, s, hs, hb, hn =>
    .get_bind <| .ite (fun _ => ((SpendsFrom.rncChunk hs hb).bind fun _ t _ ht hchunk =>
      SpendsFrom.rncChunks ht (by omega) (by omega)).weaken) fun _ => .of_ok rfl hs le_rfl

/-! ## The command -/

/-- The header leaves the stream under way, its tables empty, and the body as the bits left (R182, R184). -/
theorem rncHead_underway {t u : State} {a b : Unit} (hl : s.loaded) (hf : s.Fresh) (h : rncHeader s = .ok a t)
    (h' : rncStart t = .ok b u) :
    u.Underway .rncDecode ∧ u.cur.cnt = 0 ∧ u.cur.pos = u.cur.base ∧ u.cur.bitsLeft = 8 * u.work.packedLen.toNat := by
  obtain ⟨hd, hrnc, hcur, hcnt, hpos⟩ := rncHead_eq_ok h h'
  have hout := hd.outputOk hf
  obtain ⟨⟨⟨w, rfl⟩, -, -⟩, -⟩ := rncHeader_eq_ok h
  cases h'
  refine ⟨⟨hl, hout, hd.cap, fun _ => hcur, fun _ => ⟨hrnc, fun tab leaf hleaf => ?_⟩, nofun⟩, hcnt, hpos, ?_⟩
  · cases tab <;> cases hleaf
  · change 0 + 8 * (18 + w.packedLen.toNat - 18) = 8 * w.packedLen.toNat
    omega

/-- `RNC.PRIME` takes the discarded bits from the first word (R185); nothing but the cursor changes. -/
theorem rncPrime_underway (hs : s.Underway .rncDecode) (hcnt : s.cur.cnt = 0) (hpos : s.cur.pos = s.cur.base) :
    SpendsFrom .rncDecode 0 rncPrime s ∧ ∀ {a t}, rncPrime s = .ok a t → ∃ d, t = s.withCur d := by
  obtain ⟨hrnc, -⟩ := hs.rnc rfl
  obtain ⟨-, -, hfin, hclean, -⟩ := hs.cursor (by decide)
  have hsr : s.cur.sr = 0 := by
    have := (hrnc.clean_iff.1 hclean).2
    rw [hcnt] at this
    omega
  by_cases hf : s.cur.base + 2 ≤ s.cur.fin
  · have hb : s.nextBytes (s.bytesAt s.cur.pos 2) := ⟨hpos ▸ hf, hs.loaded.inHas ((hpos ▸ hf).trans hfin)⟩
    have hok := rncPrime_ok hrnc hcnt hsr hpos hb
    have ht := hs.decodes ((Decoding.rncPrime (K := ErrKind.IsError) nofun).decodes hok)
      ((Frames.rncPrime s).1 _ _ hok) id
    refine ⟨.of_ok hok ht ?_, fun h => ⟨_, by cases hok.symm.trans h; rfl⟩⟩
    change 14 + 8 * (s.cur.fin - (s.cur.base + 2)) ≤ s.cur.cnt + 8 * (s.cur.fin - s.cur.pos)
    omega
  · have hraise := rncPrime_underrun hrnc hcnt hpos (Nat.not_le.1 hf)
    exact ⟨.of_raise hraise, fun h => nomatch hraise.symm.trans h⟩

/-- The bits of the packed body are the bound of both loops (R361). -/
theorem FaultFree.rncDecode (hl : s.loaded) (hf : s.Fresh) : FaultFree rncDecode s := by
  refine (FaultFree.rncHeader hl).bind fun _ t ht => .bind (.of_ok rfl) fun _ u hu => ?_
  obtain ⟨hunder, hcnt, hpos, hbits⟩ := rncHead_underway hl hf ht hu
  obtain ⟨hprime, hcur⟩ := rncPrime_underway hunder hcnt hpos
  refine hprime.faultFree.bind fun _ v hv => .get_bind ?_
  obtain ⟨hv', hle⟩ := hprime.spends hv
  obtain ⟨d, rfl⟩ := hcur hv
  have hbound : (u.withCur d).bitsLeft .rncDecode < bitBound u.work.packedLen.toNat := by
    rw [State.bitsLeft_cursor (by decide) u, hbits] at hle
    unfold bitBound
    omega
  have hloop := SpendsFrom.rncChunks hv' hbound hbound
  exact hloop.faultFree.bind fun _ w hw => .rncFinish (hloop.spends hw).1.output.filled

end Sys2Proof.Machine
end

section
/-! SUPPORT. `CWC_DECODE` on a loaded input (R361): the fetch of an opcode takes a control bit, so the loop does not reach
its bound, and it answers no copy whose distance would be 0. -/

namespace Sys2Proof

/-- A copy as its encodings have it: neither its length nor its position is 0 (R103 to R105). -/
def CwcOp.Copies : CwcOp → Prop
  | .shortCopy len pos => 1 ≤ len ∧ 1 ≤ pos
  | .medCopy len pos => 1 ≤ len ∧ 1 ≤ pos
  | .longCopy len pos => 1 ≤ len ∧ 1 ≤ pos
  | _ => True

theorem cwcShort_copies {len : Nat} (h : 1 ≤ len) (pos : Nat) : (cwcShort len pos).Copies := by
  unfold cwcShort
  split
  · trivial
  · exact ⟨h, Nat.one_le_iff_ne_zero.2 ‹_›⟩

theorem cwcMed_copies {len : Nat} (h : 1 ≤ len) (pos : Nat) : (cwcMed len pos).Copies := by
  unfold cwcMed
  split
  · trivial
  · exact ⟨h, Nat.one_le_iff_ne_zero.2 ‹_›⟩

theorem cwcLong_copies {len : Nat} (h : 1 ≤ len) (base pos : Nat) : (cwcLong base len pos).Copies := by
  unfold cwcLong
  split
  · exact ⟨h, Nat.one_le_iff_ne_zero.2 ‹_›⟩
  · repeat' split
    all_goals trivial

end Sys2Proof

namespace Sys2Proof.Machine

open Sys2Proof

variable {α β : Type} {s : State}

/-! ## The fetch -/

/-- Every value that the sequence answers has the property. -/
def Answers (Q : α → Prop) (x : Eng α) : Prop := ∀ s a t, x s = .ok a t → Q a

theorem Answers.pure {Q : α → Prop} {a : α} (h : Q a) : Answers Q (pure a : Eng α) := fun _ _ _ h' => by
  cases h'
  exact h

theorem Answers.bind {Q : β → Prop} {x : Eng α} {f : α → Eng β} (hf : ∀ a, Answers Q (f a)) : Answers Q (x >>= f) :=
  fun _ _ _ h => by
    obtain ⟨a, u, -, h⟩ := Eng.bind_eq_ok.1 h
    exact hf a u _ _ h

theorem Answers.ite {Q : α → Prop} {p : Prop} [Decidable p] {x y : Eng α} (hx : Answers Q x) (hy : Answers Q y) :
    Answers Q (if p then x else y) := by
  split
  · exact hx
  · exact hy

/-- What the fetch answers has the length and the position of an encoding (R226 to R228). -/
theorem Answers.cwcFetch : Answers CwcOp.Copies cwcFetch :=
  .bind fun _ => .bind fun _ => .ite (.pure trivial) <|
    .bind fun _ => .ite (.bind fun _ => .bind fun _ => .bind fun _ => .pure (cwcShort_copies (Nat.le_add_left 1 _) _)) <|
    .bind fun _ => .ite (.bind fun _ => .bind fun _ => .pure (cwcMed_copies (Nat.le_add_left 1 _) _)) <|
    .bind fun _ => .bind fun _ => .pure (cwcLong_copies (Nat.le_add_left 1 _) _ _)

/-- The fetch takes a control bit at least (R224). -/
theorem Spends.cwcFetch : Spends .cwcDecode 1 cwcFetch := by
  have hl len pos : Spends .cwcDecode 0 (cursorReader.latch len pos) :=
    .modifyWork (g := fun w => { w with cwcL := len, cwcP := pos }) fun _ => ⟨rfl, rfl, rfl, rfl, rfl, rfl⟩
  refine .get_bind fun _ _ => .bind (.readBit (by decide)) fun _ => .ite (.pure _) <|
    .bind (Spends.readBit (by decide)).weaken fun _ => .ite ?short <|
    .bind (Spends.readBit (by decide)).weaken fun _ => .ite ?med ?long
  case short =>
    exact .bind (.readBits (by decide) (by decide)) fun _ => .bind (.readByte (by decide)) fun _ =>
      .bind (hl _ _) fun _ => .pure _
  case med =>
    exact .bind (.bind (.readU16 (by decide)) fun _ =>
      .bind (.modifyWork fun _ => ⟨rfl, rfl, rfl, rfl, rfl, rfl⟩) fun _ => .pure _) fun _ =>
      .bind (hl _ _) fun _ => .pure _
  case long =>
    exact .bind (.bind (.readU24 (by decide)) fun _ =>
      .bind (.modifyWork fun _ => ⟨rfl, rfl, rfl, rfl, rfl, rfl⟩) fun _ => .pure _) fun _ =>
      .bind (hl _ _) fun _ => .pure _

/-! ## The opcodes -/

theorem Spends.cwcLiteral : Spends .cwcDecode 0 cwcLiteral :=
  .bind (.readByte (by decide)) fun _ => .bind (.modifyWork fun _ => ⟨rfl, rfl, rfl, rfl, rfl, rfl⟩) fun _ => .emit _

theorem Spends.cwcRun (len : Nat) : Spends .cwcDecode 0 (cwcRun len) :=
  .bind (.readByte (by decide)) fun _ => .bind (.modifyWork fun _ => ⟨rfl, rfl, rfl, rfl, rfl, rfl⟩) fun _ =>
    .repeatEng (.emit _) _

theorem Spends.cwcCopy {len pos : Nat} (h : 1 ≤ len ∧ 1 ≤ pos) : Spends .cwcDecode 0 (cwcCopy len pos) :=
  .bind (.ensure h.2 _) fun _ => .bind (.modifyWork fun _ => ⟨rfl, rfl, rfl, rfl, rfl, rfl⟩) fun _ =>
    .lzCopy (h.1.trans (Nat.le_add_left len (pos - 1))) _

theorem Spends.cwcLitstr : Spends .cwcDecode 0 cwcLitstr :=
  .bind (.readByte (by decide)) fun _ => .bind (.modifyWork fun _ => ⟨rfl, rfl, rfl, rfl, rfl, rfl⟩) fun _ =>
    .repeatEng .cwcLiteral _

/-- Every CWC opcode but the terminator (R225 to R232). -/
theorem Spends.cwcOpMeaning : ∀ {op : CwcOp}, op ≠ .longTerm → op.Copies → Spends .cwcDecode 0 (cwcOpMeaning op)
  | .lit, _, _ => .cwcLiteral
  | .shortRun len, _, _ => .cwcRun len
  | .shortCopy _ _, _, h => .cwcCopy h
  | .medRun len, _, _ => .cwcRun len
  | .medCopy _ _, _, h => .cwcCopy h
  | .longCopy _ _, _, h => .cwcCopy h
  | .longTerm, h, _ => absurd rfl h
  | .longNopSrc, _, _ => .pure _
  | .longNopDst, _, _ => .pure _
  | .longLitstr, _, _ => .cwcLitstr
  | .longRun len, _, _ => .cwcRun len

/-! ## The loop -/

/-- One opcode with the length test behind it (R223): it does not fault, and where it leaves the command running it has
taken a bit. -/
theorem cwcStep_underway (hs : s.Underway .cwcDecode) : FaultFree cwcStep s ∧ ∀ {a t}, cwcStep s = .ok a t →
    t.status = .busy → t.Underway .cwcDecode ∧ t.bitsLeft .cwcDecode < s.bitsLeft .cwcDecode := by
  have hfetch := Spends.cwcFetch s hs
  have hmeaning {op u} (h : cwcFetch s = .ok op u) (ho : op ≠ .longTerm) :=
    Spends.cwcOpMeaning ho (Answers.cwcFetch s op u h) u (hfetch.spends h).1
  constructor
  · refine hfetch.faultFree.bind fun op u hu => .bind ?_ fun _ v _ => .get_bind <| .ite (fun _ => .cwcTest) fun _ => .pure _
    by_cases ho : op = .longTerm
    · exact ho ▸ .cwcTerm
    · exact (hmeaning hu ho).faultFree
  · intro a t h hb
    obtain ⟨op, u, hu, h⟩ := Eng.bind_eq_ok.1 h
    obtain ⟨_, v, hv, h⟩ := Eng.bind_eq_ok.1 h
    have htest : v.status = .busy ∧ t = v := by
      rw [Eng.get_bind] at h
      split at h
      · rcases cwcTest_eq_ok h with rfl | ⟨w, -, -, rfl⟩
        · exact ⟨hb, rfl⟩
        · cases hb
      · cases h
        exact ⟨hb, rfl⟩
    obtain ⟨hvb, rfl⟩ := htest
    have ho : op ≠ .longTerm := by
      rintro rfl
      obtain ⟨w, -, -, rfl⟩ := cwcTerm_eq_ok hv
      cases hvb
    obtain ⟨hunder, hle⟩ := (hmeaning hu ho).spends hv
    have := (hfetch.spends hu).2
    exact ⟨hunder, by omega⟩

/-- Each pass takes a bit (R361). -/
theorem FaultFree.cwcLoop : ∀ {n : Nat} {s : State}, s.Underway .cwcDecode → s.bitsLeft .cwcDecode < n →
    FaultFree (cwcLoop n) s
  | 0, _, _, hn => absurd hn (Nat.not_lt_zero _)
  | n + 1, s, hs, hn => by
    obtain ⟨hfree, hstep⟩ := cwcStep_underway hs
    rw [cwcLoop_succ]
    refine hfree.bind fun _ t ht => .get_bind <| .ite (fun hb => ?_) fun _ => .pure _
    obtain ⟨hunder, hlt⟩ := hstep ht hb
    exact FaultFree.cwcLoop hunder (by omega)

/-! ## The command -/

/-- Header and start leave the stream under way, and no more bits than the payload has (R221, R222). -/
theorem cwcHead_underway {t u : State} {a b : Unit} (hl : s.loaded) (hf : s.Fresh) (h : cwcHeader s = .ok a t)
    (h' : cwcStart t = .ok b u) :
    u.Underway .cwcDecode ∧ u.cur.bitsLeft = 8 * u.work.payLen.toNat := by
  obtain ⟨hd, -, hcur⟩ := cwcHead_eq_ok h h'
  have hout := hd.outputOk hf
  obtain ⟨⟨⟨w, rfl⟩, -, -⟩, -⟩ := cwcHeader_eq_ok h
  rw [cwcStart_eq_refill] at h'
  obtain ⟨-, bytes, ⟨-, hrange, -⟩, rfl⟩ := refill_eq_ok.1 h'
  refine ⟨⟨hl, hout, hd.cap, fun _ => hcur, nofun, nofun⟩, (Cursor.bitsLeft_withWord hrange _).trans ?_⟩
  change 0 + 8 * (12 + w.payLen.toNat - 12) = 8 * w.payLen.toNat
  omega

/-- The start of the stream (R222). -/
theorem FaultFree.cwcStart (hl : s.loaded) (h : 12 + s.work.payLen.toNat ≤ s.inLen) : FaultFree cwcStart s := by
  by_cases hp : 4 ≤ s.work.payLen.toNat
  · exact .of_ok (cwcStart_ok hp (hl.inHas (n := 4) (by omega)))
  · exact .of_raise (cwcStart_underrun (Nat.not_le.1 hp))

/-- The bits of the payload are the bound of the loop (R361). -/
theorem FaultFree.cwcDecode (hl : s.loaded) (hf : s.Fresh) : FaultFree cwcDecode s := by
  refine (FaultFree.cwcHeader hl).bind fun _ t ht => ?_
  obtain ⟨⟨honly, -, -⟩, hpay⟩ := cwcHeader_eq_ok ht
  have hlt : t.loaded := by
    obtain ⟨w, rfl⟩ := honly
    exact hl
  refine (FaultFree.cwcStart hlt hpay).bind fun _ u hu => .get_bind ?_
  obtain ⟨hunder, hbits⟩ := cwcHead_underway hl hf ht hu
  refine .cwcLoop hunder ?_
  rw [State.bitsLeft_cursor (by decide), hbits]
  exact Nat.lt_succ_self _

end Sys2Proof.Machine
end

section
/-! SUPPORT. `HUF_CHUNK` on a loaded input (R277): an edge takes a bit of the tree decoder's own reader, so neither a path nor
the loop over the symbols reaches its bound, and a dictionary that can be walked has the record of every edge. -/

namespace Sys2Proof.Machine

open Sys2Proof

variable {s : State}

/-! ## Edges and paths -/

/-- A bit of the tree decoder's own reader (R270). -/
theorem Spends.nextBit : Spends .hufChunk 1 nextBit := fun s hs => by
  by_cases hlt : s.work.hbyte < s.inLen
  · obtain ⟨v, hv⟩ := Option.isSome_iff_exists.1 (hs.loaded _ hlt)
    have hbit : s.bitsAt s.hufBit [v.getLsbD (s.hufBit % 8)] :=
      ⟨s.hufBit_div.symm ▸ hlt, ⟨v, s.hufBit_div.symm ▸ hv, rfl⟩, trivial⟩
    have hok := nextBit_standing s.work.hnode hbit
    rw [s.standing_self] at hok
    refine .of_ok hok (hs.work (.work rfl rfl rfl) id) ?_
    have hend := hbit.add_length_le (List.cons_ne_nil _ _)
    rw [List.length_singleton] at hend
    rw [State.bitsLeft_chunk, State.bitsLeft_chunk, State.hufBit_standing]
    change 8 * s.inLen - (s.hufBit + 1) + 1 ≤ 8 * s.inLen - s.hufBit
    omega
  · exact .of_raise (nextBit_underrun (Nat.not_lt.1 hlt))

/-- An edge (R271): the record can be read, and a leaf's value is appended or raises. -/
theorem Spends.hufEdge : Spends .hufChunk 1 hufEdge := fun s hs => by
  refine (Spends.nextBit s hs).bind fun b t _ ht _ => .get_bind ?_
  obtain ⟨hvalid, hwalk, hnode⟩ := ht.chunk rfl
  obtain ⟨r, hr, -⟩ := hwalk.2 _ hnode
  have hread := dictRead_eq_ok.2 ⟨hvalid, hnode, hr, rfl⟩
  have toRecord {n : Byte} {u : State} (hu : u.Underway .hufChunk) (hn : u.walkable → n.toNat < 255) :
      State.Underway .hufChunk { u with work := { u.work with hnode := n } } :=
    hu.work (.atRecord hn) id
  refine (SpendsFrom.of_ok hread ht le_rfl).bind fun r' u hu _ _ => ?_
  cases hread.symm.trans hu
  refine .ite (fun _ => ?leaf) fun hflag => ?inner
  case leaf =>
    exact (Spends.emit _ t ht).bind fun _ v _ hv _ => .of_ok rfl (toRecord hv fun hw => hw.1) le_rfl
  case inner => exact .of_ok rfl (toRecord ht fun hw => hw.namesRecords.half hnode hr hflag) le_rfl

/-- Edges until a leaf (R271, R277). -/
theorem SpendsFrom.hufPath : ∀ {n : Nat} {s : State}, s.Underway .hufChunk → s.bitsLeft .hufChunk < n →
    SpendsFrom .hufChunk 1 (hufPath n) s
  | 0, _, _, hn => absurd hn (Nat.not_lt_zero _)
  | n + 1, s, hs, hn =>
    (Spends.hufEdge s hs).bind fun _ t _ ht hedge => .ite (fun _ => .of_ok rfl ht le_rfl) fun _ =>
      (SpendsFrom.hufPath ht (by omega)).weaken

theorem State.bitsLeft_chunk_lt (s : State) : s.bitsLeft .hufChunk < 8 * s.inLen + 1 := by
  rw [State.bitsLeft_chunk]
  omega

theorem Spends.hufSym : Spends .hufChunk 1 hufSym := fun s hs => .get_bind (.hufPath hs s.bitsLeft_chunk_lt)

/-! ## The loop -/

/-- The loop over the symbols (R271, R272). -/
theorem FaultFree.hufSymbols : ∀ {n : Nat} {s : State}, s.Underway .hufChunk → s.bitsLeft .hufChunk < n →
    FaultFree (hufSymbols n) s
  | 0, _, _, hn => absurd hn (Nat.not_lt_zero _)
  | n + 1, s, hs, hn => .get_bind <| .ite (fun _ => by
      have hsym := Spends.hufSym s hs
      refine hsym.faultFree.bind fun _ t ht => ?_
      obtain ⟨hunder, hle⟩ := hsym.spends ht
      exact FaultFree.hufSymbols hunder (by omega)) fun _ => .of_ok rfl

/-- A chunk on a dictionary that can be walked if it is valid. -/
theorem FaultFree.hufChunk (hl : s.loaded) (hf : s.Fresh) (hw : s.hvalid = true → s.walkable) : FaultFree hufChunk s := by
  refine (FaultFree.hufStart hl).bind fun _ t ht => .get_bind <| .ite (fun hb => ?_) fun _ => .pure _
  obtain ⟨v, hd, ⟨-, rfl⟩ | ⟨⟨hvalid, hnode⟩, rfl⟩⟩ := hufStart_eq_ok ht
  · cases hb
  have hout := hd.outputOk hf
  have hcap := hd.cap
  obtain ⟨w, rfl⟩ := hd.only
  have hwalk := hw hvalid
  have hroot : w.hnode.toNat < 255 := hnode ▸ hwalk.1
  exact .hufSymbols ⟨hl, hout, hcap, fun h => absurd rfl h, nofun, fun _ => ⟨hvalid, hwalk, hroot⟩⟩ (State.bitsLeft_chunk_lt _)

end Sys2Proof.Machine
end

section
/-! PROOFS. Every command ends, and the engine without one: the statements O42, O52 and O54. -/

namespace Sys2Proof.Machine

open Sys2Proof

theorem LoadEnds.completes {s : State} {o : Host.Outcome State Fault Refusal} (h : LoadEnds s o) : Completes o := by
  cases h with
  | found => exact ⟨_, rfl⟩
  | missing => exact ⟨_, rfl⟩

/-- Every command that starts on a loaded input answers a next state (R361). -/
theorem commandBody_completes {c : Command} {s : State} (hl : s.loaded) (hf : s.Fresh)
    (hw : c = .hufChunk → s.hvalid = true → s.walkable) : Completes (runMeaning (commandBody c) s) := by
  cases c with
  | rncDecode => exact (FaultFree.rncDecode hl hf).completes
  | cwcDecode => exact (FaultFree.cwcDecode hl hf).completes
  | hufLoad => exact (runMeaning_hufLoad_ends hl).completes
  | hufChunk => exact (FaultFree.hufChunk hl hf (hw rfl)).completes

/-- A command that has ended ended well or in an error (R291). -/
theorem Ended.status {c : Command} {s t : State} (h : Ended c s t) : t.status = .done ∨ t.status = .error := by
  cases h with
  | failed => exact .inr rfl
  | done => exact .inl rfl

/-- Settles O42: no operation of a command faults on a loaded input, and a command that does not fault has ended. -/
theorem commandsTerminate : Obligations.CommandsTerminate := by
  intro s c hb hl hw
  have hfresh := State.Fresh.begin c s
  obtain ⟨t, ht⟩ := commandBody_completes (s := s.begin c) (c := c) hl hfresh fun hc hv =>
    State.walkable_congr rfl rfl (hw hc hv)
  exact ⟨t, (exec_toInstr_of_not_busy hb).trans ht, (commandBody_ended hfresh ht).status⟩

/-- Settles O52: nothing is to come, so nothing happens. -/
theorem idleEngineTakesNoStep : Obligations.IdleEngineTakesNoStep := by
  intro s hp hb
  rw [step, machineStep, hp]
  exact if_neg hb

/-- Settles O54: the host's action happens at once, whatever the engine does. -/
theorem resetEventAtAnyTime : Obligations.ResetEventAtAnyTime := fun _ _ hp =>
  ⟨_, step_hostAct hp nofun, rfl, rfl, rfl, rfl, rfl, rfl, rfl, rfl, rfl⟩

end Sys2Proof.Machine
end
